-- ==== Sys2Proof/Word.lean ====
section
/-! DEFINITION. The words of the CN-64 and the fixed-size table that holds a fixed number of like things.
Bytes, samples, coefficients and counters are bit vectors because the manual adds, shifts and wraps them. -/

namespace Sys2Proof

/-- One byte of a layout of Section 12. -/
abbrev Byte := BitVec 8

/-- One word of the configuration image (R190). -/
abbrev Word16 := BitVec 16

/-- A 24-bit two's-complement sample (Section 0.7). -/
abbrev Sample := BitVec 24

/-- An unsigned 24-bit gain coefficient, unity at 1,048,576 (Section 0.7). -/
abbrev Coef := BitVec 24

/-- A mix mask: bit m is the flag of mix m (R187). -/
abbrev MixMask := BitVec 24

/-- A 16-bit saturating counter (Section 0.7). -/
abbrev Counter := BitVec 16

/-- A counter's increment: it stays at 65,535 once it is there (Section 0.7). -/
def Counter.inc (c : Counter) : Counter := if c = 65535#16 then c else c + 1#16

/-- Unity gain, 2 to the 20th (Section 0.7). -/
def unity : Coef := 1048576#24

/-- A station number 1..16 is held as its place 0..15, so that no other number can be held. -/
abbrev Station := Fin 16

/-- The station number 1..16 of a station (Section 0.8). -/
def Station.number (s : Station) : Nat := s.val + 1

/-- The station number as a byte of a layout. -/
def Station.byte (s : Station) : Byte := BitVec.ofNat 8 (s.val + 1)

/-- The station a number names: none outside 1..16. -/
def Station.ofNumber (n : Nat) : Option Station :=
  if h : 1 ≤ n ∧ n ≤ 16 then some ⟨n - 1, by omega⟩ else none

/-- The station a byte names: none outside 1..16. -/
def Station.ofByte (b : Byte) : Option Station := Station.ofNumber b.toNat

/-- The byte of a station that may be none, where the layouts send 0 for none (Tables 12-6 and 12-7). -/
def Station.byteOrZero : Option Station → Byte
  | some s => s.byte
  | none => 0#8

/-- A table of exactly `n` things, held as a list with its length proved once. -/
structure Table (n : Nat) (α : Type) where
  items : List α
  size : items.length = n
deriving DecidableEq, Repr

namespace Table

variable {n : Nat} {α β : Type}

/-- The thing at place `i`. -/
def get (t : Table n α) (i : Fin n) : α := t.items.get (i.cast t.size.symm)

/-- The table with place `i` replaced. -/
def set (t : Table n α) (i : Fin n) (a : α) : Table n α := ⟨t.items.set i.val a, by simp [t.size]⟩

/-- The table with place `i` changed by `f`. -/
def update (t : Table n α) (i : Fin n) (f : α → α) : Table n α := t.set i (f (t.get i))

/-- Every thing of the table changed by `f`. -/
def map (f : α → β) (t : Table n α) : Table n β := ⟨t.items.map f, by simp [t.size]⟩

/-- The same thing at every place. -/
def replicate (n : Nat) (a : α) : Table n α := ⟨List.replicate n a, by simp⟩

/-- The table whose place `i` holds `f i`. -/
def ofFn (f : Fin n → α) : Table n α := ⟨(List.finRange n).map f, by simp⟩

/-- The first `n` things of a list, filled up with `d`. -/
def ofList (n : Nat) (d : α) (l : List α) : Table n α :=
  ⟨l.take n ++ List.replicate (n - l.length) d, by simp; omega⟩

/-- The thing at a place given as a number, or `d` past the end. -/
def getD (t : Table n α) (i : Nat) (d : α) : α := t.items.getD i d

end Table

/-- The 24 bytes of one unit of frame space (Section 0.7). -/
abbrev FrameUnit := Table 24 Byte

/-- The 6 bytes of a frame head (Table 12-1) or of a beacon (Table 12-3). -/
abbrev SixBytes := Table 6 Byte

/-- One channel's 8 samples of one frame period, oldest first. -/
abbrev AudioFrame := Table 8 Sample

/-- One frame period of the station's local input audio, one channel to a place (R8). -/
abbrev CaptureFrame := Table 64 AudioFrame

/-- The 32 bit clocks of one lane time slot, the first of them in the highest bit (R129). -/
abbrev LaneWord := BitVec 32

/-- What the 8 lanes carry in the 8 lane frames of one frame period: lane, then time slot, then lane frame
(R129).  At 96 kHz a lane frame holds only the first 4 time slots. -/
abbrev LaneBlock := Table 8 (Table 8 (Table 8 LaneWord))

/-- A frame of silence: 8 samples of 0. -/
def silentFrame : AudioFrame := Table.replicate 8 0#24

/-- A capture frame of silence in every channel. -/
def silentCapture : CaptureFrame := Table.replicate 64 silentFrame

end Sys2Proof
end

