-- ==== Sys2Proof/Syntax.lean ====
section
/-! DEFINITION. The commands of the CN-64: one constructor for each row of spec/opcode_table.json, with the
operands the outside world gives with it.  The rows that the part takes of itself (a count that runs out, the
Message Controller's next request) name which side, slot, peer, entry or key the event is about. -/

namespace Sys2Proof

/-- The two port sides (Section 0.3). -/
inductive Side where
  | east
  | west
deriving DecidableEq, Repr

/-- The commands and events of spec/opcode_table.json, in the table's order. -/
inductive Instr where
  /-- POWER_ON (R178): supply is applied, with the reset line held or released. -/
  | powerOn (resetHeld : Bool)
  /-- RESET_LINE_ASSERTED (R178). -/
  | resetLineAsserted
  /-- RESET_LINE_RELEASED (R178). -/
  | resetLineReleased
  /-- LOAD_FINISHED (R185): the flash as the loader finds it, byte 0 first, and the four strap pins
  (STRAP0 the least significant). -/
  | loadFinished (flash : List Byte) (straps : BitVec 4)
  /-- SEND (R172): select rises on a whole SEND that carried this message unit. -/
  | send (message : FrameUnit)
  /-- TAKE_REPORT (R175): select rises on a whole TAKE REPORT. -/
  | takeReport
  /-- RESTART_RING (R173): select rises on a whole RESTART RING. -/
  | restartRing
  /-- OPERATION_BYTE_COMPLETE (R171, R175): the eighth bit of a transfer's operation byte. -/
  | operationByteComplete (operation : Byte)
  /-- TRANSFER_IGNORED (R170): select rises after this many bits, on a transfer that is not whole. -/
  | transferIgnored (bits : Nat)
  /-- QUIET_PERIOD_END (R64). -/
  | quietPeriodEnd
  /-- RECEIVER_LOCK_GAINED (R48). -/
  | receiverLockGained (side : Side)
  /-- RECEIVER_LOCK_LOST (R50). -/
  | receiverLockLost (side : Side)
  /-- BEACON_RECEIVED (R44): the 6 bytes of a beacon taken off the side's receiver. -/
  | beaconReceived (side : Side) (beacon : SixBytes)
  /-- BAD_RUN (R50). -/
  | badRun (side : Side)
  /-- SILENCE (R50). -/
  | silence (side : Side)
  /-- LINK_PROVEN (R49). -/
  | linkProven (side : Side)
  /-- BEACON_SENT (R47): the side's transmitter comes to a moment at which it is not sending a frame. -/
  | beaconSent (side : Side)
  /-- FRAME_RECEIVED (R9): the head and the body units of a frame taken off the side's receiver. -/
  | frameReceived (side : Side) (head : SixBytes) (body : List FrameUnit)
  /-- BOUNDARY (R26): the input lanes of the frame period that ends, and the talk-key pins (true when low,
  that is pressed). -/
  | boundary (lanes : LaneBlock) (pins : Table 4 Bool)
  /-- STARVATION (R33). -/
  | starvation
  /-- CLAIM (R35). -/
  | claim
  /-- WINDOW_END (R112). -/
  | windowEnd
  /-- RETURN_HOLD_COMPLETE (R120). -/
  | returnHoldComplete (entry : Fin 256)
  /-- TAP_CLEAR_COMPLETE (R100). -/
  | tapClearComplete
  /-- SLOT_LOST (R74). -/
  | slotLost (slot : Fin 8)
  /-- HOLD_RECORD_EXPIRY (R76). -/
  | holdRecordExpiry (peer : Station)
  /-- MILLISECOND_MARK (R27). -/
  | millisecondMark
  /-- TALK_KEY_PRESSED (R156). -/
  | talkKeyPressed (key : Fin 4)
  /-- TALK_KEY_RELEASED (R156). -/
  | talkKeyReleased (key : Fin 4)
  /-- KEEP_COUNT_EXPIRY (R156). -/
  | keepCountExpiry (key : Fin 4)
  /-- TALK_EXPIRY (R166). -/
  | talkExpiry
  /-- REPLY_SLOT_GRANT (R83). -/
  | replySlotGrant
  /-- UNKNOWN_KIND (R68): the Message Controller carries out the queue's head, of an unknown kind. -/
  | unknownKind
  /-- TAP_SET (R97): the Message Controller carries out the queue's head, a TAP SET.  So for the rows below. -/
  | tapSet
  /-- TAP_DROP (R98). -/
  | tapDrop
  /-- TAP_CLEAR (R99). -/
  | tapClear
  /-- MIX_GAIN (R139). -/
  | mixGain
  /-- MIX_MASTER (R142). -/
  | mixMaster
  /-- OUT_SET (R134). -/
  | outSet
  /-- TALK_OPEN (R161). -/
  | talkOpen
  /-- TALK_KEEP (R164). -/
  | talkKeep
  /-- TALK_CLOSE (R165). -/
  | talkClose
  /-- STATUS_QUERY (R176). -/
  | statusQuery
  /-- TRANSFER_BEGINS (R170): select falls. -/
  | transferBegins
deriving DecidableEq, Repr

end Sys2Proof
end

