-- ==== Sys2Proof/Config.lean ====
section
/-! DEFINITION. What is fixed for the part: the sizes of its stores and the codes of its layouts.  The manual
leaves no value of the machine open (NOTES.md, '## Assumptions'), so there is no free value here. -/

namespace Sys2Proof.Config

/-- The receive queue's places (R78). -/
def queuePlaces : Nat := 16

/-- The Report Queue's places (R174). -/
def reportPlaces : Nat := 32

/-- The notice list's places (R82). -/
def noticePlaces : Nat := 16

/-- The return queue's places (R36). -/
def returnPlaces : Nat := 4

/-- The entries a bucket's chain may hold (R88). -/
def chainLimit : Nat := 8

/-- The crosspoints of the store (R137). -/
def crosspoints : Nat := 1024

/-- The talks a talk list may hold (R160). -/
def talkPlaces : Nat := 4

/-- The boundaries of starvation that end a following (R33). -/
def starvationLimit : Nat := 48

/-- The silence count that takes a link down (R50). -/
def silenceLimit : Nat := 16

/-- The bad-run count that takes a link down (R50). -/
def badRunLimit : Nat := 4

/-- The boundaries of the restart quiet period (R64). -/
def quietPeriod : Nat := 24

/-- The boundaries after which a peer's HOLD is forgotten (R76). -/
def holdRecordLimit : Nat := 128

/-- The boundaries of a lowering window (R112). -/
def loweringWindow : Nat := 256

/-- The conceal count at which the last played index is cleared (R115). -/
def clearingCount : Nat := 64

/-- The marks a key's level must stand through (R155). -/
def debounceLimit : Nat := 5

/-- The milliseconds between a held key's KEEPs (R156). -/
def keepPeriod : Nat := 40

/-- A talk's milliseconds from its last renewal (R166). -/
def talkDeadline : Nat := 120

/-- The whole lengths of the three transfers in bits: 25, 28 and 1 bytes (R170, R189). -/
def sendBits : Nat := 200
def takeReportBits : Nat := 224
def restartRingBits : Nat := 8

end Sys2Proof.Config
end

