-- ==== Sys2Proof/Machine/State.lean ====
section
/-! DEFINITION. The state of the CN-64, block by block as Figure 0-1 of the manual lists it, the reasons a step
can stop, and the state right after reset. -/

namespace Sys2Proof.Machine

open Sys2Proof

/-- A fault stops the machine.  The manual gives every command of the table an effect and no command a fault, so
no meaning raises one and the type is empty. -/
inductive Fault where
deriving DecidableEq, Repr

/-- Why a command was not run. -/
inductive Refusal where
  /-- Raised by exec for a command that has no meaning yet (none now).  Safe: the machine stops. -/
  | notModelled (mnemonic : String)
deriving DecidableEq, Repr

/-! ### Names and small records -/

/-- The two sample rates (Section 0.7). -/
inductive Rate where
  | khz48
  | khz96
deriving DecidableEq, Repr

/-- The link states (R43). -/
inductive LinkState where
  | down
  | proving
  | up
deriving DecidableEq, Repr

/-- The fold states (Table 3-2). -/
inductive FoldState where
  | whole
  | foldedEast
  | foldedWest
  | isolated
deriving DecidableEq, Repr

/-- The node states (Table 2-1). -/
inductive NodeState where
  | starting
  | following
  | waiting
  | claiming
  | origin
  | alone
deriving DecidableEq, Repr

/-- The causes of a link report (R60). -/
inductive LinkCause where
  | lockGained
  | reArmed
  | proven
  | lockLost
  | badRun
  | silence
  | farEnd
  | restart
deriving DecidableEq, Repr

/-- The causes of DELAY CHANGED (R110). -/
inductive DelayCause where
  | raise
  | lower
  | restart
deriving DecidableEq, Repr

/-- The causes of RETURNED (R120, R121). -/
inductive ReturnCause where
  | hold
  | alternateFailed
deriving DecidableEq, Repr

/-- The deliveries of a message (R73, R74). -/
inductive Delivery where
  | taken
  | refused
  | both
  | notSeen
  | lost
deriving DecidableEq, Repr

/-- The outcomes of a request, in the order of Table 4-3. -/
inductive Answer where
  | done
  | already
  | conflict
  | tableFull
  | chainFull
  | storeFull
  | slotBusy
  | notFound
  | locked
  | badField
  | mixBusy
  | evicted
  | timedOut
deriving DecidableEq, Repr

/-- A tap key: a station and one of its channels (R86). -/
structure Key where
  station : Station
  channel : Fin 64
deriving DecidableEq, Repr

/-- The number of a tap entry (R86). -/
abbrev EntryNo := Fin 256

/-- The allowed jitter windows (R107). -/
inductive Window where
  | w8
  | w16
  | w32
  | w64
deriving DecidableEq, Repr

/-- A window in frames (R107). -/
def Window.frames : Window → Nat
  | .w8 => 8
  | .w16 => 16
  | .w32 => 32
  | .w64 => 64

/-! ### The port sides and the Link and Fold Controller (Section 3) -/

/-- What a good beacon carried (R44). -/
structure Beacon where
  sender : Station
  hears : Bool
  proven : Bool
  fold : FoldState
deriving DecidableEq, Repr

/-- One item handed to a transmitter (R47, R18, R19): the fibre takes the items in the order they reach it. -/
inductive Transmission where
  | frame (head : SixBytes) (body : List FrameUnit)
  | beacon (bytes : SixBytes)
deriving DecidableEq, Repr

/-- One side's state (R43), its counters (Table 3-4) and its transmitter. -/
structure SideState where
  /-- The receiver holds lock. -/
  lock : Bool
  link : LinkState
  /-- The hold-off count in milliseconds; none when it is stopped. -/
  holdOff : Option Nat
  badRun : Nat
  silence : Nat
  heard : Bool
  latest : Option Beacon
  badEvidence : Counter
  linkDown : Counter
  /-- A beacon is to be sent before the next boundary (R47). -/
  beaconDue : Bool
  /-- What the transmitter has been handed, in order. -/
  sent : List Transmission
deriving DecidableEq, Repr

/-- The Link and Fold Controller (R51, R62, R64). -/
structure LinkFold where
  east : SideState
  west : SideState
  fold : FoldState
  foldChange : Counter
  earlyUnfold : Counter
  /-- The boundaries left of a restart quiet period, or none. -/
  quiet : Option Nat
deriving DecidableEq, Repr

/-! ### The Cadence Unit (Section 2) -/

/-- A frame as it lies on the fibre. -/
structure Frame where
  head : SixBytes
  body : List FrameUnit
deriving DecidableEq, Repr

/-- The Cadence Unit (Section 2.1) with the counters of Table 2-4. -/
structure Cadence where
  node : NodeState
  followed : Option Station
  lastSequence : Option Byte
  localCount : Byte
  roundLength : Byte
  starvation : Nat
  backOff : Option Nat
  markPhase : Nat
  returnQueue : List Frame
  slip : Counter
  staleFrame : Counter
  higherOrigin : Counter
  returnDiscard : Counter
  yields : Counter
deriving DecidableEq, Repr

/-! ### The Frame Engine (Section 1) -/

/-- The Frame Engine (R6, R7, R8) with the counters of Table 1-3. -/
structure FrameEngine where
  known : Table 16 (Option (List (Fin 64)))
  layoutDue : Bool
  unsent : Option (Byte × CaptureFrame)
  lastSent : Option Byte
  badHead : Counter
  rebuilt : Counter
  segmentError : Counter
  orphan : Counter
  trimmed : Counter
  starvedForRoom : Counter
  hopDiscard : Counter
  misdirected : Counter
  unsentCapture : Counter
deriving DecidableEq, Repr

/-! ### The Message Controller (Section 4) -/

/-- A send slot (R70). -/
inductive SendSlot where
  | free
  | reserved
  | ready (message : FrameUnit)
  | inFlight (message : FrameUnit) (count : Nat)
deriving DecidableEq, Repr

/-- Where a queue entry came from (R78).  A `detached` entry came from the ring and was being carried out at a
ring restart: its answer goes to this station's own Report Queue (R85). -/
inductive Source where
  | ring (sender : Station) (slot : Byte)
  | detached (sender : Station) (slot : Byte)
  | port
  | talk
deriving DecidableEq, Repr

/-- An entry of the receive queue (R78). -/
structure QueueEntry where
  message : FrameUnit
  source : Source
deriving DecidableEq, Repr

/-- A request whose carrying out takes more than one step (R80, R81). -/
inductive Carrying where
  /-- No message is being carried out. -/
  | idle
  /-- A TAP CLEAR whose walk goes on (R99). -/
  | tapClear
  /-- A STATION query whose next part is this one (R81). -/
  | station (part : Fin 4)
deriving DecidableEq, Repr

/-- A peer's HOLD record (R76). -/
structure HoldRecord where
  hold : Bool
  count : Nat
deriving DecidableEq, Repr

/-- An entry of the notice list (R82): EVICTED when `evicted` is set, TIMED OUT when it is clear. -/
structure Notice where
  desk : Station
  evicted : Bool
  mask : MixMask
deriving DecidableEq, Repr

/-- The reply grant turn (R83). -/
inductive GrantTurn where
  | receive
  | notice
deriving DecidableEq, Repr

/-- The Message Controller (Section 4) with the counters of Table 4-4. -/
structure Messages where
  slots : Table 8 SendSlot
  /-- The READY slots in the order they became READY (R70). -/
  readyOrder : List (Fin 8)
  queue : List QueueEntry
  /-- The reply slot granted to the queue's head and not yet filled (R80). -/
  granted : Option (Fin 8)
  carrying : Carrying
  hold : Bool
  peers : Table 16 HoldRecord
  notices : List Notice
  turn : GrantTurn
  queueRefusal : Counter
  badMessage : Counter
  lostSlot : Counter
  staleMark : Counter
  replyUndelivered : Counter
  noticeDrop : Counter
deriving DecidableEq, Repr

/-! ### The Tap Controller (Sections 5 and 6) -/

/-- A tap entry in use (Table 5-1) with its audio state (R108) and counters (R122).  Its next link is its place
in its bucket's chain. -/
structure TapEntry where
  key : Key
  slot : Option (Fin 128)
  alternate : Option Key
  autoReturn : Bool
  backs : Nat
  talkUsers : Nat
  conflict : Bool
  onAlternate : Bool
  /-- Place i mod W holds the frame of index i with its tag, or none (R108).  Places W..63 are never used. -/
  buffer : Table 64 (Option (Byte × AudioFrame))
  conceal : Nat
  lastGood : AudioFrame
  lastPlayed : Option Byte
  returnHold : Nat
  absent : Counter
  late : Counter
  stale : Counter
deriving DecidableEq, Repr

/-- One entry's read at a boundary (R114), kept for the boundary's users (R118). -/
structure ReadResult where
  key : Key
  present : Bool
  samples : AudioFrame
deriving DecidableEq, Repr

/-- A TAP CLEAR walk: the next bucket, and the entries freed so far (R99). -/
structure Walk where
  bucket : Nat
  freed : Nat
deriving DecidableEq, Repr

/-- The Tap Controller. -/
structure Taps where
  entries : Table 256 (Option TapEntry)
  /-- The free list in order; the free count is its length (R87). -/
  free : List EntryNo
  /-- Each bucket's chain, head first (R88). -/
  chains : Table 64 (List EntryNo)
  conflictCount : Counter
  walk : Option Walk
  pEff : Nat
  raise : Option Nat
  windowCount : Nat
  largestAge : Option Nat
  reads : List ReadResult
deriving DecidableEq, Repr

/-! ### The Slot and Output Router (Section 7) -/

/-- A source slot's binding (R126). -/
inductive Binding where
  | unbound
  | localChannel (channel : Fin 64)
  | tap (entry : EntryNo)
deriving DecidableEq, Repr

/-- An output's source (R133). -/
inductive OutSource where
  | silent
  | mix (m : Fin 24)
  | slot (s : Fin 128)
deriving DecidableEq, Repr

/-- The local delay store with its one read state (R130, R131). -/
structure DelayStore where
  places : Table 64 (Option (Byte × CaptureFrame))
  conceal : Nat
  lastPlayed : Option Byte
  lastGood : CaptureFrame
deriving DecidableEq, Repr

/-- The Slot and Output Router. -/
structure Router where
  bindings : Table 128 Binding
  frames : Table 128 AudioFrame
  outMap : Table 64 OutSource
  /-- The output frames that go out during the 8 lane frames after the boundary (R133). -/
  outputs : Table 64 AudioFrame
  capture : CaptureFrame
  delay : DelayStore
deriving DecidableEq, Repr

/-! ### The Mix Engine (Section 8) and the talk lists (Section 9) -/

/-- The ramp state of a coefficient (R136). -/
inductive RampPhase where
  | settled
  | pending
  | ramping (start : Coef) (length step : Nat)
deriving DecidableEq, Repr

/-- A ramped coefficient (R136). -/
structure Ramp where
  value : Coef
  target : Coef
  phase : RampPhase
deriving DecidableEq, Repr

/-- A crosspoint in use (R137). -/
structure Crosspoint where
  slot : Fin 128
  gain : Ramp
deriving DecidableEq, Repr

/-- A talk of a talk list (R160). -/
structure Talk where
  desk : Station
  source : Key
  priority : Nat
  dim : Coef
  level : Coef
  deadline : Nat
deriving DecidableEq, Repr

/-- A mix record (Table 8-1) with its output frame (R151). -/
structure Mix where
  /-- The owner; none stands for owner 0. -/
  owner : Option Station
  master : Ramp
  duck : Ramp
  talkLevel : Ramp
  feed : Option Key
  talks : List Talk
  crosspoints : List Crosspoint
  clip : Counter
  output : AudioFrame
deriving DecidableEq, Repr

/-- The Mix Engine. -/
structure MixEngine where
  mixes : Table 24 Mix
  /-- The free crosspoints (R137). -/
  freeCrosspoints : Nat
deriving DecidableEq, Repr

/-! ### The Talkback Controller's desk side (Section 9.2) -/

/-- A key's talk events (R156). -/
inductive TalkEvent where
  | openTalk
  | keep
  | close
deriving DecidableEq, Repr

/-- A key record's running state (Table 9-1). -/
structure KeyState where
  pressed : Bool
  debounce : Nat
  /-- The keep count in milliseconds; none when it is stopped. -/
  keep : Option Nat
  event : Option TalkEvent
  serial : Fin 64
deriving DecidableEq, Repr

/-- The Talkback Controller's desk side. -/
structure Talkback where
  keys : Table 4 KeyState
  pendingOrder : List (Fin 4)
  /-- The talk-key pins as the last boundary found them, true when pressed. -/
  pins : Table 4 Bool
deriving DecidableEq, Repr

/-! ### The Image Loader (Section 11) -/

/-- A key record's image fields (Table 9-1).  The destination is coded as R187 codes it. -/
structure KeyImage where
  bound : Bool
  destination : Byte
  mask : MixMask
  priority : Byte
  dim : Coef
  level : Coef
  channel : Fin 64
deriving DecidableEq, Repr

/-- The values in force (R178): the clamped image fields, or the defaults. -/
structure Image where
  station : Station
  rate : Rate
  originEligible : Bool
  localAlignment : Bool
  linkHoldOff : Nat
  window : Window
  delay : Nat
  fallback : Nat
  returnHold : Nat
  lowFreeMark : Nat
  duckRamp : Nat
  groups : Table 8 Bool
  sendList : List (Fin 64)
  slotTable : Table 128 (Option (Fin 64))
  outMap : Table 64 OutSource
  owners : Table 24 (Option Station)
  keys : Table 4 KeyImage
deriving DecidableEq, Repr

/-- Why the defaults are in force (R179, R180). -/
inductive LoadCause where
  | noImage
  | badLength
  | badCheck
deriving DecidableEq, Repr

/-- The loader states (R178). -/
inductive LoaderState where
  | held
  | reading
  | finished
deriving DecidableEq, Repr

/-- The outcome of a load (R180). -/
inductive LoadOutcome where
  | loaded
  | defaults (cause : LoadCause)
deriving DecidableEq, Repr

/-- The Image Loader. -/
structure Loader where
  state : LoaderState
  values : Image
  outcome : Option LoadOutcome
  /-- The command bytes the loader has put to the flash in the read in progress or last done (R190). -/
  flashCommand : List Byte
  /-- The words clocked in by the last read that ended (R179). -/
  wordsRead : Nat
deriving DecidableEq, Repr

/-! ### Reports and the Local Message Port (Section 10) -/

/-- A report's kind and fields (Table 10-1). -/
inductive ReportBody where
  | image (outcome : LoadOutcome) (length : Word16) (station : Station) (fromImage : Bool) (rate : Rate)
      (tally : Nat)
  | result (message : FrameUnit)
  | statusReport (message : FrameUnit)
  | delivery (slot : Fin 8) (kind tag destination : Byte) (delivery : Delivery)
  | link (side : Side) (state : LinkState) (cause : LinkCause) (latest : Option (Station × FoldState))
  | fold (new previous : FoldState) (side : Option Side) (early : Bool)
  | nodeState (state : NodeState) (followed : Option Station) (roundLength : Byte)
  | delayChanged (new previous : Nat) (cause : DelayCause)
  | tableLow (freeCount mark : Nat)
  | fallback (entry : EntryNo) (key : Key) (slot : Fin 128) (alternate : Key)
  | returned (entry : EntryNo) (key : Key) (slot : Fin 128) (alternate : Key) (cause : ReturnCause)
  /-- The verdict is an outcome code, or 128 and a delivery code (Table 12-7). -/
  | talk (key : Option (Fin 4)) (station : Option Station) (kind verdict : Byte) (first second : MixMask)
deriving DecidableEq, Repr

/-- A report with its post number (R174). -/
structure Report where
  post : Byte
  body : ReportBody
deriving DecidableEq, Repr

/-- The Report Queue (R174). -/
structure ReportQueue where
  items : List Report
  postNumber : Byte
  lost : Counter
  /-- The interrupt line is asserted. -/
  interrupt : Bool
deriving DecidableEq, Repr

/-- The held status (R171). -/
inductive HeldStatus where
  | nothing
  | accepted (slot : Option (Fin 8))
  | slotsFull
  | queueFull
  | malformed
deriving DecidableEq, Repr

/-- The transfer state (R170): IDLE, or the bits counted since select fell, the operation byte once it is
complete, and the report a TAKE REPORT has chosen (none for the empty marker). -/
inductive Transfer where
  | idle
  | counting (bits : Nat) (operation : Option Byte) (chosen : Option Report)
deriving DecidableEq, Repr

/-- The Local Message Port. -/
structure Port where
  transfer : Transfer
  held : HeldStatus
  framing : Counter
  /-- The bytes that the port has ready to shift out behind the operation byte of the transfer in progress or last
  done; past them every bit it shifts out is 0 (R170). -/
  reply : List Byte
  /-- The bits shifted out in the transfer in progress or last done, first bit first (R170, R171). -/
  shiftedOut : List Bool
deriving DecidableEq, Repr

/-! ### The part, the event in progress, and the state -/

/-- The twelve blocks of the part (Figure 0-1). -/
structure Node where
  loader : Loader
  link : LinkFold
  cadence : Cadence
  engine : FrameEngine
  messages : Messages
  taps : Taps
  router : Router
  mixer : MixEngine
  talk : Talkback
  reports : ReportQueue
  port : Port
deriving DecidableEq, Repr

/-- What is left to do of a boundary, or of a frame or beacon taken.  The tasks that are rows of the opcode
table wait for their own command when their condition stands (NOTES.md, assumption 2). -/
inductive Task where
  | quietEnd
  | silence (side : Side)
  | holdExpiry (peer : Station)
  | slotLost (slot : Fin 8)
  | starvation
  | emit
  | claim
  | raise
  | windowEnd
  | reads
  | mark
  | linkProven (side : Side)
  | keyPressed (key : Fin 4)
  | keyReleased (key : Fin 4)
  | keepExpiry (key : Fin 4)
  | talkExpiry
  | returnHold (entry : EntryNo)
  | decide (entry : EntryNo)
  | audio
  | walkStep
  | walkComplete
  | badRun (side : Side)
  | takeFrame (side : Side) (head : SixBytes) (body : List FrameUnit)
deriving DecidableEq, Repr

/-- The state of the machine: the part, what is left of the event in progress, and the commands that wait. -/
structure State where
  node : Node
  /-- What is left of the event in progress, its next task first; empty between events. -/
  agenda : List Task
  /-- The commands that wait, first in first out. -/
  pending : List Instr
deriving DecidableEq, Repr

/-! ### The starting values -/

/-- A side after power-on and the reset line (R63).  The receiver's lock is a fact of the light on its fibre. -/
def SideState.initial (lock : Bool) : SideState :=
  { lock := lock, link := .down, holdOff := none, badRun := 0, silence := 0, heard := false, latest := none,
    badEvidence := 0#16, linkDown := 0#16, beaconDue := false, sent := [] }

/-- The Link and Fold Controller after power-on and the reset line (R63). -/
def LinkFold.initial (eastLock westLock : Bool) : LinkFold :=
  { east := SideState.initial eastLock, west := SideState.initial westLock, fold := .isolated,
    foldChange := 0#16, earlyUnfold := 0#16, quiet := none }

/-- The Cadence Unit after power-on and the reset line (Table 2-5). -/
def Cadence.initial : Cadence :=
  { node := .starting, followed := none, lastSequence := none, localCount := 0#8, roundLength := 0#8,
    starvation := 0, backOff := none, markPhase := 0, returnQueue := [], slip := 0#16, staleFrame := 0#16,
    higherOrigin := 0#16, returnDiscard := 0#16, yields := 0#16 }

/-- The Frame Engine after power-on and the reset line (R24). -/
def FrameEngine.initial : FrameEngine :=
  { known := Table.replicate 16 none, layoutDue := true, unsent := none, lastSent := none, badHead := 0#16,
    rebuilt := 0#16, segmentError := 0#16, orphan := 0#16, trimmed := 0#16, starvedForRoom := 0#16,
    hopDiscard := 0#16, misdirected := 0#16, unsentCapture := 0#16 }

/-- The Message Controller after power-on and the reset line (R84). -/
def Messages.initial : Messages :=
  { slots := Table.replicate 8 .free, readyOrder := [], queue := [], granted := none, carrying := .idle,
    hold := false, peers := Table.replicate 16 ⟨false, 0⟩, notices := [], turn := .receive,
    queueRefusal := 0#16, badMessage := 0#16, lostSlot := 0#16, staleMark := 0#16,
    replyUndelivered := 0#16, noticeDrop := 0#16 }

/-- The Tap Controller after power-on and the reset line (R105, R123), with P_eff at P. -/
def Taps.initial (delay : Nat) : Taps :=
  { entries := Table.replicate 256 none, free := List.finRange 256, chains := Table.replicate 64 [],
    conflictCount := 0#16, walk := none, pEff := delay, raise := none, windowCount := 0, largestAge := none,
    reads := [] }

/-- The local delay store after power-on and the reset line (R135). -/
def DelayStore.initial : DelayStore :=
  { places := Table.replicate 64 none, conceal := 4, lastPlayed := none, lastGood := silentCapture }

/-- The Router after power-on and the reset line (R135). -/
def Router.initial : Router :=
  { bindings := Table.replicate 128 .unbound, frames := Table.replicate 128 silentFrame,
    outMap := Table.replicate 64 .silent, outputs := Table.replicate 64 silentFrame,
    capture := silentCapture, delay := DelayStore.initial }

/-- A coefficient SETTLED at a value (R136). -/
def Ramp.settledAt (c : Coef) : Ramp := { value := c, target := c, phase := .settled }

/-- A mix record after power-on and the reset line (R153, R168). -/
def Mix.initial : Mix :=
  { owner := none, master := Ramp.settledAt unity, duck := Ramp.settledAt unity,
    talkLevel := Ramp.settledAt 0#24, feed := none, talks := [], crosspoints := [], clip := 0#16,
    output := silentFrame }

/-- The Mix Engine after power-on and the reset line (R153). -/
def MixEngine.initial : MixEngine :=
  { mixes := Table.replicate 24 Mix.initial, freeCrosspoints := Config.crosspoints }

/-- A key's running state after power-on and the reset line (R168). -/
def KeyState.initial : KeyState :=
  { pressed := false, debounce := 0, keep := none, event := none, serial := 0 }

/-- The Talkback Controller's desk side after power-on and the reset line (R168). -/
def Talkback.initial : Talkback :=
  { keys := Table.replicate 4 KeyState.initial, pendingOrder := [], pins := Table.replicate 4 false }

/-- The Report Queue after power-on and the reset line (R174). -/
def ReportQueue.initial : ReportQueue :=
  { items := [], postNumber := 0#8, lost := 0#16, interrupt := false }

/-- The Local Message Port after power-on and the reset line (R170). -/
def Port.initial : Port :=
  { transfer := .idle, held := .nothing, framing := 0#16, reply := [], shiftedOut := [] }

/-- A key record that is not bound (R184).  That its other fields are 0 is the model's (DESIGN CHOICE, assumption 37). -/
def KeyImage.unbound : KeyImage :=
  { bound := false, destination := 0#8, mask := 0#24, priority := 0#8, dim := 0#24, level := 0#24, channel := 0 }

/-- Whether a local input channel or an output is present at a rate (R129). -/
def Rate.present (r : Rate) (channel : Fin 64) : Bool :=
  match r with
  | .khz48 => true
  | .khz96 => decide (channel.val < 32)

/-- The channels present at a rate, in order: the default send list (R184). -/
def Rate.channels (r : Rate) : List (Fin 64) := (List.finRange 64).filter r.present

/-- The default slot table (R127): slot s is LOCAL(s) for the channels present at the rate. -/
def defaultSlotTable (r : Rate) : Table 128 (Option (Fin 64)) :=
  Table.ofFn fun s =>
    if h : s.val < 64 then (if r.present ⟨s.val, h⟩ then some ⟨s.val, h⟩ else none) else none

/-- The defaults of Table 11-1 and R184 at a rate, under a station number. -/
def Image.defaultsAt (station : Station) (r : Rate) : Image :=
  { station := station, rate := r, originEligible := true, localAlignment := false, linkHoldOff := 12,
    window := .w32, delay := 12, fallback := 4, returnHold := 500, lowFreeMark := 16, duckRamp := 16,
    groups := Table.replicate 8 false, sendList := r.channels, slotTable := defaultSlotTable r,
    outMap := Table.replicate 64 .silent, owners := Table.replicate 24 none,
    keys := Table.replicate 4 KeyImage.unbound }

/-- The part at its power-on values with the loader in a given state (R178).  Which values stand in force
before a load is read by no block; they are the defaults under station 1 (assumption 5).  The flash read's
command goes out when the loader is READING (R190). -/
def Node.powerOn (loaderState : LoaderState) (eastLock westLock : Bool) : Node :=
  { loader :=
      { state := loaderState, values := Image.defaultsAt 0 .khz48, outcome := none,
        flashCommand := if loaderState = .reading then [3#8, 0#8, 0#8, 0#8] else [], wordsRead := 0 },
    link := LinkFold.initial eastLock westLock, cadence := Cadence.initial, engine := FrameEngine.initial,
    messages := Messages.initial, taps := Taps.initial 12, router := Router.initial,
    mixer := MixEngine.initial, talk := Talkback.initial, reports := ReportQueue.initial,
    port := Port.initial }

/-- The machine right after reset: power-on with the reset line released, so the loader is READING (R178), and
no receiver has reported lock.  No command waits. -/
def State.reset : State :=
  { node := Node.powerOn .reading false false, agenda := [], pending := [] }

end Sys2Proof.Machine
end

