-- ==== Sys2Proof/Machine/Formats.lean ====
section
/-! DEFINITION. The byte layouts of Section 12: checks, frame heads, segments, beacons, message units and
reports, read from bytes and written as bytes. -/

namespace Sys2Proof

/-! ### Bytes and checks (R186) -/

/-- The byte a number 0..255 is sent as. -/
def byteOf (n : Nat) : Byte := BitVec.ofNat 8 n

/-- A 16-bit value, most significant byte first (R186). -/
def bytes16 (w : Word16) : List Byte := [w.extractLsb' 8 8, w.extractLsb' 0 8]

/-- A 24-bit value, most significant byte first (R186). -/
def bytes24 (c : BitVec 24) : List Byte := [c.extractLsb' 16 8, c.extractLsb' 8 8, c.extractLsb' 0 8]

/-- The 16-bit value of two bytes (R186). -/
def join16 (hi lo : Byte) : Word16 := hi ++ lo

/-- The 24-bit value of three bytes (R186). -/
def join24 (hi mid lo : Byte) : BitVec 24 := (hi ++ mid) ++ lo

/-- One bit of the cyclic check with generator x^16 + x^12 + x^5 + 1 (R186). -/
def checkBit (r : Word16) : Word16 := if r.msb then (r <<< 1) ^^^ 4129#16 else r <<< 1

/-- One byte of the cyclic check, most significant bit first (R186). -/
def checkByte (r : Word16) (b : Byte) : Word16 :=
  checkBit (checkBit (checkBit (checkBit (checkBit (checkBit (checkBit (checkBit
    (r ^^^ (b ++ 0#8)))))))))

/-- The cyclic check of covered bytes, from a starting remainder of 65,535 (R186). -/
def cyclicCheck (bs : List Byte) : Word16 := bs.foldl checkByte 65535#16

/-- A byte with one flag in each of bits 7 and 6. -/
def topFlags (seven six : Bool) : Byte :=
  (if seven then 128#8 else 0#8) ||| (if six then 64#8 else 0#8)

/-- The side codes of a beacon (Table 12-3), used in reports as well. -/
def Side.code : Side → Byte
  | .east => 1#8
  | .west => 2#8

/-- The other side. -/
def Side.opposite : Side → Side
  | .east => .west
  | .west => .east

/-- A unit from its first bytes, the rest 0 (R186). -/
def unitOf (bs : List Byte) : FrameUnit := Table.ofList 24 0#8 bs

/-- A unit with one byte replaced. -/
def FrameUnit.setByte (u : FrameUnit) (i : Fin 24) (b : Byte) : FrameUnit := Table.set u i b

/-! ### Message units (Tables 12-4 and 12-5) -/

/-- A byte of a unit by its number. -/
def FrameUnit.byte (u : FrameUnit) (i : Nat) : Byte := Table.getD u i 0#8

/-- The kind code. -/
def FrameUnit.kind (u : FrameUnit) : Byte := u.byte 0

/-- The sender byte. -/
def FrameUnit.sender (u : FrameUnit) : Byte := u.byte 1

/-- The destination byte. -/
def FrameUnit.destination (u : FrameUnit) : Byte := u.byte 2

/-- The tag. -/
def FrameUnit.tag (u : FrameUnit) : Byte := u.byte 3

/-- The slot byte. -/
def FrameUnit.slot (u : FrameUnit) : Byte := u.byte 4

/-- TAKEN. -/
def FrameUnit.taken (u : FrameUnit) : Bool := (u.byte 5).getLsbD 7

/-- REFUSED. -/
def FrameUnit.refused (u : FrameUnit) : Bool := (u.byte 5).getLsbD 6

/-- The 24-bit field at bytes i..i+2. -/
def FrameUnit.field24 (u : FrameUnit) (i : Nat) : BitVec 24 := join24 (u.byte i) (u.byte (i + 1)) (u.byte (i + 2))

/-- The unit with its mark flags joined to these (R14). -/
def FrameUnit.mark (u : FrameUnit) (taken refused : Bool) : FrameUnit :=
  u.setByte 5 (u.byte 5 ||| topFlags taken refused)

/-- The unit as it is placed: its sender, slot and mark byte overwritten (R65). -/
def FrameUnit.placed (u : FrameUnit) (sender : Station) (slot : Byte) : FrameUnit :=
  ((u.setByte 1 sender.byte).setByte 4 slot).setByte 5 0#8

/-- A counter's value modulo 256 (R176). -/
def Counter.low (c : Counter) : Byte := c.extractLsb' 0 8

/-- The saturated flag (R176). -/
def Counter.saturated (c : Counter) : Bool := c == 65535#16

end Sys2Proof

namespace Sys2Proof.Machine

open Sys2Proof

/-! ### Codes (Table 12-8) -/

/-- The node state codes. -/
def NodeState.code : NodeState → Byte
  | .starting => 1#8
  | .following => 2#8
  | .waiting => 3#8
  | .claiming => 4#8
  | .origin => 5#8
  | .alone => 6#8

/-- The fold state codes. -/
def FoldState.code : FoldState → Byte
  | .whole => 1#8
  | .foldedEast => 2#8
  | .foldedWest => 3#8
  | .isolated => 4#8

/-- The fold state a code names, if it is one of the four (R44). -/
def FoldState.ofCode (b : Byte) : Option FoldState :=
  if b = 1#8 then some .whole
  else if b = 2#8 then some .foldedEast
  else if b = 3#8 then some .foldedWest
  else if b = 4#8 then some .isolated
  else none

/-- The link state codes. -/
def LinkState.code : LinkState → Byte
  | .down => 1#8
  | .proving => 2#8
  | .up => 3#8

/-- The outcome codes, 1..13 in the order of Table 4-3. -/
def Answer.code : Answer → Byte
  | .done => 1#8
  | .already => 2#8
  | .conflict => 3#8
  | .tableFull => 4#8
  | .chainFull => 5#8
  | .storeFull => 6#8
  | .slotBusy => 7#8
  | .notFound => 8#8
  | .locked => 9#8
  | .badField => 10#8
  | .mixBusy => 11#8
  | .evicted => 12#8
  | .timedOut => 13#8

/-- The delivery codes. -/
def Delivery.code : Delivery → Byte
  | .taken => 1#8
  | .refused => 2#8
  | .both => 3#8
  | .notSeen => 4#8
  | .lost => 5#8

/-- The link cause codes. -/
def LinkCause.code : LinkCause → Byte
  | .lockGained => 1#8
  | .reArmed => 2#8
  | .proven => 3#8
  | .lockLost => 4#8
  | .badRun => 5#8
  | .silence => 6#8
  | .farEnd => 7#8
  | .restart => 8#8

/-- The delay cause codes. -/
def DelayCause.code : DelayCause → Byte
  | .raise => 1#8
  | .lower => 2#8
  | .restart => 3#8

/-- The return cause codes. -/
def ReturnCause.code : ReturnCause → Byte
  | .hold => 1#8
  | .alternateFailed => 2#8

/-- The kind codes of messages (Table 12-5). -/
def kindTapSet : Byte := 1#8
def kindTapDrop : Byte := 2#8
def kindTapClear : Byte := 3#8
def kindMixGain : Byte := 16#8
def kindMixMaster : Byte := 17#8
def kindOutSet : Byte := 24#8
def kindTalkOpen : Byte := 32#8
def kindTalkKeep : Byte := 33#8
def kindTalkClose : Byte := 34#8
def kindStatusQuery : Byte := 48#8
def kindStatusReport : Byte := 49#8
def kindResult : Byte := 56#8

/-- The bits of a message's own byte that Table 12-5 assigns to its kind; the subject of a STATUS QUERY settles which
of its bytes 7 and 8 are (R186).  DEDUCED (assumption 24): of an unknown kind, whose layout the part does not know, every
own byte counts as assigned (R172, R187). -/
def assignedBits (kind subject : Byte) (i : Nat) : Byte :=
  let upTo (last : Nat) : Byte := if i ≤ last then 255#8 else 0#8
  if kind = kindTapSet then (if i = 11 then 7#8 else upTo 10)
  else if kind = kindTapDrop then upTo 7
  else if kind = kindTapClear then 0#8
  else if kind = kindMixGain then upTo 11
  else if kind = kindMixMaster then upTo 10
  else if kind = kindOutSet then upTo 8
  else if kind = kindTalkOpen then upTo 17
  else if kind = kindTalkKeep ∨ kind = kindTalkClose then upTo 8
  else if kind = kindStatusQuery then upTo (if subject = 1#8 then 8 else if subject = 2#8 then 7 else 6)
  else 255#8

/-- A message unit as it is sent: 0 in every bit of its own bytes that Table 12-5 does not assign (R186). -/
def assignedUnit (u : FrameUnit) : FrameUnit :=
  Table.ofFn fun i => if i.val < 6 then Table.get u i else Table.get u i &&& assignedBits u.kind (u.byte 6) i.val

/-- The kinds of Table 12-5 that are requests. -/
def requestKinds : List Byte :=
  [kindTapSet, kindTapDrop, kindTapClear, kindMixGain, kindMixMaster, kindOutSet, kindTalkOpen, kindTalkKeep,
    kindTalkClose, kindStatusQuery]

/-- The kinds that only the part itself makes: RESULT and STATUS REPORT (R67). -/
def isAnswerKind (k : Byte) : Bool := k == kindResult || k == kindStatusReport

/-- A kind code outside Table 4-2 (R67). -/
def isUnknownKind (k : Byte) : Bool := !requestKinds.contains k && !isAnswerKind k

/-! ### The frame head (Table 12-1) -/

/-- The origin byte. -/
def headOrigin (h : SixBytes) : Byte := h.getD 0 0#8

/-- The sequence. -/
def headSequence (h : SixBytes) : Byte := h.getD 1 0#8

/-- The round length L. -/
def headRound (h : SixBytes) : Byte := h.getD 2 0#8

/-- The flag byte: bit 7 REBUILT, bit 6 SECONDARY, bits 3..0 hops. -/
def headFlags (h : SixBytes) : Byte := h.getD 3 0#8

/-- REBUILT. -/
def headRebuilt (h : SixBytes) : Bool := (headFlags h).getLsbD 7

/-- SECONDARY. -/
def headSecondary (h : SixBytes) : Bool := (headFlags h).getLsbD 6

/-- The hop count, 0..15. -/
def headHops (h : SixBytes) : Nat := ((headFlags h).extractLsb' 0 4).toNat

/-- The head check as carried. -/
def headCheck (h : SixBytes) : Word16 := join16 (h.getD 4 0#8) (h.getD 5 0#8)

/-- Four bytes followed by their check: a frame head or a beacon (R186). -/
def withCheck (b0 b1 b2 b3 : Byte) : SixBytes :=
  ⟨[b0, b1, b2, b3] ++ bytes16 (cyclicCheck [b0, b1, b2, b3]), by simp [bytes16]⟩

/-- A head as the Frame Engine makes it, with its check (R1). -/
def makeHead (origin sequence round : Byte) (rebuilt secondary : Bool) (hops : Nat) : SixBytes :=
  withCheck origin sequence round (topFlags rebuilt secondary ||| (byteOf hops &&& 15#8))

/-- The check over the first four bytes agrees with the check carried (R186). -/
def sixCheckGood (h : SixBytes) : Bool := cyclicCheck (h.items.take 4) == headCheck h

/-- A good head (R1): the check holds, the origin is a station, and a head with SECONDARY clear has hops 0.
The hop field has 4 bits, so it lies within 0..15 of itself. -/
def headGood (h : SixBytes) : Bool :=
  sixCheckGood h && (Station.ofByte (headOrigin h)).isSome && (headSecondary h || headHops h == 0)

/-! ### Beacons (Table 12-3) -/

/-- The beacon that six bytes taken on `side` carry, or none for a bad one (R44). -/
def readBeacon (side : Side) (b : SixBytes) : Option Beacon :=
  match sixCheckGood b, Station.ofByte (b.getD 0 0#8), FoldState.ofCode (b.getD 3 0#8) with
  | true, some sender, some fold =>
    if b.getD 1 0#8 = side.opposite.code then
      some { sender := sender, hears := (b.getD 2 0#8).getLsbD 7, proven := (b.getD 2 0#8).getLsbD 6,
             fold := fold }
    else none
  | _, _, _ => none

/-- A beacon as a transmitter sends it (R47). -/
def makeBeacon (sender : Station) (side : Side) (hears proven : Bool) (fold : FoldState) : SixBytes :=
  withCheck sender.byte side.code (topFlags hears proven) fold.code

/-! ### Units -/

/-- The 8 samples of an audio unit, oldest first, 3 bytes each (Table 12-2). -/
def audioOfUnit (u : FrameUnit) : AudioFrame :=
  Table.ofFn fun i =>
    join24 (u.getD (3 * i.val) 0#8) (u.getD (3 * i.val + 1) 0#8) (u.getD (3 * i.val + 2) 0#8)

/-- The audio unit of 8 samples (Table 12-2). -/
def unitOfAudio (f : AudioFrame) : FrameUnit := unitOf (f.items.flatMap bytes24)

/-- The layout units that carry a number of channels: ceil(count / 24) of them (R3). -/
def layoutUnitCount (count : Nat) : Nat := (count + 23) / 24

/-- The layout units of a send list: up to 24 numbers each, unused places carrying 255 (Table 12-2). -/
def layoutUnits (channels : List (Fin 64)) : List FrameUnit :=
  (List.range (layoutUnitCount channels.length)).map fun i =>
    Table.ofList 24 255#8 (((channels.drop (24 * i)).take 24).map fun c => byteOf c.val)

/-! ### Segments (Tables 1-2 and 12-2) -/

/-- A segment of a body: its header unit and the units that follow it (R3). -/
structure Segment where
  header : FrameUnit
  layout : List FrameUnit
  audio : List FrameUnit
  messages : List FrameUnit
deriving DecidableEq, Repr


/-- The source station byte. -/
def Segment.source (s : Segment) : Byte := s.header.getD 0 0#8

/-- The capture index. -/
def Segment.captureIndex (s : Segment) : Byte := s.header.getD 1 0#8

/-- The header kind is FULL. -/
def Segment.isFull (s : Segment) : Bool := s.header.getD 2 0#8 == 1#8

/-- The carried count n. -/
def Segment.carried (s : Segment) : Nat := (s.header.getD 3 0#8).toNat

/-- The layout count. -/
def Segment.layoutCount (s : Segment) : Nat := (s.header.getD 4 0#8).toNat

/-- HOLD. -/
def Segment.hold (s : Segment) : Bool := (s.header.getD 5 0#8).getLsbD 7

/-- The segment's units in order. -/
def Segment.units (s : Segment) : List FrameUnit := s.header :: (s.layout ++ s.audio ++ s.messages)

/-- The channel bytes the layout units name (R3). -/
def Segment.layoutBytes (s : Segment) : List Byte := (s.layout.flatMap fun u => u.items).take s.layoutCount

/-- The segment check over the covered bytes, each message's mark byte taken as 0 (R186). -/
def Segment.check (header : FrameUnit) (layout audio messages : List FrameUnit) : Word16 :=
  cyclicCheck (header.items.take 22 ++ (layout ++ audio).flatMap (fun u => u.items)
    ++ messages.flatMap (fun u => (FrameUnit.setByte u 5 0#8).items))

/-- A good segment (R4): its check holds, its source is a station, and a FULL layout names channels 0..63, none
of them twice. -/
def Segment.good (s : Segment) : Bool :=
  Segment.check s.header s.layout s.audio s.messages == join16 (s.header.getD 22 0#8) (s.header.getD 23 0#8)
    && (Station.ofByte s.source).isSome
    && (!s.isFull || (s.layoutBytes.all (fun b => decide (b.toNat < 64)) && decide s.layoutBytes.Nodup))

/-- The channels a FULL layout names. -/
def Segment.layoutChannels (s : Segment) : List (Fin 64) :=
  s.layoutBytes.filterMap fun b => if h : b.toNat < 64 then some ⟨b.toNat, h⟩ else none


/-- The segment that begins a list of units, and the units after it; none for an unwalkable header (R4). -/
def nextSegment : List FrameUnit → Option (Segment × List FrameUnit)
  | [] => none
  | h :: rest =>
    let kind := h.getD 2 0#8
    let n := (h.getD 3 0#8).toNat
    let count := (h.getD 4 0#8).toNat
    let messages := (h.getD 6 0#8).toNat
    let layout := if kind = 1#8 then layoutUnitCount count else 0
    if (kind = 1#8 ∨ kind = 2#8) ∧ count ≤ 64 ∧ n ≤ count ∧ messages ≤ 8
        ∧ layout + n + messages ≤ rest.length then
      some ({ header := h, layout := rest.take layout, audio := (rest.drop layout).take n,
              messages := (rest.drop (layout + n)).take messages },
            rest.drop (layout + n + messages))
    else none

/-- The walk of a body's units, with fuel for at most that many segments: the segments in order, and what is
left at an unwalkable header (R4). -/
def walkUnits : Nat → List FrameUnit → List Segment × List FrameUnit
  | 0, us => ([], us)
  | fuel + 1, us =>
    match nextSegment us with
    | none => ([], us)
    | some (s, rest) => let r := walkUnits fuel rest; (s :: r.1, r.2)

/-- The segments of an arriving body and whether an unreadable span was cut from it (R2, R4). -/
def walkBody (capacity : Nat) (body : List FrameUnit) : List Segment × Bool :=
  let w := walkUnits body.length (body.take capacity)
  (w.1, !w.2.isEmpty || decide (capacity < body.length))

/-! ### Message units (Tables 12-4 and 12-5) -/

/-- The key at bytes i and i+1, if both are in range (R187). -/
def messageKey (u : FrameUnit) (i : Nat) : Option Key :=
  match Station.ofByte (u.byte i) with
  | some s =>
    if h : (u.byte (i + 1)).toNat < 64 then some { station := s, channel := ⟨(u.byte (i + 1)).toNat, h⟩ }
    else none
  | none => none


/-- A key's two bytes (R187). -/
def keyBytes (k : Key) : List Byte := [k.station.byte, byteOf k.channel.val]

/-- The two bytes of a key that may be none: station 0 for none (R187), and then the channel byte is 0 (DESIGN CHOICE,
assumption 48). -/
def keyBytesOrNone : Option Key → List Byte
  | some k => keyBytes k
  | none => [0#8, 0#8]

/-- The byte of a source slot that may be none: 255 for none (R187). -/
def slotByteOrNone : Option (Fin 128) → Byte
  | some s => byteOf s.val
  | none => 255#8

/-- The two bytes of an entry number that may be none: 65,535 for none (R188). -/
def entryBytesOrNone : Option EntryNo → List Byte
  | some e => bytes16 (BitVec.ofNat 16 e.val)
  | none => [255#8, 255#8]

/-- The two bytes of a count (R188). -/
def countBytes (n : Nat) : List Byte := bytes16 (BitVec.ofNat 16 n)

/-- An output's source coded as R187 codes it: type, then number.  The number byte of NONE, which R187 ignores in a request,
is sent as 0 (DESIGN CHOICE, assumption 47). -/
def OutSource.codeBytes : OutSource → List Byte
  | .silent => [0#8, 0#8]
  | .mix m => [1#8, byteOf m.val]
  | .slot s => [2#8, byteOf s.val]

/-- A RESULT's message unit (R69, Table 12-5). -/
def resultUnit (sender : Station) (destination tag slot requestKind requestSlot : Byte) (outcome : Answer)
    (detail : List Byte) : FrameUnit :=
  unitOf ([kindResult, sender.byte, destination, tag, slot, 0#8, requestKind, requestSlot, outcome.code]
    ++ detail.take 12)

/-- A STATUS REPORT's message unit (Table 12-5): the subject and part in byte 6, the contents from byte 7. -/
def statusUnit (sender : Station) (destination tag slot subject : Byte) (part : Nat) (contents : List Byte) :
    FrameUnit :=
  unitOf ([kindStatusReport, sender.byte, destination, tag, slot, 0#8, (subject <<< 4) ||| byteOf part] ++ contents)

/-! ### Counters in STATUS REPORTs (R176, R187) -/

/-- Flags as the bits of bytes, the first in bit 7 of the first byte (R187). -/
def flagByte (flags : List Bool) : Byte :=
  (List.range 8).foldl
    (fun acc i => if flags.getD i false then acc ||| (128#8 >>> i) else acc) 0#8

/-- The value bytes of counters followed by the flag bytes, two of them (Table 12-6). -/
def counterBytes (cs : List Counter) : List Byte :=
  cs.map Counter.low
    ++ [flagByte (cs.map Counter.saturated), flagByte ((cs.map Counter.saturated).drop 8)]

/-! ### Reports (Table 12-7) -/

/-- The code of a report's kind. -/
def ReportBody.code : ReportBody → Byte
  | .image .. => 1#8
  | .result _ => 2#8
  | .statusReport _ => 3#8
  | .delivery .. => 4#8
  | .link .. => 5#8
  | .fold .. => 6#8
  | .nodeState .. => 7#8
  | .delayChanged .. => 8#8
  | .tableLow .. => 9#8
  | .fallback .. => 10#8
  | .returned .. => 11#8
  | .talk .. => 12#8

/-- The rate code of the image and the IMAGE report: 1 for 48 kHz, 2 for 96 kHz (R190, Table 12-7). -/
def Rate.code : Rate → Byte
  | .khz48 => 1#8
  | .khz96 => 2#8

/-- The outcome and cause bytes of the IMAGE report. -/
def LoadOutcome.codes : LoadOutcome → List Byte
  | .loaded => [1#8, 0#8]
  | .defaults .noImage => [2#8, 1#8]
  | .defaults .badLength => [2#8, 2#8]
  | .defaults .badCheck => [2#8, 3#8]

/-- The fields of a report, from byte 3 on (Table 12-7). -/
def ReportBody.fields : ReportBody → List Byte
  | .image o w st fromImage r t =>
    o.codes ++ bytes16 w ++ [st.byte, if fromImage then 1#8 else 2#8, r.code, byteOf t]
  | .result m => m.items
  | .statusReport m => m.items
  | .delivery s k t d v => [byteOf s.val, k, t, d, v.code]
  | .link s st c (some (b, f)) => [s.code, st.code, c.code, b.byte, f.code]
  | .link s st c none => [s.code, st.code, c.code, 0#8, 0#8]
  | .fold n p s e => [n.code, p.code, match s with | some x => x.code | none => 0#8, if e then 1#8 else 0#8]
  | .nodeState n f l => [n.code, Station.byteOrZero f, l]
  | .delayChanged n p c => [byteOf n, byteOf p, c.code]
  | .tableLow f m => countBytes f ++ [byteOf m]
  | .fallback e k s a => byteOf e.val :: keyBytes k ++ [byteOf s.val] ++ keyBytes a
  | .returned e k s a c => byteOf e.val :: keyBytes k ++ [byteOf s.val] ++ keyBytes a ++ [c.code]
  | .talk k st kind v a b =>
    [match k with | some x => byteOf x.val | none => 255#8, Station.byteOrZero st, kind, v]
      ++ bytes24 a ++ bytes24 b

/-- The 27 bytes of a report: kind, post number, remaining count, and 24 bytes of fields (R189). -/
def Report.bytes (r : Report) (remaining : Nat) : List Byte :=
  [r.body.code, r.post, byteOf remaining] ++ (unitOf r.body.fields).items

/-- The 27 bytes of the empty marker, of kind EMPTY with the present post number (R175, R189). -/
def emptyMarker (post : Byte) : List Byte := [0#8, post, 0#8] ++ (unitOf []).items

/-- The status byte (R189). -/
def HeldStatus.byte : HeldStatus → Byte
  | .nothing => 15#8
  | .accepted (some s) => 16#8 ||| byteOf s.val
  | .accepted none => 31#8
  | .slotsFull => 47#8
  | .queueFull => 63#8
  | .malformed => 79#8

end Sys2Proof.Machine
end

