-- ==== Sys2Proof/Machine/Ops.lean ====
section
/-! DEFINITION. The named operations that several blocks share: the values in force, posting a report, a side of
the Link and Fold Controller, the receive queue, and the send slots. -/

namespace Sys2Proof.Machine

open Sys2Proof

/-! ### The values in force (R178, R185) -/

/-- The station's own number (R181). -/
def Node.station (n : Node) : Station := n.loader.values.station

/-- The loader is FINISHED, so the blocks work (R178). -/
def Node.running (n : Node) : Bool := n.loader.state == .finished

/-- The body capacity B in units (R2). -/
def Node.capacity (n : Node) : Nat :=
  match n.loader.values.rate with
  | .khz48 => 512
  | .khz96 => 256

/-- The boundaries to a millisecond mark (R27). -/
def Node.markPeriod (n : Node) : Nat :=
  match n.loader.values.rate with
  | .khz48 => 6
  | .khz96 => 12

/-- The window W in frames (R107). -/
def Node.frames (n : Node) : Nat := n.loader.values.window.frames

/-! ### The Report Queue (R174) -/

/-- A report takes the present post number and joins the tail, or is discarded and counted when the queue holds
32; the post number advances in both cases (R174). -/
def ReportQueue.post (q : ReportQueue) (b : ReportBody) : ReportQueue :=
  if q.items.length < Config.reportPlaces then
    { q with items := q.items ++ [{ post := q.postNumber, body := b }], postNumber := q.postNumber + 1#8,
             interrupt := true }
  else { q with postNumber := q.postNumber + 1#8, lost := q.lost.inc }

/-- The head report is removed and the interrupt line is judged afresh (R175). -/
def ReportQueue.take (q : ReportQueue) : ReportQueue :=
  { q with items := q.items.tail, interrupt := !q.items.tail.isEmpty }

/-- A block posts a report. -/
def Node.post (n : Node) (b : ReportBody) : Node := { n with reports := n.reports.post b }

/-! ### Sides -/

/-- A side's state. -/
def LinkFold.side (l : LinkFold) : Side → SideState
  | .east => l.east
  | .west => l.west

/-- A side's state replaced. -/
def LinkFold.setSide (l : LinkFold) (side : Side) (x : SideState) : LinkFold :=
  match side with
  | .east => { l with east := x }
  | .west => { l with west := x }

/-- A side's state. -/
def Node.side (n : Node) (side : Side) : SideState := n.link.side side

/-- A side's state changed by `f`. -/
def Node.updateSide (n : Node) (side : Side) (f : SideState → SideState) : Node :=
  { n with link := n.link.setSide side (f (n.link.side side)) }

/-- An item is handed to a side's transmitter, which is silent during a restart quiet period (R64). -/
def Node.transmit (n : Node) (side : Side) (t : Transmission) : Node :=
  if n.link.quiet.isSome then n else n.updateSide side fun x => { x with sent := x.sent ++ [t] }

/-! ### Cadence Unit shorthands -/

/-- The Cadence Unit's state changed by `f`. -/
def Node.updateCadence (n : Node) (f : Cadence → Cadence) : Node := { n with cadence := f n.cadence }

/-- The Frame Engine's state changed by `f`. -/
def Node.updateEngine (n : Node) (f : FrameEngine → FrameEngine) : Node := { n with engine := f n.engine }

/-- The Message Controller's state changed by `f`. -/
def Node.updateMessages (n : Node) (f : Messages → Messages) : Node := { n with messages := f n.messages }

/-- The Tap Controller's state changed by `f`. -/
def Node.updateTaps (n : Node) (f : Taps → Taps) : Node := { n with taps := f n.taps }

/-- The Router's state changed by `f`. -/
def Node.updateRouter (n : Node) (f : Router → Router) : Node := { n with router := f n.router }

/-- One mix record changed by `f`. -/
def Node.updateMix (n : Node) (m : Fin 24) (f : Mix → Mix) : Node :=
  { n with mixer := { n.mixer with mixes := n.mixer.mixes.update m f } }

/-- One key's running state changed by `f`. -/
def Node.updateKey (n : Node) (k : Fin 4) (f : KeyState → KeyState) : Node :=
  { n with talk := { n.talk with keys := n.talk.keys.update k f } }

/-- The present node state, followed origin and L are posted (R25). -/
def Node.postNodeState (n : Node) : Node :=
  n.post (.nodeState n.cadence.node n.cadence.followed n.cadence.roundLength)

/-- The node state changes.  Leaving STARTING sets the Frame Engine's layout-due flag (R6). -/
def Node.setNodeState (n : Node) (s : NodeState) : Node :=
  let left := n.cadence.node == .starting && s != .starting
  { n with cadence := { n.cadence with node := s },
           engine := if left then { n.engine with layoutDue := true } else n.engine }

/-! ### The receive queue (R75, R78, R79) -/

/-- HOLD is judged from the free places after a change of the queue (R75). -/
def Messages.judgeHold (m : Messages) : Messages :=
  let places := Config.queuePlaces - m.queue.length
  { m with hold := if places ≤ 3 then true else if 8 ≤ places then false else m.hold }

/-- A message joins the queue's tail, if the queue holds fewer than 16 (R77, R79). -/
def Messages.enqueue (m : Messages) (e : QueueEntry) : Option Messages :=
  if m.queue.length < Config.queuePlaces then some { m with queue := m.queue ++ [e] }.judgeHold else none

/-- The completed message leaves the head (R80). -/
def Messages.dequeue (m : Messages) : Messages := { m with queue := m.queue.tail }.judgeHold

/-- A self-addressed message joins the queue with its sender set to the station and its slot to none, or is not
taken when the queue holds 16 (R79). -/
def Node.selfAddress (n : Node) (u : FrameUnit) (source : Source) : Option Node :=
  (n.messages.enqueue { message := u.placed n.station 255#8, source := source }).map
    fun m => { n with messages := m }

/-! ### Send slots (R70) -/

/-- The port slots, the talk slots and the reply slots (R70). -/
def portSlots : List (Fin 8) := [0, 1, 2, 3]
def talkSlots : List (Fin 8) := [4, 5]
def replySlots : List (Fin 8) := [6, 7]

/-- The lowest-numbered FREE slot of a kind (R70). -/
def Messages.freeSlot (m : Messages) (slots : List (Fin 8)) : Option (Fin 8) :=
  slots.find? fun i => m.slots.get i == .free

/-- A message is placed in a slot, which becomes READY and joins the ready order (R65, R70). -/
def Node.placeMessage (n : Node) (i : Fin 8) (u : FrameUnit) : Node :=
  n.updateMessages fun m =>
    { m with slots := m.slots.set i (.ready (u.placed n.station (byteOf i.val))),
             readyOrder := m.readyOrder ++ [i] }

/-- A slot becomes FREE and leaves the ready order if it stood there (R73, R74, R85). -/
def Messages.freeUp (m : Messages) (i : Fin 8) : Messages :=
  { m with slots := m.slots.set i .free, readyOrder := m.readyOrder.filter (· != i) }

/-- The message a slot holds, in READY or IN FLIGHT. -/
def SendSlot.message : SendSlot → Option FrameUnit
  | .ready u => some u
  | .inFlight u _ => some u
  | _ => none

/-! ### Source slots (R128) -/

/-- A source slot is set to TAP of an entry (R128). -/
def Node.bindSlot (n : Node) (s : Fin 128) (e : EntryNo) : Node :=
  n.updateRouter fun r => { r with bindings := r.bindings.set s (.tap e) }

/-- A source slot is set to NONE (R128). -/
def Node.unbindSlot (n : Node) (s : Fin 128) : Node :=
  n.updateRouter fun r => { r with bindings := r.bindings.set s .unbound }

/-- An owner's answer to a request: its outcome and the detail bytes of its RESULT (R69, R188). -/
structure Reply where
  outcome : Answer
  detail : List Byte
deriving DecidableEq, Repr

end Sys2Proof.Machine
end

