-- ==== Sys2Proof/Machine/Cadences.lean ====
section
/-! DEFINITION. The Cadence Unit (Section 2): admission of frames, following, starvation, the claim, ALONE, and its
ring restart. -/

namespace Sys2Proof.Machine

open Sys2Proof

/-- The Cadence Unit's answers to an admission question (R9). -/
inductive Admission where
  | pass
  | discard
  | taken
deriving DecidableEq, Repr

/-- A sequence lies within {255, 0, 1} of the local count (R28, R32). -/
def nearCount (sequence localCount : Byte) : Bool :=
  let d := sequence - localCount
  d == 255#8 || d == 0#8 || d == 1#8

/-- A difference in 1..127: the one index is later than the other (R31, R114). -/
def isLater (a b : Byte) : Bool := let d := (a - b).toNat; decide (1 ≤ d ∧ d ≤ 127)

/-! ### Following (R30) -/

/-- The Cadence Unit's fields when a frame starts a new following, steps 1 to 7 of R30. -/
def Cadence.follow (c : Cadence) (origin : Station) (sequence roundLength : Byte) : Cadence :=
  let slipped := c.node != .starting && !nearCount sequence c.localCount
  let yielded := c.node == .claiming || c.node == .origin
  { c with node := .following, followed := some origin, lastSequence := some sequence, localCount := sequence,
           roundLength := roundLength, starvation := 0, backOff := none,
           returnQueue := if c.node = .origin then [] else c.returnQueue,
           slip := if slipped then c.slip.inc else c.slip,
           yields := if yielded then c.yields.inc else c.yields }

/-- A frame starts a new following (R30): leaving STARTING sets layout-due, and a node-state report is posted. -/
def Node.startFollowing (n : Node) (origin : Station) (h : SixBytes) : Node :=
  let n1 := n.setNodeState .following
  { n1 with cadence := n.cadence.follow origin (headSequence h) (headRound h) }.postNodeState

/-! ### Admission (R29 to R32, R35, R36) -/

/-- The stale-frame count rises. -/
def Node.countStale (n : Node) : Node := n.updateCadence fun c => { c with staleFrame := c.staleFrame.inc }

/-- The higher-origin count rises. -/
def Node.countHigher (n : Node) : Node := n.updateCadence fun c => { c with higherOrigin := c.higherOrigin.inc }

/-- A frame newer than any passed from the followed origin (R31, R32): the last sequence moves, and with REBUILT
clear the starvation count restarts, L is set, and a slip re-bases the local count. -/
def Cadence.passNewer (c : Cadence) (sequence roundLength : Byte) (rebuilt : Bool) : Cadence :=
  let c1 := { c with lastSequence := some sequence }
  if rebuilt then c1
  else
    let c2 := { c1 with starvation := 0, roundLength := roundLength }
    if nearCount sequence c.localCount then c2
    else { c2 with localCount := sequence, slip := c.slip.inc }

/-- The repeat test of a frame of the followed origin in FOLLOWING (R31). -/
def Node.repeatTest (n : Node) (h : SixBytes) : Admission × Node :=
  let newer := match n.cadence.lastSequence with
    | some l => isLater (headSequence h) l
    | none => true
  if newer then
    (.pass, n.updateCadence (·.passNewer (headSequence h) (headRound h) (headRebuilt h)))
  else (.discard, n.countStale)

/-- The measurement of the round at a return (R36). -/
def Cadence.measure (c : Cadence) (h : SixBytes) : Cadence :=
  if headRebuilt h then c else { c with roundLength := c.localCount - headSequence h }

/-- A returned frame joins the return queue's tail, or is dropped and counted when the queue holds 4 (R36). -/
def Cadence.joinReturns (c : Cadence) (f : Frame) : Cadence :=
  if c.returnQueue.length < Config.returnPlaces then { c with returnQueue := c.returnQueue ++ [f] }
  else { c with returnDiscard := c.returnDiscard.inc }

/-- The station's own frame returns in CLAIMING with REBUILT clear: the claim is proven (R35). -/
def Node.proveClaim (n : Node) (f : Frame) : Node :=
  let n1 := n.setNodeState .origin
  (n1.updateCadence fun c => { c.measure f.head with returnQueue := [f] }).postNodeState

/-- The admission of a good-head frame on the active primary input (Table 2-2 and the rules of R29). -/
def Node.answerAdmission (n : Node) (f : Frame) : Admission × Node :=
  let h := f.head
  match Station.ofByte (headOrigin h) with
  | none => (.discard, n)
  | some o =>
    let own := o == n.station
    let c := n.cadence
    if headRebuilt h then
      match c.node with
      | .following => if c.followed = some o then n.repeatTest h else (.discard, n.countStale)
      | .origin =>
        if own then (.taken, n.updateCadence fun x => (x.measure h).joinReturns f) else (.discard, n.countStale)
      | .starting => (.discard, n.countStale)
      | .waiting => (.discard, n.countStale)
      | .claiming => (.discard, n.countStale)
      | .alone => (.discard, n.countStale)
    else
      match c.node with
      | .starting => if own then (.discard, n.countStale) else (.pass, n.startFollowing o h)
      | .waiting => if own then (.discard, n.countStale) else (.pass, n.startFollowing o h)
      | .following =>
        if own then (.discard, n.countStale)
        else
          match c.followed with
          | none => (.pass, n.startFollowing o h)
          | some g =>
            if o = g then n.repeatTest h
            else if o < g then (.pass, n.startFollowing o h)
            else (.discard, n.countHigher)
      | .claiming =>
        if own then (.taken, n.proveClaim f)
        else if o < n.station then (.pass, n.startFollowing o h)
        else (.discard, n.countHigher)
      | .origin =>
        if own then (.taken, n.updateCadence fun x => (x.measure h).joinReturns f)
        else if o < n.station then (.pass, n.startFollowing o h)
        else (.discard, n.countHigher)
      | .alone => (.discard, n)

/-! ### Starvation, WAITING and ALONE (R33, R34, R39) -/

/-- The starvation count runs in FOLLOWING, and in STARTING while the fold state is not ISOLATED (R33). -/
def Node.starvationRuns (n : Node) : Bool :=
  n.cadence.node == .following || (n.cadence.node == .starting && n.link.fold != .isolated)

/-- The back-off of an origin-eligible station: its number × 8 boundaries (R34). -/
def Node.newBackOff (n : Node) : Option Nat :=
  if n.loader.values.originEligible then some (n.station.number * 8) else none

/-- WAITING is entered: an eligible station sets its back-off, and a report is posted (R33, R34). -/
def Node.enterWaiting (n : Node) : Node :=
  ((n.setNodeState .waiting).updateCadence fun c => { c with backOff := n.newBackOff }).postNodeState

/-- The station starves (R33). -/
def Node.starve (n : Node) : Node := n.enterWaiting

/-- The fold state has changed to ISOLATED: ALONE is entered from whichever node state (R39). -/
def Node.enterAlone (n : Node) : Node :=
  ((n.setNodeState .alone).updateCadence fun c =>
    { c with returnQueue := [], backOff := none, starvation := 0 }).postNodeState

/-- A link has become UP: ALONE becomes WAITING; a followed origin that is the own number becomes none with the last
sequence (R39). -/
def Node.linkIsUp (n : Node) : Node :=
  if n.cadence.node = .alone then
    let n1 := if n.cadence.followed = some n.station then
        n.updateCadence fun c => { c with followed := none, lastSequence := none }
      else n
    n1.enterWaiting
  else n

/-- CLAIMING is entered (R35); its first fresh frame is the Frame Engine's. -/
def Node.enterClaiming (n : Node) : Node :=
  ((n.setNodeState .claiming).updateCadence fun c =>
    { c with followed := some n.station, roundLength := 0#8, lastSequence := none, backOff := none }).postNodeState

/-- The Cadence Unit at a ring restart (Table 2-5): the report is posted whatever the state was. -/
def Node.restartCadence (n : Node) : Node :=
  (n.updateCadence fun c =>
    { c with node := .starting, followed := none, lastSequence := none, roundLength := 0#8, returnQueue := [],
             starvation := 0, backOff := none }).postNodeState

/-- How the boundary clock runs (R28): free at the nominal frequency, steered to arrivals, or held. -/
inductive ClockMode where
  | free
  | steered
  | held
deriving DecidableEq, Repr

/-- The boundary clock's mode in a node state (R28, Table 2-1). -/
def NodeState.clockMode : NodeState → ClockMode
  | .starting => .free
  | .following => .steered
  | .waiting => .held
  | .claiming => .held
  | .origin => .held
  | .alone => .held

end Sys2Proof.Machine
end

