-- ==== Sys2Proof/Machine/Links.lean ====
section
/-! DEFINITION. Link supervision, folding and restoration (Section 3). -/

namespace Sys2Proof.Machine

open Sys2Proof

/-! ### Evidence (R44, R45, R46) -/

/-- A side hears its link (R46). -/
def SideState.hears (x : SideState) : Bool :=
  x.lock && x.heard && decide (x.badRun < Config.badRunLimit) && decide (x.silence < Config.silenceLimit)

/-- A good item: both counts become 0 and the heard flag is set (R45). -/
def SideState.goodItem (x : SideState) : SideState := { x with badRun := 0, silence := 0, heard := true }

/-- The hold-off at its start: H × 250 milliseconds (R48, R49). -/
def Node.fullHoldOff (n : Node) : Nat := n.loader.values.linkHoldOff * 250

/-- A bad item: the bad-run count rises to 4 at most, bad evidence is counted, and a hold-off in PROVING restarts
(R44, R45, R49). -/
def SideState.badItem (x : SideState) (holdOff : Nat) : SideState :=
  { x with badRun := min (x.badRun + 1) Config.badRunLimit, badEvidence := x.badEvidence.inc,
           holdOff := if x.link = .proving then some holdOff else x.holdOff }

/-- The counts and the latest beacon cleared at a gain or loss of lock (R45). -/
def SideState.cleared (x : SideState) : SideState :=
  { x with badRun := 0, silence := 0, heard := false, latest := none }

/-- An item of evidence taken by a side. -/
def Node.takeEvidence (n : Node) (side : Side) (good : Bool) : Node :=
  n.updateSide side fun x => if good then x.goodItem else x.badItem n.fullHoldOff

/-- A bad item brings the side's bad-run count to 4 (R50): the count stood at 3. -/
def Node.reachesBadRun (n : Node) (side : Side) (good : Bool) : Bool :=
  !good && (n.side side).badRun + 1 == Config.badRunLimit

/-! ### Reports (R60) -/

/-- A link report of a side's present state (R60). -/
def Node.postLink (n : Node) (side : Side) (cause : LinkCause) : Node :=
  n.post (.link side (n.side side).link cause ((n.side side).latest.map fun b => (b.sender, b.fold)))

/-! ### Fold states (R53 to R58, R61) -/

/-- The fold state changes: it is counted and reported, and a change to ISOLATED makes the station ALONE (R53 to
R58, R61). -/
def Node.changeFold (n : Node) (new : FoldState) (side : Side) (early : Bool) : Node :=
  let n1 := { n with link := { n.link with fold := new, foldChange := n.link.foldChange.inc } }.post
    (.fold new n.link.fold (some side) early)
  if new = .isolated then n1.enterAlone else n1

/-- A link leaves UP: the fold of R53 and R54. -/
def Node.foldOnLoss (n : Node) (side : Side) : Node :=
  match n.link.fold, side with
  | .whole, .east => n.changeFold .foldedEast side false
  | .whole, .west => n.changeFold .foldedWest side false
  | .foldedEast, .west =>
    n.changeFold (if n.link.east.link = .up then .foldedWest else .isolated) side false
  | .foldedWest, .east =>
    n.changeFold (if n.link.west.link = .up then .foldedEast else .isolated) side false
  | .foldedEast, .east => n
  | .foldedWest, .west => n
  | .isolated, _ => n

/-- A side's link is UP and its latest beacon reports proven (R56, R57). -/
def SideState.restored (x : SideState) : Bool :=
  x.link == .up && (match x.latest with | some b => b.proven | none => false)

/-- The station unfolds east or west where R56 or R57 is met. -/
def Node.tryUnfold (n : Node) (side : Side) : Node :=
  match n.link.fold, side with
  | .foldedEast, .east => if n.link.east.restored then n.changeFold .whole side false else n
  | .foldedWest, .west => if n.link.west.restored then n.changeFold .whole side false else n
  | _, _ => n

/-- A link has become UP: ISOLATED is left toward it (R55), or the station unfolds (R56, R57). -/
def Node.foldOnUp (n : Node) (side : Side) : Node :=
  match n.link.fold with
  | .isolated =>
    (n.changeFold (match side with | .east => .foldedWest | .west => .foldedEast) side false).linkIsUp
  | _ => n.tryUnfold side

/-! ### Link states (R48, R49, R50) -/

/-- PROVING is entered: the hold-off starts and a link report is posted (R48). -/
def Node.startProving (n : Node) (side : Side) (cause : LinkCause) : Node :=
  (n.updateSide side fun x => { x with link := .proving, holdOff := some n.fullHoldOff }).postLink side cause

/-- A side in PROVING or UP goes DOWN: the hold-off stops, the count rises, a report is posted, and the fold rules
act if it was UP (R50). -/
def Node.goDown (n : Node) (side : Side) (cause : LinkCause) : Node :=
  if (n.side side).link = .down then n
  else
    let n1 := (n.updateSide side fun x =>
      { x with link := .down, holdOff := none, linkDown := x.linkDown.inc }).postLink side cause
    if (n.side side).link = .up then n1.foldOnLoss side else n1

/-- The hold-off count has reached 0: the link is UP and the fold rules act (R49). -/
def Node.becomeUp (n : Node) (side : Side) : Node :=
  ((n.updateSide side fun x => { x with link := .up, holdOff := none }).postLink side .proven).foldOnUp side

/-- A receiver gains lock (R45, R48). -/
def Node.gainLock (n : Node) (side : Side) : Node :=
  let n1 := n.updateSide side fun x => { x.cleared with lock := true }
  if (n.side side).link = .down then n1.startProving side .lockGained else n1

/-- A receiver loses lock (R45, R50). -/
def Node.loseLock (n : Node) (side : Side) : Node :=
  (n.updateSide side fun x => { x.cleared with lock := false }).goDown side .lockLost

/-- A side in DOWN whose receiver holds lock re-arms (R48). -/
def Node.reArm (n : Node) (side : Side) : Node :=
  if (n.side side).link = .down ∧ (n.side side).lock = true then n.startProving side .reArmed else n

/-- A good beacon's effect, after it has become the side's latest: the far-end rule, the re-arm outside a quiet
period, and the unfold (R48, R50, R56, R57, R64).  A beacon that reports proven but not hears fits both the far-end rule and
an unfold of a folded station: the model takes FAR END alone, and the side that goes DOWN does not unfold (DESIGN CHOICE,
assumption 40). -/
def Node.takeBeacon (n : Node) (side : Side) (b : Beacon) : Node :=
  let n1 := n.updateSide side fun x => { x.goodItem with latest := some b }
  if (n.side side).link = .down then
    if b.hears && n.link.quiet.isNone then n1.reArm side else n1
  else if b.hears then n1.tryUnfold side
  else n1.goDown side .farEnd

/-! ### Steering (R51) -/

/-- The active primary input of a fold state (Table 3-2). -/
def FoldState.input : FoldState → Option Side
  | .whole => some .west
  | .foldedEast => some .west
  | .foldedWest => some .east
  | .isolated => none

/-- The primary output of a fold state (Table 3-2). -/
def FoldState.output : FoldState → Option Side
  | .whole => some .east
  | .foldedEast => some .west
  | .foldedWest => some .east
  | .isolated => none

/-- A frame is acceptable for an early unfold (R58). -/
def Node.acceptable (n : Node) (h : SixBytes) : Bool :=
  match Station.ofByte (headOrigin h) with
  | some o =>
    !headRebuilt h && o != n.station
      && (match n.cadence.followed with | some f => decide (o ≤ f) | none => true)
  | none => false

/-- The early unfold on a frame (R58). -/
def Node.earlyUnfold (n : Node) : Node :=
  { n with link := { n.link with earlyUnfold := n.link.earlyUnfold.inc } }.changeFold .whole .west true

/-! ### Beacons sent (R47) and the quiet period (R64) -/

/-- A side's beacon as it is sent at this moment (R46, R47). -/
def Node.beaconOf (n : Node) (side : Side) : SixBytes :=
  makeBeacon n.station side (n.side side).hears ((n.side side).link == .up) n.link.fold

/-- A transmitter sends the one beacon due before the next boundary, outside a quiet period (R47, R64). -/
def Node.sendBeacon (n : Node) (side : Side) : Node :=
  if (n.side side).beaconDue && n.link.quiet.isNone then
    (n.updateSide side fun x => { x with beaconDue := false }).transmit side (.beacon (n.beaconOf side))
  else n

/-- A side whose latest beacon reports hears re-arms at the end of the quiet period (R48, R64). -/
def Node.reArmIfHeard (n : Node) (side : Side) : Node :=
  match (n.side side).latest with
  | some b => if b.hears then n.reArm side else n
  | none => n

/-- The quiet period ends: the transmitters send beacons again and the sides heard re-arm (R64), East before West (DEDUCED,
assumption 20). -/
def Node.endQuiet (n : Node) : Node :=
  (({ n with link := { n.link with quiet := none } } : Node).reArmIfHeard .east).reArmIfHeard .west

/-- A side at a ring restart: DOWN with cause RESTART if it was not, and its report posted; then its counts and
latest beacon cleared, its lock kept, no link-down counted (R64). -/
def Node.restartSide (n : Node) (side : Side) : Node :=
  let n1 := n.updateSide side fun x => { x with link := .down, holdOff := none }
  let n2 := if (n.side side).link = .down then n1 else n1.postLink side .restart
  n2.updateSide side SideState.cleared

/-- Both sides and the fold state at a ring restart, and the quiet period of 24 boundaries (R64). -/
def Node.restartLinks (n : Node) : Node :=
  let n1 := (n.restartSide .east).restartSide .west
  let n2 := if n.link.fold = .isolated then n1
    else { n1 with link := { n1.link with fold := .isolated } }.post (.fold .isolated n.link.fold none false)
  { n2 with link := { n2.link with quiet := some Config.quietPeriod } }

end Sys2Proof.Machine
end

