-- ==== Sys2Proof/Machine/Mixes.lean ====
section
/-! DEFINITION. The Monitor Mix Engine (Section 8): ramps, the crosspoint store, MIX GAIN and MIX MASTER, talk
settings, and the computing of a mix. -/

namespace Sys2Proof.Machine

open Sys2Proof

/-! ### Ramps (R136, R143) -/

/-- A retarget: the start is the current value and the step count 0; a length of 0 is PENDING (R140). -/
def Ramp.retarget (r : Ramp) (target : Coef) (length : Nat) : Ramp :=
  { r with target := target, phase := if length = 0 then .pending else .ramping r.value length 0 }

/-- The value of a ramp after `step` steps of `length`: start + trunc((target − start) × step / length) (R143). -/
def rampValue (start target : Coef) (step length : Nat) : Coef :=
  BitVec.ofInt 24
    ((start.toNat : Int) + (((target.toNat : Int) - (start.toNat : Int)) * (step : Int)).tdiv (length : Int))

/-- A coefficient's step at a boundary (R143). -/
def Ramp.step (r : Ramp) : Ramp :=
  match r.phase with
  | .settled => r
  | .pending => { r with value := r.target, phase := .settled }
  | .ramping start length k =>
    if length ≤ k + 1 then { r with value := r.target, phase := .settled }
    else { r with value := rampValue start r.target (k + 1) length, phase := .ramping start length (k + 1) }

/-- A ramp SETTLED with a target of 0. -/
def Ramp.settledAtZero (r : Ramp) : Bool := r.phase == .settled && r.target == 0#24

/-! ### The crosspoint store (R137) -/

/-- The crosspoint of a slot in a list. -/
def findCrosspoint (l : List Crosspoint) (s : Fin 128) : Option Crosspoint := l.find? fun c => c.slot == s

/-- A crosspoint linked in at its slot's place (R137). -/
def linkCrosspoint (c : Crosspoint) : List Crosspoint → List Crosspoint
  | [] => [c]
  | d :: l => if c.slot < d.slot then c :: d :: l else d :: linkCrosspoint c l

/-- The crosspoint of a slot changed by `f`. -/
def updateCrosspoint (l : List Crosspoint) (s : Fin 128) (f : Crosspoint → Crosspoint) : List Crosspoint :=
  l.map fun c => if c.slot = s then f c else c

/-- The crosspoints in use over the mixes of a list. -/
def crosspointsIn (ms : List Mix) : Nat := (ms.map fun x => x.crosspoints.length).sum

/-! ### Requests (R138 to R142) -/

/-- The owner check (R138): the owner is 0 or the sender. -/
def Mix.admits (x : Mix) (sender : Station) : Bool :=
  match x.owner with
  | none => true
  | some o => o == sender

/-- A MIX GAIN's fields (Table 12-5). -/
structure MixGainRequest where
  mix : Fin 24
  slot : Fin 128
  target : Coef
  ramp : Nat
deriving DecidableEq, Repr

/-- The detail of a MIX GAIN's answer (R141, R188). -/
def mixGainDetail (crosspoints free : Nat) (current target : Coef) : List Byte :=
  [byteOf crosspoints] ++ countBytes free ++ bytes24 current ++ bytes24 target

/-- The mix engine with one mix's crosspoint list and the free count replaced. -/
def MixEngine.setCrosspoints (e : MixEngine) (m : Fin 24) (l : List Crosspoint) (free : Nat) : MixEngine :=
  { mixes := e.mixes.update m fun x => { x with crosspoints := l }, freeCrosspoints := free }

/-- MIX GAIN as the Mix Engine carries it out (R138 to R141). -/
def MixEngine.mixGain (e : MixEngine) (r : MixGainRequest) (sender : Station) : Reply × MixEngine :=
  let x := e.mixes.get r.mix
  if !x.admits sender then
    ({ outcome := .locked, detail := [Station.byteOrZero x.owner] }, e)
  else
    match findCrosspoint x.crosspoints r.slot with
    | none =>
      if r.target = 0#24 then
        ({ outcome := .already, detail := mixGainDetail x.crosspoints.length e.freeCrosspoints 0#24 0#24 }, e)
      else if e.freeCrosspoints = 0 then
        ({ outcome := .storeFull, detail := mixGainDetail x.crosspoints.length e.freeCrosspoints 0#24 0#24 }, e)
      else
        let c : Crosspoint := { slot := r.slot, gain := (Ramp.settledAt 0#24).retarget r.target r.ramp }
        ({ outcome := .done,
           detail := mixGainDetail (x.crosspoints.length + 1) (e.freeCrosspoints - 1) 0#24 r.target },
          e.setCrosspoints r.mix (linkCrosspoint c x.crosspoints) (e.freeCrosspoints - 1))
    | some c =>
      if c.gain.target = r.target then
        ({ outcome := .already,
           detail := mixGainDetail x.crosspoints.length e.freeCrosspoints c.gain.value c.gain.target }, e)
      else
        ({ outcome := .done,
           detail := mixGainDetail x.crosspoints.length e.freeCrosspoints c.gain.value r.target },
          e.setCrosspoints r.mix
            (updateCrosspoint x.crosspoints r.slot fun d => { d with gain := d.gain.retarget r.target r.ramp })
            e.freeCrosspoints)

/-- MIX MASTER as the Mix Engine carries it out (R138, R142). -/
def MixEngine.mixMaster (e : MixEngine) (m : Fin 24) (target : Coef) (ramp : Nat) (sender : Station) :
    Reply × MixEngine :=
  let x := e.mixes.get m
  if !x.admits sender then
    ({ outcome := .locked, detail := [Station.byteOrZero x.owner] }, e)
  else
    let detail := bytes24 x.master.value ++ bytes24 x.master.target ++ bytes24 target
    if x.master.target = target then ({ outcome := .already, detail := detail }, e)
    else
      ({ outcome := .done, detail := detail },
        { e with mixes := e.mixes.update m fun y => { y with master := y.master.retarget target ramp } })

/-! ### Talk settings (R145) -/

/-- A target of a talk setting: a differing one retargets, an equal one leaves a ramp running (R145). -/
def Ramp.setting (r : Ramp) (target : Coef) (length : Nat) : Ramp :=
  if r.target = target then r else r.retarget target length

/-- A talk setting taken by a mix; a feed of none is "unchanged" (R145). -/
def Mix.takeSetting (x : Mix) (duck level : Coef) (feed : Option Key) (duckRamp : Nat) : Mix :=
  { x with duck := x.duck.setting duck duckRamp, talkLevel := x.talkLevel.setting level duckRamp,
           feed := feed.or x.feed }

/-! ### Computing (R143, R144, R147 to R150) -/

/-- The ramp steps of a mix, and the removal of crosspoints settled at 0 (R143, R144). -/
def Mix.stepRamps (x : Mix) : Mix :=
  { x with master := x.master.step, duck := x.duck.step, talkLevel := x.talkLevel.step,
           crosspoints :=
             (x.crosspoints.map fun c => { c with gain := c.gain.step }).filter fun c => !c.gain.settledAtZero }

/-- Every ramp of the engine steps; each crosspoint removed returns to the store (R143, R144). -/
def MixEngine.stepRamps (e : MixEngine) : MixEngine :=
  let stepped := e.mixes.map Mix.stepRamps
  { mixes := stepped,
    freeCrosspoints := e.freeCrosspoints + (crosspointsIn e.mixes.items - crosspointsIn stepped.items) }

/-- A product shifted back by 20 with the rounding constant 2^19 (R148). -/
def roundShift (x : Int) : Int := (x + 524288) >>> (20 : Nat)

/-- A sample's product with a coefficient, at full width (R148). -/
def product (x : Int) (c : Coef) : Int := x * (c.toNat : Int)

/-- The accumulator of one sample period: the sum over the mix's crosspoints (R148). -/
def accumulate (cs : List Crosspoint) (sample : Fin 128 → Sample) : Int :=
  (cs.map fun c => product (sample c.slot).toInt c.gain.value).sum

/-- The sum of the three stages for one sample period (R149). -/
def Mix.sum (x : Mix) (program talk : Int) : Int :=
  roundShift (product (roundShift (product program x.master.value)) x.duck.value)
    + roundShift (product talk x.talkLevel.value)

/-- The clamp into the sample range (R150). -/
def clampSample (s : Int) : Sample :=
  if 8388607 < s then 8388607#24 else if s < -8388608 then 8388608#24 else BitVec.ofInt 24 s

/-- A sum lies outside the sample range, so the clamp changes it (R150). -/
def isClamped (s : Int) : Bool := decide (8388607 < s) || decide (s < -8388608)

/-- The sums of a mix for the 8 sample periods of a frame, from the slot frames and the talk feed's read
(R148, R149). -/
def Mix.sums (x : Mix) (slots : Table 128 AudioFrame) (talk : AudioFrame) : Table 8 Int :=
  Table.ofFn fun i =>
    x.sum (roundShift (accumulate x.crosspoints fun s => (slots.get s).get i)) (talk.get i).toInt

/-- A mix computed for a boundary: its output frame, and its clip count raised once if any sample was clamped
(R150). -/
def Mix.compute (x : Mix) (slots : Table 128 AudioFrame) (talk : AudioFrame) : Mix :=
  let s := x.sums slots talk
  { x with output := s.map clampSample, clip := if s.items.any isClamped then x.clip.inc else x.clip }

/-- The feed is released after a boundary at which the talk level's target and value are 0 (R146). -/
def Mix.releaseFeed (x : Mix) : Mix :=
  if x.talkLevel.target = 0#24 ∧ x.talkLevel.value = 0#24 then { x with feed := none } else x

end Sys2Proof.Machine
end

