-- ==== Sys2Proof/Machine/Taps.lean ====
section
/-! DEFINITION. The tap table (Section 5) and the arrivals at its jitter buffers (R109). -/

namespace Sys2Proof.Machine

open Sys2Proof

/-! ### The table (R86 to R88) -/

/-- The bucket of a key: (channel + 21 × (station − 1)) mod 64 (R88). -/
def Key.bucket (k : Key) : Fin 64 := ⟨(k.channel.val + 21 * k.station.val) % 64, Nat.mod_lt _ (by omega)⟩

/-- A newly made entry (R87, R108). -/
def TapEntry.fresh (k : Key) : TapEntry :=
  { key := k, slot := none, alternate := none, autoReturn := false, backs := 0, talkUsers := 0,
    conflict := false, onAlternate := false, buffer := Table.replicate 64 none, conceal := 4,
    lastGood := silentFrame, lastPlayed := none, returnHold := 0, absent := 0#16, late := 0#16,
    stale := 0#16 }

/-- The entry of that number holds that key. -/
def Taps.holds (t : Taps) (k : Key) (e : EntryNo) : Bool :=
  match t.entries.get e with
  | some x => x.key == k
  | none => false

/-- The lookup of a key: its bucket's chain from the head to the entry holding the key (R88). -/
def Taps.lookup (t : Taps) (k : Key) : Option EntryNo := (t.chains.get k.bucket).find? (t.holds k)

/-- The entry in use that holds a key. -/
def Taps.entryOf (t : Taps) (k : Key) : Option TapEntry := (t.lookup k).bind fun e => t.entries.get e

/-- An entry in use changed by `f`. -/
def Taps.updateEntry (t : Taps) (e : EntryNo) (f : TapEntry → TapEntry) : Taps :=
  { t with entries := t.entries.update e (Option.map f) }

/-- A new entry for a key: the head of the free list, at the tail of its bucket's chain (R87, R88). -/
def Taps.create (t : Taps) (k : Key) : Taps :=
  match t.free with
  | [] => t
  | e :: rest =>
    { t with entries := t.entries.set e (some (TapEntry.fresh k)), free := rest,
             chains := t.chains.update k.bucket (· ++ [e]) }

/-- A new entry for a key that has none (R97). -/
def Taps.ensure (t : Taps) (k : Key) : Taps := if (t.lookup k).isSome then t else t.create k

/-- An entry is freed: unlinked from its chain, its fields discarded, at the free list's tail (R87). -/
def Taps.freeEntry (t : Taps) (e : EntryNo) : Taps :=
  match t.entries.get e with
  | none => t
  | some x =>
    { t with entries := t.entries.set e none, free := t.free ++ [e],
             chains := t.chains.update x.key.bucket (·.filter (· != e)) }

/-- The free check of R90: an entry with no slot binding, backs 0 and talk users 0 is freed. -/
def Taps.freeCheck (t : Taps) (e : EntryNo) : Taps :=
  match t.entries.get e with
  | some x => if x.slot.isNone && x.backs == 0 && x.talkUsers == 0 then t.freeEntry e else t
  | none => t

/-- The backs of a key's entry moved by one (R101). -/
def Taps.addBack (t : Taps) (k : Key) : Taps :=
  match t.lookup k with
  | some e => t.updateEntry e fun x => { x with backs := x.backs + 1 }
  | none => t

/-- The backs of a key's entry lowered by one (R101). -/
def Taps.dropBack (t : Taps) (k : Key) : Taps :=
  match t.lookup k with
  | some e => t.updateEntry e fun x => { x with backs := x.backs - 1 }
  | none => t

/-- The new entries a list of keys needs: those with no entry. -/
def Taps.missing (t : Taps) (ks : List Key) : List Key := ks.filter fun k => (t.lookup k).isNone

/-- Every chain would hold at most 8 entries after these new keys joined it (R95, R103). -/
def Taps.chainsHave (t : Taps) (new : List Key) : Bool :=
  new.all fun k =>
    decide ((t.chains.get k.bucket).length + (new.filter (fun j => j.bucket == k.bucket)).length
      ≤ Config.chainLimit)

/-- TABLE LOW is posted when the free count fell below the mark while it stood at or above it before (R89). -/
def Node.judgeTableLow (n : Node) (before : Nat) : Node :=
  if n.loader.values.lowFreeMark ≤ before ∧ n.taps.free.length < n.loader.values.lowFreeMark then
    n.post (.tableLow n.taps.free.length n.loader.values.lowFreeMark)
  else n

/-! ### Release (R90) -/

/-- An entry with no slot binding and no alternate, in NORMAL (R90, R120). -/
def TapEntry.released (x : TapEntry) : TapEntry :=
  { x with slot := none, alternate := none, autoReturn := false, onAlternate := false, returnHold := 0 }

/-- The entries whose free check a release of this entry calls for: itself and its alternate's (R90). -/
def Taps.releaseTouches (t : Taps) (e : EntryNo) : List EntryNo :=
  match t.entries.get e with
  | some x => e :: ((x.alternate.bind t.lookup).toList)
  | none => []

/-- The release of an entry's slot and alternate (R90). -/
def Node.releaseEntry (n : Node) (e : EntryNo) : Node :=
  match n.taps.entries.get e with
  | none => n
  | some x =>
    let n1 := match x.slot with
      | some s => n.unbindSlot s
      | none => n
    let n2 := match x.alternate with
      | some k => n1.updateTaps (·.dropBack k)
      | none => n1
    n2.updateTaps (·.updateEntry e TapEntry.released)

/-- Free checks on several entries in order. -/
def Taps.freeChecks (t : Taps) (es : List EntryNo) : Taps := es.foldl Taps.freeCheck t

/-! ### TAP SET (R92 to R97) -/

/-- A TAP SET's fields (Table 12-5). -/
structure TapSetRequest where
  key : Key
  slot : Option (Fin 128)
  alternate : Option Key
  update : Bool
  take : Bool
  autoReturn : Bool
deriving DecidableEq, Repr

/-- The slot choice of a TAP SET: none, a slot, or out of range (R187). -/
def readSlotChoice (b : Byte) : Option (Option (Fin 128)) :=
  if b = 255#8 then some none
  else if h : b.toNat < 128 then some (some ⟨b.toNat, h⟩) else none

/-- The alternate key at bytes 9 and 10: none for station 0, a key, or out of range (R187). -/
def readAlternate (u : FrameUnit) : Option (Option Key) :=
  if u.byte 9 = 0#8 then some none else (messageKey u 9).map some

/-- A TAP SET's fields, or none where a check of R68 fails. -/
def readTapSet (u : FrameUnit) : Option TapSetRequest :=
  match messageKey u 6, readSlotChoice (u.byte 8), readAlternate u with
  | some key, some slot, some alternate =>
    some { key := key, slot := slot, alternate := alternate, update := (u.byte 11).getLsbD 0,
           take := (u.byte 11).getLsbD 1, autoReturn := (u.byte 11).getLsbD 2 }
  | _, _, _ => none

/-- The answer to a TAP SET with its detail (R97, R188): the entries of the key and the alternate, the free count
and the entries freed, and what a CONFLICT or SLOT BUSY adds. -/
def tapSetReply (outcome : Answer) (r : TapSetRequest) (t : Taps) (freed : Nat) (more : List Byte) : Reply :=
  { outcome := outcome,
    detail := entryBytesOrNone (t.lookup r.key) ++ entryBytesOrNone (r.alternate.bind t.lookup)
      ++ countBytes t.free.length ++ [byteOf freed] ++ more }

/-- The present binding in a SLOT BUSY detail (R188). -/
def bindingBytes (t : Taps) : Binding → List Byte
  | .unbound => [0#8, 0#8, 0#8]
  | .localChannel c => [1#8, byteOf c.val, 0#8]
  | .tap e => 2#8 :: (match t.entries.get e with | some x => keyBytes x.key | none => [0#8, 0#8])

/-- The first check (R92): the request's own fields. -/
def TapSetRequest.badField (r : TapSetRequest) (own : Station) : Bool :=
  r.slot.isNone || r.alternate == some r.key || r.key.station == own
    || (match r.alternate with | some a => a.station == own | none => false)

/-- The keys a TAP SET needs entries for (R95). -/
def TapSetRequest.keys (r : TapSetRequest) : List Key := r.key :: r.alternate.toList

/-- Step 1 of the commit (R97): the slot is taken from another entry or from a local channel. -/
def Node.theft (n : Node) (r : TapSetRequest) (s : Fin 128) : Node :=
  match n.router.bindings.get s with
  | .unbound => n
  | .localChannel _ => n.unbindSlot s
  | .tap e => if n.taps.lookup r.key = some e then n else n.releaseEntry e

/-- The entries that step 1 lowers. -/
def Node.theftTouches (n : Node) (r : TapSetRequest) (s : Fin 128) : List EntryNo :=
  match n.router.bindings.get s with
  | .tap e => if n.taps.lookup r.key = some e then [] else n.taps.releaseTouches e
  | _ => []

/-- Step 2 of the commit (R97): a replacement's old slot is set to NONE when it differs, and its old alternate
loses one from its backs. -/
def Node.releaseOld (n : Node) (r : TapSetRequest) (s : Fin 128) : Node :=
  match n.taps.entryOf r.key with
  | none => n
  | some x =>
    let n1 := match x.slot with
      | some old => if old = s then n else n.unbindSlot old
      | none => n
    match x.alternate with
      | some k => n1.updateTaps (·.dropBack k)
      | none => n1

/-- The entries that step 2 lowers. -/
def Node.oldTouches (n : Node) (r : TapSetRequest) : List EntryNo :=
  match n.taps.entryOf r.key with
  | none => []
  | some x => (x.alternate.bind n.taps.lookup).toList

/-- Steps 3 and 4 of the commit (R97): new entries, the key's first, then the binding. -/
def Node.bindKey (n : Node) (r : TapSetRequest) (s : Fin 128) : Node :=
  let n1 := n.updateTaps fun t => r.keys.foldl Taps.ensure t
  match n1.taps.lookup r.key with
  | none => n1
  | some e =>
    (n1.bindSlot s e).updateTaps fun t =>
      let t1 := t.updateEntry e fun x =>
        { x with slot := some s, alternate := r.alternate, autoReturn := r.autoReturn, onAlternate := false,
                 returnHold := 0 }
      match r.alternate with
      | some a => t1.addBack a
      | none => t1

/-- The commit of a TAP SET that passed its checks, in the order of R97.  Step 5 gives its free checks no order among
themselves: the model checks the entry that lost the slot, then that entry's alternate, then the key's old alternate
(DESIGN CHOICE, assumption 34). -/
def Node.commitTapSet (n : Node) (r : TapSetRequest) (s : Fin 128) : Reply × Node :=
  let before := n.taps.free.length
  let n1 := n.theft r s
  let n2 := n1.releaseOld r s
  let n4 := n2.bindKey r s
  let n5 := n4.updateTaps (·.freeChecks (n.theftTouches r s ++ n1.oldTouches r))
  (tapSetReply .done r n5.taps (n5.taps.free.length - n4.taps.free.length) [], n5.judgeTableLow before)

/-- The fourth check (R96): the slot is NONE, is TAP of this key's own entry, or may be taken. -/
def Node.slotCheck (n : Node) (r : TapSetRequest) (s : Fin 128) : Reply × Node :=
  let busy := (tapSetReply .slotBusy r n.taps 0 (bindingBytes n.taps (n.router.bindings.get s)), n)
  match n.router.bindings.get s with
  | .unbound => n.commitTapSet r s
  | .localChannel _ => if r.take then n.commitTapSet r s else busy
  | .tap e => if n.taps.lookup r.key = some e ∨ r.take then n.commitTapSet r s else busy

/-- The third check (R95): room in the table, then in the chains. -/
def Node.roomCheck (n : Node) (r : TapSetRequest) (s : Fin 128) : Reply × Node :=
  let new := n.taps.missing r.keys
  if n.taps.free.length < new.length then (tapSetReply .tableFull r n.taps 0 [], n)
  else if n.taps.chainsHave new then n.slotCheck r s
  else (tapSetReply .chainFull r n.taps 0 [], n)

/-- TAP SET as the Tap Controller carries it out: the checks of R92 to R96 in order, then the commit of R97. -/
def Node.tapSet (n : Node) (r : TapSetRequest) : Reply × Node :=
  if r.badField n.station then (tapSetReply .badField r n.taps 0 [], n)
  else
    match r.slot, n.taps.lookup r.key, n.taps.entryOf r.key with
    | some s, some e, some x =>
      match x.slot with
      | some old =>
        if old = s ∧ x.alternate = r.alternate ∧ x.autoReturn = r.autoReturn then
          (tapSetReply .already r n.taps 0 [], n)
        else if r.update then n.roomCheck r s
        else
          (tapSetReply .conflict r n.taps 0 (slotByteOrNone x.slot :: keyBytesOrNone x.alternate),
            n.updateTaps fun t =>
              { t.updateEntry e (fun y => { y with conflict := true }) with
                conflictCount := t.conflictCount.inc })
      | none => n.roomCheck r s
    | some s, _, _ => n.roomCheck r s
    | none, _, _ => (tapSetReply .badField r n.taps 0 [], n)

/-! ### TAP DROP (R98) -/

/-- TAP DROP as the Tap Controller carries it out (R98). -/
def Node.tapDrop (n : Node) (k : Key) : Reply × Node :=
  match n.taps.lookup k with
  | none => ({ outcome := .notFound, detail := [0#8] ++ countBytes n.taps.free.length ++ [0#8] }, n)
  | some e =>
    let before := n.taps.free.length
    let n1 := (n.releaseEntry e).updateTaps (·.freeChecks (n.taps.releaseTouches e))
    ({ outcome := .done,
       detail := [byteOf (n1.taps.free.length - before)] ++ countBytes n1.taps.free.length
         ++ [if (n1.taps.lookup k).isSome then 1#8 else 0#8] },
      n1.judgeTableLow before)

/-! ### TAP CLEAR (R99, R100) -/

/-- The walk of one entry of a bucket: released if it has a slot binding, then the free checks (R99). -/
def Node.walkEntry (n : Node) (e : EntryNo) : Node :=
  match n.taps.entries.get e with
  | some x =>
    if x.slot.isSome then (n.releaseEntry e).updateTaps (·.freeChecks (n.taps.releaseTouches e)) else n
  | none => n

/-- One walk step: the next bucket's chain from its head; each entry freed adds one to the walk count (R99). -/
def Node.walkStep (n : Node) : Node :=
  match n.taps.walk with
  | none => n
  | some w =>
    if h : w.bucket < 64 then
      let n1 := (n.taps.chains.get ⟨w.bucket, h⟩).foldl Node.walkEntry n
      n1.updateTaps fun t =>
        { t with walk := some { bucket := w.bucket + 1,
                                freed := w.freed + (t.free.length - n.taps.free.length) } }
    else n

/-- The entries in use. -/
def Taps.inUse (t : Taps) : List EntryNo := (List.finRange 256).filter fun e => (t.entries.get e).isSome

/-! ### Talk users (R102, R103) -/

/-- The answers to a talk-source question. -/
inductive SourceAnswer where
  | present (entry : EntryNo)
  | room
  | tableFull
  | chainFull
deriving DecidableEq, Repr

/-- The talk-source question for a key (R102). -/
def Taps.sourceQuestion (t : Taps) (k : Key) : SourceAnswer :=
  match t.lookup k with
  | some e => .present e
  | none =>
    if t.free.length = 0 then .tableFull
    else if (t.chains.get k.bucket).length < Config.chainLimit then .room else .chainFull

/-- One key's talk users moved by a signed change (R103). -/
def Taps.moveTalkUsers (t : Taps) (c : Key × Int) : Taps :=
  match t.lookup c.1 with
  | some e => t.updateEntry e fun x => { x with talkUsers := ((x.talkUsers : Int) + c.2).toNat }
  | none => t

/-- A talk-user change taken whole, in the order of R103.  Entries that it frees join the free list in the order in which
the change names their keys (DESIGN CHOICE, assumption 34). -/
def Node.talkUserChange (n : Node) (changes : List (Key × Int)) : Answer × Node :=
  let new := n.taps.missing ((changes.filter fun c => decide (0 < c.2)).map Prod.fst)
  if n.taps.free.length < new.length then (.tableFull, n)
  else if !n.taps.chainsHave new then (.chainFull, n)
  else
    let t1 := new.foldl Taps.ensure n.taps
    let t2 := changes.foldl Taps.moveTalkUsers t1
    let fell := (changes.filter fun c => decide (c.2 < 0)).filterMap fun c => t2.lookup c.1
    (.done, (n.updateTaps fun _ => t2.freeChecks fell).judgeTableLow n.taps.free.length)

/-! ### Arrivals (R91, R109) -/

/-- The place of a capture index in a buffer of W places (R108). -/
def Window.place (w : Window) (index : Byte) : Fin 64 :=
  ⟨index.toNat % w.frames, by cases w <;> simp only [Window.frames] <;> omega⟩

/-- An arrival at an entry, at an age below W (R109): stored, and late when the age is greater than P_eff. -/
def TapEntry.store (x : TapEntry) (w : Window) (index : Byte) (samples : AudioFrame) (late : Bool) : TapEntry :=
  { x with buffer := x.buffer.set (w.place index) (some (index, samples)),
           late := if late then x.late.inc else x.late }

/-- A maximum with a value that may be none. -/
def maxOrNone (o : Option Nat) (a : Nat) : Option Nat :=
  match o with
  | some b => some (max b a)
  | none => some a

/-- A channel that the Frame Engine hands over (R91, R109): ignored without an entry, discarded as stale, or
stored; a late one records a raise request of age + 1. -/
def Taps.arrive (t : Taps) (w : Window) (localCount : Byte) (k : Key) (index : Byte) (samples : AudioFrame) : Taps :=
  match t.lookup k with
  | none => t
  | some e =>
    let age := (localCount - index).toNat
    if w.frames ≤ age then t.updateEntry e fun x => { x with stale := x.stale.inc }
    else
      let late := decide (t.pEff < age)
      { t.updateEntry e (fun x => x.store w index samples late) with
        largestAge := maxOrNone t.largestAge age,
        raise := if late then maxOrNone t.raise (age + 1) else t.raise }

end Sys2Proof.Machine
end

