-- ==== Sys2Proof/Machine/Talk.lean ====
section
/-! DEFINITION. Talkback (Section 9): the desk side's keys, pending events and RESULTs, and the stage side's talk
lists, notices and settings. -/

namespace Sys2Proof.Machine

open Sys2Proof

/-! ### The desk side: events and messages (R156, R157) -/

/-- A key's image fields. -/
def Node.keyImage (n : Node) (k : Fin 4) : KeyImage := n.loader.values.keys.get k

/-- A key's destination is this station's own number (R157). -/
def Node.keyIsOwn (n : Node) (k : Fin 4) : Bool := (n.keyImage k).destination == n.station.byte

/-- A key's message tag: 4 × serial + key number (R156). -/
def keyTag (serial : Fin 64) (k : Fin 4) : Byte := byteOf (4 * serial.val + k.val)

/-- The key a tag belongs to: its remainder after division by 4 (R156). -/
def keyOfTag (tag : Byte) : Fin 4 := ⟨tag.toNat % 4, Nat.mod_lt _ (by omega)⟩

/-- The message of an event, built from the key record as it stands (R156). -/
def Node.talkMessage (n : Node) (k : Fin 4) (ev : TalkEvent) : FrameUnit :=
  let i := n.keyImage k
  let common (kind : Byte) : List Byte :=
    [kind, n.station.byte, i.destination, keyTag (n.talk.keys.get k).serial k, 0#8, 0#8]
  match ev with
  | .openTalk =>
    unitOf (common kindTalkOpen ++ keyBytes { station := n.station, channel := i.channel }
      ++ bytes24 i.mask ++ [i.priority] ++ bytes24 i.dim ++ bytes24 i.level)
  | .keep => unitOf (common kindTalkKeep ++ bytes24 i.mask)
  | .close => unitOf (common kindTalkClose ++ bytes24 i.mask)

/-- A key's event leaves it: the pending event goes, the serial advances, the key leaves the order (R156, R157). -/
def Node.eventLeaves (n : Node) (k : Fin 4) : Node :=
  let n1 := n.updateKey k fun x => { x with event := none, serial := x.serial + 1 }
  { n1 with talk := { n1.talk with pendingOrder := n1.talk.pendingOrder.filter (· != k) } }

/-- A pending event of a key whose destination is this station is handed to the Message Controller; it stays
pending on QUEUE FULL (R157). -/
def Node.handOwnEvent (n : Node) (k : Fin 4) : Node :=
  match (n.talk.keys.get k).event with
  | some ev =>
    if n.keyIsOwn k then
      match n.selfAddress (n.talkMessage k ev) .talk with
      | some n1 => n1.eventLeaves k
      | none => n
    else n
  | none => n

/-- While a talk slot is FREE, the event of the first key in the pending order that leaves through a slot is
placed in the lower-numbered FREE one (R157): one placing. -/
def Node.placeOneTalk (n : Node) : Node :=
  match n.messages.freeSlot talkSlots, n.talk.pendingOrder.find? fun k => !n.keyIsOwn k with
  | some i, some k =>
    match (n.talk.keys.get k).event with
    | some ev => (n.placeMessage i (n.talkMessage k ev)).eventLeaves k
    | none => n
  | _, _ => n

/-- The placing of pending talk events: there are two talk slots, so twice (R157). -/
def Node.placeTalk (n : Node) : Node := n.placeOneTalk.placeOneTalk

/-- A new event of a key becomes pending: it replaces an older one in its place, or joins the order's tail; a KEEP
does not replace a pending OPEN (R157). -/
def Node.setEvent (n : Node) (k : Fin 4) (ev : TalkEvent) : Node :=
  let n1 := n.updateKey k fun x => { x with event := some ev }
  if (n.talk.keys.get k).event.isSome then n1
  else { n1 with talk := { n1.talk with pendingOrder := n1.talk.pendingOrder ++ [k] } }

/-- An event is made for a key, and leaves at once where it can (R156, R157). -/
def Node.makeEvent (n : Node) (k : Fin 4) (ev : TalkEvent) : Node :=
  if ev = .keep ∧ (n.talk.keys.get k).event = some .openTalk then n
  else
    let n1 := n.setEvent k ev
    if n1.keyIsOwn k then n1.handOwnEvent k else n1.placeTalk

/-- At a later millisecond mark, the self-addressed events that wait are handed again, oldest first (R157). -/
def Node.retryOwnEvents (n : Node) : Node := n.talk.pendingOrder.foldl Node.handOwnEvent n

/-- An OPEN is made again for a key that is PRESSED and holds no pending event (R158, R159). -/
def Node.reopen (n : Node) (k : Fin 4) : Node :=
  if (n.talk.keys.get k).pressed && (n.talk.keys.get k).event.isNone then n.makeEvent k .openTalk else n

/-! ### Settlements and RESULTs at the desk (R158, R159) -/

/-- The settlement of a talk slot (R158): an undelivered TALK OPEN is reported and made again while its key is
held.  The report has no answering station, and its masks are empty (DEDUCED, assumption 49). -/
def Node.talkSettled (n : Node) (kind tag : Byte) (d : Delivery) : Node :=
  let undelivered := d == .refused || d == .notSeen || d == .lost
  if kind == kindTalkOpen && undelivered then
    (n.post (.talk (some (keyOfTag tag)) none kind (128#8 + d.code) 0#24 0#24)).reopen (keyOfTag tag)
  else n

/-- A talk slot holds a TALK OPEN of a key (R159). -/
def Node.openInSlot (n : Node) (k : Fin 4) : Bool :=
  talkSlots.any fun i =>
    match (n.messages.slots.get i).message with
    | some u => u.kind == kindTalkOpen && keyOfTag u.tag == k
    | none => false

/-- The outcome byte of a RESULT is EVICTED or TIMED OUT (R81). -/
def isNoticeOutcome (b : Byte) : Bool := b == Answer.evicted.code || b == Answer.timedOut.code

/-- A RESULT is a NOT FOUND to a TALK KEEP (R159). -/
def isKeepMiss (u : FrameUnit) : Bool := u.byte 6 == kindTalkKeep && u.byte 8 == Answer.notFound.code

/-- The opened, NOT FOUND or notice mask of a RESULT, where Table 12-11 assigns one; what it does not assign is ignored
(R186, R188). -/
def firstMask (u : FrameUnit) : MixMask :=
  if isNoticeOutcome (u.byte 8) ∨ u.byte 6 = kindTalkOpen ∨ isKeepMiss u then u.field24 9 else 0#24

/-- The busy mask of a RESULT to a TALK OPEN; no other row of Table 12-11 assigns one (R186, R188). -/
def busyMask (u : FrameUnit) : MixMask :=
  if u.byte 6 = kindTalkOpen ∧ isNoticeOutcome (u.byte 8) = false then u.field24 12 else 0#24

/-- The talk report of a RESULT (R159): no key is named for a notice, nor where the tag matches no bound key.  A RESULT that
fits none of R159's sorts, or two of them, is reported in the same way (DEDUCED, assumption 45). -/
def Node.resultReport (n : Node) (u : FrameUnit) : ReportBody :=
  let named := !isNoticeOutcome (u.byte 8) && (n.keyImage (keyOfTag u.tag)).bound
  .talk (if named then some (keyOfTag u.tag) else none) (Station.ofByte u.sender) (u.byte 6) (u.byte 8) (firstMask u)
    (busyMask u)

/-- A RESULT that the Message Controller gives the Talkback Controller (R159): its talk report, and a NOT FOUND to a held
key's KEEP makes an OPEN where none is pending or in a talk slot. -/
def Node.talkResult (n : Node) (u : FrameUnit) : Node :=
  let n1 := n.post (n.resultReport u)
  if isKeepMiss u && (n.keyImage (keyOfTag u.tag)).bound && !n1.openInSlot (keyOfTag u.tag) then
    n1.reopen (keyOfTag u.tag)
  else n1

/-! ### Notices (R82) -/

/-- A notice joins the list, joins its mask to the entry of its desk and outcome, or is dropped (R82). -/
def Messages.addNotice (m : Messages) (x : Notice) : Messages :=
  let same (y : Notice) : Bool := y.desk == x.desk && y.evicted == x.evicted
  if m.notices.any same then
    { m with notices := m.notices.map fun y => if same y then { y with mask := y.mask ||| x.mask } else y }
  else if m.notices.length < Config.noticePlaces then { m with notices := m.notices ++ [x] }
  else { m with noticeDrop := m.noticeDrop.inc }

/-- The outcome a notice gives. -/
def Notice.outcome (x : Notice) : Answer := if x.evicted then .evicted else .timedOut

/-- The RESULT of a notice (R82): request kind TALK OPEN, tag 0, request slot none. -/
def Notice.result (x : Notice) (own : Station) (slot : Byte) : FrameUnit :=
  resultUnit own x.desk.byte 0#8 slot kindTalkOpen 255#8 x.outcome (bytes24 x.mask)

/-- A notice is given to the Message Controller: one for this station itself comes back at once as a RESULT,
without a slot (R82). -/
def Node.giveNotice (n : Node) (x : Notice) : Node :=
  if x.desk = n.station then n.talkResult (x.result n.station 255#8)
  else n.updateMessages (·.addNotice x)

/-! ### Talk lists (R160) -/

/-- A talk outranks another: a higher priority, or an equal one and a lower desk station (R160). -/
def Talk.outranks (a b : Talk) : Bool :=
  decide (b.priority < a.priority) || (a.priority == b.priority && decide (a.desk < b.desk))

/-- A talk put at its place in a list's order (R160). -/
def insertTalk (t : Talk) : List Talk → List Talk
  | [] => [t]
  | u :: l => if t.outranks u then t :: u :: l else u :: insertTalk t l

/-- A mix's flag in a mask (R187). -/
def maskHas (mask : MixMask) (m : Fin 24) : Bool := mask.getLsbD m.val

/-- The mask with the flags of these mixes (R187). -/
def maskOf (ms : List (Fin 24)) : MixMask := ms.foldl (fun acc m => acc ||| (1#24 <<< m.val)) 0#24

/-- The mixes of a mask in mix order. -/
def maskMixes (mask : MixMask) : List (Fin 24) := (List.finRange 24).filter (maskHas mask)

/-- The talk lists, mix by mix. -/
def Node.talks (n : Node) (m : Fin 24) : List Talk := (n.mixer.mixes.get m).talks

/-- A mix's talk list replaced. -/
def Node.setTalks (n : Node) (m : Fin 24) (l : List Talk) : Node := n.updateMix m fun x => { x with talks := l }

/-- A TALK OPEN's fields after the clamps of R68. -/
structure TalkOpenRequest where
  source : Key
  mask : MixMask
  priority : Nat
  dim : Coef
  level : Coef
deriving DecidableEq, Repr

/-- The clamps of R68: the priority into 1..7 and the dim to unity at most. -/
def readTalkOpen (u : FrameUnit) : Option TalkOpenRequest :=
  (messageKey u 6).map fun k =>
    { source := k, mask := u.field24 8, priority := max 1 (min 7 (u.byte 11).toNat),
      dim := if unity < u.field24 12 then unity else u.field24 12, level := u.field24 15 }

/-- The talk a request opens: its dim is held at 1,048,575 at most, its deadline is 120 (R160, R162). -/
def TalkOpenRequest.talk (r : TalkOpenRequest) (desk : Station) : Talk :=
  { desk := desk, source := r.source, priority := r.priority,
    dim := if 1048575#24 < r.dim then 1048575#24 else r.dim, level := r.level,
    deadline := Config.talkDeadline }

/-- A talk's fate on one list (R162). -/
inductive Fate where
  /-- The sender's talk takes the request's fields; the old source is given. -/
  | replace (old : Key) (list : List Talk)
  | insert (list : List Talk)
  /-- The last talk is removed. -/
  | evict (last : Talk) (list : List Talk)
  | busy
deriving DecidableEq, Repr

/-- The fate of a new talk on a list as it stands (R162). -/
def talkFate (t : Talk) (l : List Talk) : Fate :=
  match l.find? fun u => u.desk == t.desk with
  | some old => .replace old.source (insertTalk t (l.filter fun u => u.desk != t.desk))
  | none =>
    if l.length < Config.talkPlaces then .insert (insertTalk t l)
    else
      match l.getLast? with
      | some last => if t.outranks last then .evict last (insertTalk t l.dropLast) else .busy
      | none => .busy

/-- The list a fate leaves. -/
def Fate.list : Fate → Option (List Talk)
  | .replace _ l => some l
  | .insert l => some l
  | .evict _ l => some l
  | .busy => none

/-- The talk-user moves of a fate for a new source (R162). -/
def Fate.moves (source : Key) : Fate → List (Key × Int)
  | .replace old _ => [(source, 1), (old, -1)]
  | .insert _ => [(source, 1)]
  | .evict last _ => [(source, 1), (last.source, -1)]
  | .busy => []

/-- The desk a fate evicts. -/
def Fate.evicted : Fate → Option Station
  | .evict last _ => some last.desk
  | _ => none

/-- Moves summed key by key, a sum of 0 left out (R163).  The keys stand in the order in which they first appear among the
moves, which go by mix and then by place in the list (DESIGN CHOICE, assumption 34). -/
def sumMoves (moves : List (Key × Int)) : List (Key × Int) :=
  ((moves.map Prod.fst).eraseDups.map fun k =>
    (k, ((moves.filter fun c => c.1 == k).map Prod.snd).sum)).filter fun c => c.2 != 0

/-- A talk-user change handed to the Tap Controller; one with no keys is not handed (R163). -/
def Node.handTalkUsers (n : Node) (moves : List (Key × Int)) : Node :=
  let c := sumMoves moves
  if c.isEmpty then n else (n.talkUserChange c).2

/-- The talk setting a mix's list calls for (R167), taken by the Mix Engine (R145). -/
def Mix.settle (x : Mix) (duckRamp : Nat) : Mix :=
  match x.talks with
  | t :: _ => x.takeSetting t.dim t.level (some t.source) duckRamp
  | [] => x.takeSetting unity 0#24 none duckRamp

/-- A talk setting handed for each of these mixes (R167). -/
def Node.handSettings (n : Node) (ms : List (Fin 24)) : Node :=
  ms.foldl (fun s m => s.updateMix m fun x => x.settle n.loader.values.duckRamp) n

/-- One notice for each desk that lost talks, lowest station first, with the mask of the mixes (R163, R166). -/
def Node.giveNotices (n : Node) (evicted : Bool) (losses : List (Station × Fin 24)) : Node :=
  (List.finRange 16).foldl
    (fun s d =>
      let ms := (losses.filter fun l => l.1 == d).map Prod.snd
      if ms.isEmpty then s else s.giveNotice { desk := d, evicted := evicted, mask := maskOf ms }) n

/-- The answer to a TALK OPEN with its opened and busy masks (R163, R188). -/
def talkOpenReply (outcome : Answer) (opened busy : MixMask) : Reply :=
  { outcome := outcome, detail := bytes24 opened ++ bytes24 busy }

/-- TALK OPEN's decisions and commit (R162, R163). -/
def Node.commitTalkOpen (n : Node) (r : TalkOpenRequest) (desk : Station) : Reply × Node :=
  let fates := (maskMixes r.mask).map fun m => (m, talkFate (r.talk desk) (n.talks m))
  let opened := (fates.filter fun f => f.2.list.isSome).map Prod.fst
  let busy := (fates.filter fun f => f.2.list.isNone).map Prod.fst
  let n1 := n.handTalkUsers (fates.flatMap fun f => f.2.moves r.source)
  let n2 := fates.foldl
    (fun s f => match f.2.list with | some l => s.setTalks f.1 l | none => s) n1
  let n3 := n2.giveNotices true (fates.filterMap fun f => f.2.evicted.map fun d => (d, f.1))
  (talkOpenReply (if opened.isEmpty then .mixBusy else .done) (maskOf opened) (maskOf busy),
    n3.handSettings opened)

/-- TALK OPEN as the Talkback Controller carries it out (R161). -/
def Node.talkOpen (n : Node) (r : TalkOpenRequest) (desk : Station) : Reply × Node :=
  if r.source.station ≠ desk then (talkOpenReply .badField 0#24 0#24, n)
  else if r.mask = 0#24 then (talkOpenReply .done 0#24 0#24, n)
  else
    match n.taps.sourceQuestion r.source with
    | .tableFull => (talkOpenReply .tableFull 0#24 0#24, n)
    | .chainFull => (talkOpenReply .chainFull 0#24 0#24, n)
    | _ => n.commitTalkOpen r desk

/-- The masked mixes whose list holds no talk from the desk (R164). -/
def Node.notTalking (n : Node) (mask : MixMask) (desk : Station) : List (Fin 24) :=
  (maskMixes mask).filter fun m => !(n.talks m).any fun t => t.desk == desk

/-- TALK KEEP as the Talkback Controller carries it out (R164): no answer, or NOT FOUND with its mask. -/
def Node.talkKeep (n : Node) (mask : MixMask) (desk : Station) : Option Reply × Node :=
  let renewed := (maskMixes mask).foldl
    (fun s m => s.setTalks m ((s.talks m).map fun t =>
      if t.desk = desk then { t with deadline := Config.talkDeadline } else t)) n
  let missing := n.notTalking mask desk
  (if missing.isEmpty then none else some { outcome := .notFound, detail := bytes24 (maskOf missing) }, renewed)

/-- The talks that `gone` picks are removed from these mixes' lists, with one talk-user change and a setting for
each list that changed (R165, R166).  The moves go by mix and then by place in the list, which gives the keys of the change
their order (DESIGN CHOICE, assumption 34). -/
def Node.removeTalks (n : Node) (ms : List (Fin 24)) (gone : Talk → Bool) : Node :=
  let changed := ms.filter fun m => (n.talks m).any gone
  let moves := changed.flatMap fun m => ((n.talks m).filter gone).map fun t => (t.source, (-1 : Int))
  let n1 := changed.foldl (fun s m => s.setTalks m ((s.talks m).filter fun t => !gone t)) n
  (n1.handTalkUsers moves).handSettings changed

/-- TALK CLOSE as the Talkback Controller carries it out (R165). -/
def Node.talkClose (n : Node) (mask : MixMask) (desk : Station) : Node :=
  n.removeTalks (maskMixes mask) fun t => t.desk == desk

/-- The talks whose deadlines have reached 0, with their mixes (R166). -/
def Node.expired (n : Node) : List (Station × Fin 24) :=
  (List.finRange 24).flatMap fun m => ((n.talks m).filter fun t => t.deadline == 0).map fun t => (t.desk, m)

/-- The expiry of the talks whose deadlines have reached 0 (R166). -/
def Node.expireTalks (n : Node) : Node :=
  (n.removeTalks (List.finRange 24) fun t => t.deadline == 0).giveNotices false n.expired

/-- Every talk's deadline counts a millisecond (R166). -/
def Node.countDeadlines (n : Node) : Node :=
  { n with mixer := { n.mixer with mixes := n.mixer.mixes.map fun x =>
      { x with talks := x.talks.map fun t => { t with deadline := t.deadline - 1 } } } }

end Sys2Proof.Machine
end

