-- ==== Sys2Proof/Machine/Messages.lean ====
section
/-! DEFINITION. The Message Controller (Section 4): send slots and their settlement, HOLD records, offers, the
carrying out of the receive queue, STATUS REPORTs, reply grants, and its ring restart. -/

namespace Sys2Proof.Machine

open Sys2Proof

/-! ### Addressing (R66) -/

/-- A destination byte names this station, a group it is a member of, or ALL (R66, R187). -/
def Node.isDestination (n : Node) (d : Byte) : Bool :=
  d == n.station.byte || d == 255#8
    || (decide (65 ≤ d.toNat ∧ d.toNat ≤ 72) && n.loader.values.groups.getD (d.toNat - 65) false)

/-- A message unit is addressed to this station: its sender is another station and its destination takes this
station in (R14, R66). -/
def Node.isAddressed (n : Node) (u : FrameUnit) : Bool :=
  match Station.ofByte u.sender with
  | some s => s != n.station && n.isDestination u.destination
  | none => false

/-! ### Settlement (R73, R74) -/

/-- A slot that holds a message is settled with a delivery, by its kind (R73).  The Talkback Controller is given a talk
slot's delivery first and the slot then becomes FREE (R74), so an OPEN that is made again meanwhile finds it still taken;
behind that, the freed slot takes a pending event (R157).  R73 and R85 are read in the order of R74 (DEDUCED,
assumption 35). -/
def Node.settleSlot (n : Node) (i : Fin 8) (d : Delivery) : Node :=
  match (n.messages.slots.get i).message with
  | none => n
  | some u =>
    let freed (m : Node) : Node := m.updateMessages (·.freeUp i)
    if i.val < 4 then (freed n).post (.delivery i u.kind u.tag u.destination d)
    else if i.val < 6 then (freed (n.talkSettled u.kind u.tag d)).placeTalk
    else if d = .notSeen ∨ d = .lost then
      (freed n).updateMessages fun m => { m with replyUndelivered := m.replyUndelivered.inc }
    else freed n

/-- The delivery the two marks give (R73). -/
def markDelivery (u : FrameUnit) : Delivery :=
  match u.taken, u.refused with
  | true, false => .taken
  | false, true => .refused
  | true, true => .both
  | false, false => .notSeen

/-- The IN FLIGHT slot a returning unit matches: the slot it names, holding a message of its kind and tag (R73). -/
def Messages.matching (m : Messages) (u : FrameUnit) : Option (Fin 8) :=
  if h : u.slot.toNat < 8 then
    match m.slots.get ⟨u.slot.toNat, h⟩ with
    | .inFlight v _ => if v.kind = u.kind ∧ v.tag = u.tag then some ⟨u.slot.toNat, h⟩ else none
    | _ => none
  else none

/-- A returning unit settles its slot by its marks, or is a stale mark (R73). -/
def Node.unitReturns (n : Node) (u : FrameUnit) : Node :=
  match n.messages.matching u with
  | some i => n.settleSlot i (markDelivery u)
  | none => n.updateMessages fun m => { m with staleMark := m.staleMark.inc }

/-- A slot whose flight count has reached 0 is settled LOST (R74). -/
def Node.loseSlot (n : Node) (i : Fin 8) : Node :=
  (n.updateMessages fun m => { m with lostSlot := m.lostSlot.inc }).settleSlot i .lost

/-! ### HOLD records (R76) -/

/-- A good segment's HOLD flag is recorded for its peer; the own number's record is not written (R76). -/
def Node.recordHold (n : Node) (peer : Station) (flag : Bool) : Node :=
  if peer = n.station then n
  else n.updateMessages fun m => { m with peers := m.peers.set peer { hold := flag, count := 0 } }

/-- The recorded HOLD of a destination byte that names a single station. -/
def Messages.peerHolds (m : Messages) (d : Byte) : Bool :=
  match Station.ofByte d with
  | some s => (m.peers.get s).hold
  | none => false

/-! ### Ready messages (R71, R72) -/

/-- A READY slot that is not passed over: requests to a single held station are (R71). -/
def Messages.mayGo (m : Messages) (i : Fin 8) : Bool :=
  match m.slots.get i with
  | .ready u => isAnswerKind u.kind || !m.peerHolds u.destination
  | _ => false

/-- The READY slots in the order they are given: reply, talk, port, each kind in the ready order (R71). -/
def Messages.givingOrder (m : Messages) : List (Fin 8) :=
  let inKind (ks : List (Fin 8)) : List (Fin 8) := m.readyOrder.filter fun i => ks.contains i && m.mayGo i
  inKind replySlots ++ inKind talkSlots ++ inKind portSlots

/-- A READY slot goes IN FLIGHT with a flight count of 2L + 16 (R72). -/
def Messages.launch (roundLength : Byte) (m : Messages) (i : Fin 8) : Messages :=
  match m.slots.get i with
  | .ready u =>
    { m with slots := m.slots.set i (.inFlight u (2 * roundLength.toNat + 16)),
             readyOrder := m.readyOrder.filter (· != i) }
  | _ => m

/-- Up to `most` ready messages given to the Frame Engine (R71). -/
def Node.giveReady (n : Node) (most : Nat) : List FrameUnit × Node :=
  let given := n.messages.givingOrder.take most
  (given.filterMap fun i => (n.messages.slots.get i).message,
    n.updateMessages fun m => given.foldl (Messages.launch n.cadence.roundLength) m)

/-! ### Offers (R77) and routing (R81) -/

/-- A RESULT's request slot is a talk slot, or its outcome is EVICTED or TIMED OUT (R81). -/
def isTalkResult (u : FrameUnit) : Bool :=
  u.byte 7 == 4#8 || u.byte 7 == 5#8 || isNoticeOutcome (u.byte 8)

/-- A RESULT or STATUS REPORT taken from the ring is routed (R81). -/
def Node.routeAnswer (n : Node) (u : FrameUnit) : Node :=
  if u.kind = kindStatusReport then n.post (.statusReport u)
  else if isTalkResult u then n.talkResult u
  else n.post (.result u)

/-- The Message Controller's answer to an offered unit: taken or not, and what it does (R77). -/
def Node.offer (n : Node) (u : FrameUnit) : Bool × Node :=
  if isAnswerKind u.kind then
    if u.destination = n.station.byte then (true, n.routeAnswer u)
    else (false, n.updateMessages fun m => { m with badMessage := m.badMessage.inc })
  else
    match Station.ofByte u.sender with
    | none => (false, n)
    | some s =>
      match n.messages.enqueue { message := u, source := .ring s u.slot } with
      | some m => (true, { n with messages := m })
      | none => (false, n.updateMessages fun m => { m with queueRefusal := m.queueRefusal.inc })

/-- A message unit of a good segment in stage 2: offered and marked if it is addressed to this station (R14). -/
def Node.offerUnit (n : Node) (u : FrameUnit) : FrameUnit × Node :=
  if n.isAddressed u then
    let r := n.offer u
    (u.mark r.1 (!r.1), r.2)
  else (u, n)

/-! ### Carrying out the receive queue (R68, R80, R81) -/

/-- An entry needs a reply slot: it came from the ring and is no TALK CLOSE (R80). -/
def QueueEntry.needsReply (e : QueueEntry) : Bool :=
  match e.source with
  | .ring _ _ => e.message.kind != kindTalkClose
  | _ => false

/-- The head entry, when no message is being carried out, its kind is wanted, and it does not wait for a reply
slot (R80). -/
def Messages.readyHead (m : Messages) (wanted : Byte → Bool) : Option QueueEntry :=
  match m.carrying, m.queue with
  | .idle, e :: _ => if wanted e.message.kind && (!e.needsReply || m.granted.isSome) then some e else none
  | _, _ => none

/-- The station that a request's owner is told sent it (R80, R138). -/
def Node.requester (n : Node) (e : QueueEntry) : Station :=
  match e.source with
  | .ring s _ => s
  | .detached s _ => s
  | _ => n.station

/-- A RESULT placed according to its queue entry's source (R81, R85). -/
def Node.answer (n : Node) (e : QueueEntry) (r : Reply) : Node :=
  let u := e.message
  let unit (dest slot requestSlot : Byte) : FrameUnit :=
    resultUnit n.station dest u.tag slot u.kind requestSlot r.outcome r.detail
  match e.source with
  | .ring s slot =>
    match n.messages.granted with
    | some g =>
      (n.placeMessage g (unit s.byte (byteOf g.val) slot)).updateMessages fun m => { m with granted := none }
    | none => n
  | .detached s slot => n.post (.result (unit s.byte 255#8 slot))
  | .port => n.post (.result (unit n.station.byte 255#8 255#8))
  | .talk => n.talkResult (unit n.station.byte 255#8 255#8)

/-- A RESERVED reply slot left unused becomes FREE (R80). -/
def Messages.releaseGrant (m : Messages) : Messages :=
  match m.granted with
  | some g => { m with slots := m.slots.set g .free, granted := none }
  | none => m

/-- A request completes with its answer, if it has one: the answer is placed, an unused reply slot is freed, and
the entry leaves the head (R80). -/
def Node.complete (n : Node) (e : QueueEntry) (r : Option Reply) : Node :=
  let n1 := match r with
    | some x => n.answer e x
    | none => n
  n1.updateMessages fun m => m.releaseGrant.dequeue

/-- The BAD FIELD of a check of R68: 0 in every byte of the detail (R188). -/
def badField : Reply := { outcome := .badField, detail := [] }

/-- The Message Controller takes the head entry, if it is of the wanted kind and ready, and carries it out; if not,
nothing happens (R80). -/
def Node.carryOut (n : Node) (wanted : Byte → Bool) (owner : QueueEntry → Node → Node) : Node :=
  match n.messages.readyHead wanted with
  | some e => owner e n
  | none => n

/-- A request that completes at once: its fields read by the checks of R68, BAD FIELD where they fail, else its
owner's answer (R68, R80). -/
def Node.carryRequest {α : Type} (n : Node) (kind : Byte) (read : FrameUnit → Option α)
    (owner : α → Station → Node → Option Reply × Node) : Node :=
  n.carryOut (· == kind) fun e s =>
    match read e.message with
    | none => s.complete e (some badField)
    | some a => let r := owner a (s.requester e) s; r.2.complete e r.1

/-! ### STATUS REPORTs (R69, R176, R177) -/

/-- A STATUS QUERY's subject (R187). -/
inductive Subject where
  | station
  | tap (key : Key)
  | mix (m : Fin 24)
deriving DecidableEq, Repr

/-- The subject of a query, or none where a check of R68 fails. -/
def readSubject (u : FrameUnit) : Option Subject :=
  if u.byte 6 = 0#8 then some .station
  else if u.byte 6 = 1#8 then (messageKey u 7).map .tap
  else if u.byte 6 = 2#8 then
    if h : (u.byte 7).toNat < 24 then some (.mix ⟨(u.byte 7).toNat, h⟩) else none
  else none

/-- STATION, part 1 (Table 12-6). -/
def Node.stationStates (n : Node) : List Byte :=
  let v := n.loader.values
  [n.cadence.node.code, Station.byteOrZero n.cadence.followed, n.cadence.roundLength, n.link.fold.code,
    (n.link.east.link.code <<< 6) ||| (n.link.west.link.code <<< 4)
      ||| (if n.messages.hold then 2#8 else 0#8) ||| (if v.rate = .khz96 then 1#8 else 0#8),
    byteOf (Config.queuePlaces - n.messages.queue.length), byteOf n.taps.pEff, byteOf v.delay,
    byteOf v.window.frames, byteOf v.fallback]
    ++ countBytes v.returnHold ++ countBytes n.taps.free.length ++ countBytes n.mixer.freeCrosspoints

/-- The counters of STATION, part 2 (Table 10-3). -/
def Node.stationCounters2 (n : Node) : List Counter :=
  let f := n.engine
  let c := n.cadence
  [f.badHead, f.rebuilt, f.segmentError, f.orphan, f.trimmed, f.starvedForRoom, f.hopDiscard, f.misdirected,
    f.unsentCapture, c.slip, c.staleFrame, c.higherOrigin, c.returnDiscard, c.yields]

/-- The counters of STATION, part 3 (Table 10-3). -/
def Node.stationCounters3 (n : Node) : List Counter :=
  let l := n.link
  let m := n.messages
  [l.east.badEvidence, l.west.badEvidence, l.east.linkDown, l.west.linkDown, l.foldChange, l.earlyUnfold,
    m.queueRefusal, m.badMessage, m.lostSlot, m.staleMark, m.replyUndelivered, m.noticeDrop,
    n.taps.conflictCount, n.port.framing, n.reports.lost]

/-- The contents of a STATION part (Table 12-6). -/
def Node.stationPart (n : Node) (part : Nat) : List Byte :=
  if part = 1 then n.stationStates
  else if part = 2 then counterBytes n.stationCounters2
  else counterBytes n.stationCounters3

/-- The contents of the TAP part for a key (R177, Table 12-6).  The byte of a last played index of none is 0 (DESIGN CHOICE,
assumption 44). -/
def Node.tapPart (n : Node) (k : Key) : List Byte :=
  match n.taps.lookup k, n.taps.entryOf k with
  | some e, some x =>
    keyBytes k ++ [byteOf e.val, slotByteOrNone x.slot] ++ keyBytesOrNone x.alternate
      ++ [flagByte [true, x.autoReturn, x.conflict, x.onAlternate, x.lastPlayed.isNone, x.absent.saturated,
            x.late.saturated, x.stale.saturated],
          byteOf x.backs, byteOf x.talkUsers, byteOf x.conceal, x.lastPlayed.getD 0#8]
      ++ countBytes x.returnHold ++ [x.absent.low, x.late.low, x.stale.low]
  | _, _ => keyBytes k

/-- The contents of the MIX part (R177, Table 12-6). -/
def Node.mixPart (n : Node) (m : Fin 24) : List Byte :=
  let x := n.mixer.mixes.get m
  [byteOf m.val, byteOf x.crosspoints.length] ++ bytes24 x.master.value
    ++ [Station.byteOrZero (x.talks.head?.map fun t => t.desk), x.clip.low, flagByte [x.clip.saturated]]

/-- A part of an answer to a query, as a message unit to the requester (R69, Table 12-5). -/
def Node.statusPart (n : Node) (subject : Subject) (part : Nat) (destination tag slot : Byte) : FrameUnit :=
  match subject with
  | .station => statusUnit n.station destination tag slot 0#8 part (n.stationPart part)
  | .tap k => statusUnit n.station destination tag slot 1#8 part (n.tapPart k)
  | .mix m => statusUnit n.station destination tag slot 2#8 part (n.mixPart m)

/-- The parts of STATION from one on, posted to the Report Queue (R81, R85).  A part that stays in its own station has the
destination its caller gives, the own number, and slot byte 255, since it lies in no slot (DEDUCED, assumption 17). -/
def Node.postParts (n : Node) (subject : Subject) (parts : List Nat) (destination tag : Byte) : Node :=
  parts.foldl (fun s p => s.post (.statusReport (s.statusPart subject p destination tag 255#8))) n

/-- The parts a subject's answer has (R69). -/
def Subject.parts : Subject → List Nat
  | .station => [1, 2, 3]
  | _ => [1]

/-- A part placed in a reply slot, filled at that moment (R69, R81). -/
def Node.placePart (n : Node) (i : Fin 8) (e : QueueEntry) (subject : Subject) (part : Nat) : Node :=
  n.placeMessage i (n.statusPart subject part (n.requester e).byte e.message.tag (byteOf i.val))

/-- STATUS QUERY at the head, carried out part by part for the ring, at once otherwise (R81, R176, R177). -/
def Node.statusQuery (n : Node) : Node :=
  n.carryOut (· == kindStatusQuery) fun e s =>
    match readSubject e.message with
    | none => s.complete e (some badField)
    | some subject =>
      match e.source, s.messages.granted with
      | .ring _ _, some g =>
        let s1 := (s.placePart g e subject 1).updateMessages fun m => { m with granted := none }
        if subject = .station then s1.updateMessages fun m => { m with carrying := .station 2 }
        else s1.complete e none
      | .ring _ _, none => s
      | _, _ => (s.postParts subject subject.parts (s.requester e).byte e.message.tag).complete e none

/-! ### Reply grants (R82, R83) -/

/-- The receive side claims a reply slot: for the head entry, or for the next part of a STATION answer (R83). -/
def Messages.receiveClaims (m : Messages) : Bool :=
  match m.carrying, m.queue with
  | .station _, _ :: _ => true
  | .idle, e :: _ => e.needsReply && m.granted.isNone
  | _, _ => false

/-- A slot granted to the receive side: RESERVED for the head, or filled with the next part; the query completes
with part 3 (R80, R81). -/
def Node.grantReceive (n : Node) (i : Fin 8) : Node :=
  match n.messages.carrying, n.messages.queue with
  | .station p, e :: _ =>
    let n1 := n.placePart i e .station p.val
    if p.val < 3 then n1.updateMessages fun m => { m with carrying := .station (p + 1) }
    else (n1.updateMessages fun m => { m with carrying := .idle }).complete e none
  | _, _ => n.updateMessages fun m => { m with slots := m.slots.set i .reserved, granted := some i }

/-- A slot granted to the notice side: the oldest notice becomes a RESULT in it (R82). -/
def Node.grantNotice (n : Node) (i : Fin 8) : Node :=
  match n.messages.notices with
  | [] => n
  | x :: rest =>
    (n.placeMessage i (x.result n.station (byteOf i.val))).updateMessages fun m => { m with notices := rest }

/-- The reply grant turn after a grant names the other side (R83). -/
def Node.setTurn (n : Node) (t : GrantTurn) : Node := n.updateMessages fun m => { m with turn := t }

/-- A FREE reply slot, the lower-numbered first, is granted by the turn (R83). -/
def Node.grantReply (n : Node) : Node :=
  match n.messages.freeSlot replySlots with
  | none => n
  | some i =>
    match n.messages.receiveClaims, !n.messages.notices.isEmpty, n.messages.turn with
    | true, true, .receive => (n.grantReceive i).setTurn .notice
    | true, true, .notice => (n.grantNotice i).setTurn .receive
    | true, false, _ => (n.grantReceive i).setTurn .notice
    | false, true, _ => (n.grantNotice i).setTurn .receive
    | false, false, _ => n

/-! ### Ring restart (R85) -/

/-- The port and talk slots that are READY or IN FLIGHT when a restart is taken, in slot number order (R85).  R85 gives that
order for the port slots; that the talk slots are settled in it too, and that a talk slot which an OPEN made again fills
meanwhile is not settled, are the model's (DESIGN CHOICE, assumption 42). -/
def Messages.restartSlots (m : Messages) : List (Fin 8) :=
  (portSlots ++ talkSlots).filter fun i => (m.slots.get i).message.isSome

/-- A port or talk slot that holds a message is settled LOST at a restart; no lost slot is counted (R85). -/
def Node.restartSlots (n : Node) : Node :=
  n.messages.restartSlots.foldl (fun s i => s.settleSlot i .lost) n

/-- An entry being carried out at a restart answers to this station's own Report Queue (R85). -/
def QueueEntry.detach (e : QueueEntry) : QueueEntry :=
  match e.source with
  | .ring s slot => { e with source := .detached s slot }
  | _ => e

/-- Steps 3 and 4 of R85: the reply slots freed, the queue emptied but for a message being carried out, the
notices, HOLD and the peers' records cleared.  A head entry whose reply slot is RESERVED, but which has not yet been checked
and handed to its owner, is not being carried out and is emptied (DEDUCED, assumption 41). -/
def Messages.restart (m : Messages) : Messages :=
  let m1 := replySlots.foldl Messages.freeUp m
  { m1 with granted := none, queue := if m1.carrying = .idle then [] else (m1.queue.take 1).map QueueEntry.detach,
            notices := [], hold := false, peers := Table.replicate 16 { hold := false, count := 0 } }

/-- A STATION query in the middle of its parts posts its remaining parts and completes (R85). -/
def Node.finishParts (n : Node) : Node :=
  match n.messages.carrying, n.messages.queue with
  | .station p, e :: _ =>
    ((n.postParts .station ([1, 2, 3].filter fun x => decide (p.val ≤ x)) (n.requester e).byte
      e.message.tag).updateMessages fun m => { m with carrying := .idle }).complete e none
  | _, _ => n

/-- The Message Controller at a ring restart, in the order of R85. -/
def Node.restartMessages (n : Node) : Node := (n.restartSlots.updateMessages Messages.restart).finishParts

end Sys2Proof.Machine
end

