-- ==== Sys2Proof/Machine/Frames.lean ====
section
/-! DEFINITION. The Frame Engine (Section 1): the primary pass with its stages, frames of the station's own, rebuilt
frames, frames off the primary path, and its ring restart. -/

namespace Sys2Proof.Machine

open Sys2Proof

/-! ### Stage 2: extraction (R7, R12, R14) -/

/-- The segment-error count rises. -/
def Node.countSegmentError (n : Node) : Node :=
  n.updateEngine fun f => { f with segmentError := f.segmentError.inc }

/-- A good FULL segment replaces its source station's known layout (R7). -/
def Node.learnLayout (n : Node) (source : Station) (s : Segment) : Node :=
  if s.isFull then n.updateEngine fun f => { f with known := f.known.set source (some s.layoutChannels) } else n

/-- The channels of a good segment's audio units: read against its own FULL layout, or against a known layout of the
same length; none of them otherwise (R7). -/
def Node.segmentChannels (n : Node) (source : Station) (s : Segment) : List (Fin 64) :=
  if s.isFull then s.layoutChannels.take s.carried
  else
    match n.engine.known.get source with
    | some l => if l.length = s.layoutCount then l.take s.carried else []
    | none => []

/-- A good segment's channels are handed to the lookup in position order (R12). -/
def Node.deliver (n : Node) (source : Station) (s : Segment) : Node :=
  ((n.segmentChannels source s).zip s.audio).foldl
    (fun m c => m.updateTaps fun t =>
      t.arrive m.loader.values.window m.cadence.localCount { station := source, channel := c.1 } s.captureIndex
        (audioOfUnit c.2)) n

/-- Message units offered in order; each is marked as it is answered (R14). -/
def offerAll : List FrameUnit → Node → List FrameUnit × Node
  | [], n => ([], n)
  | u :: us, n =>
    let r := n.offerUnit u
    let rest := offerAll us r.2
    (r.1 :: rest.1, rest.2)

/-- A good segment from another station (R12, R14): its HOLD is recorded, its layout learnt, its channels delivered
and its messages offered. -/
def Node.extractGood (n : Node) (source : Station) (s : Segment) : Segment × Node :=
  let n1 := (((n.recordHold source s.hold).learnLayout source s)).deliver source s
  let r := offerAll s.messages n1
  ({ s with messages := r.1 }, r.2)

/-- One segment in stage 2: the station's own is passed by, a bad one is left unchanged and counted (R12). -/
def Node.extract (n : Node) (s : Segment) : Segment × Node :=
  if s.source = n.station.byte then (s, n)
  else
    match s.good, Station.ofByte s.source with
    | true, some source => n.extractGood source s
    | _, _ => (s, n.countSegmentError)

/-- Stage 2 over the segments of a body in order (R12). -/
def extractAll : List Segment → Node → List Segment × Node
  | [], n => ([], n)
  | s :: ss, n =>
    let r := n.extract s
    let rest := extractAll ss r.2
    (r.1 :: rest.1, rest.2)

/-! ### Stage 3: strip (R15) -/

/-- Every segment of the station's own number is stripped, its message units handed to the Message Controller
(R15). -/
def Node.strip (n : Node) (ss : List Segment) : List Segment × Node :=
  let own := ss.filter fun s => s.source == n.station.byte
  (ss.filter fun s => s.source != n.station.byte,
    (own.flatMap fun s => s.messages).foldl Node.unitReturns n)

/-! ### Stage 4: append (R6, R16, R17) -/

/-- What an append has settled on before the messages (R16). -/
structure AppendPlan where
  full : Bool
  layoutDue : Bool
  headerUnits : Nat
  index : Byte
  carried : Nat
  trimmed : Bool
deriving DecidableEq, Repr

/-- The capture index of the segment: the unsent frame's, else the last sent, else the local count (R17). -/
def Node.appendIndex (n : Node) : Byte :=
  match n.engine.unsent with
  | some c => c.1
  | none => n.engine.lastSent.getD n.cadence.localCount

/-- A FULL header is due (R6). -/
def Node.fullDue (n : Node) : Bool :=
  n.engine.layoutDue
    || (n.engine.unsent.isSome && (n.appendIndex.toNat + n.station.number) % 16 == 0)

/-- The reckoning of R16 for a room above 0. -/
def Node.appendPlan (n : Node) (room : Nat) : AppendPlan :=
  let count := n.loader.values.sendList.length
  let units := 1 + layoutUnitCount count
  let full := n.fullDue && decide (units ≤ room)
  let headerUnits := if full then units else 1
  let carried := if n.engine.unsent.isSome then min count (room - headerUnits) else 0
  { full := full, layoutDue := n.fullDue && !full, headerUnits := headerUnits, index := n.appendIndex,
    carried := carried, trimmed := n.engine.unsent.isSome && decide (carried < count) }

/-- The audio units of a segment: the send list's first channels of the unsent capture frame (R5). -/
def Node.audioUnits (n : Node) (carried : Nat) : List FrameUnit :=
  match n.engine.unsent with
  | some c => (n.loader.values.sendList.take carried).map fun ch => unitOfAudio (c.2.get ch)
  | none => []

/-- The header unit of a segment with its check (Table 12-2, R186). -/
def segmentHeader (source index : Byte) (full hold trimmed : Bool) (carried count messages : Nat)
    (layout audio units : List FrameUnit) : FrameUnit :=
  let bare := unitOf [source, index, if full then 1#8 else 2#8, byteOf carried, byteOf count,
    topFlags hold trimmed, byteOf messages]
  let check := Segment.check bare layout audio units
  (bare.setByte 22 (check.extractLsb' 8 8)).setByte 23 (check.extractLsb' 0 8)

/-- The station's own segment appended by a plan (R16). -/
def Node.appendSegment (n : Node) (room : Nat) (p : AppendPlan) : List FrameUnit × Node :=
  let list := n.loader.values.sendList
  let given := if p.carried = list.length then n.giveReady (room - p.headerUnits - p.carried) else ([], n)
  let layout := if p.full then layoutUnits list else []
  let audio := n.audioUnits p.carried
  let header := segmentHeader n.station.byte p.index p.full n.messages.hold p.trimmed p.carried list.length
    given.1.length layout audio given.1
  let f := given.2.engine
  (header :: (layout ++ audio ++ given.1),
    { given.2 with engine := { f with
        layoutDue := p.layoutDue,
        unsent := none,
        lastSent := match f.unsent with | some c => some c.1 | none => f.lastSent,
        trimmed := if p.trimmed then f.trimmed.inc else f.trimmed } })

/-- Stage 4: the station's own segment, or nothing when the room is 0 (R16, R17). -/
def Node.append (n : Node) (units : Nat) : List FrameUnit × Node :=
  let room := n.capacity - units
  if room = 0 then
    ([], n.updateEngine fun f => { f with layoutDue := n.fullDue, starvedForRoom := f.starvedForRoom.inc })
  else n.appendSegment room (n.appendPlan room)

/-! ### Stage 5: forward (R18, R59) -/

/-- A head as it goes out with these direction fields: unchanged with the check it came with, or changed with a new
check (R1, R18). -/
def redirectHead (h : SixBytes) (secondary : Bool) (hops : Nat) : SixBytes :=
  if headSecondary h = secondary ∧ headHops h = hops then h
  else makeHead (headOrigin h) (headSequence h) (headRound h) (headRebuilt h) secondary hops

/-- Stage 5: the frame goes to the primary output; in FOLDED EAST it is turned (R18). -/
def Node.forward (n : Node) (h : SixBytes) (body : List FrameUnit) : Node :=
  match n.link.fold.output with
  | some side => n.transmit side (.frame (redirectHead h (n.link.fold == .foldedEast) 0) body)
  | none => n

/-! ### The primary pass (R9 to R13) -/

/-- Stages 2 to 5 for a frame whose segments have been found (R12 to R18). -/
def Node.passSegments (n : Node) (h : SixBytes) (ss : List Segment) : Node :=
  let extracted := extractAll ss n
  let stripped := extracted.2.strip extracted.1
  let body := stripped.1.flatMap Segment.units
  let own := stripped.2.append body.length
  own.2.forward h (body ++ own.1)

/-- An unreadable span is cut and counted once (R4). -/
def Node.cutSpan (n : Node) (cut : Bool) : Node := if cut then n.countSegmentError else n

/-- Stages 2 to 5 for a frame (R9). -/
def Node.passFrame (n : Node) (f : Frame) : Node :=
  let w := walkBody n.capacity f.body
  (n.cutSpan w.2).passSegments f.head w.1

/-- A frame with a good head on the active primary input (R9). -/
def Node.primaryPass (n : Node) (f : Frame) : Node :=
  let a := n.answerAdmission f
  match a.1 with
  | .pass => a.2.passFrame f
  | .discard => a.2
  | .taken => a.2

/-- A frame of the station's own with an empty body (R10, R11): its own segment appended, then forwarded. -/
def Node.sendOwn (n : Node) (origin : Station) (rebuilt : Bool) : Node :=
  n.passSegments
    (makeHead origin.byte n.cadence.localCount n.cadence.roundLength rebuilt false 0) []

/-- A segment of another station is orphaned against the arriving sequence (R13). -/
def Node.orphaned (n : Node) (sequence : Byte) (s : Segment) : Bool :=
  let d := (sequence - s.captureIndex).toNat
  s.source != n.station.byte && decide (3 ≤ d ∧ d ≤ 127)

/-- A returned frame is re-emitted (R10, R13, R37): orphaned segments removed against the sequence it arrived with,
the head re-stamped, then stages 2 to 5. -/
def Node.reEmit (n : Node) (f : Frame) : Node :=
  let w := walkBody n.capacity f.body
  let orphans := w.1.filter (n.orphaned (headSequence f.head))
  let n1 := (n.cutSpan w.2).updateEngine fun e =>
    { e with orphan := orphans.foldl (fun c _ => c.inc) e.orphan }
  n1.passSegments
    (makeHead n.station.byte n.cadence.localCount n.cadence.roundLength false false 0)
    (w.1.filter fun s => !n.orphaned (headSequence f.head) s)

/-- The frame a station in CLAIMING or ORIGIN emits at a boundary (R35, R37). -/
def Node.emit (n : Node) : Node :=
  if n.link.fold.output.isNone then n
  else
    match n.cadence.node with
    | .claiming => n.sendOwn n.station false
    | .origin =>
      match n.cadence.returnQueue with
      | [] => n.sendOwn n.station false
      | f :: rest => (n.updateCadence fun c => { c with returnQueue := rest }).reEmit f
    | _ => n

/-- A frame with a bad head on the active primary input (R11): counted, and rebuilt with the followed origin in
FOLLOWING and in WAITING, or discarded. -/
def Node.badHeadFrame (n : Node) : Node :=
  let n1 := n.updateEngine fun f => { f with badHead := f.badHead.inc }
  match n.cadence.node, n.cadence.followed with
  | .following, some o => (n1.updateEngine fun f => { f with rebuilt := f.rebuilt.inc }).sendOwn o true
  | .waiting, some o => (n1.updateEngine fun f => { f with rebuilt := f.rebuilt.inc }).sendOwn o true
  | _, _ => n1

/-! ### Frames off the primary path (R19 to R22) -/

/-- A secondary frame passed through a WHOLE station, or discarded at the hop limit (R19).  R19 names the arrival at hop
count 14; one at 15, the other count that a good head can hold and that cannot be raised, is discarded and counted in the
same way (DEDUCED, assumption 32).  The body is sent as it came even when it is longer than B, as R19 says, where R2 bounds
what is sent (DESIGN CHOICE, assumption 33). -/
def Node.passThrough (n : Node) (f : Frame) : Node :=
  if 14 ≤ headHops f.head then n.updateEngine fun e => { e with hopDiscard := e.hopDiscard.inc }
  else
    n.transmit .west (.frame
      (makeHead (headOrigin f.head) (headSequence f.head) (headRound f.head) (headRebuilt f.head) true
        (headHops f.head + 1)) f.body)

/-- A frame taken with SECONDARY cleared and hops 0 (R20). -/
def Frame.turned (f : Frame) : Frame := { f with head := redirectHead f.head false 0 }

/-- A frame with a good head and SECONDARY clear on the West receiver (R9, R21, R58). -/
def Node.westFrame (n : Node) (f : Frame) : Node :=
  match n.link.fold with
  | .whole => n.primaryPass f
  | .foldedEast => n.primaryPass f
  | .foldedWest =>
    if (n.side .west).link = .up ∧ n.acceptable f.head = true then n.earlyUnfold.primaryPass f else n
  | .isolated => n

/-- A frame with a good head and SECONDARY set on the East receiver (R19, R20, R21). -/
def Node.eastFrame (n : Node) (f : Frame) : Node :=
  match n.link.fold with
  | .whole => n.passThrough f
  | .foldedWest => n.primaryPass f.turned
  | .foldedEast => n
  | .isolated => n

/-- A frame taken off a receiver, after its head has been reported to link evidence: sorted by its head, its
direction flag and the fold state in force (R9, R11, R19 to R22, R59). -/
def Node.sortFrame (n : Node) (side : Side) (f : Frame) : Node :=
  if headGood f.head then
    match side, headSecondary f.head with
    | .west, false => n.westFrame f
    | .east, true => n.eastFrame f
    | _, _ => n.updateEngine fun e => { e with misdirected := e.misdirected.inc }
  else if n.link.fold.input = some side then n.badHeadFrame
  else n

/-! ### Capture (R8, R130) and ring restart (R24) -/

/-- A completed capture frame takes the store's unsent place; an older unsent one is dropped, and counted while the
node state is FOLLOWING, CLAIMING or ORIGIN (R8). -/
def Node.storeCapture (n : Node) (c : CaptureFrame) : Node :=
  let counts := n.engine.unsent.isSome
    && (n.cadence.node == .following || n.cadence.node == .claiming || n.cadence.node == .origin)
  n.updateEngine fun f =>
    { f with unsent := some (n.cadence.localCount, c),
             unsentCapture := if counts then f.unsentCapture.inc else f.unsentCapture }

/-- The Frame Engine at a ring restart (R24). -/
def Node.restartEngine (n : Node) : Node :=
  n.updateEngine fun f =>
    { f with known := Table.replicate 16 none, layoutDue := true, unsent := none, lastSent := none }

end Sys2Proof.Machine
end

