-- ==== Sys2Proof/Machine/Audio.lean ====
section
/-! DEFINITION. The audio of a boundary: capture from the lanes (R129, R130), the reads of the jitter buffers and
of the local delay store (R114 to R117, R131), the presentation delay (R111, R112), fallback and return (R119 to
R121), and the forming of slots, mixes and outputs (R132, R133, R151). -/

namespace Sys2Proof.Machine

open Sys2Proof

/-! ### The lanes (R129) -/

/-- The time slots of a lane frame (R129). -/
def Rate.laneSlots : Rate → Nat
  | .khz48 => 8
  | .khz96 => 4

/-- The sample of an input time slot: its first 24 bit clocks, the last 8 ignored (R129). -/
def sampleOfLane (w : LaneWord) : Sample := w.extractLsb' 8 24

/-- The bit clocks of an output time slot: the sample, then 8 bit clocks of 0 (R129). -/
def laneOfSample (s : Sample) : LaneWord := s ++ 0#8

/-- The 8 samples that the input lanes carry for a channel, oldest first: lane c / slots, time slot c mod slots
(R129). -/
def laneSamples (r : Rate) (lanes : LaneBlock) (c : Fin 64) : AudioFrame :=
  match lanes.items[c.val / r.laneSlots]? with
  | none => silentFrame
  | some lane =>
    match lane.items[c.val % r.laneSlots]? with
    | none => silentFrame
    | some words => words.map sampleOfLane

/-- The capture frame of the lane frames that end at a boundary; an absent channel holds silence (R8, R130). -/
def captureOf (r : Rate) (lanes : LaneBlock) : CaptureFrame :=
  Table.ofFn fun c => if r.present c then laneSamples r lanes c else silentFrame

/-- What the output lanes carry in the 8 lane frames after a boundary (R129, R133); the time slots that a lane
frame does not hold at 96 kHz are given as 0.  While the reset line is held and while the image is read the lane
clocks are stopped and the output lanes carry nothing (R135). -/
def Node.outputLanes (n : Node) : Option LaneBlock :=
  if n.running then
    let r := n.loader.values.rate
    some <| Table.ofFn fun j => Table.ofFn fun t =>
      if t.val < r.laneSlots then
        (n.router.outputs.getD (r.laneSlots * j.val + t.val) silentFrame).map laneOfSample
      else Table.replicate 8 0#32
  else none

/-- The capture frame of a boundary is completed: it goes to the capture store and into the local delay store, both
under the local count as advanced (R8, R130). -/
def Node.capture (n : Node) (lanes : LaneBlock) : Node :=
  let c := captureOf n.loader.values.rate lanes
  let i := n.cadence.localCount
  (n.storeCapture c).updateRouter fun r =>
    { r with capture := c,
             delay := { r.delay with places := r.delay.places.set (n.loader.values.window.place i) (some (i, c)) } }

/-! ### Reading a place (R114 to R117) -/

/-- The frame a read plays: the place's tag equals the expected index, and that index is later than the last
played index or there is none (R114). -/
def presentFrame {α : Type} (place : Option (Byte × α)) (expected : Byte) (lastPlayed : Option Byte) : Option α :=
  match place with
  | some (tag, frame) =>
    if tag = expected ∧ (match lastPlayed with | some l => isLater expected l | none => true) = true then
      some frame
    else none
  | none => none

/-- A sample of the last good frame as Table 6-1 scales it at conceal count k (R116). -/
def concealSample (k : Nat) (x : Sample) : Sample :=
  match k with
  | 0 => x
  | 1 => BitVec.ofInt 24 ((x.toInt * 3) >>> (2 : Nat))
  | 2 => x.sshiftRight 1
  | 3 => x.sshiftRight 2
  | _ => 0#24

/-- A frame as a present read plays it: halved when k stood at 4 or more (R117). -/
def recovered (k : Nat) (f : AudioFrame) : AudioFrame := if 4 ≤ k then f.map (·.sshiftRight 1) else f

/-- The conceal count after an absent read (R115). -/
def concealNext (k : Nat) : Nat := min 255 (k + 1)

/-- The last played index after an absent read: cleared when the increment brings k to 64 (R115). -/
def playedAfterAbsence (k : Nat) (lastPlayed : Option Byte) : Option Byte :=
  if k + 1 = Config.clearingCount then none else lastPlayed

/-- The expected index of a boundary's reads (R114). -/
def Node.expectedIndex (n : Node) : Byte := n.cadence.localCount - byteOf n.taps.pEff

/-- One entry's read (R114 to R117).  An absent read of a primary sets its return hold back (R120). -/
def TapEntry.read (x : TapEntry) (w : Window) (expected : Byte) : TapEntry × ReadResult :=
  match presentFrame (x.buffer.get (w.place expected)) expected x.lastPlayed with
  | some f =>
    ({ x with conceal := 0, lastGood := f, lastPlayed := some expected },
      { key := x.key, present := true, samples := recovered x.conceal f })
  | none =>
    ({ x with conceal := concealNext x.conceal, lastPlayed := playedAfterAbsence x.conceal x.lastPlayed,
              returnHold := 0, absent := x.absent.inc },
      { key := x.key, present := false, samples := x.lastGood.map (concealSample (concealNext x.conceal)) })

/-- The read of the entry with a number; its result joins the boundary's reads. -/
def Taps.readEntry (w : Window) (expected : Byte) (t : Taps) (e : EntryNo) : Taps :=
  match t.entries.get e with
  | none => t
  | some x =>
    { t with entries := t.entries.set e (some (x.read w expected).1),
             reads := t.reads ++ [(x.read w expected).2] }

/-- Step 3 of R113: every entry in use is read once, in entry number order. -/
def Node.readEntries (n : Node) : Node :=
  n.updateTaps fun t =>
    t.inUse.foldl (Taps.readEntry n.loader.values.window n.expectedIndex) { t with reads := [] }

/-- The read of the entry holding a key at this boundary (R118). -/
def Taps.readOf (t : Taps) (k : Key) : Option ReadResult := t.reads.find? fun r => r.key == k

/-- The entry of that key read present at this boundary. -/
def Taps.readPresent (t : Taps) (k : Key) : Bool :=
  match t.readOf k with
  | some r => r.present
  | none => false

/-- The samples that the read of a key's entry gave at this boundary, or silence where no entry held the key at the reads
(R91, R118).  A read stays what it was when the boundary's own expiry of talks frees its entry behind the reads, so a feed
of the key still plays it and is silent from the next boundary (DEDUCED from R146, assumption 46). -/
def Taps.readSamples (t : Taps) (k : Key) : AudioFrame :=
  match t.readOf k with
  | some r => r.samples
  | none => silentFrame

/-! ### Raising and lowering (R111, R112) -/

/-- P_eff changes and DELAY CHANGED is posted (R110). -/
def Node.changeDelay (n : Node) (new : Nat) (cause : DelayCause) : Node :=
  (n.updateTaps fun t => { t with pEff := new }).post (.delayChanged new n.taps.pEff cause)

/-- The raise request is settled (R111). -/
def Node.settleRaise (n : Node) : Node :=
  match n.taps.raise with
  | none => n
  | some r =>
    let candidate := min (n.frames - 1) r
    (if n.taps.pEff < candidate then n.changeDelay candidate .raise else n).updateTaps fun t =>
      { t with raise := none }

/-- The lowering window ends: P_eff is lowered where the rule allows, and a new window begins (R112). -/
def Node.endWindow (n : Node) : Node :=
  let lowered :=
    match n.taps.largestAge with
    | some a =>
      if n.loader.values.delay < n.taps.pEff ∧ a + 1 < n.taps.pEff then
        n.changeDelay (max n.loader.values.delay (a + 1)) .lower
      else n
    | none => n
  lowered.updateTaps fun t => { t with windowCount := 0, largestAge := none }

/-! ### Fallback and return (R119 to R121) -/

/-- An entry's slot and alternate, when it is a primary. -/
def TapEntry.primary (x : TapEntry) : Option (Fin 128 × Key) :=
  match x.slot, x.alternate with
  | some s, some a => some (s, a)
  | _, _ => none

/-- The conceal count of the entry of a key. -/
def Taps.concealOf (t : Taps) (k : Key) : Nat :=
  match t.entryOf k with
  | some x => x.conceal
  | none => 0

/-- A primary returns to NORMAL, and RETURNED is posted (R120, R121). -/
def Node.returnPrimary (n : Node) (e : EntryNo) (cause : ReturnCause) : Node :=
  match n.taps.entries.get e with
  | none => n
  | some x =>
    match x.primary with
    | none => n
    | some (s, a) =>
      (n.updateTaps (·.updateEntry e fun y => { y with onAlternate := false, returnHold := 0 })).post
        (.returned e x.key s a cause)

/-- A primary falls back, and FALLBACK is posted (R119). -/
def Node.fallBack (n : Node) (e : EntryNo) : Node :=
  match n.taps.entries.get e with
  | none => n
  | some x =>
    match x.primary with
    | none => n
    | some (s, a) =>
      (n.updateTaps (·.updateEntry e fun y => { y with onAlternate := true, returnHold := 0 })).post
        (.fallback e x.key s a)

/-- A primary has completed its return hold (R120). -/
def Node.holdComplete (n : Node) (e : EntryNo) : Bool :=
  match n.taps.entries.get e with
  | none => false
  | some x =>
    x.primary.isSome && x.onAlternate && x.autoReturn && decide (n.loader.values.returnHold ≤ x.returnHold)

/-- The decisions of R121 and R119 for an entry. -/
def Node.decideFallback (n : Node) (e : EntryNo) : Node :=
  match n.taps.entries.get e with
  | none => n
  | some x =>
    match x.primary with
    | none => n
    | some (_, a) =>
      let f := n.loader.values.fallback
      if x.onAlternate then
        if f ≤ n.taps.concealOf a ∧ n.taps.readPresent x.key = true then n.returnPrimary e .alternateFailed else n
      else if f ≤ x.conceal ∧ n.taps.readPresent a = true then n.fallBack e
      else n

/-- A millisecond mark counts the return holds of the primaries that read present (R120). -/
def Taps.countHolds (t : Taps) : Taps :=
  { t with entries := t.entries.map (Option.map fun x =>
      if x.primary.isSome && x.onAlternate && x.autoReturn && t.readPresent x.key then
        { x with returnHold := x.returnHold + 1 }
      else x) }

/-! ### Local alignment (R131) -/

/-- The read of the local delay store, once for all local slots: the samples of every local channel (R131). -/
def DelayStore.read (d : DelayStore) (w : Window) (expected : Byte) : DelayStore × CaptureFrame :=
  match presentFrame (d.places.get (w.place expected)) expected d.lastPlayed with
  | some c =>
    ({ d with conceal := 0, lastGood := c, lastPlayed := some expected }, c.map (recovered d.conceal))
  | none =>
    ({ d with conceal := concealNext d.conceal, lastPlayed := playedAfterAbsence d.conceal d.lastPlayed },
      d.lastGood.map fun f => f.map (concealSample (concealNext d.conceal)))

/-- The samples of the local channels for a boundary: the capture frame just completed, or the aligned read
(R131). -/
def Node.localAudio (n : Node) : Node × CaptureFrame :=
  if n.loader.values.localAlignment then
    let r := n.router.delay.read n.loader.values.window n.expectedIndex
    (n.updateRouter fun x => { x with delay := r.1 }, r.2)
  else (n, n.router.capture)

/-! ### Slots, mixes and outputs (R132, R133, R151) -/

/-- The samples the Tap Controller hands over for the slot of an entry (R118). -/
def Taps.slotAudio (t : Taps) (e : EntryNo) : AudioFrame :=
  match t.entries.get e with
  | none => silentFrame
  | some x =>
    if x.onAlternate then
      match x.alternate with
      | some a => t.readSamples a
      | none => silentFrame
    else t.readSamples x.key

/-- One slot's frame from its binding (R132). -/
def Node.slotFrame (n : Node) (locals : CaptureFrame) : Binding → AudioFrame
  | .unbound => silentFrame
  | .localChannel c => locals.get c
  | .tap e => n.taps.slotAudio e

/-- Every slot's frame is formed (R132). -/
def Node.formSlots (n : Node) (locals : CaptureFrame) : Node :=
  n.updateRouter fun r => { r with frames := r.bindings.map (n.slotFrame locals) }

/-- The talk samples of a mix: its feed's read, or silence (R118, R147). -/
def Node.talkAudio (n : Node) (x : Mix) : AudioFrame :=
  match x.feed with
  | some k => n.taps.readSamples k
  | none => silentFrame

/-- The Mix Engine's work at a boundary: the ramps step, every mix is computed, and idle feeds are released (R143 to
R151). -/
def Node.computeMixes (n : Node) : Node :=
  let stepped := n.mixer.stepRamps
  { n with mixer := { stepped with
      mixes := stepped.mixes.map fun x => (x.compute n.router.frames (n.talkAudio x)).releaseFeed } }

/-- One output's frame from its source; an absent output carries nothing (R133). -/
def Node.outputFrame (n : Node) (o : Fin 64) : AudioFrame :=
  if n.loader.values.rate.present o then
    match n.router.outMap.get o with
    | .silent => silentFrame
    | .mix m => (n.mixer.mixes.get m).output
    | .slot s => n.router.frames.get s
  else silentFrame

/-- The outputs are formed from the map as it stands (R133). -/
def Node.formOutputs (n : Node) : Node :=
  n.updateRouter fun r => { r with outputs := Table.ofFn n.outputFrame }

/-- The audio of a boundary after the fallback decisions: local channels, slots, mixes, outputs (R131 to R133). -/
def Node.formAudio (n : Node) : Node :=
  let l := n.localAudio
  ((l.1.formSlots l.2).computeMixes).formOutputs

/-! ### Ring restart (R124) -/

/-- An entry's audio state at a ring restart (R124). -/
def TapEntry.restart (x : TapEntry) : TapEntry :=
  { x with buffer := Table.replicate 64 none, conceal := 4, lastGood := silentFrame, lastPlayed := none,
           returnHold := 0 }

/-- The Tap Controller at a ring restart (R106, R124). -/
def Node.restartTaps (n : Node) : Node :=
  let p := n.loader.values.delay
  let n1 := n.updateTaps fun t =>
    { t with entries := t.entries.map (Option.map TapEntry.restart), raise := none, windowCount := 0,
             largestAge := none }
  if n.taps.pEff = p then n1 else n1.changeDelay p .restart

end Sys2Proof.Machine
end

