-- ==== Sys2Proof/Machine/Loader.lean ====
section
/-! DEFINITION. The Image Loader (Section 11): the flash read, the judging of the image, the clamps and their
tally, the sections, and the finishing of a load. -/

namespace Sys2Proof.Machine

open Sys2Proof

/-! ### The flash read (R179, R190) -/

/-- A byte of the flash; past its end no device drives the data line, which is pulled high (R179). -/
def flashByte (flash : List Byte) (i : Nat) : Byte := flash.getD i 255#8

/-- Word i of the flash: bytes 2i and 2i + 1, high byte first (R190). -/
def flashWord (flash : List Byte) (i : Nat) : Word16 := join16 (flashByte flash (2 * i)) (flashByte flash (2 * i + 1))

/-- The first word's length names an image (R179). -/
def lengthAllowed (n : Nat) : Bool := decide (2 ≤ n ∧ n ≤ 256)

/-- The words the read clocks in: the first, and the rest of an image whose length is allowed (R179). -/
def readWords (flash : List Byte) : List Word16 :=
  let n := (flashWord flash 0).toNat
  (List.range (if lengthAllowed n then n else 1)).map (flashWord flash)

/-- The sum of an image's words modulo 65,536 (R180). -/
def imageSum (ws : List Word16) : Word16 := ws.foldl (· + ·) 0#16

/-- The judgement of what was read (R179, R180). -/
def judgeImage (ws : List Word16) : LoadOutcome :=
  let first := ws.headD 65535#16
  if lengthAllowed first.toNat then (if imageSum ws = 0#16 then .loaded else .defaults .badCheck)
  else if first = 65535#16 then .defaults .noImage
  else .defaults .badLength

/-- The number that the strap pins give: 0 stands for station 16 (R181). -/
def strapStation (straps : BitVec 4) : Station := ⟨(straps.toNat + 15) % 16, Nat.mod_lt _ (by omega)⟩

/-! ### Clamps and their tally (R182) -/

/-- A value taken from the image with the number of clamps that changed or dropped something. -/
structure Counted (α : Type) where
  value : α
  count : Nat
deriving DecidableEq, Repr

/-- A number clamped into lo..hi, counted when that changes it (R182). -/
def clampInto (lo hi v : Nat) : Counted Nat :=
  let c := max lo (min hi v)
  { value := c, count := if c = v then 0 else 1 }

/-- A window raised to the next allowed value, or lowered to 64 (R107). -/
def clampWindow (v : Nat) : Counted Window :=
  let w := if v ≤ 8 then Window.w8 else if v ≤ 16 then .w16 else if v ≤ 32 then .w32 else .w64
  { value := w, count := if w.frames = v then 0 else 1 }

/-- The sample rate of a code (Table 11-1). -/
def clampRate (v : Nat) : Counted Rate :=
  if v = 2 then { value := .khz96, count := 0 }
  else { value := .khz48, count := if v = 1 then 0 else 1 }

/-- A field's value, or its default uncounted where the field lies beyond the image (R180). -/
def orDefault {α : Type} (field : Option Word16) (clamp : Nat → Counted α) (default : α) : Counted α :=
  match field with
  | some w => clamp w.toNat
  | none => { value := default, count := 0 }

/-- A fixed word of an image, when it lies before the check word (R180, Table 12-9). -/
def imageField (ws : List Word16) (i : Nat) : Option Word16 := if i + 2 ≤ ws.length then ws[i]? else none

/-! ### Sections (R190) -/

/-- The data words a section of a code must have, or none for an unknown code (Table 12-10). -/
def sectionSize (code : Nat) (data : List Word16) : Option Nat :=
  match code with
  | 1 => some (1 + (min (data.headD 0#16).toNat 64 + 1) / 2)
  | 2 => some 64
  | 3 => some 64
  | 4 => some 12
  | 5 => some 32
  | _ => none

/-- What a walk of the sections has taken, by code, and its count of sections passed over. -/
structure Sections where
  taken : List (Nat × List Word16)
  count : Nat
deriving DecidableEq, Repr

/-- The data words of a section that was taken. -/
def Sections.find (s : Sections) (code : Nat) : Option (List Word16) :=
  (s.taken.find? fun x => x.1 == code).map Prod.snd

/-- A whole section is taken, or passed over and counted (R190).  Only a section that was taken blocks a later one of its
code: one passed over for its size does not, so a later one of the right size is taken (DEDUCED, assumption 38).  A later
section of a code that was taken leaves the values of the first, whatever its size (DEDUCED, assumption 43). -/
def Sections.take (s : Sections) (code : Nat) (data : List Word16) : Sections :=
  if sectionSize code data = some data.length ∧ (s.find code).isNone = true then
    { s with taken := s.taken ++ [(code, data)] }
  else { s with count := s.count + 1 }

/-- The walk of the sections over the words before the check word (R190), with fuel for one header each.  A section that the
check word cuts ends the walk, and a section of its code that was taken before keeps its values (DEDUCED, assumption 43). -/
def walkSections : Nat → List Word16 → Sections → Sections
  | 0, _, s => s
  | _ + 1, [], s => s
  | fuel + 1, header :: rest, s =>
    let n := (header.extractLsb' 0 8).toNat
    if rest.length < n then s
    else walkSections fuel (rest.drop n) (s.take (header.extractLsb' 8 8).toNat (rest.take n))

/-- The sections of an image: the words from word 12 up to the word before the check word (R190). -/
def imageSections (ws : List Word16) : Sections :=
  let region := (ws.take (ws.length - 1)).drop 12
  walkSections region.length region { taken := [], count := 0 }

/-- The bytes of a section's data words, high byte first. -/
def wordBytes (ws : List Word16) : List Byte := ws.flatMap bytes16

/-! ### List fields (R183) -/

/-- The send list kept so far, and one more place: dropped when its channel is out of range, absent or taken. -/
def takePlace (r : Rate) (kept : Counted (List (Fin 64))) (b : Byte) : Counted (List (Fin 64)) :=
  if h : b.toNat < 64 then
    let c : Fin 64 := ⟨b.toNat, h⟩
    if r.present c && !kept.value.contains c then { kept with value := kept.value ++ [c] }
    else { kept with count := kept.count + 1 }
  else { kept with count := kept.count + 1 }

/-- The send list of its section (R183).  A length above 64 that is lowered is counted. -/
def readSendList (r : Rate) (data : List Word16) : Counted (List (Fin 64)) :=
  let length := clampInto 0 64 (data.headD 0#16).toNat
  ((wordBytes data.tail).take length.value).foldl (takePlace r) { value := [], count := length.count }

/-- One place of the slot table against the slots bound so far (R127, R183). -/
def takeSlot (r : Rate) (kept : Counted (List (Option (Fin 64)))) (b : Byte) : Counted (List (Option (Fin 64))) :=
  let none' (k : Nat) : Counted (List (Option (Fin 64))) :=
    { value := kept.value ++ [none], count := kept.count + k }
  if b = 255#8 then none' 0
  else if h : b.toNat < 64 then
    let c : Fin 64 := ⟨b.toNat, h⟩
    if r.present c && !kept.value.contains (some c) then { kept with value := kept.value ++ [some c] }
    else none' 1
  else none' 1

/-- The slot table of its section (R127, R183). -/
def readSlotTable (r : Rate) (data : List Word16) : Counted (Table 128 (Option (Fin 64))) :=
  let t := ((wordBytes data).take 128).foldl (takeSlot r) { value := [], count := 0 }
  { value := Table.ofList 128 none t.value, count := t.count }

/-- An output source of a type code and a number (R187), or none for an encoding that is not one (R183). -/
def readSource (type number : Byte) : Option OutSource :=
  if type = 0#8 then some .silent
  else if type = 1#8 then (if h : number.toNat < 24 then some (.mix ⟨number.toNat, h⟩) else none)
  else if type = 2#8 then (if h : number.toNat < 128 then some (.slot ⟨number.toNat, h⟩) else none)
  else none

/-- One place of the output map (R183). -/
def readOutput (r : Rate) (o : Fin 64) (w : Word16) : Counted OutSource :=
  match readSource (w.extractLsb' 8 8) (w.extractLsb' 0 8) with
  | none => { value := .silent, count := 1 }
  | some x =>
    if r.present o || x == .silent then { value := x, count := 0 } else { value := .silent, count := 1 }

/-- Counted values of the places of a list field. -/
def countedTable {α : Type} (n : Nat) (d : α) (xs : List (Counted α)) : Counted (Table n α) :=
  { value := Table.ofList n d (xs.map fun x => x.value), count := (xs.map fun x => x.count).sum }

/-- The output map of its section (R183). -/
def readOutMap (r : Rate) (data : List Word16) : Counted (Table 64 OutSource) :=
  countedTable 64 .silent (((List.finRange 64).zip data).map fun p => readOutput r p.1 p.2)

/-- One mix owner: a value above 16 is taken as 0 (R183). -/
def readOwner (b : Byte) : Counted (Option Station) :=
  { value := Station.ofByte b, count := if 16 < b.toNat then 1 else 0 }

/-- The mix owners of their section (R183). -/
def readOwners (data : List Word16) : Counted (Table 24 (Option Station)) :=
  countedTable 24 none (((wordBytes data).take 24).map readOwner)

/-- A destination byte that a key record may hold: a station or a group (R183). -/
def keyDestination (b : Byte) : Bool :=
  decide (1 ≤ b.toNat ∧ b.toNat ≤ 16) || decide (65 ≤ b.toNat ∧ b.toNat ≤ 72)

/-- A key record from its 16 bytes (R183, Table 12-10).  A 24-bit value lies in the low 24 bits of its two words.  A record
that is not bound holds 0 in its other fields (DESIGN CHOICE, assumption 37). -/
def readKey (bs : List Byte) : Counted KeyImage :=
  let b (i : Nat) : Byte := bs.getD i 0#8
  if b 0 = 1#8 then
    if h : keyDestination (b 2) = true ∧ (b 1).toNat < 64 then
      { value :=
          { bound := true, destination := b 2, mask := join24 (b 5) (b 6) (b 7), priority := b 3,
            dim := join24 (b 9) (b 10) (b 11), level := join24 (b 13) (b 14) (b 15), channel := ⟨(b 1).toNat, h.2⟩ },
        count := 0 }
    else { value := KeyImage.unbound, count := 1 }
  else { value := KeyImage.unbound, count := 0 }

/-- The key records of their section (R183). -/
def readKeys (data : List Word16) : Counted (Table 4 KeyImage) :=
  countedTable 4 KeyImage.unbound
    ((List.range 4).map fun k => readKey (((wordBytes data).drop (16 * k)).take 16))

/-- A section's field, or its default uncounted (R184). -/
def sectionOr {α : Type} (s : Sections) (code : Nat) (read : List Word16 → Counted α) (default : α) : Counted α :=
  match s.find code with
  | some data => read data
  | none => { value := default, count := 0 }

/-! ### The values in force (R181 to R184) -/

/-- The station number of a loaded image and whether the image gave it (R181). -/
def imageStation (ws : List Word16) (straps : BitVec 4) : Station × Bool :=
  match (imageField ws 1).bind fun w => Station.ofNumber w.toNat with
  | some s => (s, true)
  | none => (strapStation straps, false)

/-- The values in force from a loaded image, with the clamped-field tally before it saturates (R182, R183). -/
def loadedImage (ws : List Word16) (straps : BitVec 4) : Counted Image :=
  let f := imageField ws
  let s := imageSections ws
  let rate := orDefault (f 2) clampRate .khz48
  let d := Image.defaultsAt (imageStation ws straps).1 rate.value
  let flag (i : Nat) (default : Bool) : Bool := match f 3 with | some w => w.getLsbD i | none => default
  let holdOff := orDefault (f 4) (clampInto 8 120) d.linkHoldOff
  let window := orDefault (f 5) clampWindow d.window
  let top := window.value.frames - 2
  let delay := orDefault (f 6) (clampInto 2 top) (min top d.delay)
  let fallback := orDefault (f 7) (clampInto 2 64) d.fallback
  let hold := orDefault (f 8) (clampInto 10 60000) d.returnHold
  let mark := orDefault (f 9) (clampInto 0 64) d.lowFreeMark
  let duck := orDefault (f 10) (clampInto 2 64) d.duckRamp
  let groups := match f 11 with
    | some w => Table.ofFn fun g : Fin 8 => w.getLsbD g.val
    | none => d.groups
  let send := sectionOr s 1 (readSendList rate.value) d.sendList
  let slots := sectionOr s 2 (readSlotTable rate.value) d.slotTable
  let outs := sectionOr s 3 (readOutMap rate.value) d.outMap
  let owners := sectionOr s 4 readOwners d.owners
  let keys := sectionOr s 5 readKeys d.keys
  { value :=
      { station := d.station, rate := rate.value, originEligible := flag 0 d.originEligible,
        localAlignment := flag 1 d.localAlignment, linkHoldOff := holdOff.value, window := window.value,
        delay := delay.value, fallback := fallback.value, returnHold := hold.value, lowFreeMark := mark.value,
        duckRamp := duck.value, groups := groups, sendList := send.value, slotTable := slots.value,
        outMap := outs.value, owners := owners.value, keys := keys.value },
    count := rate.count + holdOff.count + window.count + delay.count + fallback.count + hold.count + mark.count
      + duck.count + s.count + send.count + slots.count + outs.count + owners.count + keys.count }

/-! ### Finishing the load (R185) -/

/-- What a load settles: the outcome, the first word, the values in force, the source of the station number, the
tally, and the words clocked in. -/
structure Load where
  outcome : LoadOutcome
  first : Word16
  values : Image
  fromImage : Bool
  tally : Nat
  words : Nat
deriving DecidableEq, Repr

/-- The load of a flash with these straps (R179 to R184). -/
def load (flash : List Byte) (straps : BitVec 4) : Load :=
  let ws := readWords flash
  let common (o : LoadOutcome) (v : Image) (i : Bool) (t : Nat) : Load :=
    { outcome := o, first := flashWord flash 0, values := v, fromImage := i, tally := t, words := ws.length }
  match judgeImage ws with
  | .loaded =>
    let v := loadedImage ws straps
    common .loaded v.value (imageStation ws straps).2 (min 255 v.count)
  | .defaults c => common (.defaults c) (Image.defaultsAt (strapStation straps) .khz48) false 0

/-- Step 1 of R185: the blocks take their values (R123, R127, R133, R136). -/
def Node.takeValues (n : Node) (v : Image) : Node :=
  { n with
    loader := { n.loader with values := v },
    taps := { n.taps with pEff := v.delay },
    router := { n.router with
      bindings := v.slotTable.map fun b => match b with | some c => .localChannel c | none => .unbound,
      outMap := v.outMap },
    mixer := { n.mixer with mixes := Table.ofFn fun m => { n.mixer.mixes.get m with owner := v.owners.get m } } }

/-- A side begins work when the loader has finished: its first beacon is due, and a receiver that holds lock gains
it then (R43, R47, R63). -/
def Node.startSide (n : Node) (side : Side) : Node :=
  let n1 := n.updateSide side fun x => { x with beaconDue := true }
  if (n.side side).lock then n1.gainLock side else n1

/-- The load finishes: the values, the IMAGE report and the start, in the order of R185.  The node state is then STARTING for
the first time, which posts no node-state report (DESIGN CHOICE, assumption 39).  East starts before West (DEDUCED,
assumption 20). -/
def Node.finishLoad (n : Node) (flash : List Byte) (straps : BitVec 4) : Node :=
  let l := load flash straps
  let n1 := n.takeValues l.values
  let n2 : Node :=
    { n1 with loader := { n1.loader with state := .finished, outcome := some l.outcome, wordsRead := l.words } }
  let n3 := n2.post (.image l.outcome l.first l.values.station l.fromImage l.values.rate l.tally)
  (n3.startSide .east).startSide .west

/-- The part when the reset line is asserted: HELD, at the power-on values, with the light on its fibres as it is
(R178).  The values in force and the outcome of the last load, which R185 lets stand until the line is released, are
dropped with the rest at the assertion (DESIGN CHOICE, assumption 36). -/
def Node.assertReset (n : Node) : Node := Node.powerOn .held n.link.east.lock n.link.west.lock

/-- The part when the reset line is released: a HELD loader begins a new read (R178, R190). -/
def Node.releaseReset (n : Node) : Node :=
  if n.loader.state = .held then Node.powerOn .reading n.link.east.lock n.link.west.lock else n

end Sys2Proof.Machine
end

