-- ==== Sys2Proof/Machine/Boundary.lean ====
section
/-! DEFINITION. A boundary's opening (R26), the tasks that follow it in order (the agenda), and the running of an
agenda, which stops at a row of the opcode table whose condition stands and lets its own command carry it out. -/

namespace Sys2Proof.Machine

open Sys2Proof

/-! ### The opening of a boundary -/

/-- A side's counts at a boundary: one beacon is due after it (R47), and the silence count of a receiver that holds
lock rises to 16 at most (R45). -/
def SideState.atBoundary (x : SideState) : SideState :=
  { x with beaconDue := true, silence := if x.lock then min Config.silenceLimit (x.silence + 1) else x.silence }

/-- A peer's count of boundaries since its last good segment (R76). -/
def HoldRecord.atBoundary (h : HoldRecord) : HoldRecord := { h with count := min Config.holdRecordLimit (h.count + 1) }

/-- An IN FLIGHT slot's flight count falls at each boundary (R72). -/
def SendSlot.atBoundary : SendSlot → SendSlot
  | .inFlight u c => .inFlight u (c - 1)
  | s => s

/-- The Cadence Unit's counts at a boundary: the local count (R26), the starvation count where it runs (R33), the
back-off in WAITING (R34), the mark phase (R27). -/
def Cadence.atBoundary (c : Cadence) (starving : Bool) : Cadence :=
  { c with localCount := c.localCount + 1#8,
           starvation := if starving then min Config.starvationLimit (c.starvation + 1) else c.starvation,
           backOff := if c.node = .waiting then c.backOff.map (· - 1) else c.backOff,
           markPhase := c.markPhase + 1 }

/-- The HOLD records at a boundary: each peer's count rises; the own number's record is kept clear and not written
(R76). -/
def Node.countPeers (n : Node) : Table 16 HoldRecord :=
  Table.ofFn fun p => if p = n.station then n.messages.peers.get p else (n.messages.peers.get p).atBoundary

/-- Every count that a boundary moves, the talk-key pins, and the capture frame of the period that ends (R26,
R130). -/
def Node.openBoundary (n : Node) (lanes : LaneBlock) (pins : Table 4 Bool) : Node :=
  ({ n with
      cadence := n.cadence.atBoundary n.starvationRuns,
      link := { n.link with east := n.link.east.atBoundary, west := n.link.west.atBoundary,
                            quiet := n.link.quiet.map (· - 1) },
      messages := { n.messages with slots := n.messages.slots.map SendSlot.atBoundary,
                                    peers := n.countPeers },
      taps := { n.taps with windowCount := n.taps.windowCount + 1 },
      talk := { n.talk with pins := pins } } : Node).capture lanes

/-! ### A millisecond mark (R27) -/

/-- The hold-off count in PROVING falls at a mark (R49). -/
def SideState.atMark (x : SideState) : SideState :=
  { x with holdOff := if x.link = .proving then x.holdOff.map (· - 1) else x.holdOff }

/-- A key at a mark (R155, R156): the pin is compared with the level; a key that stays PRESSED counts its keep
count down, and not at the mark at which its release is reached. -/
def KeyState.atMark (x : KeyState) (pin : Bool) : KeyState :=
  let d := if pin = x.pressed then 0 else x.debounce + 1
  { x with debounce := d,
           keep := if x.pressed && decide (d < Config.debounceLimit) then x.keep.map (· - 1) else x.keep }

/-- The counting of a millisecond mark: hold-offs (R49), keys (R155, R156), talk deadlines (R166), return holds
(R120), and the events that wait for the own receive queue handed again (R157). -/
def Node.countMark (n : Node) : Node :=
  let n1 : Node :=
    { n with
      cadence := { n.cadence with markPhase := 0 },
      link := { n.link with east := n.link.east.atMark, west := n.link.west.atMark },
      talk := { n.talk with
        keys := Table.ofFn fun k => (n.talk.keys.get k).atMark (n.talk.pins.get k) },
      taps := n.taps.countHolds }
  n1.countDeadlines.retryOwnEvents

/-! ### Keys whose debounce is complete (R155, R156) -/

/-- A key becomes PRESSED; a bound one makes its OPEN and starts its keep count. -/
def Node.pressKey (n : Node) (k : Fin 4) : Node :=
  if (n.keyImage k).bound then
    (n.updateKey k fun x => { x with pressed := true, debounce := 0, keep := some Config.keepPeriod }).makeEvent k
      .openTalk
  else n.updateKey k fun x => { x with pressed := true, debounce := 0 }

/-- A key becomes RELEASED; a bound one makes its CLOSE and stops its keep count. -/
def Node.releaseKey (n : Node) (k : Fin 4) : Node :=
  let n1 := n.updateKey k fun x => { x with pressed := false, debounce := 0, keep := none }
  if (n.keyImage k).bound then n1.makeEvent k .close else n1

/-- A held key's keep count has run out: a KEEP, and the count starts again (R156). -/
def Node.keepKey (n : Node) (k : Fin 4) : Node :=
  (n.updateKey k fun x => { x with keep := some Config.keepPeriod }).makeEvent k .keep

/-! ### The end of a TAP CLEAR walk (R99, R100) -/

/-- Bucket 63 has been walked: the walk ends and the TAP CLEAR at the head is answered DONE. -/
def Node.completeWalk (n : Node) : Node :=
  match n.taps.walk, n.messages.queue with
  | some w, e :: _ =>
    ((n.updateTaps fun t => { t with walk := none }).updateMessages fun m => { m with carrying := .idle }).complete e
      (some { outcome := .done, detail := countBytes w.freed ++ countBytes n.taps.inUse.length })
  | _, _ => n

/-! ### Tasks -/

/-- A task that is a row of spec/opcode_table.json. -/
def Task.isRow : Task → Bool
  | .quietEnd => true
  | .silence _ => true
  | .holdExpiry _ => true
  | .slotLost _ => true
  | .starvation => true
  | .emit => false
  | .claim => true
  | .raise => false
  | .windowEnd => true
  | .reads => false
  | .mark => true
  | .linkProven _ => true
  | .keyPressed _ => true
  | .keyReleased _ => true
  | .keepExpiry _ => true
  | .talkExpiry => true
  | .returnHold _ => true
  | .decide _ => false
  | .audio => false
  | .walkStep => false
  | .walkComplete => true
  | .badRun _ => true
  | .takeFrame _ _ _ => false

/-- A slot is IN FLIGHT with its flight count at 0 (R74). -/
def SendSlot.lost : SendSlot → Bool
  | .inFlight _ c => c == 0
  | _ => false

/-- The condition of the row that a task is; a task that is no row has none. -/
def Node.rowStands (n : Node) : Task → Bool
  | .quietEnd => n.link.quiet == some 0
  | .silence side => (n.side side).silence == Config.silenceLimit && (n.side side).link != .down
  | .holdExpiry p => (n.messages.peers.get p).hold && (n.messages.peers.get p).count == Config.holdRecordLimit
  | .slotLost i => (n.messages.slots.get i).lost
  | .starvation => n.starvationRuns && n.cadence.starvation == Config.starvationLimit
  | .emit => true
  | .claim => n.cadence.node == .waiting && n.cadence.backOff == some 0
  | .raise => true
  | .windowEnd => n.taps.windowCount == Config.loweringWindow
  | .reads => true
  | .mark => n.cadence.markPhase == n.markPeriod
  | .linkProven side => (n.side side).link == .proving && (n.side side).holdOff == some 0
  | .keyPressed k => (n.talk.keys.get k).debounce == Config.debounceLimit && !(n.talk.keys.get k).pressed
  | .keyReleased k => (n.talk.keys.get k).debounce == Config.debounceLimit && (n.talk.keys.get k).pressed
  | .keepExpiry k => (n.talk.keys.get k).keep == some 0
  | .talkExpiry => !n.expired.isEmpty
  | .returnHold e => n.holdComplete e
  | .decide _ => true
  | .audio => true
  | .walkStep => true
  | .walkComplete => match n.taps.walk with | some w => w.bucket == 64 | none => false
  | .badRun side => (n.side side).badRun == Config.badRunLimit && (n.side side).link != .down
  | .takeFrame _ _ _ => true

/-- A task is due when its row's condition stands in a part that works: none does before the loader has FINISHED
(R178). -/
def Node.due (n : Node) (t : Task) : Bool := n.running && n.rowStands t

/-- What a task does. -/
def Node.doTask (n : Node) : Task → Node
  | .quietEnd => n.endQuiet
  | .silence side => n.goDown side .silence
  | .holdExpiry p =>
    n.updateMessages fun m => { m with peers := m.peers.update p fun h => { h with hold := false } }
  | .slotLost i => n.loseSlot i
  | .starvation => n.starve
  | .emit => n.emit
  | .claim => n.enterClaiming.emit
  | .raise => n.settleRaise
  | .windowEnd => n.endWindow
  | .reads => n.readEntries
  | .mark => n.countMark
  | .linkProven side => n.becomeUp side
  | .keyPressed k => n.pressKey k
  | .keyReleased k => n.releaseKey k
  | .keepExpiry k => n.keepKey k
  | .talkExpiry => n.expireTalks
  | .returnHold e => n.returnPrimary e .hold
  | .decide e => n.decideFallback e
  | .audio => n.formAudio
  | .walkStep => n.walkStep
  | .walkComplete => n.completeWalk
  | .badRun side => n.goDown side .badRun
  | .takeFrame side head body => n.sortFrame side { head := head, body := body }

/-- A task is carried out if it is due; else nothing happens. -/
def Node.perform (n : Node) (t : Task) : Node := if n.due t then n.doTask t else n

/-! ### The agenda of a boundary -/

/-- The tasks of a boundary that concern the links, the slots and the starvation count, in order.  A side's SILENCE is a
task only at the boundary that brings its count to 16 (R50). -/
def Node.ringTasks (before : Node) : List Task :=
  let silence (side : Side) : List Task :=
    if (before.side side).lock && (before.side side).silence + 1 == Config.silenceLimit then [.silence side] else []
  [.quietEnd] ++ silence .east ++ silence .west ++ (List.finRange 16).map .holdExpiry
    ++ (List.finRange 8).map .slotLost ++ [.starvation]

/-- The tasks of a boundary that concern the Tap Controller's reads and the millisecond mark, in order (R113). -/
def markTasks : List Task :=
  [.raise, .windowEnd, .reads, .mark, .linkProven .east, .linkProven .west]
    ++ (List.finRange 4).flatMap (fun k => [.keyPressed k, .keyReleased k, .keepExpiry k]) ++ [.talkExpiry]

/-- The tasks of a boundary that concern fallback and the audio, in order (R113). -/
def Node.audioTasks (n : Node) : List Task :=
  n.taps.inUse.flatMap (fun e => [.returnHold e, .decide e]) ++ [.audio]

/-- The tasks that close a boundary: the frame a station emits and the claim, and then the step of a TAP CLEAR walk.  The
emission comes behind the Tap Controller's boundary work, so the arrivals of a frame that an origin emits again wait for the
next boundary's reads (R109, R113); the walk step comes behind that work as well (R99). -/
def Node.closingTasks (n : Node) : List Task :=
  [.emit, .claim] ++ (if n.taps.walk.isSome then [.walkStep, .walkComplete] else [])

/-- A boundary's agenda, from the part as it stood before the boundary.  Where R113, R99 and R133 give no order, the order is
the model's (DEDUCED, assumption 7). -/
def Node.boundaryTasks (before : Node) : List Task :=
  before.ringTasks ++ markTasks ++ before.audioTasks ++ before.closingTasks

/-! ### Running an agenda -/

/-- The tasks are carried out in order, up to the first that is a row of the opcode table whose condition stands:
that one and the rest wait for its command. -/
def State.runOn : List Task → State → State
  | [], s => { s with agenda := [] }
  | t :: ts, s =>
    if t.isRow && s.node.due t then { s with agenda := t :: ts }
    else State.runOn ts { s with node := s.node.perform t }

/-- Every task left of the event in progress is carried out. -/
def State.finish (s : State) : State := { s with node := s.agenda.foldl Node.perform s.node, agenda := [] }

/-- A command of a row that the part takes of itself: if it is the next task and its condition stands, it is
carried out and the event goes on; if not, nothing happens. -/
def State.takeRow (s : State) (t : Task) : State :=
  match s.agenda with
  | u :: ts => if u = t ∧ s.node.due t = true then State.runOn ts { s with node := s.node.doTask t } else s
  | [] => s

/-- A command from outside: the event in progress is brought to its end first, then the part changes. -/
def State.act (s : State) (f : Node → Node) : State := let d := s.finish; { d with node := f d.node }

/-- A command from outside that the part takes only once the loader has FINISHED (R178). -/
def State.work (s : State) (f : Node → Node) : State := s.act fun n => if n.running then f n else n

end Sys2Proof.Machine
end

