-- ==== Sys2Proof/Machine/Fibre.lean ====
section
/-! DEFINITION. The commands of the two fibres (Sections 1 and 3): lock, beacons, frames, and the link events that
follow from them. -/

namespace Sys2Proof.Machine

open Sys2Proof

/-- The receiver of a side comes to hold lock.  Before the loader has finished the sides do nothing, and only the
lock itself is noted (R43). -/
def Node.lockGained (n : Node) (side : Side) : Node :=
  if (n.side side).lock then n
  else if n.running then n.gainLock side
  else n.updateSide side fun x => { x with lock := true }

/-- The receiver of a side loses lock (R43, R50). -/
def Node.lockLost (n : Node) (side : Side) : Node :=
  if (n.side side).lock then
    if n.running then n.loseLock side else n.updateSide side fun x => { x with lock := false }
  else n

/-- The tasks of an item of evidence (R44, R50): BAD RUN where a bad item brings the count to 4. -/
def Node.evidenceTasks (n : Node) (side : Side) (good : Bool) : List Task :=
  if n.reachesBadRun side good then [.badRun side] else []

/-- A beacon is taken off a side's receiver (R44): a good one acts at once, a bad one is evidence. -/
def State.takeBeacon (s : State) (side : Side) (bytes : SixBytes) : State :=
  match readBeacon side bytes with
  | some b => { s with node := s.node.takeBeacon side b }
  | none => State.runOn (s.node.evidenceTasks side false) { s with node := s.node.takeEvidence side false }

/-- A frame is taken off a side's receiver: its head is evidence (R44), then the frame is sorted (R9).  The evidence comes
first with all that follows from it, so the frame whose bad head brings the bad-run count to 4 waits behind the row BAD_RUN
and is sorted by the fold state that this row leaves: where the link was the active input's, it is neither counted as a bad
head nor rebuilt.  The manual lets a fold and a frame come in either order (R59, R11): DESIGN CHOICE, assumption 31. -/
def State.takeFrame (s : State) (side : Side) (head : SixBytes) (body : List FrameUnit) : State :=
  State.runOn (s.node.evidenceTasks side (headGood head) ++ [.takeFrame side head body])
    { s with node := s.node.takeEvidence side (headGood head) }

/-- A working side whose receiver holds lock: only such a receiver takes anything off the fibre (R43). -/
def Node.receives (n : Node) (side : Side) : Bool := n.running && (n.side side).lock

/-- RECEIVER_LOCK_GAINED (R45, R48). -/
def execReceiverLockGained (side : Side) (s : State) : Host.Outcome State Fault Refusal :=
  .next (s.act fun n => n.lockGained side)

/-- RECEIVER_LOCK_LOST (R45, R50). -/
def execReceiverLockLost (side : Side) (s : State) : Host.Outcome State Fault Refusal :=
  .next (s.act fun n => n.lockLost side)

/-- BEACON_RECEIVED (R44). -/
def execBeaconReceived (side : Side) (beacon : SixBytes) (s : State) : Host.Outcome State Fault Refusal :=
  let d := s.finish
  .next (if d.node.receives side then d.takeBeacon side beacon else d)

/-- FRAME_RECEIVED (R9). -/
def execFrameReceived (side : Side) (head : SixBytes) (body : List FrameUnit) (s : State) :
    Host.Outcome State Fault Refusal :=
  let d := s.finish
  .next (if d.node.receives side then d.takeFrame side head body else d)

/-- BEACON_SENT (R47). -/
def execBeaconSent (side : Side) (s : State) : Host.Outcome State Fault Refusal :=
  .next (s.work fun n => n.sendBeacon side)

/-- BAD_RUN (R50). -/
def execBadRun (side : Side) (s : State) : Host.Outcome State Fault Refusal := .next (s.takeRow (.badRun side))

/-- SILENCE (R50). -/
def execSilence (side : Side) (s : State) : Host.Outcome State Fault Refusal := .next (s.takeRow (.silence side))

/-- LINK_PROVEN (R49). -/
def execLinkProven (side : Side) (s : State) : Host.Outcome State Fault Refusal :=
  .next (s.takeRow (.linkProven side))

/-- QUIET_PERIOD_END (R64). -/
def execQuietPeriodEnd (s : State) : Host.Outcome State Fault Refusal := .next (s.takeRow .quietEnd)

end Sys2Proof.Machine
end

