-- ==== Sys2Proof/Machine/Requests.lean ====
section
/-! DEFINITION. The requests that the Message Controller carries out from the head of its receive queue, and the
grant of a reply slot (Sections 4, 5, 7, 8, 9 and 10.3). -/

namespace Sys2Proof.Machine

open Sys2Proof

/-! ### The requests' fields, by the checks of R68 (Table 12-5) -/

/-- A mix number 0..23 in a byte. -/
def readMix (b : Byte) : Option (Fin 24) := if h : b.toNat < 24 then some ⟨b.toNat, h⟩ else none

/-- A source slot 0..127 in a byte. -/
def readSlot (b : Byte) : Option (Fin 128) := if h : b.toNat < 128 then some ⟨b.toNat, h⟩ else none

/-- An output 0..63 in a byte. -/
def readOutputNo (b : Byte) : Option (Fin 64) := if h : b.toNat < 64 then some ⟨b.toNat, h⟩ else none

/-- A MIX GAIN's fields. -/
def readMixGain (u : FrameUnit) : Option MixGainRequest :=
  match readMix (u.byte 6), readSlot (u.byte 7) with
  | some m, some s => some { mix := m, slot := s, target := u.field24 8, ramp := (u.byte 11).toNat }
  | _, _ => none

/-- A MIX MASTER's fields: mix, target and ramp. -/
def readMixMaster (u : FrameUnit) : Option (Fin 24 × Coef × Nat) :=
  (readMix (u.byte 6)).map fun m => (m, u.field24 7, (u.byte 10).toNat)

/-- An OUT SET's fields: output and source. -/
def readOutSet (u : FrameUnit) : Option (Fin 64 × OutSource) :=
  match readOutputNo (u.byte 6), readSource (u.byte 7) (u.byte 8) with
  | some o, some x => some (o, x)
  | _, _ => none

/-- The mix mask of a TALK KEEP or a TALK CLOSE. -/
def readMask (u : FrameUnit) : Option MixMask := some (u.field24 6)

/-! ### The owners that are not whole in their own files -/

/-- The mix engine replaced by an owner's answer. -/
def Node.fromMixer (n : Node) (r : Reply × MixEngine) : Option Reply × Node := (some r.1, { n with mixer := r.2 })

/-- OUT SET as the Router carries it out (R134). -/
def Node.outSet (n : Node) (o : Fin 64) (x : OutSource) : Reply × Node :=
  if n.loader.values.rate.present o then
    ({ outcome := .done, detail := (n.router.outMap.get o).codeBytes },
      n.updateRouter fun r => { r with outMap := r.outMap.set o x })
  else (badField, n)

/-- TAP CLEAR: the walk starts with the next boundary, and the message is being carried out until it ends (R80,
R99). -/
def Node.startWalk (n : Node) : Node :=
  (n.updateTaps fun t => { t with walk := some { bucket := 0, freed := 0 } }).updateMessages fun m =>
    { m with carrying := .tapClear }

/-! ### The commands -/

/-- REPLY_SLOT_GRANT (R83). -/
def execReplySlotGrant (s : State) : Host.Outcome State Fault Refusal := .next (s.work Node.grantReply)

/-- UNKNOWN_KIND (R68): BAD FIELD. -/
def execUnknownKind (s : State) : Host.Outcome State Fault Refusal :=
  .next (s.work fun n => n.carryOut isUnknownKind fun e m => m.complete e (some badField))

/-- TAP_SET (R92 to R97). -/
def execTapSet (s : State) : Host.Outcome State Fault Refusal :=
  .next (s.work fun n => n.carryRequest kindTapSet readTapSet fun r _ m =>
    let a := m.tapSet r
    (some a.1, a.2))

/-- TAP_DROP (R98). -/
def execTapDrop (s : State) : Host.Outcome State Fault Refusal :=
  .next (s.work fun n => n.carryRequest kindTapDrop (messageKey · 6) fun k _ m =>
    let a := m.tapDrop k
    (some a.1, a.2))

/-- TAP_CLEAR (R99). -/
def execTapClear (s : State) : Host.Outcome State Fault Refusal :=
  .next (s.work fun n => n.carryOut (· == kindTapClear) fun _ m => m.startWalk)

/-- MIX_GAIN (R138 to R141). -/
def execMixGain (s : State) : Host.Outcome State Fault Refusal :=
  .next (s.work fun n => n.carryRequest kindMixGain readMixGain fun r desk m =>
    m.fromMixer (m.mixer.mixGain r desk))

/-- MIX_MASTER (R138, R142). -/
def execMixMaster (s : State) : Host.Outcome State Fault Refusal :=
  .next (s.work fun n => n.carryRequest kindMixMaster readMixMaster fun r desk m =>
    m.fromMixer (m.mixer.mixMaster r.1 r.2.1 r.2.2 desk))

/-- OUT_SET (R134). -/
def execOutSet (s : State) : Host.Outcome State Fault Refusal :=
  .next (s.work fun n => n.carryRequest kindOutSet readOutSet fun r _ m =>
    let a := m.outSet r.1 r.2
    (some a.1, a.2))

/-- TALK_OPEN (R161 to R163). -/
def execTalkOpen (s : State) : Host.Outcome State Fault Refusal :=
  .next (s.work fun n => n.carryRequest kindTalkOpen readTalkOpen fun r desk m =>
    let a := m.talkOpen r desk
    (some a.1, a.2))

/-- TALK_KEEP (R164). -/
def execTalkKeep (s : State) : Host.Outcome State Fault Refusal :=
  .next (s.work fun n => n.carryRequest kindTalkKeep readMask fun mask desk m => m.talkKeep mask desk)

/-- TALK_CLOSE (R165). -/
def execTalkClose (s : State) : Host.Outcome State Fault Refusal :=
  .next (s.work fun n => n.carryRequest kindTalkClose readMask fun mask desk m => (none, m.talkClose mask desk))

/-- STATUS_QUERY (R81, R176, R177). -/
def execStatusQuery (s : State) : Host.Outcome State Fault Refusal := .next (s.work Node.statusQuery)

end Sys2Proof.Machine
end

