-- ==== Sys2Proof/Machine/StartUp.lean ====
section
/-! DEFINITION. The commands of start-up: POWER_ON, the reset line, and LOAD_FINISHED (Section 11). -/

namespace Sys2Proof.Machine

open Sys2Proof

/-- POWER_ON (R178): the loader is HELD or READING, every block at its power-on values; nothing is under way and no
receiver has reported lock. -/
def execPowerOn (resetHeld : Bool) (s : State) : Host.Outcome State Fault Refusal :=
  .next { s with node := Node.powerOn (if resetHeld then .held else .reading) false false, agenda := [] }

/-- RESET_LINE_ASSERTED (R178): the whole part is in reset. -/
def execResetLineAsserted (s : State) : Host.Outcome State Fault Refusal :=
  .next { s with node := s.node.assertReset, agenda := [] }

/-- RESET_LINE_RELEASED (R178): a HELD loader goes to READING. -/
def execResetLineReleased (s : State) : Host.Outcome State Fault Refusal := .next (s.act Node.releaseReset)

/-- LOAD_FINISHED (R185), taken while the loader is READING. -/
def execLoadFinished (flash : List Byte) (straps : BitVec 4) (s : State) : Host.Outcome State Fault Refusal :=
  .next (s.act fun n => if n.loader.state = .reading then n.finishLoad flash straps else n)

end Sys2Proof.Machine
end

