-- ==== Sys2Proof/Machine/Ticks.lean ====
section
/-! DEFINITION. BOUNDARY and the commands of the counts that run out at a boundary or a millisecond mark (Sections 2,
4, 5, 6 and 9). -/

namespace Sys2Proof.Machine

open Sys2Proof

/-- BOUNDARY (R26): none occurs before the loader has finished. -/
def execBoundary (lanes : LaneBlock) (pins : Table 4 Bool) (s : State) : Host.Outcome State Fault Refusal :=
  let d := s.finish
  .next (if d.node.running then State.runOn d.node.boundaryTasks { d with node := d.node.openBoundary lanes pins } else d)

/-- STARVATION (R33). -/
def execStarvation (s : State) : Host.Outcome State Fault Refusal := .next (s.takeRow .starvation)

/-- CLAIM (R34, R35). -/
def execClaim (s : State) : Host.Outcome State Fault Refusal := .next (s.takeRow .claim)

/-- WINDOW_END (R112). -/
def execWindowEnd (s : State) : Host.Outcome State Fault Refusal := .next (s.takeRow .windowEnd)

/-- RETURN_HOLD_COMPLETE (R120). -/
def execReturnHoldComplete (entry : Fin 256) (s : State) : Host.Outcome State Fault Refusal :=
  .next (s.takeRow (.returnHold entry))

/-- TAP_CLEAR_COMPLETE (R100). -/
def execTapClearComplete (s : State) : Host.Outcome State Fault Refusal := .next (s.takeRow .walkComplete)

/-- SLOT_LOST (R74). -/
def execSlotLost (slot : Fin 8) (s : State) : Host.Outcome State Fault Refusal := .next (s.takeRow (.slotLost slot))

/-- HOLD_RECORD_EXPIRY (R76). -/
def execHoldRecordExpiry (peer : Station) (s : State) : Host.Outcome State Fault Refusal :=
  .next (s.takeRow (.holdExpiry peer))

/-- MILLISECOND_MARK (R27). -/
def execMillisecondMark (s : State) : Host.Outcome State Fault Refusal := .next (s.takeRow .mark)

/-- TALK_KEY_PRESSED (R155, R156). -/
def execTalkKeyPressed (key : Fin 4) (s : State) : Host.Outcome State Fault Refusal :=
  .next (s.takeRow (.keyPressed key))

/-- TALK_KEY_RELEASED (R155, R156). -/
def execTalkKeyReleased (key : Fin 4) (s : State) : Host.Outcome State Fault Refusal :=
  .next (s.takeRow (.keyReleased key))

/-- KEEP_COUNT_EXPIRY (R156). -/
def execKeepCountExpiry (key : Fin 4) (s : State) : Host.Outcome State Fault Refusal :=
  .next (s.takeRow (.keepExpiry key))

/-- TALK_EXPIRY (R166). -/
def execTalkExpiry (s : State) : Host.Outcome State Fault Refusal := .next (s.takeRow .talkExpiry)

end Sys2Proof.Machine
end

