-- ==== Sys2Proof/Machine/Transfers.lean ====
section
/-! DEFINITION. The commands of the Local Message Port (Section 10.1): a transfer's beginning, its operation byte,
its three whole forms, and an ignored one. -/

namespace Sys2Proof.Machine

open Sys2Proof

/-! ### The operations (R189) -/

/-- The operation codes. -/
def opSend : Byte := 1#8
def opTakeReport : Byte := 2#8
def opRestartRing : Byte := 3#8

/-- The whole length in bits that an operation fixes, if it is one of the three (R170). -/
def wholeBits (op : Byte) : Option Nat :=
  if op = opSend then some Config.sendBits
  else if op = opTakeReport then some Config.takeReportBits
  else if op = opRestartRing then some Config.restartRingBits
  else none

/-- The port's state changed by `f`. -/
def Node.updatePort (n : Node) (f : Port → Port) : Node := { n with port := f n.port }

/-- The operation byte that the transfer in progress has completed. -/
def Port.operation (p : Port) : Option Byte :=
  match p.transfer with
  | .counting _ op _ => op
  | .idle => none

/-- The report that the transfer in progress has chosen. -/
def Port.chosen (p : Port) : Option Report :=
  match p.transfer with
  | .counting _ _ r => r
  | .idle => none

/-- The bits of bytes as they leave the part, most significant bit first (R186). -/
def bitsOf (bs : List Byte) : List Bool := bs.flatMap fun b => (List.range 8).map fun i => b.getLsbD (7 - i)

/-- The first `count` bits of these bytes, with bits of 0 past their end (R170). -/
def bitsShifted (bs : List Byte) (count : Nat) : List Bool := (bitsOf bs ++ List.replicate count false).take count

/-- Select has risen after so many bits: the transfer state is IDLE.  What has been shifted out is the status byte
and then the bytes behind the operation byte, as far as the transfer went (R170, R171). -/
def Port.ended (p : Port) (bits : Nat) : Port :=
  { p with
    transfer := .idle
    shiftedOut :=
      if bits < 8 then bitsShifted [p.held.byte] bits else p.shiftedOut ++ bitsShifted p.reply (bits - 8) }

/-- Select has risen after so many bits (R170). -/
def Node.endTransfer (n : Node) (bits : Nat) : Node := n.updatePort (·.ended bits)

/-- Select falls: a transfer begins (R170). -/
def Node.beginTransfer (n : Node) : Node :=
  match n.port.transfer with
  | .idle => n.updatePort fun p => { p with transfer := .counting 0 none none, reply := [], shiftedOut := [] }
  | .counting _ _ _ => n

/-- The bytes that the port has ready to shift out behind an operation byte: the report a TAKE REPORT chose, and none
for every other operation, behind whose byte every bit shifted out is 0 (R170, R175). -/
def Node.bytesOut (n : Node) (op : Byte) : List Byte :=
  if op = opTakeReport then
    match n.reports.items with
    | r :: rest => r.bytes rest.length
    | [] => emptyMarker n.reports.postNumber
  else []

/-- The eighth bit of an operation byte: the held status has been shifted out and becomes NONE, and a TAKE REPORT
chooses its report (R171, R175). -/
def Node.completeOperation (n : Node) (op : Byte) : Node :=
  match n.port.transfer with
  | .counting _ none _ =>
    n.updatePort fun p =>
      { p with transfer := .counting 8 (some op) (if op = opTakeReport then n.reports.items.head? else none),
               held := .nothing, reply := n.bytesOut op, shiftedOut := bitsOf [p.held.byte] }
  | _ => n

/-- A whole transfer of an operation ends: what it does, then IDLE; nothing where no such transfer is under way. -/
def Node.wholeTransfer (n : Node) (op : Byte) (f : Node → Node) : Node :=
  if n.port.operation = some op then (f n).endTransfer ((wholeBits op).getD 0) else n

/-- The held status is set (R171). -/
def Node.hold (n : Node) (h : HeldStatus) : Node := n.updatePort fun p => { p with held := h }

/-- A whole SEND is judged, in the order of R172.  A message that goes out carries 0 in what its layout does not assign
(R186). -/
def Node.judgeSend (n : Node) (u : FrameUnit) : Node :=
  if isAnswerKind u.kind then n.hold .malformed
  else if u.destination = n.station.byte then
    match n.selfAddress u .port with
    | some m => m.hold (.accepted none)
    | none => n.hold .queueFull
  else
    match n.messages.freeSlot portSlots with
    | some i => (n.placeMessage i (assignedUnit u)).hold (.accepted (some i))
    | none => n.hold .slotsFull

/-- The chosen report leaves the head; an empty marker removes nothing (R175). -/
def Node.removeReport (n : Node) : Node :=
  match n.port.chosen with
  | some _ => { n with reports := n.reports.take }
  | none => n

/-- One ring restart of every block (R173): the links (R64), the Cadence Unit (R42), the Frame Engine (R24), the
Message Controller (R85), the Tap Controller (R124). -/
def Node.restartRing (n : Node) : Node :=
  n.restartLinks.restartCadence.restartEngine.restartMessages.restartTaps

/-- A transfer that ends after so many bits is not whole (R170). -/
def Port.notWhole (p : Port) (bits : Nat) : Bool :=
  match p.transfer with
  | .idle => false
  | .counting _ none _ => decide (bits < 8)
  | .counting _ (some op) _ => decide (8 ≤ bits) && wholeBits op != some bits

/-- An ignored transfer: the framing count rises (R170). -/
def Node.ignoreTransfer (n : Node) (bits : Nat) : Node :=
  if n.port.notWhole bits then (n.updatePort fun p => { p with framing := p.framing.inc }).endTransfer bits else n

/-! ### The commands -/

/-- TRANSFER_BEGINS (R170). -/
def execTransferBegins (s : State) : Host.Outcome State Fault Refusal := .next (s.work Node.beginTransfer)

/-- OPERATION_BYTE_COMPLETE (R171, R175). -/
def execOperationByteComplete (operation : Byte) (s : State) : Host.Outcome State Fault Refusal :=
  .next (s.work fun n => n.completeOperation operation)

/-- SEND (R172). -/
def execSend (message : FrameUnit) (s : State) : Host.Outcome State Fault Refusal :=
  .next (s.work fun n => n.wholeTransfer opSend fun m => m.judgeSend message)

/-- TAKE_REPORT (R175). -/
def execTakeReport (s : State) : Host.Outcome State Fault Refusal :=
  .next (s.work fun n => n.wholeTransfer opTakeReport Node.removeReport)

/-- RESTART_RING (R173). -/
def execRestartRing (s : State) : Host.Outcome State Fault Refusal :=
  .next (s.work fun n => n.wholeTransfer opRestartRing Node.restartRing)

/-- TRANSFER_IGNORED (R170). -/
def execTransferIgnored (bits : Nat) (s : State) : Host.Outcome State Fault Refusal :=
  .next (s.work fun n => n.ignoreTransfer bits)

end Sys2Proof.Machine
end

