-- ==== Sys2Proof/Machine/Dispatch.lean ====
section
/-! DEFINITION. The dispatch of a command to its meaning, one arm for each row of spec/opcode_table.json. -/

namespace Sys2Proof.Machine

open Sys2Proof

/-- A command's effect on the part and on the event in progress. -/
def exec (i : Instr) (s : State) : Host.Outcome State Fault Refusal :=
  match i with
  | .powerOn resetHeld => Sys2Proof.Machine.execPowerOn resetHeld s
  | .resetLineAsserted => Sys2Proof.Machine.execResetLineAsserted s
  | .resetLineReleased => Sys2Proof.Machine.execResetLineReleased s
  | .loadFinished flash straps => Sys2Proof.Machine.execLoadFinished flash straps s
  | .send message => Sys2Proof.Machine.execSend message s
  | .takeReport => Sys2Proof.Machine.execTakeReport s
  | .restartRing => Sys2Proof.Machine.execRestartRing s
  | .operationByteComplete operation => Sys2Proof.Machine.execOperationByteComplete operation s
  | .transferIgnored bits => Sys2Proof.Machine.execTransferIgnored bits s
  | .quietPeriodEnd => Sys2Proof.Machine.execQuietPeriodEnd s
  | .receiverLockGained side => Sys2Proof.Machine.execReceiverLockGained side s
  | .receiverLockLost side => Sys2Proof.Machine.execReceiverLockLost side s
  | .beaconReceived side beacon => Sys2Proof.Machine.execBeaconReceived side beacon s
  | .badRun side => Sys2Proof.Machine.execBadRun side s
  | .silence side => Sys2Proof.Machine.execSilence side s
  | .linkProven side => Sys2Proof.Machine.execLinkProven side s
  | .beaconSent side => Sys2Proof.Machine.execBeaconSent side s
  | .frameReceived side head body => Sys2Proof.Machine.execFrameReceived side head body s
  | .boundary lanes pins => Sys2Proof.Machine.execBoundary lanes pins s
  | .starvation => Sys2Proof.Machine.execStarvation s
  | .claim => Sys2Proof.Machine.execClaim s
  | .windowEnd => Sys2Proof.Machine.execWindowEnd s
  | .returnHoldComplete entry => Sys2Proof.Machine.execReturnHoldComplete entry s
  | .tapClearComplete => Sys2Proof.Machine.execTapClearComplete s
  | .slotLost slot => Sys2Proof.Machine.execSlotLost slot s
  | .holdRecordExpiry peer => Sys2Proof.Machine.execHoldRecordExpiry peer s
  | .millisecondMark => Sys2Proof.Machine.execMillisecondMark s
  | .talkKeyPressed key => Sys2Proof.Machine.execTalkKeyPressed key s
  | .talkKeyReleased key => Sys2Proof.Machine.execTalkKeyReleased key s
  | .keepCountExpiry key => Sys2Proof.Machine.execKeepCountExpiry key s
  | .talkExpiry => Sys2Proof.Machine.execTalkExpiry s
  | .replySlotGrant => Sys2Proof.Machine.execReplySlotGrant s
  | .unknownKind => Sys2Proof.Machine.execUnknownKind s
  | .tapSet => Sys2Proof.Machine.execTapSet s
  | .tapDrop => Sys2Proof.Machine.execTapDrop s
  | .tapClear => Sys2Proof.Machine.execTapClear s
  | .mixGain => Sys2Proof.Machine.execMixGain s
  | .mixMaster => Sys2Proof.Machine.execMixMaster s
  | .outSet => Sys2Proof.Machine.execOutSet s
  | .talkOpen => Sys2Proof.Machine.execTalkOpen s
  | .talkKeep => Sys2Proof.Machine.execTalkKeep s
  | .talkClose => Sys2Proof.Machine.execTalkClose s
  | .statusQuery => Sys2Proof.Machine.execStatusQuery s
  | .transferBegins => Sys2Proof.Machine.execTransferBegins s

end Sys2Proof.Machine
end

