-- ==== Sys2Proof/Safety.lean ====
section
/-! DEFINITION. What the manual promises of every state of the part: the bounds and relations that every command
keeps.  The statements for the provers use these names. -/

namespace Sys2Proof.Safety

open Sys2Proof Sys2Proof.Machine

/-- R174: at most 32 reports wait, and the interrupt line is asserted exactly while one does. -/
def ReportsSound (q : ReportQueue) : Prop := q.items.length ≤ 32 ∧ q.interrupt = !q.items.isEmpty

/-- R75, R78: at most 16 messages wait, HOLD is set with 0 to 3 free places and clear with 8 to 16; R82: at most 16
notices. -/
def MessagesSound (m : Messages) : Prop :=
  m.queue.length ≤ 16 ∧ m.notices.length ≤ 16
    ∧ (16 - m.queue.length ≤ 3 → m.hold = true) ∧ (8 ≤ 16 - m.queue.length → m.hold = false)

/-- R51: how the fold state and the link states stand to each other. -/
def FoldAgrees (l : LinkFold) : Prop :=
  match l.fold with
  | .whole => l.east.link = .up ∧ l.west.link = .up
  | .foldedEast => l.west.link = .up
  | .foldedWest => l.east.link = .up
  | .isolated => l.east.link ≠ .up ∧ l.west.link ≠ .up

/-- R107: W and P as the Image Loader clamps them. -/
def DelayClamped (v : Image) : Prop := 2 ≤ v.delay ∧ v.delay ≤ v.window.frames - 2

/-- R110: P ≤ P_eff ≤ W − 1, under clamped W and P. -/
def DelaySound (n : Node) : Prop :=
  DelayClamped n.loader.values ∧ n.loader.values.delay ≤ n.taps.pEff ∧ n.taps.pEff ≤ n.loader.values.window.frames - 1

/-- R36: at most 4 returned frames wait. -/
def ReturnsSound (c : Cadence) : Prop := c.returnQueue.length ≤ 4

/-- R25: a station in CLAIMING or ORIGIN follows itself; R178: it stays in STARTING until the loader has
finished. -/
def FollowsItself (n : Node) : Prop :=
  (n.cadence.node = .claiming ∨ n.cadence.node = .origin → n.cadence.followed = some n.station)
    ∧ (n.running = false → n.cadence.node = .starting)

/-- R137: each of the 1,024 crosspoints is free or in one mix's list, and each list is in slot order and names no slot
twice. -/
def CrosspointsSound (e : MixEngine) : Prop :=
  e.freeCrosspoints + crosspointsIn e.mixes.items = 1024
    ∧ ∀ x ∈ e.mixes.items, (x.crosspoints.map fun c => c.slot.val).Pairwise (· < ·)

/-- R43, R45: the evidence counts of a side lie in their ranges. -/
def EvidenceSound (x : SideState) : Prop := x.badRun ≤ 4 ∧ x.silence ≤ 16

/-- R150: the value, the target and the start of a ramp lie within 0..1,048,576, as every duck coefficient does. -/
def DuckSound (r : Ramp) : Prop :=
  r.value ≤ unity ∧ r.target ≤ unity ∧ ∀ start length k, r.phase = .ramping start length k → start ≤ unity

/-- R160: a talk outranks another by a higher priority, or by an equal one and a lower desk station. -/
def Outranks (t u : Talk) : Prop := u.priority < t.priority ∨ (t.priority = u.priority ∧ t.desk < u.desk)

/-- R160: each mix's list holds at most 4 talks, at most one of a desk, in order of precedence (a higher priority first,
and of equal ones the lower desk station), each of priority 1..7 with a dim below unity; the duck target is unity exactly
when the list is empty.  R150: the duck coefficients lie in their range. -/
def TalksSound (e : MixEngine) : Prop :=
  ∀ x ∈ e.mixes.items, DuckSound x.duck ∧ x.talks.length ≤ 4 ∧ (x.talks.map fun t => t.desk).Nodup
    ∧ x.talks.Pairwise Outranks
    ∧ (∀ t ∈ x.talks, t.dim < unity ∧ 1 ≤ t.priority ∧ t.priority ≤ 7) ∧ (x.talks = [] ↔ x.duck.target = unity)

/-- R88: an entry is free or in use and in its key's chain; no chain holds an entry twice or more than 8 of them; no two
entries in use hold the same key. -/
def TableSound (t : Taps) : Prop :=
  t.free.Nodup ∧ (∀ e, e ∈ t.free ↔ t.entries.get e = none)
    ∧ (∀ b e, e ∈ t.chains.get b ↔ ∃ x, t.entries.get e = some x ∧ x.key.bucket = b)
    ∧ (∀ b, (t.chains.get b).Nodup ∧ (t.chains.get b).length ≤ 8)
    ∧ ∀ e f x y, t.entries.get e = some x → t.entries.get f = some y → x.key = y.key → e = f

/-- R126: a slot is bound to a tap entry exactly when that entry's slot binding names that slot. -/
def BindingsAgree (n : Node) : Prop :=
  ∀ s e, n.router.bindings.get s = .tap e ↔ ∃ x, n.taps.entries.get e = some x ∧ x.slot = some s

/-- The entries in use. -/
def inUse (t : Taps) : List TapEntry := t.entries.items.filterMap id

/-- R90: an entry in use has a slot binding, a backs count or a talk-users count of at least 1, and has an alternate only
with a slot binding. -/
def EntriesUsed (t : Taps) : Prop :=
  ∀ e x, t.entries.get e = some x →
    (x.slot.isSome = true ∨ 1 ≤ x.backs ∨ 1 ≤ x.talkUsers) ∧ (x.slot = none → x.alternate = none)

/-- R101: a key's backs count is the number of entries in use that name the key as their alternate; a key that is so named
has an entry. -/
def BacksAgree (t : Taps) : Prop :=
  ∀ k, (match t.entryOf k with | some x => x.backs | none => 0)
    = ((inUse t).filter fun x => x.alternate == some k).length

/-- R103: a key's talk-users count is the number of talks, over all mixes, whose source is the key; a talk's source has an
entry. -/
def TalkUsersAgree (n : Node) : Prop :=
  ∀ k, (match n.taps.entryOf k with | some x => x.talkUsers | none => 0)
    = (n.mixer.mixes.items.flatMap fun x => x.talks.filter fun t => t.source == k).length

/-- R123, R127: the tap table is empty until the loader has finished. -/
def EmptyBeforeLoad (n : Node) : Prop := n.running = false → ∀ e, n.taps.entries.get e = none

/-! ### What the statements say of a change -/

/-- These reports were posted, in this order. -/
def Posted (before after : ReportQueue) (bs : List ReportBody) : Prop := after = bs.foldl ReportQueue.post before

/-- The link report of a side's state (R60). -/
def linkReport (side : Side) (link : LinkState) (cause : LinkCause) (latest : Option Beacon) : ReportBody :=
  .link side link cause (latest.map fun b => (b.sender, b.fold))

/-- The fold state after a side's link has left UP, given the other side's link (R53, R54). -/
def foldAfterLoss (fold : FoldState) (side : Side) (other : LinkState) : FoldState :=
  match fold, side with
  | .whole, .east => .foldedEast
  | .whole, .west => .foldedWest
  | .foldedEast, .west => if other = .up then .foldedWest else .isolated
  | .foldedWest, .east => if other = .up then .foldedEast else .isolated
  | f, _ => f

/-- The fold state after a side's link has become UP (R55, R56, R57). -/
def foldAfterUp (fold : FoldState) (side : Side) (proven : Bool) : FoldState :=
  match fold, side with
  | .isolated, .east => .foldedWest
  | .isolated, .west => .foldedEast
  | .foldedEast, .east => if proven then .whole else .foldedEast
  | .foldedWest, .west => if proven then .whole else .foldedWest
  | f, _ => f

/-- R50, R53, R54, R39: `m` is `n` after a side that was not DOWN has gone DOWN.  The link report comes first; a change of
the fold state is counted and reported behind it, and a change to ISOLATED makes the station ALONE. -/
def WentDown (side : Side) (cause : LinkCause) (n m : Node) : Prop :=
  let fold := if (n.side side).link = .up then foldAfterLoss n.link.fold side (n.side side.opposite).link else n.link.fold
  m.side side = { n.side side with link := .down, holdOff := none, linkDown := (n.side side).linkDown.inc }
    ∧ m.side side.opposite = n.side side.opposite
    ∧ m.link.quiet = n.link.quiet ∧ m.link.earlyUnfold = n.link.earlyUnfold
    ∧ m.link.fold = fold
    ∧ m.link.foldChange = (if fold = n.link.fold then n.link.foldChange else n.link.foldChange.inc)
    ∧ m.cadence = (if fold ≠ n.link.fold ∧ fold = .isolated then
        { n.cadence with node := .alone, returnQueue := [], backOff := none, starvation := 0 } else n.cadence)
    ∧ Posted n.reports m.reports
        (linkReport side .down cause (n.side side).latest
          :: (if fold = n.link.fold then [] else [.fold fold n.link.fold (some side) false])
          ++ (if fold ≠ n.link.fold ∧ fold = .isolated then
                [.nodeState .alone n.cadence.followed n.cadence.roundLength] else []))
    ∧ m = { n with link := m.link, cadence := m.cadence, engine := m.engine, reports := m.reports }
    ∧ m.engine = (if fold ≠ n.link.fold ∧ fold = .isolated ∧ n.cadence.node = .starting then
        { n.engine with layoutDue := true } else n.engine)

/-- R145: a ramp given a target: an equal one leaves a ramp in progress running. -/
def aimed (r : Ramp) (target : Coef) (length : Nat) : Ramp :=
  if r.target = target then r
  else { r with target := target, phase := if length = 0 then .pending else .ramping r.value length 0 }

/-- R145, R167: a mix whose talk list has become `l` and that has taken the setting the list calls for: the winner's dim,
talk coefficient and source, or unity and 0 with the feed unchanged when the list is empty. -/
def withTalks (x : Mix) (l : List Talk) (duckRamp : Nat) : Mix :=
  { x with
    talks := l
    duck := aimed x.duck (match l with | t :: _ => t.dim | [] => unity) duckRamp
    talkLevel := aimed x.talkLevel (match l with | t :: _ => t.level | [] => 0#24) duckRamp
    feed := match l with | t :: _ => some t.source | [] => x.feed }

/-- R163: the net move of a key's talk users over some moves. -/
def netMove (moves : List (Key × Int)) (k : Key) : Int := ((moves.filter fun c => c.1 == k).map Prod.snd).sum

/-- R103, R163: `m` is `n` after one talk-user change that holds each key whose net move is not 0 once, with that move; with
no such key no change is handed.  The order of the keys is the model's (assumption 34). -/
def UsersMoved (moves : List (Key × Int)) (n m : Node) : Prop :=
  ∃ change : List (Key × Int), (change.map Prod.fst).Nodup
    ∧ (∀ k v, (k, v) ∈ change ↔ v = netMove moves k ∧ v ≠ 0)
    ∧ m = if change = [] then n else (n.talkUserChange change).2

/-- R131: `locals` is one read of the local delay store at the expected index, made by the rules of R114 to R117 as for a
tap entry that holds one channel's frames, and `after` is the store behind it: one read state for every channel. -/
def AlignedRead (d : DelayStore) (w : Window) (expected : Byte) (after : DelayStore) (locals : CaptureFrame) : Prop :=
  after.places = d.places ∧ ∀ (c : Fin 64) (x : TapEntry),
    x.buffer = d.places.map (Option.map fun p => (p.1, p.2.get c)) → x.conceal = d.conceal →
    x.lastGood = d.lastGood.get c → x.lastPlayed = d.lastPlayed →
    locals.get c = (x.read w expected).2.samples
      ∧ after.conceal = (x.read w expected).1.conceal ∧ after.lastPlayed = (x.read w expected).1.lastPlayed
      ∧ after.lastGood.get c = (x.read w expected).1.lastGood

/-! ### The image (Section 11) -/

/-- R190: word i of the flash, high byte first; past the flash's end no device drives the data line, which is held high
(R179). -/
def wordAt (flash : List Byte) (i : Nat) : Word16 := flash.getD (2 * i) 255#8 ++ flash.getD (2 * i + 1) 255#8

/-- Table 12-10: the data words that a section of a code must have. -/
def SectionFits (code : Nat) (data : List Word16) : Prop :=
  match code with
  | 1 => ∃ length places, data = length :: places ∧ places.length = (min length.toNat 64 + 1) / 2
  | 2 => data.length = 64
  | 3 => data.length = 64
  | 4 => data.length = 12
  | 5 => data.length = 32
  | _ => False

/-- R190: a walk over the words before the check word, from the sections taken so far and the count of those passed over,
to both at its end.  A section that the check word cuts ends the walk; one of an unknown code, of another size, or of a
code already taken is passed over (assumptions 38 and 43). -/
inductive Walked : List Word16 → List (Nat × List Word16) → Nat → List (Nat × List Word16) → Nat → Prop
  | ended (taken passed) : Walked [] taken passed taken passed
  | cut (header rest taken passed) : rest.length < (header.extractLsb' 0 8).toNat →
      Walked (header :: rest) taken passed taken passed
  | taken (header data rest taken passed all count) : data.length = (header.extractLsb' 0 8).toNat →
      SectionFits (header.extractLsb' 8 8).toNat data → (∀ x ∈ taken, x.1 ≠ (header.extractLsb' 8 8).toNat) →
      Walked rest (taken ++ [((header.extractLsb' 8 8).toNat, data)]) passed all count →
      Walked (header :: (data ++ rest)) taken passed all count
  | passed (header data rest taken passed all count) : data.length = (header.extractLsb' 0 8).toNat →
      ¬(SectionFits (header.extractLsb' 8 8).toNat data ∧ ∀ x ∈ taken, x.1 ≠ (header.extractLsb' 8 8).toNat) →
      Walked rest taken (passed + 1) all count →
      Walked (header :: (data ++ rest)) taken passed all count

/-- The things of a list with each kept at its first place only. -/
def firsts {α : Type} [DecidableEq α] : List α → List α
  | [] => []
  | a :: l => a :: (firsts l).filter (· ≠ a)

/-- R183: the channel that a place's byte names, if it is in range and present at the rate. -/
def placeChannel (r : Rate) (b : Byte) : Option (Fin 64) :=
  if h : b.toNat < 64 then (if r.present ⟨b.toNat, h⟩ then some ⟨b.toNat, h⟩ else none) else none

/-- R183: the send list of its section and the clamps: the channels of the places up to the length, each at its first
place. -/
def SendListTaken (r : Rate) (data : List Word16) (list : List (Fin 64)) (clamps : Nat) : Prop :=
  let length := (data.headD 0#16).toNat
  let listed := (data.tail.flatMap bytes16).take (min length 64)
  list = firsts (listed.filterMap (placeChannel r))
    ∧ clamps = (if 64 < length then 1 else 0) + (listed.length - list.length)

/-- R183, R127: the slot table of its section and the clamps: a place names a channel unless a lower one does. -/
def SlotTableTaken (r : Rate) (data : List Word16) (table : Table 128 (Option (Fin 64))) (clamps : Nat) : Prop :=
  let place (i : Fin 128) : Byte := (data.flatMap bytes16).getD i.val 255#8
  (∀ i, table.get i = if ∃ j < i, place j = place i then none else placeChannel r (place i))
    ∧ clamps = ((List.finRange 128).filter fun i => place i != 255#8 && (table.get i).isNone).length

/-- R183, R133: the output map of its section and the clamps: NONE for what is no source, and for an absent output. -/
def OutMapTaken (r : Rate) (data : List Word16) (map : Table 64 OutSource) (clamps : Nat) : Prop :=
  let source (o : Fin 64) : Option OutSource :=
    let type := ((data.getD o.val 0#16).extractLsb' 8 8).toNat
    let number := ((data.getD o.val 0#16).extractLsb' 0 8).toNat
    if type = 0 then some .silent
    else if h : type = 1 ∧ number < 24 then some (.mix ⟨number, h.2⟩)
    else if h : type = 2 ∧ number < 128 then some (.slot ⟨number, h.2⟩)
    else none
  (∀ o, map.get o = match source o with | some x => if r.present o then x else .silent | none => .silent)
    ∧ clamps = ((List.finRange 64).filter fun o => source o != some (map.get o)).length

/-- R183: the mix owners of their section and the clamps. -/
def OwnersTaken (data : List Word16) (owners : Table 24 (Option Station)) (clamps : Nat) : Prop :=
  let owner (m : Fin 24) : Nat := ((data.flatMap bytes16).getD m.val 0#8).toNat
  (∀ m, (owners.get m).map Station.number = if 1 ≤ owner m ∧ owner m ≤ 16 then some (owner m) else none)
    ∧ clamps = ((List.finRange 24).filter fun m => decide (16 < owner m)).length

/-- R183, Table 12-10: the key records of their section and the clamps; an unbound record holds 0 in its other fields
(assumption 37). -/
def KeysTaken (data : List Word16) (keys : Table 4 KeyImage) (clamps : Nat) : Prop :=
  let byte (k : Fin 4) (i : Nat) : Byte := (data.flatMap bytes16).getD (16 * k.val + i) 0#8
  let bound (k : Fin 4) : Bool := byte k 0 == 1#8
  let sound (k : Fin 4) : Bool := decide ((byte k 1).toNat < 64)
    && (decide (1 ≤ (byte k 2).toNat ∧ (byte k 2).toNat ≤ 16) || decide (65 ≤ (byte k 2).toNat ∧ (byte k 2).toNat ≤ 72))
  (∀ k, if bound k && sound k then ∃ channel : Fin 64, channel.val = (byte k 1).toNat ∧ keys.get k =
          { bound := true, destination := byte k 2, mask := join24 (byte k 5) (byte k 6) (byte k 7),
            priority := byte k 3, dim := join24 (byte k 9) (byte k 10) (byte k 11),
            level := join24 (byte k 13) (byte k 14) (byte k 15), channel := channel }
        else keys.get k = { bound := false, destination := 0#8, mask := 0#24, priority := 0#8, dim := 0#24, level := 0#24,
                            channel := 0 })
    ∧ clamps = ((List.finRange 4).filter fun k => bound k && !sound k).length

/-- R180, R183: a list field: the one its section gives with its clamps, or the default uncounted where no section was
taken. -/
def FieldTaken {α : Type} (taken : List (Nat × List Word16)) (code : Nat) (read : List Word16 → α → Nat → Prop)
    (default value : α) (clamps : Nat) : Prop :=
  (∀ data, (code, data) ∈ taken → read data value clamps)
    ∧ ((∀ x ∈ taken, x.1 ≠ code) → value = default ∧ clamps = 0)

/-- A notice's RESULT comes back to its own desk as a talk report (R82, R159). -/
def ownNotice (n : Node) (evicted : Bool) (ms : List (Fin 24)) : List ReportBody :=
  if ms = [] then []
  else [.talk none (some n.station) kindTalkOpen (if evicted then 12#8 else 13#8) (maskOf ms) 0#24]

/-- R82: the notice list and the notice-drop count after a notice for another station: it joins its mask to the entry of its
desk and outcome, or joins the tail, or is dropped and counted with 16 entries held. -/
def withNotice (m : Messages) (x : Notice) : Messages :=
  let same (y : Notice) : Bool := y.desk == x.desk && y.evicted == x.evicted
  if m.notices.any same then
    { m with notices := m.notices.map fun y => if same y then { y with mask := y.mask ||| x.mask } else y }
  else if m.notices.length < 16 then { m with notices := m.notices ++ [x] }
  else { m with noticeDrop := m.noticeDrop.inc }

/-- R163, R166: the notices of one action, one for each desk other than the station's own that lost talks, with the mask of
the mixes; the order of the desks is the model's (assumption 26). -/
def otherNotices (own : Station) (evicted : Bool) (lost : Station → List (Fin 24)) : List Notice :=
  ((List.finRange 16).filter fun d => d != own && !(lost d).isEmpty).map fun d =>
    { desk := d, evicted := evicted, mask := maskOf (lost d) }

/-- R156, R157: the part after the event `ev` of the key `k` has left through the talk slot `i`: the message stands READY,
the key holds no event, its serial advances (the number type is modulo 64), and it leaves the pending order. -/
def leftThroughSlot (n : Node) (i : Fin 8) (k : Fin 4) (ev : TalkEvent) : Node :=
  let x := n.talk.keys.get k
  { n with
    messages := { n.messages with
      slots := n.messages.slots.set i (.ready ((n.talkMessage k ev).placed n.station (byteOf i.val))),
      readyOrder := n.messages.readyOrder ++ [i] }
    talk := { n.talk with
      keys := n.talk.keys.set k { x with event := none, serial := x.serial + 1 },
      pendingOrder := n.talk.pendingOrder.filter (· != k) } }

/-- R75: the receive queue has become `queue`, and HOLD is judged from its free places: set with 0 to 3, clear with 8 to 16,
and as it was with 4 to 7. -/
def withQueue (m : Messages) (queue : List QueueEntry) : Messages :=
  { m with
    queue := queue
    hold := if 16 - queue.length ≤ 3 then true else if 8 ≤ 16 - queue.length then false else m.hold }

/-- R157: the part after the event `ev` of the key `k` has left into the station's own receive queue, HOLD judged (R75). -/
def leftToOwnQueue (n : Node) (k : Fin 4) (ev : TalkEvent) : Node :=
  let x := n.talk.keys.get k
  { n with
    messages := withQueue n.messages
      (n.messages.queue ++ [{ message := (n.talkMessage k ev).placed n.station 255#8, source := .talk }])
    talk := { n.talk with
      keys := n.talk.keys.set k { x with event := none, serial := x.serial + 1 },
      pendingOrder := n.talk.pendingOrder.filter (· != k) } }

/-- R156, R157: `m` is `n` after the event `ev` has been made for the key `k`.  A KEEP leaves a pending OPEN as it is.  Else
the event is the key's, which keeps its place in the pending order or joins the tail.  Toward the own station it leaves at
once unless 16 messages wait.  Toward another station or a group the FREE talk slots, lower first, take the events of the
keys of that sort that stand first in the order. -/
def EventMade (k : Fin 4) (ev : TalkEvent) (n m : Node) : Prop :=
  let x := n.talk.keys.get k
  let made : Node := { n with talk := { n.talk with
    keys := n.talk.keys.set k { x with event := some ev },
    pendingOrder := if x.event = none then n.talk.pendingOrder ++ [k] else n.talk.pendingOrder } }
  let waiting := made.talk.pendingOrder.filter fun j => !n.keyIsOwn j
  let free := talkSlots.filter fun i => n.messages.slots.get i == .free
  let event (j : Fin 4) := (made.talk.keys.get j).event
  if ev = .keep ∧ x.event = some .openTalk then m = n
  else if n.keyIsOwn k = true then
    m = if n.messages.queue.length < 16 then leftToOwnQueue made k ev else made
  else
    (free = [] ∨ waiting = [] → m = made)
      ∧ ∀ i j rest others e, free = i :: rest → waiting = j :: others → event j = some e →
        let next := others.filter (· != j)
        (rest = [] ∨ next = [] → m = leftThroughSlot made i j e)
          ∧ ∀ i' j' rest' others' e', rest = i' :: rest' → next = j' :: others' → event j' = some e' →
            m = leftThroughSlot (leftThroughSlot made i j e) i' j' e'

/-- R80: `e` stands at the head of the queue of a working part, no message is being carried out, and a reply slot has
been granted where one is needed. -/
def HeadReady (n : Node) (e : QueueEntry) : Prop :=
  n.running = true ∧ n.messages.carrying = .idle ∧ n.messages.queue.head? = some e
    ∧ (e.needsReply = true → n.messages.granted.isSome = true)

/-- The command `c` answers the state in which the event in progress has been brought to its end (the model's choice,
assumption 2) and the part is `m`. -/
def Leaves (c : Instr) (s : State) (m : Node) : Prop :=
  exec c s = .next { node := m, agenda := [], pending := s.pending }

/-- The command `c` of a row that waits takes its event, which makes the part `m`, and the rest `ts` of the event in
progress goes on (the model's choice, assumption 2). -/
def Takes (c : Instr) (s : State) (ts : List Task) (m : Node) : Prop :=
  exec c s = .next (State.runOn ts { s with node := m })

end Sys2Proof.Safety
end

