-- ==== Sys2Proof/Certificates/Slice0/Obligations.lean ====
section
/-! DEFINITION. The statements for the provers, in the order of OBLIGATIONS.json.  Where a statement says what a command
`Leaves`, the event in progress has first been brought to its end, and where it says what a command `Takes`, the rest of
that event goes on behind it: the agenda of the event in progress is the model's device (DESIGN CHOICE, assumption 2). -/

open Sys2Proof Sys2Proof.Machine Sys2Proof.Safety

/-! ### The block and its queue of commands -/

/-- The step at a state with a command at the front of its queue is the command's effect on the state with the queue's
rest; with no command waiting the block idles (the model's choice, assumption 4). -/
def Obligations.StepRunsTheFrontCommand : Prop :=
  (∀ (c : Instr) (s : State) (rest : List Instr), s.pending = c :: rest → step s = exec c { s with pending := rest })
    ∧ ∀ s : State, s.pending = [] → step s = .next s

/-- Every command of the table answers a next state and leaves the waiting commands as they are.  That a command whose
condition does not stand answers too, with nothing done, is the model's choice (assumption 3), and so is the one queue
from which the commands are taken one at a time (assumption 30). -/
def Obligations.CommandsAnswerAndKeepTheQueue : Prop :=
  ∀ (c : Instr) (s : State), ∃ t, exec c s = .next t ∧ t.pending = s.pending

/-- An event that has waited for the commands of its rows ends as it would have without waiting: running an agenda to its
first due row and then finishing it is carrying out every task in order (the model's device, assumption 2). -/
def Obligations.PausedEventEndsAsUnpaused : Prop :=
  ∀ (ts : List Task) (s : State),
    (State.runOn ts s).finish = { node := ts.foldl Node.perform s.node, agenda := [], pending := s.pending }

/-! ### Start-up (Section 11) -/

/-- The values that R24, R42, R63, R84, R105, R135, R153, R168, R170, R174 and R178 give for power-on with the reset
line released, with every counter of Tables 1-3, 2-4, 3-4 and 4-4 at 0.  That the node state is STARTING and the
local delay store empty before the load already, and a mix's owner and output frame before the load, are the model's
choices (assumption 13). -/
def Obligations.ResetLeavesTheStartingValues : Prop :=
  let n := State.reset.node
  (n.loader.state = .reading ∧ n.loader.flashCommand = [3#8, 0#8, 0#8, 0#8])
    ∧ (∀ side, (n.side side).link = .down ∧ (n.side side).holdOff = none ∧ (n.side side).badRun = 0
        ∧ (n.side side).silence = 0 ∧ (n.side side).heard = false ∧ (n.side side).latest = none
        ∧ (n.side side).badEvidence = 0#16 ∧ (n.side side).linkDown = 0#16)
    ∧ (n.link.fold = .isolated ∧ n.link.quiet = none ∧ n.link.foldChange = 0#16 ∧ n.link.earlyUnfold = 0#16)
    ∧ n.cadence = { node := .starting, followed := none, lastSequence := none, localCount := 0#8, roundLength := 0#8,
                    starvation := 0, backOff := none, markPhase := 0, returnQueue := [], slip := 0#16,
                    staleFrame := 0#16, higherOrigin := 0#16, returnDiscard := 0#16, yields := 0#16 }
    ∧ ((∀ p, n.engine.known.get p = none) ∧ n.engine =
        { known := n.engine.known, layoutDue := true, unsent := none, lastSent := none, badHead := 0#16,
          rebuilt := 0#16, segmentError := 0#16, orphan := 0#16, trimmed := 0#16, starvedForRoom := 0#16,
          hopDiscard := 0#16, misdirected := 0#16, unsentCapture := 0#16 })
    ∧ ((∀ i, n.messages.slots.get i = .free) ∧ (∀ p, n.messages.peers.get p = ⟨false, 0⟩) ∧ n.messages =
        { slots := n.messages.slots, readyOrder := [], queue := [], granted := none, carrying := .idle, hold := false,
          peers := n.messages.peers, notices := [], turn := .receive, queueRefusal := 0#16, badMessage := 0#16,
          lostSlot := 0#16, staleMark := 0#16, replyUndelivered := 0#16, noticeDrop := 0#16 })
    ∧ ((∀ e, n.taps.entries.get e = none) ∧ n.taps.free = List.finRange 256 ∧ (∀ b, n.taps.chains.get b = [])
        ∧ n.taps.walk = none ∧ n.taps.conflictCount = 0#16 ∧ n.taps.raise = none ∧ n.taps.windowCount = 0
        ∧ n.taps.largestAge = none)
    ∧ ((∀ i, n.router.delay.places.get i = none) ∧ n.router.delay.conceal = 4 ∧ n.router.delay.lastPlayed = none
        ∧ n.router.delay.lastGood = silentCapture)
    ∧ (n.mixer.freeCrosspoints = 1024
        ∧ ∀ m, n.mixer.mixes.get m =
            { owner := none, master := ⟨unity, unity, .settled⟩, duck := ⟨unity, unity, .settled⟩,
              talkLevel := ⟨0#24, 0#24, .settled⟩, feed := none, talks := [], crosspoints := [], clip := 0#16,
              output := silentFrame })
    ∧ ((∀ k, n.talk.keys.get k = ⟨false, 0, none, none, 0⟩) ∧ n.talk.pendingOrder = [])
    ∧ (n.reports.items = [] ∧ n.reports.postNumber = 0#8 ∧ n.reports.lost = 0#16 ∧ n.reports.interrupt = false)
    ∧ (n.port.transfer = .idle ∧ n.port.held = .nothing ∧ n.port.framing = 0#16)

/-- POWER_ON and the reset line (R178): the loader is HELD, or READING once the line is released, and every other block
is at its starting values.  That the light on the fibres outlives the reset line is the model's choice
(assumption 6), the values in force before a load are assumption 5 (and at the line's assertion assumption 36), the
starting values that no rule gives are assumption 13, and that a release does nothing to a loader that is not HELD is
the model's choice (assumption 3). -/
def Obligations.PowerAndResetLineHoldTheStart : Prop :=
  (∀ (held : Bool) (s : State), ∃ m : Node, Leaves (.powerOn held) s m
      ∧ m.loader.state = (if held then .held else .reading)
      ∧ { m with loader := State.reset.node.loader } = State.reset.node)
    ∧ (∀ s : State, ∃ m : Node, Leaves .resetLineAsserted s m ∧ m.loader.state = .held
      ∧ { m with loader := State.reset.node.loader, link := State.reset.node.link } = State.reset.node
      ∧ m.link = LinkFold.initial s.node.link.east.lock s.node.link.west.lock)
    ∧ (∀ s : State, s.finish.node.loader.state = .held → ∃ m : Node, Leaves .resetLineReleased s m
      ∧ { m with link := State.reset.node.link } = State.reset.node
      ∧ m.link = LinkFold.initial s.finish.node.link.east.lock s.finish.node.link.west.lock)
    ∧ ∀ s : State, s.finish.node.loader.state ≠ .held → Leaves .resetLineReleased s s.finish.node

/-- LOAD_FINISHED while the loader is READING (R185): the values are handed over, IMAGE is the first report, and the sides
start: each has a beacon due (R47), and a receiver that holds lock gains it, which starts a DOWN side proving with a link
report of cause LOCK GAINED behind IMAGE (R45, R48); the fold state, the quiet period and the fold counters stay.  That a
receiver may hold lock by then is assumption 6, that East's report goes before West's assumption 20, and that no NODE STATE
report is posted assumption 39. -/
def Obligations.LoadFinishedStartsTheBlocks : Prop :=
  ∀ (flash : List Byte) (straps : BitVec 4) (s : State),
    let n := s.finish.node
    let l := load flash straps
    let cleared (x : SideState) : SideState := { x with badRun := 0, silence := 0, heard := false, latest := none }
    let proves (side : Side) : Bool := (n.side side).lock && (n.side side).link == .down
    let started (side : Side) : SideState :=
      if proves side then { cleared (n.side side) with
        beaconDue := true, link := .proving, holdOff := some (l.values.linkHoldOff * 250) }
      else if (n.side side).lock then { cleared (n.side side) with beaconDue := true }
      else { n.side side with beaconDue := true }
    let reported (side : Side) : List ReportBody := if proves side then [.link side .proving .lockGained none] else []
    n.loader.state = .reading →
    ∃ m : Node, Leaves (.loadFinished flash straps) s m
      ∧ m.loader.state = .finished ∧ m.loader.values = l.values ∧ m.loader.outcome = some l.outcome
      ∧ m.taps = { n.taps with pEff := l.values.delay }
      ∧ m.router = { n.router with
          bindings := l.values.slotTable.map fun b => match b with | some c => .localChannel c | none => .unbound,
          outMap := l.values.outMap }
      ∧ m.mixer.freeCrosspoints = n.mixer.freeCrosspoints
      ∧ (∀ x, m.mixer.mixes.get x = { n.mixer.mixes.get x with owner := l.values.owners.get x })
      ∧ Posted n.reports m.reports
          (.image l.outcome l.first l.values.station l.fromImage l.values.rate l.tally
            :: (reported .east ++ reported .west))
      ∧ m.link = { n.link with east := started .east, west := started .west }
      ∧ m = { n with loader := m.loader, taps := m.taps, router := m.router, mixer := m.mixer, link := m.link,
                     reports := m.reports }

/-- Whatever the flash holds, the values in force lie in the ranges of Table 11-1, and the list fields are as R127, R133
and R183 leave them.  The load reads the words that the first word's length allows, judges them by their sum, and names its
outcome and cause (R179, R180).  The station number is the image's or the straps' (R181).  With DEFAULTS every field has the
default of Table 11-1 and R184.  With LOADED each single-valued field is its word clamped (R182), or its default where it
lies beyond the image (that a default P goes with the image's W is assumption 27), the sections are walked by R190, each
list field is the one its section gives (R183) or its default (R184), and the tally counts the fields changed, the
sections passed over and the places dropped (how it counts them is assumption 27).  Some clauses are the model's reading: a
key is bound by a high byte of 1 alone, another value is unbound and uncounted, and the high byte of a 24-bit pair is not
read (assumption 25); a word past the flash's end reads 255 in each byte (assumption 28); an unbound record holds 0
(assumption 37); and which sections the walk takes or passes over (assumptions 38 and 43). -/
def Obligations.LoadedValuesLieInRange : Prop :=
  ∀ (flash : List Byte) (straps : BitVec 4),
    let v := (load flash straps).values
    (8 ≤ v.linkHoldOff ∧ v.linkHoldOff ≤ 120) ∧ DelayClamped v ∧ (2 ≤ v.fallback ∧ v.fallback ≤ 64)
      ∧ (10 ≤ v.returnHold ∧ v.returnHold ≤ 60000) ∧ v.lowFreeMark ≤ 64 ∧ (2 ≤ v.duckRamp ∧ v.duckRamp ≤ 64)
      ∧ v.sendList.Nodup ∧ (∀ c ∈ v.sendList, v.rate.present c = true)
      ∧ (∀ x c, v.slotTable.get x = some c → v.rate.present c = true)
      ∧ (∀ x y c, v.slotTable.get x = some c → v.slotTable.get y = some c → x = y)
      ∧ (∀ o, v.rate.present o = false → v.outMap.get o = .silent)
      ∧ (load flash straps).tally ≤ 255
      ∧ let l := load flash straps
        let length := (wordAt flash 0).toNat
        let sum := ((List.range length).map fun i => (wordAt flash i).toNat).sum % 65536
        let strap := if straps = 0#4 then 16 else straps.toNat
        let field (i : Nat) : Option Nat := if i + 2 ≤ length then some (wordAt flash i).toNat else none
        let flag (i : Nat) (default : Bool) : Bool := match field 3 with | some w => w.testBit i | none => default
        let clamped (i lo hi default : Nat) : Nat := match field i with | some w => max lo (min hi w) | none => default
        let changed (i value : Nat) : Nat := match field i with | some w => if w = value then 0 else 1 | none => 0
        l.first = wordAt flash 0
          ∧ l.words = (if 2 ≤ length ∧ length ≤ 256 then length else 1)
          ∧ l.outcome = (if 2 ≤ length ∧ length ≤ 256 then (if sum = 0 then .loaded else .defaults .badCheck)
              else if length = 65535 then .defaults .noImage else .defaults .badLength)
          ∧ (l.outcome ≠ .loaded → l.tally = 0 ∧ l.fromImage = false ∧ v.station.number = strap ∧ v =
              { station := v.station, rate := .khz48, originEligible := true, localAlignment := false, linkHoldOff := 12,
                window := .w32, delay := 12, fallback := 4, returnHold := 500, lowFreeMark := 16, duckRamp := 16,
                groups := Table.replicate 8 false, sendList := List.finRange 64,
                slotTable := Table.ofFn fun s => if h : s.val < 64 then some ⟨s.val, h⟩ else none,
                outMap := Table.replicate 64 .silent, owners := Table.replicate 24 none,
                keys := Table.replicate 4
                  { bound := false, destination := 0#8, mask := 0#24, priority := 0#8, dim := 0#24, level := 0#24,
                    channel := 0 } })
          ∧ (l.outcome = .loaded →
              (match field 1 with
                | some w => if 1 ≤ w ∧ w ≤ 16 then v.station.number = w ∧ l.fromImage = true
                    else v.station.number = strap ∧ l.fromImage = false
                | none => v.station.number = strap ∧ l.fromImage = false)
              ∧ v.rate = (if field 2 = some 2 then .khz96 else .khz48)
              ∧ v.originEligible = flag 0 true ∧ v.localAlignment = flag 1 false
              ∧ v.linkHoldOff = clamped 4 8 120 12
              ∧ v.window.frames = (match field 5 with
                  | some w => if w ≤ 8 then 8 else if w ≤ 16 then 16 else if w ≤ 32 then 32 else 64
                  | none => 32)
              ∧ v.delay = clamped 6 2 (v.window.frames - 2) (min 12 (v.window.frames - 2))
              ∧ v.fallback = clamped 7 2 64 4 ∧ v.returnHold = clamped 8 10 60000 500
              ∧ v.lowFreeMark = clamped 9 0 64 16 ∧ v.duckRamp = clamped 10 2 64 16
              ∧ (∀ g, v.groups.get g = match field 11 with | some w => w.testBit g.val | none => false)
              ∧ ∃ taken passed sends slots outs owners keys,
                Walked (((List.range length).map (wordAt flash)).take (length - 1) |>.drop 12) [] 0 taken passed
                ∧ FieldTaken taken 1 (SendListTaken v.rate) ((List.finRange 64).filter fun c => v.rate.present c) v.sendList
                    sends
                ∧ FieldTaken taken 2 (SlotTableTaken v.rate)
                    (Table.ofFn fun s => if h : s.val < 64 then
                      (if v.rate.present ⟨s.val, h⟩ then some ⟨s.val, h⟩ else none) else none) v.slotTable slots
                ∧ FieldTaken taken 3 (OutMapTaken v.rate) (Table.replicate 64 .silent) v.outMap outs
                ∧ FieldTaken taken 4 OwnersTaken (Table.replicate 24 none) v.owners owners
                ∧ FieldTaken taken 5 KeysTaken (Table.replicate 4
                    { bound := false, destination := 0#8, mask := 0#24, priority := 0#8, dim := 0#24, level := 0#24,
                      channel := 0 }) v.keys keys
                ∧ l.tally = min 255
                    ((match field 2 with | some w => if w = 1 ∨ w = 2 then 0 else 1 | none => 0)
                      + changed 4 v.linkHoldOff + changed 5 v.window.frames + changed 6 v.delay + changed 7 v.fallback
                      + changed 8 v.returnHold + changed 9 v.lowFreeMark + changed 10 v.duckRamp
                      + passed + sends + slots + outs + owners + keys))

/-! ### The Local Message Port (Section 10) -/

/-- TRANSFER_BEGINS from IDLE starts the count of bits (R170).  OPERATION_BYTE_COMPLETE has shifted out the held status and
clears it, and a TAKE REPORT chooses its report or the empty marker, whose 27 bytes follow; behind every other operation
byte each bit shifted out is 0 (R170, R171, R175). -/
def Obligations.OperationByteShowsTheHeldStatus : Prop :=
  (∀ s : State, let n := s.finish.node
    n.running = true → n.port.transfer = .idle →
    Leaves .transferBegins s
      { n with port := { n.port with transfer := .counting 0 none none, reply := [], shiftedOut := [] } })
    ∧ ∀ (s : State) (op : Byte) (bits : Nat) (r : Option Report), let n := s.finish.node
    n.running = true → n.port.transfer = .counting bits none r →
    ∃ m : Node, Leaves (.operationByteComplete op) s m ∧ m = { n with port := m.port }
      ∧ m.port.held = .nothing ∧ m.port.framing = n.port.framing
      ∧ m.port.transfer = .counting 8 (some op) (if op = 2#8 then n.reports.items.head? else none)
      ∧ m.port.shiftedOut = bitsOf [n.port.held.byte]
      ∧ (op ≠ 2#8 → ∀ count, bitsShifted m.port.reply count = List.replicate count false)
      ∧ (∀ x rest, op = 2#8 → n.reports.items = x :: rest → m.port.reply = x.bytes rest.length)
      ∧ (op = 2#8 → n.reports.items = [] → m.port.reply = emptyMarker n.reports.postNumber)
      ∧ (op = 2#8 → bitsShifted m.port.reply 216 = bitsOf m.port.reply ∧ m.port.reply.length = 27)

/-- A whole SEND is judged in the order of R172, and the port becomes IDLE.  A message placed in a port slot carries the
station's number, its slot's number and clear marks (R65), and 0 in what its layout does not assign (R186; of an unknown
kind nothing is cleared, assumption 24).  A self-addressed message joins the receive queue, and HOLD is judged (R75, R79). -/
def Obligations.WholeSendIsJudgedInOrder : Prop :=
  ∀ (s : State) (u : FrameUnit), let n := s.finish.node
    n.running = true → n.port.operation = some 1#8 →
    let answered (h : HeldStatus) : Port :=
      { n.port with transfer := .idle, held := h, shiftedOut := n.port.shiftedOut ++ bitsShifted n.port.reply 192 }
    (isAnswerKind u.kind = true → Leaves (.send u) s { n with port := answered .malformed })
      ∧ (isAnswerKind u.kind = false → u.destination = n.station.byte → 16 ≤ n.messages.queue.length →
          Leaves (.send u) s { n with port := answered .queueFull })
      ∧ (isAnswerKind u.kind = false → u.destination = n.station.byte → n.messages.queue.length < 16 →
          Leaves (.send u) s { n with
            messages := withQueue n.messages
              (n.messages.queue ++ [{ message := u.placed n.station 255#8, source := .port }]),
            port := answered (.accepted none) })
      ∧ (∀ i, isAnswerKind u.kind = false → u.destination ≠ n.station.byte →
          n.messages.freeSlot portSlots = some i →
          Leaves (.send u) s { n with
            messages := { n.messages with
              slots := n.messages.slots.set i (.ready ((assignedUnit u).placed n.station (byteOf i.val))),
              readyOrder := n.messages.readyOrder ++ [i] },
            port := answered (.accepted (some i)) })
      ∧ (isAnswerKind u.kind = false → u.destination ≠ n.station.byte → n.messages.freeSlot portSlots = none →
          Leaves (.send u) s { n with port := answered .slotsFull })
      ∧ ((assignedUnit u).kind = u.kind ∧ (assignedUnit u).tag = u.tag ∧ (assignedUnit u).destination = u.destination
          ∧ (u.kind = kindTapDrop → ∀ i, 8 ≤ i → (assignedUnit u).byte i = 0#8)
          ∧ (u.kind = kindTapSet → (assignedUnit u).byte 11 = u.byte 11 &&& 7#8)
          ∧ (isUnknownKind u.kind = true → assignedUnit u = u))

/-- A whole TAKE REPORT removes the report it chose and judges the interrupt line afresh; an empty marker removes nothing
(R175).  All 27 bytes behind the operation byte have been shifted out. -/
def Obligations.TakeReportRemovesTheChosen : Prop :=
  ∀ s : State, let n := s.finish.node
    n.running = true → n.port.operation = some 2#8 →
    let port : Port := { n.port with
      transfer := .idle, shiftedOut := n.port.shiftedOut ++ bitsShifted n.port.reply 216 }
    (∀ r, n.port.chosen = some r → Leaves .takeReport s { n with
        reports := { n.reports with items := n.reports.items.tail, interrupt := !n.reports.items.tail.isEmpty },
        port := port })
      ∧ (n.port.chosen = none → Leaves .takeReport s { n with port := port })

/-- A transfer that ends before its operation byte, at another length than its operation's, or with an unknown operation,
raises the framing count and changes nothing else (R170).  The bits shifted out are as many as were clocked: the held
status first, and behind the operation byte the report chosen, if any, and then 0 (R170, R171). -/
def Obligations.IgnoredTransferCountsFraming : Prop :=
  ∀ (s : State) (bits b : Nat) (op : Option Byte) (r : Option Report), let n := s.finish.node
    n.running = true → n.port.transfer = .counting b op r →
    (match op with
      | none => bits < 8
      | some o => 8 ≤ bits ∧ ¬((o = 1#8 ∧ bits = 200) ∨ (o = 2#8 ∧ bits = 224) ∨ (o = 3#8 ∧ bits = 8))) →
    Leaves (.transferIgnored bits) s
      { n with port := { n.port with
          framing := n.port.framing.inc, transfer := .idle,
          shiftedOut := if op = none then bitsShifted [n.port.held.byte] bits
            else n.port.shiftedOut ++ bitsShifted n.port.reply (bits - 8) } }

/-- A whole RESTART RING puts the ring-facing state of every block back and leaves the rest (R64, R42, R24, R85, R106,
R124, R135, R153, R169, R170).  The talk slots that hold a message are settled LOST one after the other (R158), which
Obligations.SlotLostIsSettled states.  Some clauses are the model's: talk slot 4 is settled before talk slot 5
(assumption 42), each is given its LOST before it is freed (assumption 35) and reported with empty masks (assumption 49), a
head whose reply slot is granted but which was not yet handed to its owner is emptied (assumption 41), the reports are
posted block by block in the order of assumption 20, and a request that is being carried out is as assumption 18 says. -/
def Obligations.RestartRingResetsTheRing : Prop :=
  ∀ s : State, let n := s.finish.node
    let held (i : Fin 8) : Bool := (n.messages.slots.get i).message.isSome
    let settled := (talkSlots.filter held).foldl (fun (x : Node) i => x.settleSlot i .lost) n
    let latest (side : Side) := (n.side side).latest.map fun b => (b.sender, b.fold)
    let down (side : Side) : List ReportBody :=
      if (n.side side).link = .down then [] else [.link side .down .restart (latest side)]
    let lost : List ReportBody := portSlots.filterMap fun i =>
      (n.messages.slots.get i).message.map fun u => .delivery i u.kind u.tag u.destination .lost
    let talks : List ReportBody := talkSlots.filterMap fun i =>
      (n.messages.slots.get i).message.bind fun u =>
        if u.kind = kindTalkOpen then some (.talk (some (keyOfTag u.tag)) none u.kind 133#8 0#24 0#24) else none
    n.running = true → n.port.operation = some 3#8 →
    ∃ m : Node, Leaves .restartRing s m
      ∧ (∀ side, m.side side = { n.side side with
          link := .down, holdOff := none, badRun := 0, silence := 0, heard := false, latest := none })
      ∧ (m.link.fold = .isolated ∧ m.link.quiet = some 24 ∧ m.link.foldChange = n.link.foldChange
          ∧ m.link.earlyUnfold = n.link.earlyUnfold)
      ∧ m.cadence = { n.cadence with node := .starting, followed := none, lastSequence := none, roundLength := 0#8,
                                     returnQueue := [], starvation := 0, backOff := none }
      ∧ m.engine = { n.engine with known := Table.replicate 16 none, layoutDue := true, unsent := none,
                                   lastSent := none }
      ∧ (∀ i ∈ replySlots, m.messages.slots.get i = .free)
      ∧ (∀ i ∈ portSlots, m.messages.slots.get i = if held i then .free else n.messages.slots.get i)
      ∧ (∀ i ∈ talkSlots, m.messages.slots.get i = settled.messages.slots.get i)
      ∧ m.messages.readyOrder = settled.messages.readyOrder.filter
          (fun i => !(decide (i.val < 4) && held i) && decide (i.val < 6))
      ∧ m.talk = settled.talk
      ∧ (m.messages.notices = [] ∧ m.messages.hold = false ∧ (∀ p, m.messages.peers.get p = ⟨false, 0⟩)
          ∧ m.messages.turn = n.messages.turn ∧ m.messages.granted = none)
      ∧ (m.messages.lostSlot = n.messages.lostSlot ∧ m.messages.queueRefusal = n.messages.queueRefusal
          ∧ m.messages.badMessage = n.messages.badMessage ∧ m.messages.staleMark = n.messages.staleMark
          ∧ m.messages.replyUndelivered = n.messages.replyUndelivered
          ∧ m.messages.noticeDrop = n.messages.noticeDrop)
      ∧ (n.messages.carrying = .idle → m.messages.queue = [] ∧ m.messages.carrying = .idle)
      ∧ (∀ e q, n.messages.carrying = .tapClear → n.messages.queue = e :: q →
          m.messages.queue = [e.detach] ∧ m.messages.carrying = .tapClear)
      ∧ (∀ p e q, n.messages.carrying = .station p → n.messages.queue = e :: q →
          m.messages.queue = [] ∧ m.messages.carrying = .idle)
      ∧ m.taps = { n.taps with
          entries := n.taps.entries.map (Option.map fun x =>
            { x with buffer := Table.replicate 64 none, conceal := 4, lastGood := silentFrame, lastPlayed := none,
                     returnHold := 0 }),
          pEff := n.loader.values.delay, raise := none, windowCount := 0, largestAge := none }
      ∧ m.port = { n.port with transfer := .idle }
      ∧ (∃ parts, Posted n.reports m.reports
            (down .east ++ down .west ++ (if n.link.fold = .isolated then [] else [.fold .isolated n.link.fold none false])
              ++ [.nodeState .starting none 0#8] ++ lost ++ talks ++ parts
              ++ (if n.taps.pEff = n.loader.values.delay then []
                  else [.delayChanged n.loader.values.delay n.taps.pEff .restart]))
          ∧ ((∀ p, n.messages.carrying ≠ .station p) → parts = [])
          ∧ (∀ p e q, n.messages.carrying = .station p → n.messages.queue = e :: q →
              parts.length = min 3 (4 - p.val) ∧ ∀ b ∈ parts, ∃ u, b = .statusReport u ∧ u.kind = kindStatusReport
                ∧ u.destination = (n.requester e).byte ∧ u.tag = e.message.tag ∧ u.slot = 255#8))
      ∧ m = { n with link := m.link, cadence := m.cadence, engine := m.engine, messages := m.messages,
                     taps := m.taps, talk := m.talk, reports := m.reports, port := m.port }

/-! ### The links and the fold state (Section 3) -/

/-- RECEIVER_LOCK_GAINED (R45, R48): the counts and the latest beacon are cleared, and a side in DOWN starts to prove with
cause LOCK GAINED.  Before the loader has finished only the lock is noted, and a receiver that holds lock gains none
(the model's choices, assumptions 3 and 6). -/
def Obligations.LockGainedStartsProving : Prop :=
  ∀ (s : State) (side : Side), let n := s.finish.node
    let cleared := { n.side side with lock := true, badRun := 0, silence := 0, heard := false, latest := none }
    (n.running = true → (n.side side).lock = false → (n.side side).link = .down →
        Leaves (.receiverLockGained side) s
          { n with
            link := n.link.setSide side
              { cleared with link := .proving, holdOff := some (n.loader.values.linkHoldOff * 250) }
            reports := n.reports.post (.link side .proving .lockGained none) })
      ∧ (n.running = true → (n.side side).lock = false → (n.side side).link ≠ .down →
        Leaves (.receiverLockGained side) s { n with link := n.link.setSide side cleared })
      ∧ (n.running = false → (n.side side).lock = false →
        Leaves (.receiverLockGained side) s
          { n with link := n.link.setSide side { n.side side with lock := true } })
      ∧ ((n.side side).lock = true → Leaves (.receiverLockGained side) s n)

/-- RECEIVER_LOCK_LOST (R45, R50): the counts and the latest beacon are cleared, and a side in PROVING or UP goes DOWN with
cause LOCK LOST; a side in DOWN stays there. -/
def Obligations.LockLostTakesTheLinkDown : Prop :=
  ∀ (s : State) (side : Side), let n := s.finish.node
    let cleared : Node := { n with
      link := n.link.setSide side
        { n.side side with lock := false, badRun := 0, silence := 0, heard := false, latest := none } }
    n.running = true → (n.side side).lock = true →
    ((n.side side).link ≠ .down → ∃ m : Node, Leaves (.receiverLockLost side) s m ∧ WentDown side .lockLost cleared m)
      ∧ ((n.side side).link = .down → Leaves (.receiverLockLost side) s cleared)

/-- BAD_RUN and SILENCE (R50): a side in PROVING or UP whose bad-run count has come to 4, or whose silence count a boundary
has brought to 16, goes DOWN with that cause. -/
def Obligations.BadRunAndSilenceTakeTheLinkDown : Prop :=
  ∀ (s : State) (side : Side) (ts : List Task),
    s.node.running = true → (s.node.side side).link ≠ .down →
    (s.agenda = .badRun side :: ts → (s.node.side side).badRun = 4 →
        ∃ m : Node, Takes (.badRun side) s ts m ∧ WentDown side .badRun s.node m)
      ∧ (s.agenda = .silence side :: ts → (s.node.side side).silence = 16 →
        ∃ m : Node, Takes (.silence side) s ts m ∧ WentDown side .silence s.node m)

/-- LINK_PROVEN (R49): a side in PROVING whose hold-off has come to 0 is UP, the link report comes first, and the fold rules
act (R55 to R57); an ISOLATED station in ALONE enters WAITING (R39).  The quiet period and the early-unfold count stay. -/
def Obligations.LinkProvenMakesTheLinkUp : Prop :=
  ∀ (s : State) (side : Side) (ts : List Task), let n := s.node
    n.running = true → s.agenda = .linkProven side :: ts → (n.side side).link = .proving →
    (n.side side).holdOff = some 0 →
    let proven := match (n.side side).latest with | some b => b.proven | none => false
    let fold := foldAfterUp n.link.fold side proven
    let woken := decide (n.link.fold = .isolated ∧ n.cadence.node = .alone)
    ∃ m : Node, Takes (.linkProven side) s ts m
      ∧ m.side side = { n.side side with link := .up, holdOff := none }
      ∧ m.side side.opposite = n.side side.opposite
      ∧ m.link.fold = fold
      ∧ m.link.foldChange = (if fold = n.link.fold then n.link.foldChange else n.link.foldChange.inc)
      ∧ m.link.quiet = n.link.quiet ∧ m.link.earlyUnfold = n.link.earlyUnfold
      ∧ m.cadence = (if woken then
          { n.cadence with
            node := .waiting
            followed := if n.cadence.followed = some n.station then none else n.cadence.followed
            lastSequence := if n.cadence.followed = some n.station then none else n.cadence.lastSequence
            backOff := if n.loader.values.originEligible then some (n.station.number * 8) else none }
          else n.cadence)
      ∧ Posted n.reports m.reports
          (linkReport side .up .proven (n.side side).latest
            :: (if fold = n.link.fold then [] else [.fold fold n.link.fold (some side) false])
            ++ (if woken then [.nodeState .waiting m.cadence.followed n.cadence.roundLength] else []))
      ∧ m = { n with link := m.link, cadence := m.cadence, reports := m.reports }

/-- BEACON_RECEIVED by a working side whose receiver holds lock (R44, R45, R48, R50, R56, R57): a good beacon is the latest
beacon and clears the counts.  One that reports hears re-arms a DOWN side outside a quiet period, and one that also
reports proven unfolds a folded station whose link on that side is UP; one that does not report hears takes a side that
is not DOWN down.  That the last holds of a beacon with proven set too, on the UP link of the folded side, so that it gives
FAR END alone and no unfold, is the model's choice (assumption 40).  A bad one counts, restarts a hold-off, and at the
fourth BAD_RUN waits for its command. -/
def Obligations.BeaconReceivedIsEvidence : Prop :=
  ∀ (s : State) (side : Side) (bytes : SixBytes), let n := s.finish.node
    n.running = true → (n.side side).lock = true →
    (∀ b, readBeacon side bytes = some b →
        let x : SideState := { n.side side with badRun := 0, silence := 0, heard := true, latest := some b }
        let seen : Node := { n with link := n.link.setSide side x }
        let arms : Prop := (n.side side).link = .down ∧ b.hears = true ∧ n.link.quiet = none
        let unfolds : Prop := (n.side side).link = .up ∧ b.hears = true ∧ b.proven = true
          ∧ (n.link.fold = .foldedEast ∧ side = .east ∨ n.link.fold = .foldedWest ∧ side = .west)
        (arms → Leaves (.beaconReceived side bytes) s { n with
            link := n.link.setSide side { x with link := .proving, holdOff := some (n.loader.values.linkHoldOff * 250) },
            reports := n.reports.post (.link side .proving .reArmed (some (b.sender, b.fold))) })
          ∧ ((n.side side).link ≠ .down → b.hears = false →
              ∃ m : Node, Leaves (.beaconReceived side bytes) s m ∧ WentDown side .farEnd seen m)
          ∧ (unfolds → Leaves (.beaconReceived side bytes) s { n with
              link := { seen.link with fold := .whole, foldChange := n.link.foldChange.inc },
              reports := n.reports.post (.fold .whole n.link.fold (some side) false) })
          ∧ (¬arms → ¬unfolds → ((n.side side).link = .down ∨ b.hears = true) →
              Leaves (.beaconReceived side bytes) s seen))
      ∧ (readBeacon side bytes = none →
        exec (.beaconReceived side bytes) s = .next
          { node := { n with link := n.link.setSide side { n.side side with
              badRun := min ((n.side side).badRun + 1) 4,
              badEvidence := (n.side side).badEvidence.inc,
              holdOff := if (n.side side).link = .proving then some (n.loader.values.linkHoldOff * 250)
                else (n.side side).holdOff } },
            agenda := if (n.side side).badRun + 1 = 4 ∧ (n.side side).link ≠ .down then [.badRun side] else [],
            pending := s.pending })

/-- BEACON_SENT (R46, R47, R64): the beacon due goes to the transmitter with the fields of R47, and none goes again before
the next boundary, nor during a restart quiet period. -/
def Obligations.BeaconSentOnceABoundary : Prop :=
  ∀ (s : State) (side : Side), let n := s.finish.node
    let x := n.side side
    n.running = true →
    (x.beaconDue = true → n.link.quiet = none →
        Leaves (.beaconSent side) s { n with link := n.link.setSide side { x with
          beaconDue := false,
          sent := x.sent ++ [.beacon (makeBeacon n.station side
            (x.lock && x.heard && decide (x.badRun < 4) && decide (x.silence < 16)) (x.link == .up)
            n.link.fold)] } })
      ∧ (x.beaconDue = false ∨ n.link.quiet ≠ none → Leaves (.beaconSent side) s n)

/-- QUIET_PERIOD_END (R48, R60, R64): the quiet period is over, and each side in DOWN that holds lock and whose latest beacon
reports hears starts to prove, with a link report of cause RE-ARMED; nothing else of the links changes.  That East's report
goes before West's is the model's choice (assumption 20). -/
def Obligations.QuietPeriodEndReArms : Prop :=
  ∀ (s : State) (ts : List Task), let n := s.node
    let arms (side : Side) : Bool := (n.side side).link == .down && (n.side side).lock
      && (match (n.side side).latest with | some b => b.hears | none => false)
    let armed (side : Side) : SideState :=
      if arms side then
        { n.side side with link := .proving, holdOff := some (n.loader.values.linkHoldOff * 250) }
      else n.side side
    let reported (side : Side) : List ReportBody :=
      if arms side then [linkReport side .proving .reArmed (n.side side).latest] else []
    n.running = true → s.agenda = .quietEnd :: ts → n.link.quiet = some 0 →
    ∃ m : Node, Takes .quietPeriodEnd s ts m
      ∧ (∀ side, m.side side = armed side)
      ∧ m.link = { n.link with quiet := none, east := armed .east, west := armed .west }
      ∧ Posted n.reports m.reports (reported .east ++ reported .west)
      ∧ m = { n with link := m.link, reports := m.reports }

/-! ### Frames (Section 1) and the cadence (Section 2) -/

/-- FRAME_RECEIVED off the primary path.  A frame with a good head whose direction flag disagrees with its receiver is
discarded and counted as misdirected, in every fold state, and its head is good evidence (R22). -/
def Obligations.MisdirectedFrameIsDiscarded : Prop :=
  ∀ (s : State) (side : Side) (head : SixBytes) (body : List FrameUnit), let n := s.finish.node
    n.running = true → (n.side side).lock = true → headGood head = true →
    headSecondary head = (match side with | .west => true | .east => false) →
    Leaves (.frameReceived side head body) s { n with
      link := n.link.setSide side { n.side side with badRun := 0, silence := 0, heard := true },
      engine := { n.engine with misdirected := n.engine.misdirected.inc } }

/-- FRAME_RECEIVED: a secondary frame on the East receiver of a WHOLE station goes to the West transmitter with one more
hop, its body unchanged and no block touched, or is discarded and counted at the hop limit (R19).  In FOLDED WEST it is
turned: SECONDARY is cleared and the hops are set to 0, and the primary pass takes it (R20).  In FOLDED EAST and in ISOLATED
it is discarded (R21).  That an arrival at 15 hops is discarded like one at 14 (assumption 32), and that a body longer
than B is sent whole (assumption 33), are the model's. -/
def Obligations.SecondaryFrameIsPassedThrough : Prop :=
  ∀ (s : State) (head : SixBytes) (body : List FrameUnit), let n := s.finish.node
    let heard : LinkFold := { n.link with east := { n.link.east with badRun := 0, silence := 0, heard := true } }
    n.running = true → n.link.east.lock = true → headGood head = true → headSecondary head = true →
    (n.link.fold = .whole → 14 ≤ headHops head → Leaves (.frameReceived .east head body) s
        { n with link := heard, engine := { n.engine with hopDiscard := n.engine.hopDiscard.inc } })
      ∧ (n.link.fold = .whole → n.link.quiet = none → headHops head < 14 →
          ∃ h, Leaves (.frameReceived .east head body) s
            { n with link := { heard with west := { n.link.west with sent := n.link.west.sent ++ [.frame h body] } } }
          ∧ headGood h = true ∧ headHops h = headHops head + 1 ∧ headSecondary h = true
          ∧ headOrigin h = headOrigin head ∧ headSequence h = headSequence head ∧ headRound h = headRound head
          ∧ headRebuilt h = headRebuilt head)
      ∧ (n.link.fold = .foldedWest → ∃ h, Leaves (.frameReceived .east head body) s
            (({ n with link := heard } : Node).primaryPass { head := h, body := body })
          ∧ headGood h = true ∧ headHops h = 0 ∧ headSecondary h = false ∧ headOrigin h = headOrigin head
          ∧ headSequence h = headSequence head ∧ headRound h = headRound head ∧ headRebuilt h = headRebuilt head)
      ∧ (n.link.fold = .foldedEast ∨ n.link.fold = .isolated →
          Leaves (.frameReceived .east head body) s { n with link := heard })

/-- FRAME_RECEIVED: a valid frame on the active primary input starts a following in STARTING and WAITING, of a lower origin
in FOLLOWING, and of an origin below the station's number in CLAIMING and ORIGIN (R30), and then goes through the
stages of the pass, which Obligations.SegmentReadsBackAsAppended states.  On the West receiver of a station in
FOLDED WEST whose West link is UP, an acceptable frame unfolds the station early and is then put to admission; any other
frame there is discarded (R58; that the fold report names West is assumption 21). -/
def Obligations.ValidFrameStartsAFollowing : Prop :=
  (∀ (s : State) (head : SixBytes) (body : List FrameUnit) (o : Station), let n := s.finish.node
    n.running = true → n.link.west.lock = true → headGood head = true → headSecondary head = false →
    headRebuilt head = false → Station.ofByte (headOrigin head) = some o → o ≠ n.station →
    (n.link.fold = .whole ∨ n.link.fold = .foldedEast) →
    (n.cadence.node = .starting ∨ n.cadence.node = .waiting
      ∨ (n.cadence.node = .following ∧ ∃ g, n.cadence.followed = some g ∧ o < g)
      ∨ ((n.cadence.node = .claiming ∨ n.cadence.node = .origin) ∧ o < n.station)) →
    let near := headSequence head - n.cadence.localCount = 255#8 ∨ headSequence head - n.cadence.localCount = 0#8
      ∨ headSequence head - n.cadence.localCount = 1#8
    let started : Node := { n with
      link := { n.link with west := { n.link.west with badRun := 0, silence := 0, heard := true } },
      cadence := { n.cadence with
        node := .following, followed := some o, lastSequence := some (headSequence head),
        localCount := headSequence head, roundLength := headRound head, starvation := 0, backOff := none,
        returnQueue := if n.cadence.node = .origin then [] else n.cadence.returnQueue,
        slip := if n.cadence.node ≠ .starting ∧ ¬near then n.cadence.slip.inc else n.cadence.slip,
        yields := if n.cadence.node = .claiming ∨ n.cadence.node = .origin then n.cadence.yields.inc
          else n.cadence.yields },
      engine := { n.engine with layoutDue := n.engine.layoutDue || n.cadence.node == .starting },
      reports := n.reports.post (.nodeState .following (some o) (headRound head)) }
    ∃ m : Node, Leaves (.frameReceived .west head body) s m
      ∧ m = started.passFrame { head := head, body := body }
      ∧ m.cadence = started.cadence
      ∧ (∃ more, Posted n.reports m.reports (.nodeState .following (some o) (headRound head) :: more))
      ∧ m = { n with link := m.link, cadence := m.cadence, engine := m.engine, messages := m.messages,
                     taps := m.taps, talk := m.talk, reports := m.reports })
    ∧ ∀ (s : State) (head : SixBytes) (body : List FrameUnit) (o : Station), let n := s.finish.node
    n.running = true → n.link.west.lock = true → headGood head = true → headSecondary head = false →
    Station.ofByte (headOrigin head) = some o → n.link.fold = .foldedWest →
    let heard : LinkFold := { n.link with west := { n.link.west with badRun := 0, silence := 0, heard := true } }
    let acceptable : Prop := n.link.west.link = .up ∧ headRebuilt head = false ∧ o ≠ n.station
      ∧ ∀ g, n.cadence.followed = some g → o ≤ g
    (acceptable → Leaves (.frameReceived .west head body) s (({ n with
        link := { heard with fold := .whole, foldChange := n.link.foldChange.inc,
                             earlyUnfold := n.link.earlyUnfold.inc },
        reports := n.reports.post (.fold .whole .foldedWest (some .west) true) } : Node).primaryPass
          { head := head, body := body }))
      ∧ (¬acceptable → Leaves (.frameReceived .west head body) s { n with link := heard })

/-- Admission (R29): a frame that is answered PASS is of the origin followed from then on, which is never above the origin
followed before it; a rebuilt one moves no following; a frame answered DISCARD raises one counter of Table 2-4, and
none in ALONE (assumption 16), and changes nothing else.  A newer frame of the followed origin moves the last sequence,
and with REBUILT clear L, the starvation count and, past the slip test, the local count (R31, R32); an older one is stale.
The own frame proves a claim (R35), and in ORIGIN joins the return queue and measures L (R36).  Only a frame answered PASS
goes on to the stages of the pass (R9). -/
def Obligations.AdmissionKeepsTheOriginLaw : Prop :=
  ∀ (n : Node) (f : Frame) (o : Station), Station.ofByte (headOrigin f.head) = some o →
    let c := n.cadence
    let sequence := headSequence f.head
    let rebuilt := headRebuilt f.head
    let newer : Prop := ∀ l, c.lastSequence = some l → 1 ≤ (sequence - l).toNat ∧ (sequence - l).toNat ≤ 127
    let near := sequence - c.localCount = 255#8 ∨ sequence - c.localCount = 0#8 ∨ sequence - c.localCount = 1#8
    let stale : Node := { n with cadence := { c with staleFrame := c.staleFrame.inc } }
    let higher : Node := { n with cadence := { c with higherOrigin := c.higherOrigin.inc } }
    ((n.answerAdmission f).1 = .pass →
        (n.answerAdmission f).2.cadence.node = .following ∧ (n.answerAdmission f).2.cadence.followed = some o
          ∧ (∀ g, c.node = .following → c.followed = some g → o ≤ g)
          ∧ (c.node = .claiming ∨ c.node = .origin → o < n.station)
          ∧ (rebuilt = true → c.followed = some o
              ∧ (n.answerAdmission f).2.cadence = { c with lastSequence := some sequence })
          ∧ n.primaryPass f = (n.answerAdmission f).2.passFrame f)
      ∧ ((n.answerAdmission f).1 = .discard →
        ((n.answerAdmission f).2 = stale ∨ (n.answerAdmission f).2 = higher
            ∨ (c.node = .alone ∧ (n.answerAdmission f).2 = n))
          ∧ n.primaryPass f = (n.answerAdmission f).2)
      ∧ ((n.answerAdmission f).1 = .taken → o = n.station ∧ (c.node = .claiming ∨ c.node = .origin)
          ∧ (n.answerAdmission f).2.cadence.node = .origin
          ∧ (rebuilt = false → (n.answerAdmission f).2.cadence.roundLength = c.localCount - sequence)
          ∧ n.primaryPass f = (n.answerAdmission f).2)
      ∧ (c.node = .following → c.followed = some o → o ≠ n.station →
          (newer → n.answerAdmission f = (.pass, { n with cadence := { c with
              lastSequence := some sequence
              starvation := if rebuilt then c.starvation else 0
              roundLength := if rebuilt then c.roundLength else headRound f.head
              localCount := if rebuilt = true ∨ near then c.localCount else sequence
              slip := if rebuilt = true ∨ near then c.slip else c.slip.inc } }))
            ∧ (¬newer → n.answerAdmission f = (.discard, stale)))
      ∧ (c.node = .origin → o = n.station → n.answerAdmission f = (.taken, { n with cadence := { c with
          roundLength := if rebuilt then c.roundLength else c.localCount - sequence
          returnQueue := if c.returnQueue.length < 4 then c.returnQueue ++ [f] else c.returnQueue
          returnDiscard := if c.returnQueue.length < 4 then c.returnDiscard else c.returnDiscard.inc } }))
      ∧ (c.node = .claiming → o = n.station → rebuilt = false → n.answerAdmission f = (.taken, { n with
          cadence := { c with node := .origin, roundLength := c.localCount - sequence, returnQueue := [f] },
          reports := n.reports.post (.nodeState .origin c.followed (c.localCount - sequence)) }))
      ∧ (rebuilt = true → ¬(c.node = .following ∧ c.followed = some o) → ¬(c.node = .origin ∧ o = n.station) →
          n.answerAdmission f = (.discard, stale))
      ∧ (rebuilt = false → o = n.station → c.node = .starting ∨ c.node = .waiting ∨ c.node = .following →
          n.answerAdmission f = (.discard, stale))
      ∧ (rebuilt = false → o ≠ n.station →
          ((c.node = .following ∧ ∃ g, c.followed = some g ∧ g < o)
            ∨ (c.node = .claiming ∨ c.node = .origin) ∧ n.station < o) →
          n.answerAdmission f = (.discard, higher))

/-- A beacon reads back as it was sent, on the receiver of the side opposite to the transmitter's, and is bad on the other
(R44, R47).  A frame head reads back as it was made, with a good check; it is a good head unless SECONDARY is clear with
hops left (R1, Table 12-1).  A frame is forwarded on the primary output of the fold state (R51): with SECONDARY clear and
its head's bytes unchanged (assumption 14 for its unassigned bits), and in FOLDED EAST turned, with SECONDARY set (R18). -/
def Obligations.BeaconsAndHeadsReadBackAsMade : Prop :=
  (∀ (side : Side) (sender : Station) (hears proven : Bool) (fold : FoldState),
    readBeacon side (makeBeacon sender side.opposite hears proven fold)
        = some { sender := sender, hears := hears, proven := proven, fold := fold }
      ∧ readBeacon side (makeBeacon sender side hears proven fold) = none)
    ∧ (∀ (origin : Station) (sequence round : Byte) (rebuilt secondary : Bool) (hops : Nat), hops < 16 →
      let h := makeHead origin.byte sequence round rebuilt secondary hops
      headOrigin h = origin.byte ∧ headSequence h = sequence ∧ headRound h = round ∧ headRebuilt h = rebuilt
        ∧ headSecondary h = secondary ∧ headHops h = hops ∧ headGood h = (secondary || hops == 0))
    ∧ ∀ (n : Node) (head : SixBytes) (body : List FrameUnit), headGood head = true → headSecondary head = false →
      n.link.quiet = none →
      (n.link.fold = .isolated → n.forward head body = n)
        ∧ (n.link.fold = .whole ∨ n.link.fold = .foldedWest → n.forward head body = { n with
            link := { n.link with east := { n.link.east with sent := n.link.east.sent ++ [.frame head body] } } })
        ∧ (n.link.fold = .foldedEast → ∃ h, n.forward head body = { n with
              link := { n.link with west := { n.link.west with sent := n.link.west.sent ++ [.frame h body] } } }
            ∧ headGood h = true ∧ headSecondary h = true ∧ headHops h = 0 ∧ headOrigin h = headOrigin head
            ∧ headSequence h = headSequence head ∧ headRound h = headRound head ∧ headRebuilt h = headRebuilt head)

/-- A segment reads back from a body as it was appended, whatever follows it, and is good; marking its messages on the way
round leaves it good (R3, R4, R14, R186).  The stages of the pass: extraction leaves a bad segment as it is and counts it,
and of a good one records HOLD, learns a FULL layout, hands the channels over and offers the messages (R7, R12, R14, R76);
the own segments are stripped and their messages settle slots (R15); the own segment is appended by the reckoning of R16,
R17 and R6; and the frame is forwarded with a body of at most B units (R2, R18). -/
def Obligations.SegmentReadsBackAsAppended : Prop :=
  (∀ (own : Station) (index : Byte) (full hold trimmed : Bool) (list : List (Fin 64))
    (audio messages rest : List FrameUnit) (marks : List (Bool × Bool)),
    list.length ≤ 64 → list.Nodup → audio.length ≤ list.length → messages.length ≤ 8 →
    marks.length = messages.length →
    let layout := if full then layoutUnits list else []
    let header := segmentHeader own.byte index full hold trimmed audio.length list.length messages.length layout audio
      messages
    let marked := (messages.zip marks).map fun p => p.1.mark p.2.1 p.2.2
    let seg : Segment := { header := header, layout := layout, audio := audio, messages := marked }
    nextSegment (header :: (layout ++ audio ++ marked) ++ rest) = some (seg, rest)
      ∧ seg.good = true ∧ seg.source = own.byte ∧ seg.captureIndex = index ∧ seg.hold = hold
      ∧ seg.isFull = full ∧ (full = true → seg.layoutChannels = list))
    ∧ (∀ (n : Node) (s : Segment),
      (s.source = n.station.byte → n.extract s = (s, n))
        ∧ (s.source ≠ n.station.byte → s.good = false →
            n.extract s = (s, { n with engine := { n.engine with segmentError := n.engine.segmentError.inc } }))
        ∧ (∀ p : Station, s.source = p.byte → p ≠ n.station → s.good = true →
            let channels := if s.isFull then s.layoutChannels.take s.carried
              else match n.engine.known.get p with
                | some l => if l.length = s.layoutCount then l.take s.carried else []
                | none => []
            let handed : Node := { n with
              messages := { n.messages with peers := n.messages.peers.set p ⟨s.hold, 0⟩ },
              engine := if s.isFull then { n.engine with known := n.engine.known.set p (some s.layoutChannels) }
                else n.engine,
              taps := (channels.zip s.audio).foldl (fun t c => t.arrive n.loader.values.window n.cadence.localCount
                ⟨p, c.1⟩ s.captureIndex (audioOfUnit c.2)) n.taps }
            n.extract s = ({ s with messages := (offerAll s.messages handed).1 }, (offerAll s.messages handed).2)))
    ∧ (∀ (n : Node) (units : Nat),
      let room := n.capacity - units
      let list := n.loader.values.sendList
      let index := match n.engine.unsent with | some c => c.1 | none => n.engine.lastSent.getD n.cadence.localCount
      let due := n.engine.layoutDue || (n.engine.unsent.isSome && (index.toNat + n.station.number) % 16 == 0)
      let full := due && decide (1 + (list.length + 23) / 24 ≤ room)
      let header := if full then 1 + (list.length + 23) / 24 else 1
      let carried := if n.engine.unsent.isSome then min list.length (room - header) else 0
      let trimmed := n.engine.unsent.isSome && decide (carried < list.length)
      let given := if carried = list.length then n.giveReady (room - header - carried) else ([], n)
      let layout := if full then layoutUnits list else []
      let audio := match n.engine.unsent with
        | some c => (list.take carried).map fun ch => unitOfAudio (c.2.get ch)
        | none => []
      (room = 0 → n.append units = ([], { n with engine := { n.engine with
          layoutDue := due, starvedForRoom := n.engine.starvedForRoom.inc } }))
        ∧ (room ≠ 0 → (n.append units).1.length ≤ room ∧ n.append units =
            (segmentHeader n.station.byte index full n.messages.hold trimmed carried list.length given.1.length layout
                audio given.1 :: (layout ++ audio ++ given.1),
              { n with
                messages := given.2.messages,
                engine := { n.engine with
                  layoutDue := due && !full, unsent := none,
                  lastSent := match n.engine.unsent with | some c => some c.1 | none => n.engine.lastSent,
                  trimmed := if trimmed then n.engine.trimmed.inc else n.engine.trimmed } })))
    ∧ ∀ (n : Node) (f : Frame),
      let walked := walkBody n.capacity f.body
      let cut : Node := if walked.2 then
          { n with engine := { n.engine with segmentError := n.engine.segmentError.inc } } else n
      let extracted := extractAll walked.1 cut
      let own (s : Segment) : Bool := s.source == n.station.byte
      let others := (extracted.1.filter fun s => !own s).flatMap Segment.units
      let stripped := ((extracted.1.filter own).flatMap fun s => s.messages).foldl Node.unitReturns extracted.2
      let appended := stripped.append others.length
      n.passFrame f = appended.2.forward f.head (others ++ appended.1)
        ∧ (others ++ appended.1).length ≤ n.capacity

/-! ### Boundaries and the counts that run out -/

/-- BOUNDARY (R26, R130): the local count advances by one, the capture frame of the lane frames that end is completed
under the advanced count and written into the capture store and the local delay store, and every count that a boundary
moves is moved (R8, R27, R33, R34, R45, R47, R64, R72, R76, R112); the boundary's other work follows in the order of R113
and, where the spec gives none, of assumption 7.  None occurs before the loader has finished.  Step 3 of R113 reads every
entry in use once at the expected index and hands its result over.  The audio of a boundary: the local channels are the
capture frame, or with local alignment one read of the local delay store (R131); every slot is formed from its binding
(R132), the mixes are computed over the slots so formed (R147), and every output present takes its source (R133).  The
lanes (R129): with 8 time slots to a lane frame at 48 kHz and 4 at 96 kHz, time slot t of input lane j carries channel
8j + t or 4j + t, in its first 24 bit clocks, the highest bit first, and its last 8 are ignored; the output lanes carry the
outputs in the same way, with 0 in the last 8 bit clocks, and carry nothing before the load has finished (R135). -/
def Obligations.BoundaryAdvancesTheCount : Prop :=
  (∀ (s : State) (lanes : LaneBlock) (pins : Table 4 Bool), let n := s.finish.node
    let count := n.cadence.localCount + 1#8
    let frame := captureOf n.loader.values.rate lanes
    let side (x : SideState) : SideState :=
      { x with beaconDue := true, silence := if x.lock then min 16 (x.silence + 1) else x.silence }
    let starving := n.cadence.node = .following ∨ (n.cadence.node = .starting ∧ n.link.fold ≠ .isolated)
    let opened : Node := { n with
      cadence := { n.cadence with
        localCount := count, markPhase := n.cadence.markPhase + 1,
        starvation := if starving then min 48 (n.cadence.starvation + 1) else n.cadence.starvation,
        backOff := if n.cadence.node = .waiting then n.cadence.backOff.map (· - 1) else n.cadence.backOff },
      link := { n.link with east := side n.link.east, west := side n.link.west,
                            quiet := n.link.quiet.map (· - 1) },
      messages := { n.messages with
        slots := n.messages.slots.map fun x => match x with | .inFlight u c => .inFlight u (c - 1) | y => y,
        peers := Table.ofFn fun p => let r := n.messages.peers.get p
          if p = n.station then r else { r with count := min 128 (r.count + 1) } },
      taps := { n.taps with windowCount := n.taps.windowCount + 1 },
      talk := { n.talk with pins := pins },
      engine := { n.engine with
        unsent := some (count, frame),
        unsentCapture :=
          if n.engine.unsent.isSome = true ∧ (n.cadence.node = .following ∨ n.cadence.node = .claiming
              ∨ n.cadence.node = .origin) then n.engine.unsentCapture.inc else n.engine.unsentCapture },
      router := { n.router with
        capture := frame,
        delay := { n.router.delay with
          places := n.router.delay.places.set (n.loader.values.window.place count) (some (count, frame)) } } }
    (n.running = true → ∃ t, exec (.boundary lanes pins) s = .next t ∧ t.pending = s.pending
        ∧ t = State.runOn n.boundaryTasks { node := opened, agenda := [], pending := s.pending }
        ∧ t.node.cadence.localCount = count ∧ t.node.router.capture = frame
        ∧ t.node.router.delay.places = opened.router.delay.places
        ∧ t.node.talk.pins = pins ∧ t.node.loader = n.loader ∧ t.node.port = n.port)
      ∧ (n.running = false → Leaves (.boundary lanes pins) s n))
    ∧ (∀ n : Node,
      let silence (side : Side) : List Task :=
        if (n.side side).lock && (n.side side).silence == 15 then [.silence side] else []
      let used := (List.finRange 256).filter fun e => (n.taps.entries.get e).isSome
      n.boundaryTasks =
        [.quietEnd] ++ silence .east ++ silence .west
          ++ (List.finRange 16).map .holdExpiry ++ (List.finRange 8).map .slotLost ++ [.starvation]
          ++ [.raise, .windowEnd, .reads, .mark, .linkProven .east, .linkProven .west]
          ++ (List.finRange 4).flatMap (fun k => [.keyPressed k, .keyReleased k, .keepExpiry k]) ++ [.talkExpiry]
          ++ used.flatMap (fun e => [.returnHold e, .decide e])
          ++ [.audio, .emit, .claim] ++ (if n.taps.walk.isSome then [.walkStep, .walkComplete] else []))
    ∧ (∀ n : Node, n.running = true →
      n.perform .raise = n.settleRaise ∧ n.perform .reads = n.readEntries
        ∧ (∀ e, n.perform (.decide e) = n.decideFallback e) ∧ n.perform .audio = n.formAudio
        ∧ n.perform .emit = n.emit ∧ n.perform .walkStep = n.walkStep)
    ∧ (∀ n : Node,
      let m := n.readEntries
      let read (x : TapEntry) := x.read n.loader.values.window (n.cadence.localCount - byteOf n.taps.pEff)
      (∀ e, m.taps.entries.get e = (n.taps.entries.get e).map fun x => (read x).1)
        ∧ m.taps.reads = (List.finRange 256).filterMap (fun e => (n.taps.entries.get e).map fun x => (read x).2)
        ∧ m = { n with taps := { n.taps with entries := m.taps.entries, reads := m.taps.reads } })
    ∧ (∀ n : Node,
      let m := n.formAudio
      let entryAudio (e : EntryNo) : AudioFrame := match n.taps.entries.get e with
        | none => silentFrame
        | some x => if x.onAlternate then (match x.alternate with | some a => n.taps.readSamples a | none => silentFrame)
          else n.taps.readSamples x.key
      ∃ locals : CaptureFrame,
        (n.loader.values.localAlignment = false → locals = n.router.capture ∧ m.router.delay = n.router.delay)
          ∧ (n.loader.values.localAlignment = true →
              AlignedRead n.router.delay n.loader.values.window (n.cadence.localCount - byteOf n.taps.pEff)
                m.router.delay locals)
          ∧ (∀ i, m.router.frames.get i = match n.router.bindings.get i with
              | .unbound => silentFrame
              | .localChannel c => locals.get c
              | .tap e => entryAudio e)
          ∧ (∀ o, m.router.outputs.get o =
              if n.loader.values.rate.present o then
                (match n.router.outMap.get o with
                  | .silent => silentFrame
                  | .mix x => (m.mixer.mixes.get x).output
                  | .slot i => m.router.frames.get i)
              else silentFrame)
          ∧ m.mixer = ({ n with router := { n.router with frames := m.router.frames } } : Node).computeMixes.mixer
          ∧ m = { n with router := m.router, mixer := m.mixer }
          ∧ (m.router.bindings = n.router.bindings ∧ m.router.outMap = n.router.outMap
              ∧ m.router.capture = n.router.capture))
    ∧ ∀ rate : Rate,
      let slots := match rate with | .khz48 => 8 | .khz96 => 4
      (∀ (lanes : LaneBlock) (c : Fin 64),
        (∀ (j t k : Fin 8), t.val < slots → c.val = slots * j.val + t.val → ∀ b < 24,
            (((captureOf rate lanes).get c).get k).getLsbD (23 - b)
              = (((lanes.get j).get t).get k).getLsbD (31 - b))
          ∧ (8 * slots ≤ c.val → (captureOf rate lanes).get c = silentFrame))
        ∧ ∀ n : Node, n.loader.values.rate = rate →
          (n.running = false → n.outputLanes = none)
            ∧ (n.running = true → ∃ lanes, n.outputLanes = some lanes
              ∧ ∀ (o : Fin 64) (j t k : Fin 8), t.val < slots → o.val = slots * j.val + t.val →
                (∀ b < 24, (((lanes.get j).get t).get k).getLsbD (31 - b)
                    = ((n.router.outputs.get o).get k).getLsbD (23 - b))
                  ∧ ∀ b < 8, (((lanes.get j).get t).get k).getLsbD b = false)

/-- STARVATION (R33, R34): the 48th boundary takes a station in FOLLOWING, or in STARTING while the fold state is not
ISOLATED, to WAITING; an eligible station sets its back-off. -/
def Obligations.StarvationEntersWaiting : Prop :=
  ∀ (s : State) (ts : List Task), let n := s.node
    n.running = true → s.agenda = .starvation :: ts → n.cadence.starvation = 48 →
    (n.cadence.node = .following ∨ (n.cadence.node = .starting ∧ n.link.fold ≠ .isolated)) →
    Takes .starvation s ts { n with
      cadence := { n.cadence with
        node := .waiting, backOff := if n.loader.values.originEligible then some (n.station.number * 8) else none },
      engine := { n.engine with layoutDue := n.engine.layoutDue || n.cadence.node == .starting },
      reports := n.reports.post (.nodeState .waiting n.cadence.followed n.cadence.roundLength) }

/-- CLAIM (R35): a back-off that has come to 0 takes WAITING to CLAIMING, and at that boundary the first fresh frame goes
out with the station as origin, the local count as sequence and L = 0.  A frame of the station's own holds its own
segment alone (R10).  At a boundary in CLAIMING a fresh frame is emitted, and in ORIGIN the oldest returned frame, its
orphaned segments removed and counted and its head re-stamped, or a fresh one when the return queue is empty (R13, R37;
which segments can be orphans is assumption 22, and the clear unassigned bits of the new head assumption 14).
A frame with a bad head on the active primary input is counted, and rebuilt with the followed origin in FOLLOWING and in
WAITING, or discarded (R11); one that makes the fourth bad item waits behind BAD_RUN (assumption 31). -/
def Obligations.ClaimSendsTheFirstFrame : Prop :=
  (∀ (s : State) (ts : List Task), let n := s.node
    let entered : Node := { n with
      cadence := { n.cadence with node := .claiming, followed := some n.station, roundLength := 0#8,
                                  lastSequence := none, backOff := none },
      reports := n.reports.post (.nodeState .claiming (some n.station) 0#8) }
    n.running = true → s.agenda = .claim :: ts → n.cadence.node = .waiting → n.cadence.backOff = some 0 →
    ∃ m : Node, Takes .claim s ts m ∧ m = entered.emit
      ∧ (n.link.fold ≠ .isolated → m = entered.sendOwn n.station false)
      ∧ m.cadence = { n.cadence with node := .claiming, followed := some n.station, roundLength := 0#8,
                                     lastSequence := none, backOff := none }
      ∧ Posted n.reports m.reports [.nodeState .claiming (some n.station) 0#8]
      ∧ (∀ side, n.link.fold.output = some side → n.link.quiet = none →
          ∃ h body, (m.side side).sent = (n.side side).sent ++ [.frame h body]
            ∧ headOrigin h = n.station.byte ∧ headSequence h = n.cadence.localCount ∧ headRound h = 0#8
            ∧ headRebuilt h = false)
      ∧ m = { n with link := m.link, cadence := m.cadence, engine := m.engine, messages := m.messages,
                     reports := m.reports })
    ∧ (∀ (n : Node) (origin : Station) (rebuilt : Bool) (side : Side),
      n.link.fold.output = some side → n.link.quiet = none →
      let own := n.append 0
      ∃ h, n.sendOwn origin rebuilt = { own.2 with link := n.link.setSide side { n.side side with
              sent := (n.side side).sent ++ [.frame h own.1] } }
        ∧ headGood h = true ∧ headOrigin h = origin.byte ∧ headSequence h = n.cadence.localCount
        ∧ headRound h = n.cadence.roundLength ∧ headRebuilt h = rebuilt
        ∧ headSecondary h = (n.link.fold == .foldedEast) ∧ headHops h = 0)
    ∧ (∀ n : Node,
      ((n.link.fold = .isolated ∨ (n.cadence.node ≠ .claiming ∧ n.cadence.node ≠ .origin)) → n.emit = n)
        ∧ (n.link.fold ≠ .isolated →
            (n.cadence.node = .claiming ∨ (n.cadence.node = .origin ∧ n.cadence.returnQueue = [])) →
            n.emit = n.sendOwn n.station false)
        ∧ (∀ f rest, n.link.fold ≠ .isolated → n.cadence.node = .origin → n.cadence.returnQueue = f :: rest →
            let walked := walkBody n.capacity f.body
            let old (x : Segment) : Bool := x.source != n.station.byte
              && decide (3 ≤ (headSequence f.head - x.captureIndex).toNat)
              && decide ((headSequence f.head - x.captureIndex).toNat ≤ 127)
            let m : Node := { n with
              cadence := { n.cadence with returnQueue := rest },
              engine := { n.engine with
                segmentError := if walked.2 then n.engine.segmentError.inc else n.engine.segmentError,
                orphan := (walked.1.filter old).foldl (fun c _ => c.inc) n.engine.orphan } }
            n.emit = m.passSegments
              (makeHead n.station.byte n.cadence.localCount n.cadence.roundLength false false 0)
              (walked.1.filter fun x => !old x)))
    ∧ ∀ (s : State) (side : Side) (head : SixBytes) (body : List FrameUnit), let n := s.finish.node
      let evidence : LinkFold := n.link.setSide side { n.side side with
        badRun := min ((n.side side).badRun + 1) 4, badEvidence := (n.side side).badEvidence.inc,
        holdOff := if (n.side side).link = .proving then some (n.loader.values.linkHoldOff * 250)
          else (n.side side).holdOff }
      let counted : Node := { n with
        link := evidence, engine := { n.engine with badHead := n.engine.badHead.inc } }
      n.running = true → (n.side side).lock = true → headGood head = false →
      ((n.side side).badRun + 1 = 4 → (n.side side).link ≠ .down →
          exec (.frameReceived side head body) s = .next
            { node := { n with link := evidence }, agenda := [.badRun side, .takeFrame side head body],
              pending := s.pending })
        ∧ (((n.side side).badRun + 1 ≠ 4 ∨ (n.side side).link = .down) →
          (n.link.fold.input ≠ some side → Leaves (.frameReceived side head body) s { n with link := evidence })
            ∧ (∀ o, n.link.fold.input = some side → n.cadence.node = .following ∨ n.cadence.node = .waiting →
                n.cadence.followed = some o → Leaves (.frameReceived side head body) s
                  (({ counted with engine := { counted.engine with rebuilt := n.engine.rebuilt.inc } } : Node).sendOwn
                    o true))
            ∧ (n.link.fold.input = some side →
                n.cadence.followed = none ∨ (n.cadence.node ≠ .following ∧ n.cadence.node ≠ .waiting) →
                Leaves (.frameReceived side head body) s counted))

/-- WINDOW_END (R112): at the end of a lowering window P_eff is lowered where the largest age allows, and a new window
begins.  What comes before it: an arrival at an entry is stale at an age of W or more, and else stored at its place, with
its age joined to the window's largest and a late one counted and recorded as a raise request (R109); a raise request is
settled at the next boundary, and raises P_eff up to W − 1 with DELAY CHANGED (R111). -/
def Obligations.WindowEndLowersTheDelay : Prop :=
  (∀ (s : State) (ts : List Task), let n := s.node
    n.running = true → s.agenda = .windowEnd :: ts → n.taps.windowCount = 256 →
    let p := n.loader.values.delay
    let lowered := match n.taps.largestAge with
      | some a => if p < n.taps.pEff ∧ a + 1 < n.taps.pEff then some (max p (a + 1)) else none
      | none => none
    Takes .windowEnd s ts { n with
      taps := { n.taps with pEff := lowered.getD n.taps.pEff, windowCount := 0, largestAge := none },
      reports := match lowered with
        | some new => n.reports.post (.delayChanged new n.taps.pEff .lower)
        | none => n.reports })
    ∧ (∀ (t : Taps) (w : Window) (count index : Byte) (k : Key) (samples : AudioFrame),
      let age := (count - index).toNat
      (t.lookup k = none → t.arrive w count k index samples = t)
        ∧ ∀ e x, t.lookup k = some e → t.entries.get e = some x →
          (w.frames ≤ age → t.arrive w count k index samples =
              { t with entries := t.entries.set e (some { x with stale := x.stale.inc }) })
            ∧ (age < w.frames → t.arrive w count k index samples = { t with
                entries := t.entries.set e (some { x with
                  buffer := x.buffer.set (w.place index) (some (index, samples)),
                  late := if t.pEff < age then x.late.inc else x.late }),
                largestAge := some (max (t.largestAge.getD 0) age),
                raise := if t.pEff < age then some (max (t.raise.getD 0) (age + 1)) else t.raise }))
    ∧ ∀ n : Node,
      (n.taps.raise = none → n.settleRaise = n)
        ∧ ∀ r, n.taps.raise = some r →
          let candidate := min (n.loader.values.window.frames - 1) r
          (candidate ≤ n.taps.pEff → n.settleRaise = { n with taps := { n.taps with raise := none } })
            ∧ (n.taps.pEff < candidate → n.settleRaise = { n with
                taps := { n.taps with pEff := candidate, raise := none },
                reports := n.reports.post (.delayChanged candidate n.taps.pEff .raise) })

/-- MILLISECOND_MARK (R27, R49, R155, R156, R166, R120): the phase restarts, the hold-off of a PROVING side falls, every
talk's deadline falls, every key is compared with its pin, and the return holds of the primaries that read present
rise.  The self-addressed talk events that wait are handed again in the pending order (R157): one that the receive queue
takes leaves its key, with HOLD judged (R75), and one that it does not stays.  Nothing else moves. -/
def Obligations.MillisecondMarkCounts : Prop :=
  (∀ (s : State) (ts : List Task), let n := s.node
    let hold (x : SideState) : SideState :=
      { x with holdOff := if x.link = .proving then x.holdOff.map (· - 1) else x.holdOff }
    let key (x : KeyState) (pin : Bool) : KeyState :=
      let d := if pin = x.pressed then 0 else x.debounce + 1
      { x with debounce := d, keep := if x.pressed = true ∧ d < 5 then x.keep.map (· - 1) else x.keep }
    let counted : Node := { n with
      cadence := { n.cadence with markPhase := 0 },
      link := { n.link with east := hold n.link.east, west := hold n.link.west },
      talk := { n.talk with keys := Table.ofFn fun k => key (n.talk.keys.get k) (n.talk.pins.get k) },
      taps := { n.taps with entries := n.taps.entries.map (Option.map fun x => { x with
        returnHold := if x.slot.isSome = true ∧ x.alternate.isSome = true ∧ x.onAlternate = true
            ∧ x.autoReturn = true ∧ n.taps.readPresent x.key = true then x.returnHold + 1 else x.returnHold }) },
      mixer := { n.mixer with mixes := n.mixer.mixes.map fun x => { x with
        talks := x.talks.map fun t => { t with deadline := t.deadline - 1 } } } }
    n.running = true → s.agenda = .mark :: ts → n.cadence.markPhase = n.markPeriod →
    Takes .millisecondMark s ts (n.talk.pendingOrder.foldl Node.handOwnEvent counted)
      ∧ ((∀ k ∈ n.talk.pendingOrder, (n.talk.keys.get k).event = none ∨ n.keyIsOwn k = false) →
          Takes .millisecondMark s ts counted))
    ∧ ∀ (n : Node) (k : Fin 4) (ev : TalkEvent), (n.talk.keys.get k).event = some ev → n.keyIsOwn k = true →
      (16 ≤ n.messages.queue.length → n.handOwnEvent k = n)
        ∧ (n.messages.queue.length < 16 → n.handOwnEvent k = { n with
              messages := withQueue n.messages (n.messages.queue ++
                [{ message := (n.talkMessage k ev).placed n.station 255#8, source := .talk }]),
              talk := { n.talk with
                keys := n.talk.keys.set k { n.talk.keys.get k with
                  event := none, serial := (n.talk.keys.get k).serial + 1 },
                pendingOrder := n.talk.pendingOrder.filter (· != k) } })

/-- RETURN_HOLD_COMPLETE (R120): a primary in ON ALTERNATE with AUTO-RETURN whose count has come to the return hold returns
to NORMAL with RETURNED, cause HOLD.  Behind it at the same boundary, a primary in NORMAL whose k is F or more falls back
when its alternate's read is present (R119), and one in ON ALTERNATE returns when its alternate's k is F or more and its
own read is present, cause ALTERNATE FAILED (R121). -/
def Obligations.ReturnHoldCompleteReturns : Prop :=
  (∀ (s : State) (ts : List Task) (e : EntryNo) (x : TapEntry) (slot : Fin 128) (a : Key), let n := s.node
    n.running = true → s.agenda = .returnHold e :: ts → n.taps.entries.get e = some x → x.slot = some slot →
    x.alternate = some a → x.onAlternate = true → x.autoReturn = true → n.loader.values.returnHold ≤ x.returnHold →
    Takes (.returnHoldComplete e) s ts { n with
      taps := { n.taps with entries := n.taps.entries.set e (some { x with onAlternate := false, returnHold := 0 }) },
      reports := n.reports.post (.returned e x.key slot a .hold) })
    ∧ ∀ (n : Node) (e : EntryNo) (x : TapEntry), n.taps.entries.get e = some x →
      let f := n.loader.values.fallback
      let k (a : Key) : Nat := match n.taps.entryOf a with | some y => y.conceal | none => 0
      let falls (a : Key) : Prop := x.onAlternate = false ∧ f ≤ x.conceal ∧ n.taps.readPresent a = true
      let returns (a : Key) : Prop := x.onAlternate = true ∧ f ≤ k a ∧ n.taps.readPresent x.key = true
      (∀ slot a, x.slot = some slot → x.alternate = some a →
          (falls a → n.decideFallback e = { n with
              taps := { n.taps with
                entries := n.taps.entries.set e (some { x with onAlternate := true, returnHold := 0 }) },
              reports := n.reports.post (.fallback e x.key slot a) })
            ∧ (returns a → n.decideFallback e = { n with
              taps := { n.taps with
                entries := n.taps.entries.set e (some { x with onAlternate := false, returnHold := 0 }) },
              reports := n.reports.post (.returned e x.key slot a .alternateFailed) })
            ∧ (¬falls a → ¬returns a → n.decideFallback e = n))
        ∧ (x.slot = none ∨ x.alternate = none → n.decideFallback e = n)

/-- TAP_CLEAR_COMPLETE (R100): when bucket 63 has been walked the TAP CLEAR is answered DONE with the walk count and the
entries left in use. -/
def Obligations.TapClearCompleteAnswers : Prop :=
  ∀ (s : State) (ts : List Task) (freed : Nat) (e : QueueEntry) (q : List QueueEntry), let n := s.node
    n.running = true → s.agenda = .walkComplete :: ts → n.taps.walk = some ⟨64, freed⟩ →
    n.messages.queue = e :: q →
    Takes .tapClearComplete s ts
      (({ n with taps := { n.taps with walk := none },
                 messages := { n.messages with carrying := .idle } } : Node).complete e
        (some { outcome := .done,
                detail := countBytes freed
                  ++ countBytes ((List.finRange 256).filter fun i => (n.taps.entries.get i).isSome).length }))

/-- SLOT_LOST (R74): the lost-slot count rises and the slot is settled LOST: a port slot by a delivery report, a reply slot
by the reply-undelivered count, a talk slot by the Talkback Controller (R158), which reports an undelivered OPEN and makes
it again while its key is held; the slot then becomes FREE (R74).  So an OPEN that is made again goes into the other talk
slot if that is FREE, and else a pending event goes into the slot that is freed (R157); that a talk slot is freed behind
its delivery in the settlements of R73 and R85 too is assumption 35, and that the report of an undelivered OPEN names no
station and no mix is assumption 49.  A unit that returns settles the slot it matches by its
marks, or is a stale mark (R73).  Ready slots go IN FLIGHT in the order of R71 with a flight count of 2L + 16 (R72). -/
def Obligations.SlotLostIsSettled : Prop :=
  (∀ (s : State) (ts : List Task) (i : Fin 8) (u : FrameUnit), let n := s.node
    n.running = true → s.agenda = .slotLost i :: ts → n.messages.slots.get i = .inFlight u 0 →
    let freed : Messages := { n.messages with
      slots := n.messages.slots.set i .free, readyOrder := n.messages.readyOrder.filter (· != i),
      lostSlot := n.messages.lostSlot.inc }
    (i.val < 4 → Takes (.slotLost i) s ts { n with
        messages := freed, reports := n.reports.post (.delivery i u.kind u.tag u.destination .lost) })
      ∧ (6 ≤ i.val → Takes (.slotLost i) s ts { n with
        messages := { freed with replyUndelivered := n.messages.replyUndelivered.inc } })
      ∧ (4 ≤ i.val → i.val < 6 → ∃ m : Node, Takes (.slotLost i) s ts m
        ∧ m.messages.lostSlot = n.messages.lostSlot.inc
        ∧ m = ({ n with messages := { n.messages with lostSlot := n.messages.lostSlot.inc } } : Node).settleSlot i .lost
        ∧ m = { n with messages := m.messages, talk := m.talk, reports := m.reports }))
    ∧ (∀ (n : Node) (i : Fin 8) (u : FrameUnit) (d : Delivery), 4 ≤ i.val → i.val < 6 →
      (n.messages.slots.get i).message = some u →
      let k := keyOfTag u.tag
      let failed := u.kind = kindTalkOpen ∧ (d = .refused ∨ d = .notSeen ∨ d = .lost)
      let again := failed ∧ (n.talk.keys.get k).pressed = true ∧ (n.talk.keys.get k).event = none
      let left : Node := { n with
        messages := { n.messages with
          slots := n.messages.slots.set i .free, readyOrder := n.messages.readyOrder.filter (· != i) },
        reports := if failed then n.reports.post (.talk (some k) none u.kind (128#8 + d.code) 0#24 0#24)
          else n.reports }
      let other : Fin 8 := if i = 4 then 5 else 4
      let pending : Node := { left with talk := { n.talk with
        keys := n.talk.keys.set k { n.talk.keys.get k with event := some .openTalk },
        pendingOrder := n.talk.pendingOrder ++ [k] } }
      let made : Node := if again then
          (if n.keyIsOwn k = true ∧ n.messages.queue.length < 16 then leftToOwnQueue left k .openTalk else pending)
        else left
      let waiting := n.talk.pendingOrder.filter fun j => !n.keyIsOwn j
      let m := n.settleSlot i d
      Posted n.reports m.reports
          (if failed then [.talk (some k) none u.kind (128#8 + d.code) 0#24 0#24] else [])
        ∧ (waiting = [] → again ∧ n.keyIsOwn k = false →
          m = leftThroughSlot left (if n.messages.slots.get other = .free then other else i) k .openTalk)
        ∧ (waiting = [] → ¬(again ∧ n.keyIsOwn k = false) → m = made)
        ∧ (∀ j rest ev, waiting = j :: rest → (n.talk.keys.get j).event = some ev →
            n.messages.slots.get other ≠ .free → m = leftThroughSlot made i j ev))
    ∧ (∀ (n : Node) (u : FrameUnit),
      let marks : Delivery := if u.taken then (if u.refused then .both else .taken)
        else if u.refused then .refused else .notSeen
      (∀ (i : Fin 8) v c, u.slot = byteOf i.val → n.messages.slots.get i = .inFlight v c → v.kind = u.kind →
          v.tag = u.tag → n.unitReturns u = n.settleSlot i marks
            ∧ (i.val < 4 → n.unitReturns u = { n with
                messages := { n.messages with
                  slots := n.messages.slots.set i .free, readyOrder := n.messages.readyOrder.filter (· != i) },
                reports := n.reports.post (.delivery i v.kind v.tag v.destination marks) })
            ∧ (6 ≤ i.val → n.unitReturns u = { n with messages := { n.messages with
                slots := n.messages.slots.set i .free, readyOrder := n.messages.readyOrder.filter (· != i),
                replyUndelivered := if marks = .notSeen then n.messages.replyUndelivered.inc
                  else n.messages.replyUndelivered } }))
        ∧ ((∀ (i : Fin 8) v c, u.slot = byteOf i.val → n.messages.slots.get i = .inFlight v c →
              ¬(v.kind = u.kind ∧ v.tag = u.tag)) →
            n.unitReturns u = { n with messages := { n.messages with staleMark := n.messages.staleMark.inc } }))
    ∧ ∀ (n : Node) (most : Nat),
      let goes (i : Fin 8) : Bool := match n.messages.slots.get i with
        | .ready u => isAnswerKind u.kind || (match Station.ofByte u.destination with
            | some p => !(n.messages.peers.get p).hold
            | none => true)
        | _ => false
      let order := n.messages.readyOrder.filter goes
      let given := ((order.filter fun i => decide (6 ≤ i.val))
        ++ (order.filter fun i => decide (4 ≤ i.val) && decide (i.val < 6))
        ++ order.filter fun i => decide (i.val < 4)).take most
      let m := (n.giveReady most).2
      (n.giveReady most).1 = given.filterMap (fun i => (n.messages.slots.get i).message)
        ∧ (∀ i ∈ given, ∀ u, n.messages.slots.get i = .ready u →
            m.messages.slots.get i = .inFlight u (2 * n.cadence.roundLength.toNat + 16))
        ∧ (∀ i, i ∉ given → m.messages.slots.get i = n.messages.slots.get i)
        ∧ m.messages.readyOrder = n.messages.readyOrder.filter (fun i => !given.contains i)
        ∧ m = { n with messages := { n.messages with
            slots := m.messages.slots, readyOrder := m.messages.readyOrder } }

/-- HOLD_RECORD_EXPIRY (R76): at a count of 128 the peer's HOLD flag is cleared.  A good segment's flag is recorded for its
peer with a count of 0; the record of the own number is not written, by a segment or by a boundary. -/
def Obligations.HoldRecordExpires : Prop :=
  (∀ (s : State) (ts : List Task) (p : Station), let n := s.node
    n.running = true → s.agenda = .holdExpiry p :: ts → n.messages.peers.get p = ⟨true, 128⟩ →
    Takes (.holdRecordExpiry p) s ts { n with
      messages := { n.messages with peers := n.messages.peers.set p ⟨false, 128⟩ } })
    ∧ ∀ (n : Node) (p : Station) (flag : Bool),
      (p = n.station → n.recordHold p flag = n ∧ n.countPeers.get p = n.messages.peers.get p)
        ∧ (p ≠ n.station → n.recordHold p flag =
              { n with messages := { n.messages with peers := n.messages.peers.set p ⟨flag, 0⟩ } }
            ∧ n.countPeers.get p = ⟨(n.messages.peers.get p).hold, min 128 ((n.messages.peers.get p).count + 1)⟩)

/-- TALK_KEY_PRESSED, TALK_KEY_RELEASED and KEEP_COUNT_EXPIRY (R155, R156): a bound key's press makes an OPEN and starts the
keep count at 40, its release makes a CLOSE and stops it, its expiry makes a KEEP and starts it again.  The event replaces
the key's pending one or joins the pending order, and leaves into the own receive queue or through the FREE talk slots,
where Safety.EventMade says it may (R157).  An unbound key follows its pin, makes no event, and leaves all else.  The message
of an event carries the key record's fields and the tag 4 × serial + key number (R156). -/
def Obligations.TalkKeysMakeEvents : Prop :=
  ∀ (s : State) (ts : List Task) (k : Fin 4), let n := s.node
    let x := n.talk.keys.get k
    let left (m : Node) : Prop := (m.talk.keys.get k).event = none ∧ (m.talk.keys.get k).serial = x.serial + 1
    let with' (y : KeyState) : Node := { n with talk := { n.talk with keys := n.talk.keys.set k y } }
    let pressed := with' { x with pressed := true, debounce := 0, keep := some 40 }
    let released := with' { x with pressed := false, debounce := 0, keep := none }
    n.running = true →
    (s.agenda = .keyPressed k :: ts → x.debounce = 5 → x.pressed = false →
        ∃ m : Node, Takes (.talkKeyPressed k) s ts m ∧ (m.talk.keys.get k).pressed = true
          ∧ (m.talk.keys.get k).debounce = 0 ∧ m = { n with messages := m.messages, talk := m.talk }
          ∧ ((n.keyImage k).bound = true → EventMade k .openTalk pressed m ∧ (m.talk.keys.get k).keep = some 40
              ∧ ((m.talk.keys.get k).event = some .openTalk ∨ left m))
          ∧ ((n.keyImage k).bound = false → m = with' { x with pressed := true, debounce := 0 }))
      ∧ (s.agenda = .keyReleased k :: ts → x.debounce = 5 → x.pressed = true →
        ∃ m : Node, Takes (.talkKeyReleased k) s ts m ∧ (m.talk.keys.get k).pressed = false
          ∧ (m.talk.keys.get k).debounce = 0 ∧ (m.talk.keys.get k).keep = none
          ∧ m = { n with messages := m.messages, talk := m.talk }
          ∧ ((n.keyImage k).bound = true → EventMade k .close released m
              ∧ ((m.talk.keys.get k).event = some .close ∨ left m))
          ∧ ((n.keyImage k).bound = false → m = released))
      ∧ (s.agenda = .keepExpiry k :: ts → x.keep = some 0 →
        ∃ m : Node, Takes (.keepCountExpiry k) s ts m ∧ (m.talk.keys.get k).keep = some 40
          ∧ (m.talk.keys.get k).pressed = x.pressed ∧ m = { n with messages := m.messages, talk := m.talk }
          ∧ EventMade k .keep (with' { x with keep := some 40 }) m
          ∧ (x.event ≠ some .openTalk → (m.talk.keys.get k).event = some .keep ∨ left m)
          ∧ (x.event = some .openTalk → m.messages = n.messages ∧ (m.talk.keys.get k).event = some .openTalk))
      ∧ (let i := n.keyImage k
        let common (kind : Byte) : List Byte :=
          [kind, n.station.byte, i.destination, byteOf (4 * x.serial.val + k.val), 0#8, 0#8]
        n.talkMessage k .openTalk = unitOf (common 32#8 ++ [n.station.byte, byteOf i.channel.val] ++ bytes24 i.mask
              ++ [i.priority] ++ bytes24 i.dim ++ bytes24 i.level)
          ∧ n.talkMessage k .keep = unitOf (common 33#8 ++ bytes24 i.mask)
          ∧ n.talkMessage k .close = unitOf (common 34#8 ++ bytes24 i.mask))

/-- TALK_EXPIRY (R166): every talk whose deadline has come to 0 leaves its list, the sources lose their talk users in one
change (R103), a list that changed hands its setting (R167, R145), and each other desk that lost talks is given one
TIMED OUT notice with the mask of the mixes, which joins a notice that waits, joins the list, or is dropped and counted
at 16 (the order of the desks is assumption 26); the station's own comes back at once as a talk report (R82, R159). -/
def Obligations.TalkExpiryRemovesTalks : Prop :=
  ∀ (s : State) (ts : List Task), let n := s.node
    let gone (x : Fin 24) : List Talk := (n.talks x).filter fun t => t.deadline == 0
    let lost (d : Station) : List (Fin 24) :=
      (List.finRange 24).flatMap fun x => ((n.talks x).filter fun t => t.deadline == 0 && t.desk == d).map fun _ => x
    let moves := (List.finRange 24).flatMap fun x => (gone x).map fun t => (t.source, (-1 : Int))
    n.running = true → s.agenda = .talkExpiry :: ts →
    (∃ x, ∃ t ∈ (n.mixer.mixes.get x).talks, t.deadline = 0) →
    ∃ m u : Node, Takes .talkExpiry s ts m
      ∧ (∀ x, m.mixer.mixes.get x = if gone x = [] then n.mixer.mixes.get x
          else withTalks (n.mixer.mixes.get x) ((n.talks x).filter fun t => t.deadline != 0) n.loader.values.duckRamp)
      ∧ m.mixer.freeCrosspoints = n.mixer.freeCrosspoints
      ∧ UsersMoved moves n u ∧ m.taps = u.taps
      ∧ Posted u.reports m.reports (ownNotice n false (lost n.station))
      ∧ m.messages = (otherNotices n.station false lost).foldl withNotice n.messages
      ∧ (n.messages.notices = [] → ∀ d, d ≠ n.station → lost d ≠ [] →
          { desk := d, evicted := false, mask := maskOf (lost d) } ∈ m.messages.notices)
      ∧ m = { n with messages := m.messages, taps := m.taps, mixer := m.mixer, reports := m.reports }
      ∧ m.messages = { n.messages with notices := m.messages.notices, noticeDrop := m.messages.noticeDrop }

/-! ### The receive queue (Section 4) -/

/-- REPLY_SLOT_GRANT (R80, R82, R83): a FREE reply slot goes to the receive side or to the notice side by the turn, which
then names the other; with no claim or no FREE slot nothing happens.  The parts of a STATION answer take a grant each, and
the query completes when part 3 is placed (R81). -/
def Obligations.ReplySlotIsGrantedByTurn : Prop :=
  ∀ (s : State) (i : Fin 8), let n := s.finish.node
    let receive := ∃ e, n.messages.queue.head? = some e ∧ n.messages.carrying = .idle ∧ e.needsReply = true
      ∧ n.messages.granted = none
    let part (p : Fin 4) (e : QueueEntry) : Messages := { n.messages with
      slots := n.messages.slots.set i (.ready ((n.statusPart .station p.val (n.requester e).byte e.message.tag
        (byteOf i.val)).placed n.station (byteOf i.val))),
      readyOrder := n.messages.readyOrder ++ [i], turn := .notice }
    n.running = true →
    (n.messages.freeSlot replySlots = some i → receive → (n.messages.notices = [] ∨ n.messages.turn = .receive) →
        Leaves .replySlotGrant s { n with messages := { n.messages with
          slots := n.messages.slots.set i .reserved, granted := some i, turn := .notice } })
      ∧ (∀ x rest, n.messages.freeSlot replySlots = some i → n.messages.notices = x :: rest →
          n.messages.receiveClaims = false ∨ n.messages.turn = .notice →
        Leaves .replySlotGrant s { n with messages := { n.messages with
          slots := n.messages.slots.set i (.ready ((x.result n.station (byteOf i.val)).placed n.station (byteOf i.val))),
          readyOrder := n.messages.readyOrder ++ [i], notices := rest, turn := .receive } })
      ∧ (∀ p e q, n.messages.freeSlot replySlots = some i → n.messages.carrying = .station p → p.val < 3 →
          n.messages.queue = e :: q → n.messages.notices = [] ∨ n.messages.turn = .receive →
        Leaves .replySlotGrant s { n with messages := { part p e with carrying := .station (p + 1) } })
      ∧ (∀ e q, n.messages.freeSlot replySlots = some i → n.messages.carrying = .station 3 →
          n.messages.queue = e :: q → n.messages.granted = none →
          n.messages.notices = [] ∨ n.messages.turn = .receive →
        Leaves .replySlotGrant s { n with messages := withQueue { part 3 e with carrying := .idle } q })
      ∧ (n.messages.freeSlot replySlots = none ∨ (n.messages.receiveClaims = false ∧ n.messages.notices = []) →
        Leaves .replySlotGrant s n)

/-- A request's RESULT goes where its queue entry came from (R81): to the RESERVED reply slot for the ring, to the Report
Queue for the port, to the Talkback Controller for a talk, and to the Report Queue for an entry that a ring restart
detached (R85); the entry leaves the head and HOLD is judged (R75, R80).  A request without an answer frees the RESERVED
reply slot that it leaves unused, and leaves the head in the same way (R80).  A RESULT that the Talkback Controller is given
is posted as a talk report with its masks, with no key for a notice or where no bound key has the tag, and a NOT FOUND to a
KEEP makes an OPEN for a held key without one pending or in a talk slot (R159; the report of a RESULT that fits none of
R159's sorts, or two of them, is assumption 45).  The destination and slot byte 255 of a
RESULT that stays in its own station are assumption 17, and those of a detached one assumption 18.  A message unit offered from
the ring is taken or refused by its kind, and marked; an answer that is taken is routed (R14, R77, R81).  That a unit whose
sender is no station is addressed to nobody is assumption 15, and that an answer is posted as it arrived assumption 19. -/
def Obligations.ResultGoesToItsSource : Prop :=
  let judged (m : Messages) : Messages := withQueue m m.queue.tail
  (∀ (n : Node) (e : QueueEntry) (r : Reply),
    let u := e.message
    (∀ s slot g, e.source = .ring s slot → n.messages.granted = some g →
        n.complete e (some r) = { n with messages := judged { n.messages with
          slots := n.messages.slots.set g (.ready
            ((resultUnit n.station s.byte u.tag (byteOf g.val) u.kind slot r.outcome r.detail).placed n.station
              (byteOf g.val))),
          readyOrder := n.messages.readyOrder ++ [g], granted := none } })
      ∧ (∀ s slot, e.source = .detached s slot → n.messages.granted = none → n.complete e (some r) = { n with
          messages := judged n.messages,
          reports := n.reports.post (.result (resultUnit n.station s.byte u.tag 255#8 u.kind slot r.outcome r.detail)) })
      ∧ (e.source = .port → n.messages.granted = none → n.complete e (some r) = { n with
          messages := judged n.messages,
          reports := n.reports.post
            (.result (resultUnit n.station n.station.byte u.tag 255#8 u.kind 255#8 r.outcome r.detail)) })
      ∧ (e.source = .talk → n.messages.granted = none →
          ∃ m, n.complete e (some r) = { m with messages := judged m.messages }
            ∧ m = n.talkResult
                (resultUnit n.station n.station.byte u.tag 255#8 u.kind 255#8 r.outcome r.detail)))
    ∧ (∀ (n : Node) (e : QueueEntry),
      (n.messages.granted = none → n.complete e none = { n with messages := judged n.messages })
        ∧ ∀ g, n.messages.granted = some g → n.complete e none = { n with
            messages := judged { n.messages with slots := n.messages.slots.set g .free, granted := none } })
    ∧ (∀ (n : Node) (u : FrameUnit) (k : Fin 4), u.tag.toNat % 4 = k.val →
      let notice := u.byte 8 = 12#8 ∨ u.byte 8 = 13#8
      let miss := u.byte 6 = 33#8 ∧ u.byte 8 = 8#8
      let key := if (n.keyImage k).bound then some k else none
      let reported (key : Option (Fin 4)) (first busy : MixMask) : Node := { n with
        reports := n.reports.post (.talk key (Station.ofByte u.sender) (u.byte 6) (u.byte 8) first busy) }
      let opens := (n.keyImage k).bound = true ∧ (n.talk.keys.get k).pressed = true
        ∧ (n.talk.keys.get k).event = none
        ∧ ∀ i ∈ talkSlots, ∀ v, (n.messages.slots.get i).message = some v → ¬(v.kind = 32#8 ∧ v.tag.toNat % 4 = k.val)
      (notice → n.talkResult u = reported none (u.field24 9) 0#24)
        ∧ (¬notice → u.byte 6 = 32#8 → n.talkResult u = reported key (u.field24 9) (u.field24 12))
        ∧ (miss → (opens → EventMade k .openTalk (reported key (u.field24 9) 0#24) (n.talkResult u))
          ∧ (¬opens → n.talkResult u = reported key (u.field24 9) 0#24))
        ∧ (¬notice → u.byte 6 ≠ 32#8 → ¬miss → n.talkResult u = reported key 0#24 0#24))
    ∧ ∀ (n : Node) (u : FrameUnit),
      let talk := u.byte 7 = 4#8 ∨ u.byte 7 = 5#8 ∨ u.byte 8 = 12#8 ∨ u.byte 8 = 13#8
      let addressed := (∃ p, Station.ofByte u.sender = some p ∧ p ≠ n.station)
        ∧ (u.destination = n.station.byte ∨ u.destination = 255#8
            ∨ ∃ g : Fin 8, u.destination = byteOf (65 + g.val) ∧ n.loader.values.groups.get g = true)
      (¬addressed → n.offerUnit u = (u, n))
        ∧ (addressed → isAnswerKind u.kind = true → u.destination ≠ n.station.byte → n.offerUnit u =
            (u.mark false true,
              { n with messages := { n.messages with badMessage := n.messages.badMessage.inc } }))
        ∧ (addressed → u.kind = kindStatusReport → u.destination = n.station.byte →
            n.offerUnit u = (u.mark true false, { n with reports := n.reports.post (.statusReport u) }))
        ∧ (addressed → u.kind = kindResult → u.destination = n.station.byte →
            (talk → n.offerUnit u = (u.mark true false, n.talkResult u))
              ∧ (¬talk → n.offerUnit u = (u.mark true false, { n with reports := n.reports.post (.result u) })))
        ∧ (addressed → isAnswerKind u.kind = false →
            (16 ≤ n.messages.queue.length → n.offerUnit u = (u.mark false true,
                { n with messages := { n.messages with queueRefusal := n.messages.queueRefusal.inc } }))
              ∧ (∀ p, Station.ofByte u.sender = some p → n.messages.queue.length < 16 → n.offerUnit u =
                  (u.mark true false, { n with
                    messages := withQueue n.messages
                      (n.messages.queue ++ [{ message := u, source := .ring p u.slot }]) })))
        ∧ ∀ (taken refused : Bool),
          ((u.mark taken refused).taken = (u.taken || taken) ∧ (u.mark taken refused).refused = (u.refused || refused))
            ∧ ∀ i, i ≠ 5 → (u.mark taken refused).byte i = u.byte i

/-- UNKNOWN_KIND (R68): BAD FIELD, and no block is reached. -/
def Obligations.UnknownKindIsBadField : Prop :=
  ∀ (s : State) (e : QueueEntry), let n := s.finish.node
    HeadReady n e → isUnknownKind e.message.kind = true →
    Leaves .unknownKind s (n.complete e (some { outcome := .badField, detail := [] }))

/-- TAP_SET (R68, R92 to R97, R188): unreadable or wrong fields are BAD FIELD, the binding in force is ALREADY, another one
without UPDATE is CONFLICT and marks the key's own entry, no room is TABLE FULL or CHAIN FULL, and a slot bound otherwise
without TAKE is SLOT BUSY; each of these changes nothing, but for the conflict that CONFLICT notes.  A request that passes
is DONE: the slot feeds from the key's entry, which keeps its audio state and takes the request's alternate and
AUTO-RETURN in NORMAL; its old slot is unbound, an entry that loses the slot to TAKE loses its alternate too, no other slot
and no other key's entry is touched, and TABLE LOW is judged (R89).  The order of the free checks, and so of the free
list's tail, is the model's (assumption 34), and so is the channel byte 0 of an existing alternate of none in the detail of
CONFLICT (assumption 48). -/
def Obligations.TapSetBindsOrChangesNothing : Prop :=
  (∀ (s : State) (e : QueueEntry) (r : TapSetRequest) (slot : Fin 128) (i : EntryNo) (rest : List EntryNo),
    let n := s.finish.node
    HeadReady n e → e.message.kind = kindTapSet → readTapSet e.message = some r → r.key.station ≠ n.station →
    r.slot = some slot → r.alternate = none → n.taps.lookup r.key = none → n.taps.free = i :: rest →
    (n.taps.chains.get r.key.bucket).length < 8 → n.router.bindings.get slot = .unbound →
    ∃ (m : Node) (d : List Byte), Leaves .tapSet s (m.complete e (some { outcome := .done, detail := d }))
      ∧ m.taps = { n.taps with
          entries := n.taps.entries.set i (some
            { TapEntry.fresh r.key with slot := some slot, autoReturn := r.autoReturn }),
          free := rest, chains := n.taps.chains.update r.key.bucket (· ++ [i]) }
      ∧ m.router = { n.router with bindings := n.router.bindings.set slot (.tap i) }
      ∧ m.reports = (if rest.length + 1 = n.loader.values.lowFreeMark then
          n.reports.post (.tableLow rest.length n.loader.values.lowFreeMark) else n.reports)
      ∧ m = { n with taps := m.taps, router := m.router, reports := m.reports })
    ∧ (∀ (s : State) (e : QueueEntry), let n := s.finish.node
    HeadReady n e → e.message.kind = kindTapSet → readTapSet e.message = none →
    Leaves .tapSet s (n.complete e (some { outcome := .badField, detail := [] })))
    ∧ ∀ (s : State) (e : QueueEntry) (r : TapSetRequest), let n := s.finish.node
    HeadReady n e → e.message.kind = kindTapSet → readTapSet e.message = some r →
    let detail (t : Taps) (freed : Nat) : List Byte := entryBytesOrNone (t.lookup r.key)
      ++ entryBytesOrNone (r.alternate.bind t.lookup) ++ countBytes t.free.length ++ [byteOf freed]
    let unchanged (a : Answer) (more : List Byte) : Prop :=
      Leaves .tapSet s (n.complete e (some { outcome := a, detail := detail n.taps 0 ++ more }))
    let bad := r.slot = none ∨ r.alternate = some r.key ∨ r.key.station = n.station
      ∨ ∃ a, r.alternate = some a ∧ a.station = n.station
    let same (x : TapEntry) := x.slot = r.slot ∧ x.alternate = r.alternate ∧ x.autoReturn = r.autoReturn
    let passes := ¬bad ∧ ∀ x, n.taps.entryOf r.key = some x → x.slot.isSome = true → ¬same x ∧ r.update = true
    let new : List Key := (r.key :: r.alternate.toList).filter fun k => (n.taps.lookup k).isNone
    let room := new.length ≤ n.taps.free.length
    let fits := ∀ k ∈ new, (n.taps.chains.get k.bucket).length + (new.filter fun j => j.bucket == k.bucket).length ≤ 8
    (bad → unchanged .badField [])
      ∧ (∀ x, ¬bad → n.taps.entryOf r.key = some x → x.slot.isSome = true →
          (same x → unchanged .already [])
            ∧ (¬same x → r.update = false → ∃ i, n.taps.lookup r.key = some i ∧ Leaves .tapSet s
                (({ n with taps := { n.taps with
                    entries := n.taps.entries.set i (some { x with conflict := true }),
                    conflictCount := n.taps.conflictCount.inc } } : Node).complete e
                  (some { outcome := .conflict,
                          detail := detail n.taps 0 ++ slotByteOrNone x.slot :: keyBytesOrNone x.alternate }))))
      ∧ (passes → ¬room → unchanged .tableFull [])
      ∧ (passes → room → ¬fits → unchanged .chainFull [])
      ∧ ∀ slot, r.slot = some slot → passes → room → fits →
        let bound := n.router.bindings.get slot
        let free := bound = .unbound ∨ r.take = true ∨ ∃ i, bound = .tap i ∧ n.taps.lookup r.key = some i
        (¬free → unchanged .slotBusy (match bound with
            | .unbound => [0#8, 0#8, 0#8]
            | .localChannel c => [1#8, byteOf c.val, 0#8]
            | .tap i => 2#8 :: (match n.taps.entries.get i with | some x => keyBytes x.key | none => [0#8, 0#8])))
          ∧ (free → TableSound n.taps → BindingsAgree n →
            ∃ (m : Node) (i : EntryNo) (y : TapEntry),
              Leaves .tapSet s (m.complete e (some
                  { outcome := .done, detail := detail m.taps (m.taps.free.length + new.length - n.taps.free.length) }))
              ∧ (m.taps.lookup r.key = some i ∧ m.taps.entries.get i = some y ∧ y =
                  { (n.taps.entryOf r.key).getD (TapEntry.fresh r.key) with
                    slot := some slot, alternate := r.alternate, autoReturn := r.autoReturn, onAlternate := false,
                    returnHold := 0, backs := y.backs })
              ∧ m.router.bindings.get slot = .tap i
              ∧ (∀ o, o ≠ slot → m.router.bindings.get o =
                  if ∃ x, n.taps.entryOf r.key = some x ∧ x.slot = some o then .unbound else n.router.bindings.get o)
              ∧ (∀ a, r.alternate = some a → ∃ z, m.taps.entryOf a = some z ∧ 1 ≤ z.backs)
              ∧ (∀ j x, bound = .tap j → n.taps.entries.get j = some x → x.key ≠ r.key →
                  m.taps.entryOf x.key = none ∨ ∃ z, m.taps.entryOf x.key = some z ∧ z.slot = none
                    ∧ z.alternate = none ∧ z.autoReturn = false ∧ z.onAlternate = false)
              ∧ (∀ k, k ≠ r.key → r.alternate ≠ some k →
                  (∀ x, n.taps.entryOf r.key = some x → x.alternate ≠ some k) →
                  (∀ j x, bound = .tap j → n.taps.entries.get j = some x → x.key ≠ k ∧ x.alternate ≠ some k) →
                  m.taps.entryOf k = n.taps.entryOf k)
              ∧ m.taps = { n.taps with entries := m.taps.entries, free := m.taps.free, chains := m.taps.chains }
              ∧ m.router = { n.router with bindings := m.router.bindings }
              ∧ m.reports = (if n.loader.values.lowFreeMark ≤ n.taps.free.length
                    ∧ m.taps.free.length < n.loader.values.lowFreeMark then
                  n.reports.post (.tableLow m.taps.free.length n.loader.values.lowFreeMark) else n.reports)
              ∧ m = { n with taps := m.taps, router := m.router, reports := m.reports })

/-- TAP_DROP (R68, R98): an unreadable key is BAD FIELD, and a key with no entry is NOT FOUND; an entry with no alternate, no
backs and no talk users is freed to the tail of the free list, and its slot is set to NONE; an entry that is still an
alternate or a talk source is kept without slot and alternate, in NORMAL.  The alternate of an entry loses one from its
backs (R101), and is freed as well when no slot, no backs and no talk users are left; the entry is checked before its
alternate (assumption 34). -/
def Obligations.TapDropFreesOrMisses : Prop :=
  ∀ (s : State) (e : QueueEntry), let n := s.finish.node
    HeadReady n e → e.message.kind = kindTapDrop → TableSound n.taps →
    (messageKey e.message 6 = none → Leaves .tapDrop s (n.complete e (some { outcome := .badField, detail := [] })))
      ∧ ∀ k, messageKey e.message 6 = some k →
      (n.taps.lookup k = none →
        Leaves .tapDrop s (n.complete e (some
          { outcome := .notFound, detail := [0#8] ++ countBytes n.taps.free.length ++ [0#8] })))
      ∧ (∀ i x slot, n.taps.lookup k = some i → n.taps.entries.get i = some x → x.slot = some slot →
          x.alternate = none → x.backs = 0 → x.talkUsers = 0 →
          ∃ m : Node, Leaves .tapDrop s (m.complete e (some
              { outcome := .done, detail := [1#8] ++ countBytes (n.taps.free.length + 1) ++ [0#8] }))
            ∧ m.taps = { n.taps with
                entries := n.taps.entries.set i none, free := n.taps.free ++ [i],
                chains := n.taps.chains.update k.bucket (·.filter (· != i)) }
            ∧ m.router = { n.router with bindings := n.router.bindings.set slot .unbound }
            ∧ m = { n with taps := m.taps, router := m.router })
      ∧ (∀ i x, n.taps.lookup k = some i → n.taps.entries.get i = some x → x.alternate = none →
          x.backs ≠ 0 ∨ x.talkUsers ≠ 0 →
          Leaves .tapDrop s ((({ n with
              taps := { n.taps with entries := n.taps.entries.set i (some { x with
                slot := none, alternate := none, autoReturn := false, onAlternate := false, returnHold := 0 }) },
              router := match x.slot with
                | some slot => { n.router with bindings := n.router.bindings.set slot .unbound }
                | none => n.router } : Node)).complete e
            (some { outcome := .done, detail := [0#8] ++ countBytes n.taps.free.length ++ [1#8] })))
      ∧ (∀ i x a j y, n.taps.lookup k = some i → n.taps.entries.get i = some x → x.alternate = some a → a ≠ k →
          n.taps.lookup a = some j → n.taps.entries.get j = some y →
          let gone : Bool := x.backs == 0 && x.talkUsers == 0
          let both : Bool := y.slot == none && decide (y.backs ≤ 1) && y.talkUsers == 0
          let freed := (if gone then [i] else []) ++ (if both then [j] else [])
          ∃ m : Node, Leaves .tapDrop s (m.complete e (some
              { outcome := .done,
                detail := [byteOf freed.length] ++ countBytes (n.taps.free.length + freed.length)
                  ++ [if gone then 0#8 else 1#8] }))
            ∧ m.taps.entries.get i = (if gone then none else some { x with
                slot := none, alternate := none, autoReturn := false, onAlternate := false, returnHold := 0 })
            ∧ m.taps.entries.get j = (if both then none else some { y with backs := y.backs - 1 })
            ∧ (∀ o, o ≠ i → o ≠ j → m.taps.entries.get o = n.taps.entries.get o)
            ∧ m.taps.free = n.taps.free ++ freed
            ∧ (∀ b, m.taps.chains.get b = (n.taps.chains.get b).filter fun o => !freed.contains o)
            ∧ m.taps = { n.taps with entries := m.taps.entries, free := m.taps.free, chains := m.taps.chains }
            ∧ m.router = (match x.slot with
                | some slot => { n.router with bindings := n.router.bindings.set slot .unbound }
                | none => n.router)
            ∧ m = { n with taps := m.taps, router := m.router })

/-- TAP_CLEAR (R99): the walk starts with a count of 0, and the request is being carried out until it ends.  A walk step
takes the next bucket: no entry of the bucket keeps a slot, and its slots become unbound; every other slot stays bound as
it was, and the entries freed join the walk count. -/
def Obligations.TapClearStartsTheWalk : Prop :=
  (∀ (s : State) (e : QueueEntry), let n := s.finish.node
    HeadReady n e → e.message.kind = kindTapClear →
    Leaves .tapClear s { n with taps := { n.taps with walk := some ⟨0, 0⟩ },
                                messages := { n.messages with carrying := .tapClear } })
    ∧ ∀ (n : Node) (b : Fin 64) (freed : Nat), n.taps.walk = some ⟨b.val, freed⟩ → TableSound n.taps → BindingsAgree n →
      let m := n.walkStep
      m.taps.walk = some ⟨b.val + 1, freed + (m.taps.free.length - n.taps.free.length)⟩
        ∧ n.taps.free.length ≤ m.taps.free.length
        ∧ (∀ e x, m.taps.entries.get e = some x → x.key.bucket = b → x.slot = none)
        ∧ (∀ i, m.router.bindings.get i = match n.router.bindings.get i with
            | .tap e => (match n.taps.entries.get e with
                | some x => if x.key.bucket = b then .unbound else .tap e
                | none => .tap e)
            | other => other)
        ∧ (∀ e x, n.taps.entries.get e = some x → x.slot = none → x.talkUsers ≠ 0 →
            ∃ backs, m.taps.entries.get e = some { x with backs := backs })
        ∧ m = { n with taps := m.taps, router := m.router }

/-- MIX_GAIN (R68, R138 to R141): a mix or slot out of range is BAD FIELD; LOCKED for another owner's mix, ALREADY for the
target in force, STORE FULL with no free crosspoint, else DONE: a new crosspoint from 0, or the present one retargeted from
its current value. -/
def Obligations.MixGainIsAnsweredByRule : Prop :=
  (∀ (s : State) (e : QueueEntry), let n := s.finish.node
    HeadReady n e → e.message.kind = kindMixGain → readMixGain e.message = none →
    Leaves .mixGain s (n.complete e (some { outcome := .badField, detail := [] })))
    ∧ ∀ (s : State) (e : QueueEntry) (r : MixGainRequest), let n := s.finish.node
    let x := n.mixer.mixes.get r.mix
    let free := n.mixer.freeCrosspoints
    let phase (start : Coef) : RampPhase := if r.ramp = 0 then .pending else .ramping start r.ramp 0
    let detail (count free : Nat) (now target : Coef) : List Byte :=
      [byteOf count] ++ countBytes free ++ bytes24 now ++ bytes24 target
    let with' (l : List Crosspoint) (free : Nat) : Node :=
      { n with mixer := { mixes := n.mixer.mixes.set r.mix { x with crosspoints := l }, freeCrosspoints := free } }
    HeadReady n e → e.message.kind = kindMixGain → readMixGain e.message = some r →
    (∀ o, x.owner = some o → o ≠ n.requester e →
        Leaves .mixGain s (n.complete e (some { outcome := .locked, detail := [o.byte] })))
      ∧ (x.owner = none ∨ x.owner = some (n.requester e) →
        (∀ c, findCrosspoint x.crosspoints r.slot = some c → c.gain.target = r.target →
            Leaves .mixGain s (n.complete e (some
              { outcome := .already, detail := detail x.crosspoints.length free c.gain.value r.target })))
        ∧ (∀ c, findCrosspoint x.crosspoints r.slot = some c → c.gain.target ≠ r.target →
            Leaves .mixGain s ((with' (x.crosspoints.map fun d => if d.slot = r.slot then
                { d with gain := { d.gain with target := r.target, phase := phase d.gain.value } } else d) free).complete
              e (some { outcome := .done, detail := detail x.crosspoints.length free c.gain.value r.target })))
        ∧ (findCrosspoint x.crosspoints r.slot = none → r.target = 0#24 →
            Leaves .mixGain s (n.complete e (some
              { outcome := .already, detail := detail x.crosspoints.length free 0#24 0#24 })))
        ∧ (findCrosspoint x.crosspoints r.slot = none → r.target ≠ 0#24 → free = 0 →
            Leaves .mixGain s (n.complete e (some
              { outcome := .storeFull, detail := detail x.crosspoints.length 0 0#24 0#24 })))
        ∧ (findCrosspoint x.crosspoints r.slot = none → r.target ≠ 0#24 → free ≠ 0 →
            Leaves .mixGain s ((with' (linkCrosspoint
                { slot := r.slot, gain := { value := 0#24, target := r.target, phase := phase 0#24 } } x.crosspoints)
                (free - 1)).complete e (some
              { outcome := .done, detail := detail (x.crosspoints.length + 1) (free - 1) 0#24 r.target }))))

/-- MIX_MASTER (R68, R138, R142): a mix out of range is BAD FIELD; LOCKED, ALREADY, or the master retargeted from its
current value. -/
def Obligations.MixMasterIsAnsweredByRule : Prop :=
  (∀ (s : State) (e : QueueEntry), let n := s.finish.node
    HeadReady n e → e.message.kind = kindMixMaster → readMixMaster e.message = none →
    Leaves .mixMaster s (n.complete e (some { outcome := .badField, detail := [] })))
    ∧ ∀ (s : State) (e : QueueEntry) (mix : Fin 24) (target : Coef) (ramp : Nat), let n := s.finish.node
    let x := n.mixer.mixes.get mix
    let detail := bytes24 x.master.value ++ bytes24 x.master.target ++ bytes24 target
    HeadReady n e → e.message.kind = kindMixMaster → readMixMaster e.message = some (mix, target, ramp) →
    (∀ o, x.owner = some o → o ≠ n.requester e →
        Leaves .mixMaster s (n.complete e (some { outcome := .locked, detail := [o.byte] })))
      ∧ (x.owner = none ∨ x.owner = some (n.requester e) → x.master.target = target →
        Leaves .mixMaster s (n.complete e (some { outcome := .already, detail := detail })))
      ∧ (x.owner = none ∨ x.owner = some (n.requester e) → x.master.target ≠ target →
        let master : Ramp := { x.master with
          target := target, phase := if ramp = 0 then .pending else .ramping x.master.value ramp 0 }
        Leaves .mixMaster s (({ n with
          mixer := { n.mixer with mixes := n.mixer.mixes.set mix { x with master := master } } } : Node).complete e
            (some { outcome := .done, detail := detail })))

/-- OUT_SET (R68, R134): an unreadable output or source is BAD FIELD; the output's source becomes the one named, and DONE
carries the previous one; an output absent at the sample rate is BAD FIELD and the map stands.  The number byte 0 of a
previous source of NONE is the model's (assumption 47). -/
def Obligations.OutSetChangesTheMap : Prop :=
  (∀ (s : State) (e : QueueEntry), let n := s.finish.node
    HeadReady n e → e.message.kind = kindOutSet → readOutSet e.message = none →
    Leaves .outSet s (n.complete e (some { outcome := .badField, detail := [] })))
    ∧ ∀ (s : State) (e : QueueEntry) (o : Fin 64) (x : OutSource), let n := s.finish.node
    HeadReady n e → e.message.kind = kindOutSet → readOutSet e.message = some (o, x) →
    (n.loader.values.rate.present o = true →
        Leaves .outSet s (({ n with router := { n.router with outMap := n.router.outMap.set o x } } : Node).complete e
          (some { outcome := .done, detail := (n.router.outMap.get o).codeBytes })))
      ∧ (n.loader.values.rate.present o = false →
        Leaves .outSet s (n.complete e (some { outcome := .badField, detail := [] })))

/-- TALK_OPEN (R68, R161 to R163, R167): an unreadable source key or a source of another station is BAD FIELD, and the
priority and the dim are clamped; an empty mask is DONE with nothing changed; a source with no room is TABLE FULL or CHAIN
FULL (R102); else every masked mix's list takes the talk by R162, with a deadline of 120, in the place of its desk's talk,
or at its place in the order, or for the last talk which it outranks (R160), or is busy; the talk users move in one change
(R103), each evicted desk is given one EVICTED notice with the mask of its mixes as R82 joins them (the order of the desks
is assumption 26) and the station's own comes back as a talk report, each changed list hands its setting (R145), and the
answer carries the opened and the busy mask. -/
def Obligations.TalkOpenChangesTheLists : Prop :=
  (∀ (s : State) (e : QueueEntry), let n := s.finish.node
    HeadReady n e → e.message.kind = kindTalkOpen → readTalkOpen e.message = none →
    Leaves .talkOpen s (n.complete e (some { outcome := .badField, detail := [] })))
    ∧ (∀ (u : FrameUnit) (r : TalkOpenRequest), readTalkOpen u = some r ↔
      (Station.ofByte (u.byte 6) = some r.source.station ∧ (u.byte 7).toNat = r.source.channel.val
        ∧ r.mask = u.field24 8 ∧ r.priority = max 1 (min 7 (u.byte 11).toNat)
        ∧ r.dim.toNat = min 1048576 (u.field24 12).toNat ∧ r.level = u.field24 15))
    ∧ (∀ (r : TalkOpenRequest) (desk : Station), ∃ dim : Coef, dim.toNat = min 1048575 r.dim.toNat
      ∧ r.talk desk = { desk := desk, source := r.source, priority := r.priority, dim := dim, level := r.level,
                        deadline := 120 })
    ∧ (∀ (t : Talk) (l : List Talk), l.Pairwise Outranks → (l.map fun u => u.desk).Nodup → l.length ≤ 4 →
      let placed (l' : List Talk) (others : List Talk) : Prop := l'.Perm (t :: others) ∧ l'.Pairwise Outranks
      (∀ old ∈ l, old.desk = t.desk →
          ∃ l', talkFate t l = .replace old.source l' ∧ placed l' (l.filter fun u => u.desk != t.desk))
        ∧ ((∀ u ∈ l, u.desk ≠ t.desk) → l.length < 4 → ∃ l', talkFate t l = .insert l' ∧ placed l' l)
        ∧ ∀ others last, l = others ++ [last] → l.length = 4 → (∀ u ∈ l, u.desk ≠ t.desk) →
          (Outranks t last → ∃ l', talkFate t l = .evict last l' ∧ placed l' others)
            ∧ (¬Outranks t last → talkFate t l = .busy))
    ∧ (∀ (t : Taps) (k : Key),
      (∀ i, t.lookup k = some i → t.sourceQuestion k = .present i)
        ∧ (t.lookup k = none → t.free.length = 0 → t.sourceQuestion k = .tableFull)
        ∧ (t.lookup k = none → t.free.length ≠ 0 → t.sourceQuestion k =
            if (t.chains.get k.bucket).length < 8 then .room else .chainFull))
    ∧ ∀ (s : State) (e : QueueEntry) (r : TalkOpenRequest), let n := s.finish.node
    let desk := n.requester e
    let fate (x : Fin 24) := talkFate (r.talk desk) (n.talks x)
    let opened := (maskMixes r.mask).filter fun x => (fate x).list.isSome
    let busy := (maskMixes r.mask).filter fun x => (fate x).list.isNone
    let evicted (d : Station) := (maskMixes r.mask).filter fun x => (fate x).evicted == some d
    let moves := (maskMixes r.mask).flatMap fun x => match fate x with
      | .replace old _ => [(r.source, 1), (old, (-1 : Int))]
      | .insert _ => [(r.source, 1)]
      | .evict last _ => [(r.source, 1), (last.source, -1)]
      | .busy => []
    HeadReady n e → e.message.kind = kindTalkOpen → readTalkOpen e.message = some r →
    (r.source.station ≠ desk →
        Leaves .talkOpen s (n.complete e (some { outcome := .badField, detail := bytes24 0#24 ++ bytes24 0#24 })))
      ∧ (r.source.station = desk → r.mask = 0#24 →
        Leaves .talkOpen s (n.complete e (some { outcome := .done, detail := bytes24 0#24 ++ bytes24 0#24 })))
      ∧ (r.source.station = desk → r.mask ≠ 0#24 → n.taps.sourceQuestion r.source = .tableFull →
        Leaves .talkOpen s (n.complete e (some { outcome := .tableFull, detail := bytes24 0#24 ++ bytes24 0#24 })))
      ∧ (r.source.station = desk → r.mask ≠ 0#24 → n.taps.sourceQuestion r.source = .chainFull →
        Leaves .talkOpen s (n.complete e (some { outcome := .chainFull, detail := bytes24 0#24 ++ bytes24 0#24 })))
      ∧ (r.source.station = desk → r.mask ≠ 0#24 → n.taps.sourceQuestion r.source ≠ .tableFull →
          n.taps.sourceQuestion r.source ≠ .chainFull →
        ∃ m u : Node, Leaves .talkOpen s (m.complete e (some
            { outcome := if opened = [] then .mixBusy else .done,
              detail := bytes24 (maskOf opened) ++ bytes24 (maskOf busy) }))
          ∧ (∀ x, m.mixer.mixes.get x =
              if x ∈ opened then
                withTalks (n.mixer.mixes.get x) ((fate x).list.getD (n.talks x)) n.loader.values.duckRamp
              else n.mixer.mixes.get x)
          ∧ m.mixer.freeCrosspoints = n.mixer.freeCrosspoints
          ∧ UsersMoved moves n u ∧ m.taps = u.taps
          ∧ Posted u.reports m.reports (ownNotice n true (evicted n.station))
          ∧ m.messages = (otherNotices n.station true evicted).foldl withNotice n.messages
          ∧ (n.messages.notices = [] → ∀ d, d ≠ n.station → evicted d ≠ [] →
              { desk := d, evicted := true, mask := maskOf (evicted d) } ∈ m.messages.notices)
          ∧ m.messages = { n.messages with notices := m.messages.notices, noticeDrop := m.messages.noticeDrop }
          ∧ m = { n with messages := m.messages, taps := m.taps, mixer := m.mixer, reports := m.reports })

/-- TALK_KEEP (R164): the sender's talks on the masked mixes start their deadlines again, and a mask of the mixes without
one is answered NOT FOUND; with no such mix there is no answer. -/
def Obligations.TalkKeepRenewsTheDeadlines : Prop :=
  ∀ (s : State) (e : QueueEntry), let n := s.finish.node
    let mask := e.message.field24 6
    let desk := n.requester e
    let missing := (maskMixes mask).filter fun x => !(n.talks x).any fun t => t.desk == desk
    HeadReady n e → e.message.kind = kindTalkKeep →
    ∃ m : Node, Leaves .talkKeep s (m.complete e
        (if missing = [] then none else some { outcome := .notFound, detail := bytes24 (maskOf missing) }))
      ∧ (∀ x, m.mixer.mixes.get x = { n.mixer.mixes.get x with
          talks := (n.talks x).map fun t =>
            if maskHas mask x = true ∧ t.desk = desk then { t with deadline := 120 } else t })
      ∧ m.mixer.freeCrosspoints = n.mixer.freeCrosspoints
      ∧ m = { n with mixer := m.mixer }

/-- TALK_CLOSE (R165): the sender's talks leave the masked mixes' lists, the talk users fall in one change (R103), each
changed list hands its setting (R167, R145), and there is no answer.  A talk-user change is taken whole: it makes the
entries that its rises need, moves every key's count, and frees an entry that has lost its last user and has no slot and
no backs; with too little room it changes nothing (R103). -/
def Obligations.TalkCloseRemovesTheTalks : Prop :=
  (∀ (s : State) (e : QueueEntry), let n := s.finish.node
    let mask := e.message.field24 6
    let desk := n.requester e
    let gone (x : Fin 24) : List Talk := (n.talks x).filter fun t => maskHas mask x && t.desk == desk
    let moves := (List.finRange 24).flatMap fun x => (gone x).map fun t => (t.source, (-1 : Int))
    HeadReady n e → e.message.kind = kindTalkClose →
    ∃ m u : Node, Leaves .talkClose s (m.complete e none)
      ∧ (∀ x, m.mixer.mixes.get x = if gone x = [] then n.mixer.mixes.get x
          else withTalks (n.mixer.mixes.get x) ((n.talks x).filter fun t => t.desk != desk) n.loader.values.duckRamp)
      ∧ m.mixer.freeCrosspoints = n.mixer.freeCrosspoints
      ∧ UsersMoved moves n u ∧ m.taps = u.taps ∧ m.reports = u.reports
      ∧ m = { n with taps := m.taps, mixer := m.mixer, reports := m.reports })
    ∧ ∀ (n : Node) (changes : List (Key × Int)), (changes.map Prod.fst).Nodup → TableSound n.taps →
      let rises := (changes.filter fun c => decide (0 < c.2)).map Prod.fst
      let new := rises.filter fun k => (n.taps.lookup k).isNone
      let fits := ∀ k ∈ new, (n.taps.chains.get k.bucket).length + (new.filter fun j => j.bucket == k.bucket).length ≤ 8
      (n.taps.free.length < new.length → n.talkUserChange changes = (.tableFull, n))
        ∧ (new.length ≤ n.taps.free.length → ¬fits → n.talkUserChange changes = (.chainFull, n))
        ∧ (new.length ≤ n.taps.free.length → fits →
          let m := (n.talkUserChange changes).2
          (n.talkUserChange changes).1 = .done
            ∧ (∀ k v, (k, v) ∈ changes → m.taps.entryOf k = match n.taps.entryOf k with
                | some x =>
                  let y : TapEntry := { x with talkUsers := ((x.talkUsers : Int) + v).toNat }
                  if v < 0 ∧ y.slot = none ∧ y.backs = 0 ∧ y.talkUsers = 0 then none else some y
                | none => if 0 < v then some { TapEntry.fresh k with talkUsers := v.toNat } else none)
            ∧ (∀ k, (∀ v, (k, v) ∉ changes) → m.taps.entryOf k = n.taps.entryOf k)
            ∧ m.reports = (if n.loader.values.lowFreeMark ≤ n.taps.free.length
                  ∧ m.taps.free.length < n.loader.values.lowFreeMark then
                n.reports.post (.tableLow m.taps.free.length n.loader.values.lowFreeMark) else n.reports)
            ∧ m = { n with taps := m.taps, reports := m.reports })

/-- STATUS_QUERY (R68, R81, R176, R177): from the ring, part 1 goes into the RESERVED slot, and a STATION query waits for its
other parts; from the port every part is posted at once, each as the station stands when it is posted; a subject out of
range is BAD FIELD.  The destination and slot byte 255 of the parts that stay in their own station are assumption 17.  The
bytes of the parts are those of Table 12-6, each counter modulo 256 with its saturated flag (R176, R177); the bytes of a key
without an entry are assumption 23, the byte of a last played index of none is assumption 44, and the channel byte of an
alternate key of none is assumption 48. -/
def Obligations.StatusQueryIsAnsweredInParts : Prop :=
  (∀ (s : State) (e : QueueEntry), let n := s.finish.node
    let u := e.message
    HeadReady n e → u.kind = kindStatusQuery →
    (readSubject u = none →
        Leaves .statusQuery s (n.complete e (some { outcome := .badField, detail := [] })))
      ∧ (∀ subject sender slot g, readSubject u = some subject → e.source = .ring sender slot →
          n.messages.granted = some g →
        let placed : Messages := { n.messages with
          slots := n.messages.slots.set g (.ready
            ((n.statusPart subject 1 sender.byte u.tag (byteOf g.val)).placed n.station (byteOf g.val))),
          readyOrder := n.messages.readyOrder ++ [g], granted := none }
        (subject = .station → Leaves .statusQuery s { n with messages := { placed with carrying := .station 2 } })
          ∧ (subject ≠ .station →
              Leaves .statusQuery s (({ n with messages := placed } : Node).complete e none)))
      ∧ (∀ subject, readSubject u = some subject → e.source = .port →
        let posted (m : Node) (part : Nat) : Node :=
          { m with reports := m.reports.post (.statusReport (m.statusPart subject part n.station.byte u.tag 255#8)) }
        (subject ≠ .station → Leaves .statusQuery s ((posted n 1).complete e none))
          ∧ (subject = .station → Leaves .statusQuery s ((posted (posted (posted n 1) 2) 3).complete e none))))
    ∧ ∀ (n : Node) (destination tag slot : Byte),
      let part (subject : Subject) (k : Nat) : FrameUnit := n.statusPart subject k destination tag slot
      let headed (u : FrameUnit) (subject k : Nat) : Prop :=
        [u.byte 0, u.byte 1, u.byte 2, u.byte 3, u.byte 4, u.byte 5, u.byte 6]
          = [49#8, n.station.byte, destination, tag, slot, 0#8, byteOf (16 * subject + k)]
      let wide (u : FrameUnit) (i value : Nat) : Prop := u.byte i = byteOf (value / 256) ∧ u.byte (i + 1) = byteOf value
      let number (o : Option Station) : Byte := match o with | some p => p.byte | none => 0#8
      let bit (b : Bool) (value : Nat) : Nat := if b then value else 0
      let counts (u : FrameUnit) (cs : List Counter) : Prop :=
        (∀ i c, cs[i]? = some c → u.byte (7 + i) = byteOf c.toNat
            ∧ (u.byte (7 + cs.length + i / 8)).getLsbD (7 - i % 8) = (c == 65535#16))
          ∧ ∀ i, cs.length ≤ i → i < 16 → (u.byte (7 + cs.length + i / 8)).getLsbD (7 - i % 8) = false
      (let u := part .station 1
        let link (l : LinkState) : Nat := match l with | .down => 1 | .proving => 2 | .up => 3
        let v := n.loader.values
        headed u 0 1
          ∧ u.byte 7 = (match n.cadence.node with
              | .starting => 1#8 | .following => 2#8 | .waiting => 3#8 | .claiming => 4#8 | .origin => 5#8 | .alone => 6#8)
          ∧ u.byte 8 = number n.cadence.followed ∧ u.byte 9 = n.cadence.roundLength
          ∧ u.byte 10 = (match n.link.fold with
              | .whole => 1#8 | .foldedEast => 2#8 | .foldedWest => 3#8 | .isolated => 4#8)
          ∧ u.byte 11 = byteOf (64 * link n.link.east.link + 16 * link n.link.west.link + bit n.messages.hold 2
              + bit (v.rate == .khz96) 1)
          ∧ u.byte 12 = byteOf (16 - n.messages.queue.length) ∧ u.byte 13 = byteOf n.taps.pEff
          ∧ u.byte 14 = byteOf v.delay ∧ u.byte 15 = byteOf v.window.frames ∧ u.byte 16 = byteOf v.fallback
          ∧ wide u 17 v.returnHold ∧ wide u 19 n.taps.free.length ∧ wide u 21 n.mixer.freeCrosspoints)
        ∧ (headed (part .station 2) 0 2 ∧ counts (part .station 2)
          [n.engine.badHead, n.engine.rebuilt, n.engine.segmentError, n.engine.orphan, n.engine.trimmed,
            n.engine.starvedForRoom, n.engine.hopDiscard, n.engine.misdirected, n.engine.unsentCapture, n.cadence.slip,
            n.cadence.staleFrame, n.cadence.higherOrigin, n.cadence.returnDiscard, n.cadence.yields])
        ∧ (headed (part .station 3) 0 3 ∧ counts (part .station 3)
          [n.link.east.badEvidence, n.link.west.badEvidence, n.link.east.linkDown, n.link.west.linkDown,
            n.link.foldChange, n.link.earlyUnfold, n.messages.queueRefusal, n.messages.badMessage, n.messages.lostSlot,
            n.messages.staleMark, n.messages.replyUndelivered, n.messages.noticeDrop, n.taps.conflictCount,
            n.port.framing, n.reports.lost])
        ∧ (∀ k : Key, let u := part (.tap k) 1
          headed u 1 1 ∧ u.byte 7 = k.station.byte ∧ u.byte 8 = byteOf k.channel.val
            ∧ (n.taps.lookup k = none → ∀ i, 9 ≤ i → u.byte i = 0#8)
            ∧ ∀ e x, n.taps.lookup k = some e → n.taps.entries.get e = some x →
              u.byte 9 = byteOf e.val ∧ u.byte 10 = (match x.slot with | some i => byteOf i.val | none => 255#8)
                ∧ [u.byte 11, u.byte 12] = (match x.alternate with
                    | some a => [a.station.byte, byteOf a.channel.val]
                    | none => [0#8, 0#8])
                ∧ u.byte 13 = byteOf (128 + bit x.autoReturn 64 + bit x.conflict 32 + bit x.onAlternate 16
                    + bit x.lastPlayed.isNone 8 + bit (x.absent == 65535#16) 4 + bit (x.late == 65535#16) 2
                    + bit (x.stale == 65535#16) 1)
                ∧ u.byte 14 = byteOf x.backs ∧ u.byte 15 = byteOf x.talkUsers ∧ u.byte 16 = byteOf x.conceal
                ∧ u.byte 17 = x.lastPlayed.getD 0#8 ∧ wide u 18 x.returnHold
                ∧ u.byte 20 = byteOf x.absent.toNat ∧ u.byte 21 = byteOf x.late.toNat
                ∧ u.byte 22 = byteOf x.stale.toNat)
        ∧ ∀ m : Fin 24, let u := part (.mix m) 1
          let x := n.mixer.mixes.get m
          headed u 2 1 ∧ u.byte 7 = byteOf m.val ∧ u.byte 8 = byteOf x.crosspoints.length
            ∧ u.byte 9 = byteOf (x.master.value.toNat / 65536) ∧ wide u 10 x.master.value.toNat
            ∧ u.byte 12 = number (x.talks.head?.map fun t => t.desk) ∧ u.byte 13 = byteOf x.clip.toNat
            ∧ u.byte 14 = byteOf (bit (x.clip == 65535#16) 128)

/-! ### Audio (Sections 6 to 8) -/

/-- An absent read raises k up to 255 and the absent counter, leaves the last good frame, and clears the last played index
when k comes to 64 (R115); it gives the last good frame scaled by k after the increment, as Table 6-1 states, and every
concealed sample's magnitude is no greater than that of the sample it is made from (R116).  That a primary's return hold
starts again is R120's. -/
def Obligations.AbsentReadIsConcealed : Prop :=
  ∀ (x : TapEntry) (w : Window) (expected : Byte),
    presentFrame (x.buffer.get (w.place expected)) expected x.lastPlayed = none →
    let r := x.read w expected
    r.2.present = false
      ∧ r.1 = { x with
          conceal := min 255 (x.conceal + 1), absent := x.absent.inc, returnHold := 0,
          lastPlayed := if x.conceal + 1 = 64 then none else x.lastPlayed }
      ∧ ∀ i, (r.2.samples.get i).toInt =
          (match r.1.conceal with
          | 1 => ((x.lastGood.get i).toInt * 3) / 4
          | 2 => (x.lastGood.get i).toInt / 2
          | 3 => (x.lastGood.get i).toInt / 4
          | _ => 0)
        ∧ (r.2.samples.get i).toInt.natAbs ≤ (x.lastGood.get i).toInt.natAbs

/-- A present read plays the place's frame as it stands after fewer than 4 absent reads and halved after 4 or more; the last
good frame becomes the frame as stored, k becomes 0 and the last played index the expected one, so a second read of the
index is absent and the next present read plays at full level.  A newly made entry, and one after a ring restart, holds
k = 4 (R114, R117, R124). -/
def Obligations.PresentReadRecovers : Prop :=
  (∀ (x : TapEntry) (w : Window) (expected : Byte) (f : AudioFrame),
    x.buffer.get (w.place expected) = some (expected, f) →
    (∀ l, x.lastPlayed = some l → 1 ≤ (expected - l).toNat ∧ (expected - l).toNat ≤ 127) →
    let r := x.read w expected
    r.2.present = true ∧ r.1.lastGood = f ∧ r.1.conceal = 0 ∧ r.1.lastPlayed = some expected
      ∧ (x.conceal < 4 → r.2.samples = f)
      ∧ (4 ≤ x.conceal → ∀ i, (r.2.samples.get i).toInt = (f.get i).toInt / 2)
      ∧ (r.1.read w expected).2.present = false
      ∧ ∀ (later : Byte) (g : AudioFrame), r.1.buffer.get (w.place later) = some (later, g) →
          (r.1.read w later).2.present = true → (r.1.read w later).2.samples = g)
    ∧ (∀ k : Key, (TapEntry.fresh k).conceal = 4) ∧ ∀ x : TapEntry, x.restart.conceal = 4

/-- A ramp's step lands between its start and its target and reaches the target at its last step; one of length 0 reaches
it at once (R140, R143).  At a boundary every mix steps its ramps, a crosspoint settled at 0 goes back to the store (R144),
each sample is the sum of its crosspoints' products rounded, through master and duck, and of the talk term (R146 to R149),
and a feed whose level has settled at 0 is released behind the computation (R146, R147).  The talk sample is that of the
boundary's reads, even where the boundary's own expiry of talks has freed the entry since (assumption 46). -/
def Obligations.RampStepsTowardItsTarget : Prop :=
  (∀ r : Ramp, (r.phase = .settled → r.step = r)
      ∧ (r.phase = .pending → r.step = { value := r.target, target := r.target, phase := .settled }))
    ∧ (∀ (r : Ramp) (start : Coef) (length k : Nat), r.phase = .ramping start length k →
      (length ≤ k + 1 → r.step = { value := r.target, target := r.target, phase := .settled })
        ∧ (k + 1 < length → r.step.phase = .ramping start length (k + 1) ∧ r.step.target = r.target
            ∧ min start.toNat r.target.toNat ≤ r.step.value.toNat
            ∧ r.step.value.toNat ≤ max start.toNat r.target.toNat
            ∧ (start.toNat ≤ r.target.toNat → r.step.value.toNat =
                start.toNat + (r.target.toNat - start.toNat) * (k + 1) / length)
            ∧ (r.target.toNat ≤ start.toNat → r.step.value.toNat =
                start.toNat - (start.toNat - r.target.toNat) * (k + 1) / length)))
    ∧ ∀ (n : Node) (i : Fin 24),
      let x := n.mixer.mixes.get i
      let kept := (x.crosspoints.map fun c => { c with gain := c.gain.step }).filter
        fun c => !(c.gain.phase == .settled && c.gain.target == 0#24)
      let level := x.talkLevel.step
      let talk : AudioFrame := match x.feed with | some k => n.taps.readSamples k | none => silentFrame
      let rounded (v : Int) : Int := (v + 524288) / 1048576
      let sum (j : Fin 8) : Int :=
        let program := rounded ((kept.map fun c =>
          ((n.router.frames.get c.slot).get j).toInt * (c.gain.value.toNat : Int)).sum)
        let dimmed := rounded (rounded (program * (x.master.step.value.toNat : Int)) * (x.duck.step.value.toNat : Int))
        dimmed + rounded ((talk.get j).toInt * (level.value.toNat : Int))
      let y := n.computeMixes.mixer.mixes.get i
      (∀ j, (y.output.get j).toInt = max (-8388608) (min 8388607 (sum j)))
        ∧ y.clip = (if ∃ j, 8388607 < sum j ∨ sum j < -8388608 then x.clip.inc else x.clip)
        ∧ y = { x with
            master := x.master.step, duck := x.duck.step, talkLevel := level, crosspoints := kept,
            feed := if level.target = 0#24 ∧ level.value = 0#24 then none else x.feed, clip := y.clip,
            output := y.output }
        ∧ n.computeMixes = { n with mixer := n.computeMixes.mixer }

/-- A mix's output sample is its sum clamped into the sample range, and the clip count rises once for a frame with a clamped
sample (R150). -/
def Obligations.MixSamplesAreClamped : Prop :=
  ∀ (x : Mix) (slots : Table 128 AudioFrame) (talk : AudioFrame),
    let y := x.compute slots talk
    (∀ i, (y.output.get i).toInt = max (-8388608) (min 8388607 ((x.sums slots talk).get i)))
      ∧ ((∃ i, 8388607 < (x.sums slots talk).get i ∨ (x.sums slots talk).get i < -8388608) → y.clip = x.clip.inc)
      ∧ ((∀ i, -8388608 ≤ (x.sums slots talk).get i ∧ (x.sums slots talk).get i ≤ 8388607) → y.clip = x.clip)
      ∧ y = { x with output := y.output, clip := y.clip }

/-! ### What every command keeps -/

/-- The relations below hold at State.reset.  The delay bounds there rest on the values in force before a load
(assumption 5), and the node state before a load is assumption 13. -/
def Obligations.ResetMeetsTheInvariants : Prop :=
  let n := State.reset.node
  FoldAgrees n.link ∧ (∀ side, EvidenceSound (n.side side)) ∧ ReturnsSound n.cadence ∧ FollowsItself n
    ∧ ReportsSound n.reports ∧ MessagesSound n.messages ∧ DelaySound n ∧ TableSound n.taps ∧ BindingsAgree n
    ∧ EmptyBeforeLoad n ∧ EntriesUsed n.taps ∧ BacksAgree n.taps ∧ TalkUsersAgree n ∧ CrosspointsSound n.mixer
    ∧ TalksSound n.mixer

/-- Every step keeps the relation of the fold state to the link states (R51) and the ranges of the evidence counts. -/
def Obligations.FoldAgreesWithTheLinks : Prop :=
  ∀ s t : State, step s = .next t → FoldAgrees s.node.link → (∀ side, EvidenceSound (s.node.side side)) →
    FoldAgrees t.node.link ∧ ∀ side, EvidenceSound (t.node.side side)

/-- Every step keeps the return queue within 4 frames, and a station in CLAIMING or ORIGIN following itself (R25, R36). -/
def Obligations.OriginFollowsItself : Prop :=
  ∀ s t : State, step s = .next t → ReturnsSound s.node.cadence → FollowsItself s.node →
    ReturnsSound t.node.cadence ∧ FollowsItself t.node

/-- Every step keeps the Report Queue within 32 reports and the interrupt line asserted exactly while one waits (R174), and
the receive queue and the notice list within 16, with HOLD as the free places judge it (R75, R78, R82). -/
def Obligations.QueuesKeepTheirBounds : Prop :=
  ∀ s t : State, step s = .next t →
    (ReportsSound s.node.reports → ReportsSound t.node.reports)
      ∧ (MessagesSound s.node.messages → MessagesSound t.node.messages)

/-- Every step keeps P ≤ P_eff ≤ W − 1 (R110). -/
def Obligations.DelayStaysInTheWindow : Prop :=
  ∀ s t : State, step s = .next t → DelaySound s.node → DelaySound t.node

/-- Every step keeps the law of the tap table (R88) and the law between slots and entries (R126); with these, every entry in
use has a slot, a backs count or a talk-users count (R90), the backs count is the number of entries that name the key as
their alternate (R101), and the talk-users count is the number of talks from the key (R103). -/
def Obligations.TapTableKeepsItsLaw : Prop :=
  ∀ s t : State, step s = .next t → TableSound s.node.taps → BindingsAgree s.node → EmptyBeforeLoad s.node →
    (TableSound t.node.taps ∧ BindingsAgree t.node ∧ EmptyBeforeLoad t.node)
      ∧ (EntriesUsed s.node.taps → BacksAgree s.node.taps → TalkUsersAgree s.node →
          EntriesUsed t.node.taps ∧ BacksAgree t.node.taps ∧ TalkUsersAgree t.node)

/-- Every step keeps the 1,024 crosspoints accounted for, each list in slot order (R137), and the talk lists' law: at most 4
talks, one of a desk, in order of precedence, with the duck target at unity exactly for an empty list (R160), and every duck
coefficient within 0..1,048,576 (R150). -/
def Obligations.MixStoresKeepTheirLaw : Prop :=
  ∀ s t : State, step s = .next t →
    (CrosspointsSound s.node.mixer → CrosspointsSound t.node.mixer)
      ∧ (TalksSound s.node.mixer → TalksSound t.node.mixer)
end

