-- ==== Sys2Proof/Laws/State.lean ====
section
/-! SUPPORT. What the named updates of the part change and leave: one lemma for each block and update, each true by
unfolding. -/

namespace Sys2Proof.Machine

open Sys2Proof

variable (n : Node)

/-! ### Node.post -/

@[simp] theorem Node.post_loader (b : ReportBody) : (n.post b).loader = n.loader := rfl
@[simp] theorem Node.post_link (b : ReportBody) : (n.post b).link = n.link := rfl
@[simp] theorem Node.post_cadence (b : ReportBody) : (n.post b).cadence = n.cadence := rfl
@[simp] theorem Node.post_engine (b : ReportBody) : (n.post b).engine = n.engine := rfl
@[simp] theorem Node.post_messages (b : ReportBody) : (n.post b).messages = n.messages := rfl
@[simp] theorem Node.post_taps (b : ReportBody) : (n.post b).taps = n.taps := rfl
@[simp] theorem Node.post_router (b : ReportBody) : (n.post b).router = n.router := rfl
@[simp] theorem Node.post_mixer (b : ReportBody) : (n.post b).mixer = n.mixer := rfl
@[simp] theorem Node.post_talk (b : ReportBody) : (n.post b).talk = n.talk := rfl
@[simp] theorem Node.post_reports (b : ReportBody) : (n.post b).reports = n.reports.post b := rfl
@[simp] theorem Node.post_port (b : ReportBody) : (n.post b).port = n.port := rfl

/-! ### Node.updateCadence -/

@[simp] theorem Node.updateCadence_loader (f : Cadence → Cadence) : (n.updateCadence f).loader = n.loader := rfl
@[simp] theorem Node.updateCadence_link (f : Cadence → Cadence) : (n.updateCadence f).link = n.link := rfl
@[simp] theorem Node.updateCadence_cadence (f : Cadence → Cadence) : (n.updateCadence f).cadence = f n.cadence := rfl
@[simp] theorem Node.updateCadence_engine (f : Cadence → Cadence) : (n.updateCadence f).engine = n.engine := rfl
@[simp] theorem Node.updateCadence_messages (f : Cadence → Cadence) : (n.updateCadence f).messages = n.messages := rfl
@[simp] theorem Node.updateCadence_taps (f : Cadence → Cadence) : (n.updateCadence f).taps = n.taps := rfl
@[simp] theorem Node.updateCadence_router (f : Cadence → Cadence) : (n.updateCadence f).router = n.router := rfl
@[simp] theorem Node.updateCadence_mixer (f : Cadence → Cadence) : (n.updateCadence f).mixer = n.mixer := rfl
@[simp] theorem Node.updateCadence_talk (f : Cadence → Cadence) : (n.updateCadence f).talk = n.talk := rfl
@[simp] theorem Node.updateCadence_reports (f : Cadence → Cadence) : (n.updateCadence f).reports = n.reports := rfl
@[simp] theorem Node.updateCadence_port (f : Cadence → Cadence) : (n.updateCadence f).port = n.port := rfl

/-! ### Node.updateEngine -/

@[simp] theorem Node.updateEngine_loader (f : FrameEngine → FrameEngine) : (n.updateEngine f).loader = n.loader := rfl
@[simp] theorem Node.updateEngine_link (f : FrameEngine → FrameEngine) : (n.updateEngine f).link = n.link := rfl
@[simp] theorem Node.updateEngine_cadence (f : FrameEngine → FrameEngine) : (n.updateEngine f).cadence = n.cadence := rfl
@[simp] theorem Node.updateEngine_engine (f : FrameEngine → FrameEngine) : (n.updateEngine f).engine = f n.engine := rfl
@[simp] theorem Node.updateEngine_messages (f : FrameEngine → FrameEngine) : (n.updateEngine f).messages = n.messages := rfl
@[simp] theorem Node.updateEngine_taps (f : FrameEngine → FrameEngine) : (n.updateEngine f).taps = n.taps := rfl
@[simp] theorem Node.updateEngine_router (f : FrameEngine → FrameEngine) : (n.updateEngine f).router = n.router := rfl
@[simp] theorem Node.updateEngine_mixer (f : FrameEngine → FrameEngine) : (n.updateEngine f).mixer = n.mixer := rfl
@[simp] theorem Node.updateEngine_talk (f : FrameEngine → FrameEngine) : (n.updateEngine f).talk = n.talk := rfl
@[simp] theorem Node.updateEngine_reports (f : FrameEngine → FrameEngine) : (n.updateEngine f).reports = n.reports := rfl
@[simp] theorem Node.updateEngine_port (f : FrameEngine → FrameEngine) : (n.updateEngine f).port = n.port := rfl

/-! ### Node.updateMessages -/

@[simp] theorem Node.updateMessages_loader (f : Messages → Messages) : (n.updateMessages f).loader = n.loader := rfl
@[simp] theorem Node.updateMessages_link (f : Messages → Messages) : (n.updateMessages f).link = n.link := rfl
@[simp] theorem Node.updateMessages_cadence (f : Messages → Messages) : (n.updateMessages f).cadence = n.cadence := rfl
@[simp] theorem Node.updateMessages_engine (f : Messages → Messages) : (n.updateMessages f).engine = n.engine := rfl
@[simp] theorem Node.updateMessages_messages (f : Messages → Messages) : (n.updateMessages f).messages = f n.messages := rfl
@[simp] theorem Node.updateMessages_taps (f : Messages → Messages) : (n.updateMessages f).taps = n.taps := rfl
@[simp] theorem Node.updateMessages_router (f : Messages → Messages) : (n.updateMessages f).router = n.router := rfl
@[simp] theorem Node.updateMessages_mixer (f : Messages → Messages) : (n.updateMessages f).mixer = n.mixer := rfl
@[simp] theorem Node.updateMessages_talk (f : Messages → Messages) : (n.updateMessages f).talk = n.talk := rfl
@[simp] theorem Node.updateMessages_reports (f : Messages → Messages) : (n.updateMessages f).reports = n.reports := rfl
@[simp] theorem Node.updateMessages_port (f : Messages → Messages) : (n.updateMessages f).port = n.port := rfl

/-! ### Node.updateTaps -/

@[simp] theorem Node.updateTaps_loader (f : Taps → Taps) : (n.updateTaps f).loader = n.loader := rfl
@[simp] theorem Node.updateTaps_link (f : Taps → Taps) : (n.updateTaps f).link = n.link := rfl
@[simp] theorem Node.updateTaps_cadence (f : Taps → Taps) : (n.updateTaps f).cadence = n.cadence := rfl
@[simp] theorem Node.updateTaps_engine (f : Taps → Taps) : (n.updateTaps f).engine = n.engine := rfl
@[simp] theorem Node.updateTaps_messages (f : Taps → Taps) : (n.updateTaps f).messages = n.messages := rfl
@[simp] theorem Node.updateTaps_taps (f : Taps → Taps) : (n.updateTaps f).taps = f n.taps := rfl
@[simp] theorem Node.updateTaps_router (f : Taps → Taps) : (n.updateTaps f).router = n.router := rfl
@[simp] theorem Node.updateTaps_mixer (f : Taps → Taps) : (n.updateTaps f).mixer = n.mixer := rfl
@[simp] theorem Node.updateTaps_talk (f : Taps → Taps) : (n.updateTaps f).talk = n.talk := rfl
@[simp] theorem Node.updateTaps_reports (f : Taps → Taps) : (n.updateTaps f).reports = n.reports := rfl
@[simp] theorem Node.updateTaps_port (f : Taps → Taps) : (n.updateTaps f).port = n.port := rfl

/-! ### Node.updateRouter -/

@[simp] theorem Node.updateRouter_loader (f : Router → Router) : (n.updateRouter f).loader = n.loader := rfl
@[simp] theorem Node.updateRouter_link (f : Router → Router) : (n.updateRouter f).link = n.link := rfl
@[simp] theorem Node.updateRouter_cadence (f : Router → Router) : (n.updateRouter f).cadence = n.cadence := rfl
@[simp] theorem Node.updateRouter_engine (f : Router → Router) : (n.updateRouter f).engine = n.engine := rfl
@[simp] theorem Node.updateRouter_messages (f : Router → Router) : (n.updateRouter f).messages = n.messages := rfl
@[simp] theorem Node.updateRouter_taps (f : Router → Router) : (n.updateRouter f).taps = n.taps := rfl
@[simp] theorem Node.updateRouter_router (f : Router → Router) : (n.updateRouter f).router = f n.router := rfl
@[simp] theorem Node.updateRouter_mixer (f : Router → Router) : (n.updateRouter f).mixer = n.mixer := rfl
@[simp] theorem Node.updateRouter_talk (f : Router → Router) : (n.updateRouter f).talk = n.talk := rfl
@[simp] theorem Node.updateRouter_reports (f : Router → Router) : (n.updateRouter f).reports = n.reports := rfl
@[simp] theorem Node.updateRouter_port (f : Router → Router) : (n.updateRouter f).port = n.port := rfl

/-! ### Node.updateMix -/

@[simp] theorem Node.updateMix_loader (m : Fin 24) (f : Mix → Mix) : (n.updateMix m f).loader = n.loader := rfl
@[simp] theorem Node.updateMix_link (m : Fin 24) (f : Mix → Mix) : (n.updateMix m f).link = n.link := rfl
@[simp] theorem Node.updateMix_cadence (m : Fin 24) (f : Mix → Mix) : (n.updateMix m f).cadence = n.cadence := rfl
@[simp] theorem Node.updateMix_engine (m : Fin 24) (f : Mix → Mix) : (n.updateMix m f).engine = n.engine := rfl
@[simp] theorem Node.updateMix_messages (m : Fin 24) (f : Mix → Mix) : (n.updateMix m f).messages = n.messages := rfl
@[simp] theorem Node.updateMix_taps (m : Fin 24) (f : Mix → Mix) : (n.updateMix m f).taps = n.taps := rfl
@[simp] theorem Node.updateMix_router (m : Fin 24) (f : Mix → Mix) : (n.updateMix m f).router = n.router := rfl
@[simp] theorem Node.updateMix_mixer (m : Fin 24) (f : Mix → Mix) : (n.updateMix m f).mixer = { n.mixer with mixes := n.mixer.mixes.update m f } := rfl
@[simp] theorem Node.updateMix_talk (m : Fin 24) (f : Mix → Mix) : (n.updateMix m f).talk = n.talk := rfl
@[simp] theorem Node.updateMix_reports (m : Fin 24) (f : Mix → Mix) : (n.updateMix m f).reports = n.reports := rfl
@[simp] theorem Node.updateMix_port (m : Fin 24) (f : Mix → Mix) : (n.updateMix m f).port = n.port := rfl

/-! ### Node.updateKey -/

@[simp] theorem Node.updateKey_loader (k : Fin 4) (f : KeyState → KeyState) : (n.updateKey k f).loader = n.loader := rfl
@[simp] theorem Node.updateKey_link (k : Fin 4) (f : KeyState → KeyState) : (n.updateKey k f).link = n.link := rfl
@[simp] theorem Node.updateKey_cadence (k : Fin 4) (f : KeyState → KeyState) : (n.updateKey k f).cadence = n.cadence := rfl
@[simp] theorem Node.updateKey_engine (k : Fin 4) (f : KeyState → KeyState) : (n.updateKey k f).engine = n.engine := rfl
@[simp] theorem Node.updateKey_messages (k : Fin 4) (f : KeyState → KeyState) : (n.updateKey k f).messages = n.messages := rfl
@[simp] theorem Node.updateKey_taps (k : Fin 4) (f : KeyState → KeyState) : (n.updateKey k f).taps = n.taps := rfl
@[simp] theorem Node.updateKey_router (k : Fin 4) (f : KeyState → KeyState) : (n.updateKey k f).router = n.router := rfl
@[simp] theorem Node.updateKey_mixer (k : Fin 4) (f : KeyState → KeyState) : (n.updateKey k f).mixer = n.mixer := rfl
@[simp] theorem Node.updateKey_talk (k : Fin 4) (f : KeyState → KeyState) : (n.updateKey k f).talk = { n.talk with keys := n.talk.keys.update k f } := rfl
@[simp] theorem Node.updateKey_reports (k : Fin 4) (f : KeyState → KeyState) : (n.updateKey k f).reports = n.reports := rfl
@[simp] theorem Node.updateKey_port (k : Fin 4) (f : KeyState → KeyState) : (n.updateKey k f).port = n.port := rfl

/-! ### Node.updatePort -/

@[simp] theorem Node.updatePort_loader (f : Port → Port) : (n.updatePort f).loader = n.loader := rfl
@[simp] theorem Node.updatePort_link (f : Port → Port) : (n.updatePort f).link = n.link := rfl
@[simp] theorem Node.updatePort_cadence (f : Port → Port) : (n.updatePort f).cadence = n.cadence := rfl
@[simp] theorem Node.updatePort_engine (f : Port → Port) : (n.updatePort f).engine = n.engine := rfl
@[simp] theorem Node.updatePort_messages (f : Port → Port) : (n.updatePort f).messages = n.messages := rfl
@[simp] theorem Node.updatePort_taps (f : Port → Port) : (n.updatePort f).taps = n.taps := rfl
@[simp] theorem Node.updatePort_router (f : Port → Port) : (n.updatePort f).router = n.router := rfl
@[simp] theorem Node.updatePort_mixer (f : Port → Port) : (n.updatePort f).mixer = n.mixer := rfl
@[simp] theorem Node.updatePort_talk (f : Port → Port) : (n.updatePort f).talk = n.talk := rfl
@[simp] theorem Node.updatePort_reports (f : Port → Port) : (n.updatePort f).reports = n.reports := rfl
@[simp] theorem Node.updatePort_port (f : Port → Port) : (n.updatePort f).port = f n.port := rfl

/-! ### Port.ended and the bits of a transfer (R170) -/

variable (p : Port) (bits : Nat) in
@[simp] theorem Port.ended_transfer : (p.ended bits).transfer = .idle := rfl

variable (p : Port) (bits : Nat) in
@[simp] theorem Port.ended_held : (p.ended bits).held = p.held := rfl

variable (p : Port) (bits : Nat) in
@[simp] theorem Port.ended_framing : (p.ended bits).framing = p.framing := rfl

variable (p : Port) (bits : Nat) in
@[simp] theorem Port.ended_reply : (p.ended bits).reply = p.reply := rfl

@[simp] theorem Node.endTransfer_port (bits : Nat) : (n.endTransfer bits).port = n.port.ended bits := rfl

@[simp] theorem length_bitsOf (bs : List Byte) : (bitsOf bs).length = 8 * bs.length := by
  induction bs with
  | nil => rfl
  | cons b bs ih =>
    rw [bitsOf] at ih ⊢
    rw [List.flatMap_cons, List.length_append, ih]
    simp
    omega

/-- As many bits are shifted out as are clocked. -/
@[simp] theorem length_bitsShifted (bs : List Byte) (count : Nat) : (bitsShifted bs count).length = count := by
  simp [bitsShifted]

/-- Behind no bytes every bit is 0. -/
@[simp] theorem bitsShifted_nil (count : Nat) : bitsShifted [] count = List.replicate count false := by
  simp [bitsShifted, bitsOf]

/-- Whole bytes are shifted out as they are. -/
theorem bitsShifted_whole (bs : List Byte) : bitsShifted bs (8 * bs.length) = bitsOf bs := by
  rw [bitsShifted, List.take_append_of_le_length (by simp), List.take_of_length_le (by simp)]

/-! ### Node.updateSide -/

@[simp] theorem Node.updateSide_loader (side : Side) (f : SideState → SideState) : (n.updateSide side f).loader = n.loader := rfl
@[simp] theorem Node.updateSide_link (side : Side) (f : SideState → SideState) : (n.updateSide side f).link = n.link.setSide side (f (n.link.side side)) := rfl
@[simp] theorem Node.updateSide_cadence (side : Side) (f : SideState → SideState) : (n.updateSide side f).cadence = n.cadence := rfl
@[simp] theorem Node.updateSide_engine (side : Side) (f : SideState → SideState) : (n.updateSide side f).engine = n.engine := rfl
@[simp] theorem Node.updateSide_messages (side : Side) (f : SideState → SideState) : (n.updateSide side f).messages = n.messages := rfl
@[simp] theorem Node.updateSide_taps (side : Side) (f : SideState → SideState) : (n.updateSide side f).taps = n.taps := rfl
@[simp] theorem Node.updateSide_router (side : Side) (f : SideState → SideState) : (n.updateSide side f).router = n.router := rfl
@[simp] theorem Node.updateSide_mixer (side : Side) (f : SideState → SideState) : (n.updateSide side f).mixer = n.mixer := rfl
@[simp] theorem Node.updateSide_talk (side : Side) (f : SideState → SideState) : (n.updateSide side f).talk = n.talk := rfl
@[simp] theorem Node.updateSide_reports (side : Side) (f : SideState → SideState) : (n.updateSide side f).reports = n.reports := rfl
@[simp] theorem Node.updateSide_port (side : Side) (f : SideState → SideState) : (n.updateSide side f).port = n.port := rfl

/-! ### Values in force -/

@[simp] theorem Node.post_station (b : ReportBody) : (n.post b).station = n.station := rfl
@[simp] theorem Node.updateCadence_station (f : Cadence → Cadence) : (n.updateCadence f).station = n.station := rfl
@[simp] theorem Node.updateEngine_station (f : FrameEngine → FrameEngine) : (n.updateEngine f).station = n.station := rfl
@[simp] theorem Node.updateMessages_station (f : Messages → Messages) :
    (n.updateMessages f).station = n.station := rfl
@[simp] theorem Node.updateTaps_station (f : Taps → Taps) : (n.updateTaps f).station = n.station := rfl
@[simp] theorem Node.updateRouter_station (f : Router → Router) : (n.updateRouter f).station = n.station := rfl

/-! ### Sides -/

@[simp] theorem LinkFold.side_setSide_same (l : LinkFold) (side : Side) (x : SideState) :
    (l.setSide side x).side side = x := by cases side <;> rfl

@[simp] theorem LinkFold.side_setSide_other (l : LinkFold) (s t : Side) (x : SideState) (h : s ≠ t) :
    (l.setSide s x).side t = l.side t := by cases s <;> cases t <;> first | rfl | exact absurd rfl h

@[simp] theorem LinkFold.setSide_fold (l : LinkFold) (side : Side) (x : SideState) :
    (l.setSide side x).fold = l.fold := by cases side <;> rfl

@[simp] theorem LinkFold.setSide_quiet (l : LinkFold) (side : Side) (x : SideState) :
    (l.setSide side x).quiet = l.quiet := by cases side <;> rfl

@[simp] theorem LinkFold.setSide_foldChange (l : LinkFold) (side : Side) (x : SideState) :
    (l.setSide side x).foldChange = l.foldChange := by cases side <;> rfl

@[simp] theorem LinkFold.setSide_earlyUnfold (l : LinkFold) (side : Side) (x : SideState) :
    (l.setSide side x).earlyUnfold = l.earlyUnfold := by cases side <;> rfl

@[simp] theorem Node.side_updateSide_same (side : Side) (f : SideState → SideState) :
    (n.updateSide side f).side side = f (n.side side) := by cases side <;> rfl

@[simp] theorem Node.side_updateSide_other (s t : Side) (f : SideState → SideState) (h : s ≠ t) :
    (n.updateSide s f).side t = n.side t := by cases s <;> cases t <;> first | rfl | exact absurd rfl h

/-! ### The state around the part -/

@[simp] theorem State.finish_agenda (s : State) : s.finish.agenda = [] := rfl
@[simp] theorem State.finish_pending (s : State) : s.finish.pending = s.pending := rfl
@[simp] theorem State.act_agenda (s : State) (f : Node → Node) : (s.act f).agenda = [] := rfl
@[simp] theorem State.act_pending (s : State) (f : Node → Node) : (s.act f).pending = s.pending := rfl
@[simp] theorem State.act_node (s : State) (f : Node → Node) : (s.act f).node = f s.finish.node := rfl
@[simp] theorem State.work_agenda (s : State) (f : Node → Node) : (s.work f).agenda = [] := rfl
@[simp] theorem State.work_pending (s : State) (f : Node → Node) : (s.work f).pending = s.pending := rfl
@[simp] theorem State.work_node (s : State) (f : Node → Node) :
    (s.work f).node = if s.finish.node.running then f s.finish.node else s.finish.node := rfl

end Sys2Proof.Machine
end

