-- ==== Sys2Proof/Laws/Agenda.lean ====
section
/-! SUPPORT. The running of an agenda, and the one induction from which a property of the part is carried over every
command: it is kept by each named operation. -/

namespace Sys2Proof.Machine

open Sys2Proof

/-! ### Running -/

/-- Running an agenda leaves the waiting commands alone. -/
@[simp] theorem State.runOn_pending (ts : List Task) (s : State) : (State.runOn ts s).pending = s.pending := by
  induction ts generalizing s with
  | nil => rfl
  | cons t ts ih =>
    unfold State.runOn
    split
    · rfl
    · exact ih _

/-- A property that every task keeps is kept by a fold of tasks. -/
theorem foldl_keeps {P : Node → Prop} (h : ∀ n t, P n → P (n.perform t)) (ts : List Task) (n : Node) (hn : P n) :
    P (ts.foldl Node.perform n) := by
  induction ts generalizing n with
  | nil => exact hn
  | cons t ts ih => exact ih _ (h n t hn)

/-- A property that every task keeps is kept by running an agenda. -/
theorem State.runOn_keeps {P : Node → Prop} (h : ∀ n t, P n → P (n.perform t)) (ts : List Task) (s : State)
    (hn : P s.node) : P (State.runOn ts s).node := by
  induction ts generalizing s with
  | nil => exact hn
  | cons t ts ih =>
    unfold State.runOn
    split
    · exact hn
    · exact ih _ (h _ t hn)

/-- A property that every task keeps is kept by bringing the event in progress to its end. -/
theorem State.finish_keeps {P : Node → Prop} (h : ∀ n t, P n → P (n.perform t)) (s : State) (hn : P s.node) :
    P s.finish.node := foldl_keeps h s.agenda s.node hn

/-- A task's performing keeps what its doing keeps. -/
theorem Node.perform_keeps {P : Node → Prop} (h : ∀ n t, n.due t = true → P n → P (n.doTask t)) (n : Node) (t : Task)
    (hn : P n) : P (n.perform t) := by
  unfold Node.perform
  split
  · exact h n t ‹_› hn
  · exact hn

/-- An agenda is empty after it has been run, unless a row of the table waits at its front. -/
theorem State.runOn_agenda (ts : List Task) (s : State) :
    (State.runOn ts s).agenda = [] ∨
      ∃ t us, (State.runOn ts s).agenda = t :: us ∧ t.isRow = true ∧ (State.runOn ts s).node.due t = true := by
  induction ts generalizing s with
  | nil => exact .inl rfl
  | cons t ts ih =>
    unfold State.runOn
    split
    · rename_i h
      simp only [Bool.and_eq_true] at h
      exact .inr ⟨t, ts, rfl, h.1, h.2⟩
    · exact ih _

/-! ### Every command -/

/-- What has to be shown of a property of the part, operation by operation, for every command to keep it. -/
structure Kept (P : Node → Prop) : Prop where
  powerOn : ∀ l e w, P (Node.powerOn l e w)
  finishLoad : ∀ n f x, n.loader.state = .reading → P n → P (n.finishLoad f x)
  openBoundary : ∀ n l p, n.running = true → P n → P (n.openBoundary l p)
  task : ∀ n t, n.due t = true → P n → P (n.doTask t)
  beginTransfer : ∀ n, n.running = true → P n → P n.beginTransfer
  completeOperation : ∀ n b, n.running = true → P n → P (n.completeOperation b)
  wholeSend : ∀ n u, n.running = true → P n → P (n.wholeTransfer opSend fun m => m.judgeSend u)
  wholeTake : ∀ n, n.running = true → P n → P (n.wholeTransfer opTakeReport Node.removeReport)
  wholeRestart : ∀ n, n.running = true → P n → P (n.wholeTransfer opRestartRing Node.restartRing)
  ignoreTransfer : ∀ n b, n.running = true → P n → P (n.ignoreTransfer b)
  lockGained : ∀ n x, P n → P (n.lockGained x)
  lockLost : ∀ n x, P n → P (n.lockLost x)
  takeBeacon : ∀ n x b, n.running = true → P n → P (n.takeBeacon x b)
  takeEvidence : ∀ n x g, n.running = true → P n → P (n.takeEvidence x g)
  sendBeacon : ∀ n x, n.running = true → P n → P (n.sendBeacon x)
  grantReply : ∀ n, n.running = true → P n → P n.grantReply
  unknownKind : ∀ n, n.running = true → P n → P (n.carryOut isUnknownKind fun e m => m.complete e (some badField))
  tapSet : ∀ n, n.running = true → P n → P (n.carryRequest kindTapSet readTapSet fun r _ m => (some (m.tapSet r).1, (m.tapSet r).2))
  tapDrop : ∀ n, n.running = true → P n → P (n.carryRequest kindTapDrop (messageKey · 6) fun k _ m =>
    (some (m.tapDrop k).1, (m.tapDrop k).2))
  tapClear : ∀ n, n.running = true → P n → P (n.carryOut (· == kindTapClear) fun _ m => m.startWalk)
  mixGain : ∀ n, n.running = true → P n → P (n.carryRequest kindMixGain readMixGain fun r desk m => m.fromMixer (m.mixer.mixGain r desk))
  mixMaster : ∀ n, n.running = true → P n → P (n.carryRequest kindMixMaster readMixMaster fun r desk m =>
    m.fromMixer (m.mixer.mixMaster r.1 r.2.1 r.2.2 desk))
  outSet : ∀ n, n.running = true → P n → P (n.carryRequest kindOutSet readOutSet fun r _ m =>
    (some (m.outSet r.1 r.2).1, (m.outSet r.1 r.2).2))
  talkOpen : ∀ n, n.running = true → P n → P (n.carryRequest kindTalkOpen readTalkOpen fun r desk m =>
    (some (m.talkOpen r desk).1, (m.talkOpen r desk).2))
  talkKeep : ∀ n, n.running = true → P n → P (n.carryRequest kindTalkKeep readMask fun mask desk m => m.talkKeep mask desk)
  talkClose : ∀ n, n.running = true → P n → P (n.carryRequest kindTalkClose readMask fun mask desk m => (none, m.talkClose mask desk))
  statusQuery : ∀ n, n.running = true → P n → P n.statusQuery

variable {P : Node → Prop}

theorem State.act_keeps (k : Kept P) (f : Node → Node) (hf : ∀ n, P n → P (f n)) (s : State) (h : P s.node) :
    P (s.act f).node := hf _ (State.finish_keeps (Node.perform_keeps k.task) s h)

theorem State.work_keeps (k : Kept P) (f : Node → Node) (hf : ∀ n, n.running = true → P n → P (f n)) (s : State) (h : P s.node) :
    P (s.work f).node := by
  refine State.act_keeps k _ (fun n hn => ?_) s h
  split
  · exact hf n ‹_› hn
  · exact hn

theorem State.takeRow_keeps (k : Kept P) (t : Task) (s : State) (h : P s.node) : P (s.takeRow t).node := by
  unfold State.takeRow
  split
  · split
    · rename_i hd
      exact State.runOn_keeps (Node.perform_keeps k.task) _ _ (k.task _ _ hd.2 h)
    · exact h
  · exact h

theorem execBoundary_keeps (k : Kept P) (lanes : LaneBlock) (pins : Table 4 Bool) (s t : State)
    (e : execBoundary lanes pins s = .next t) (h : P s.node) : P t.node := by
  have hd := State.finish_keeps (Node.perform_keeps k.task) s h
  unfold execBoundary at e
  injection e with e
  subst e
  split
  · exact State.runOn_keeps (Node.perform_keeps k.task) _ _ (k.openBoundary _ _ _ ‹_› hd)
  · exact hd

theorem execBeaconReceived_keeps (k : Kept P) (side : Side) (b : SixBytes) (s t : State)
    (e : execBeaconReceived side b s = .next t) (h : P s.node) : P t.node := by
  have hd := State.finish_keeps (Node.perform_keeps k.task) s h
  unfold execBeaconReceived at e
  injection e with e
  subst e
  split
  · rename_i hr
    have hr := (Bool.and_eq_true_iff.mp hr).1
    unfold State.takeBeacon
    split
    · exact k.takeBeacon _ _ _ hr hd
    · exact State.runOn_keeps (Node.perform_keeps k.task) _ _ (k.takeEvidence _ _ _ hr hd)
  · exact hd

theorem execFrameReceived_keeps (k : Kept P) (side : Side) (head : SixBytes) (body : List FrameUnit) (s t : State)
    (e : execFrameReceived side head body s = .next t) (h : P s.node) : P t.node := by
  have hd := State.finish_keeps (Node.perform_keeps k.task) s h
  unfold execFrameReceived at e
  injection e with e
  subst e
  split
  · rename_i hr
    exact State.runOn_keeps (Node.perform_keeps k.task) _ _
      (k.takeEvidence _ _ _ (Bool.and_eq_true_iff.mp hr).1 hd)
  · exact hd

/-- Every command keeps a property of the part that every named operation keeps. -/
theorem exec_keeps (k : Kept P) (c : Instr) (s t : State) (e : exec c s = .next t) (h : P s.node) : P t.node := by
  cases c with
  | boundary lanes pins => exact execBoundary_keeps k lanes pins s t e h
  | beaconReceived side b => exact execBeaconReceived_keeps k side b s t e h
  | frameReceived side head body => exact execFrameReceived_keeps k side head body s t e h
  | powerOn r => injection e with e; subst e; exact k.powerOn _ _ _
  | resetLineAsserted => injection e with e; subst e; exact k.powerOn _ _ _
  | resetLineReleased =>
    injection e with e; subst e
    refine State.act_keeps k _ (fun n hn => ?_) s h
    unfold Node.releaseReset
    split
    · exact k.powerOn _ _ _
    · exact hn
  | loadFinished f x =>
    injection e with e; subst e
    refine State.act_keeps k _ (fun n hn => ?_) s h
    split
    · exact k.finishLoad _ _ _ ‹_› hn
    · exact hn
  | send u => injection e with e; subst e; exact State.work_keeps k _ (fun n => k.wholeSend n u) s h
  | takeReport => injection e with e; subst e; exact State.work_keeps k _ k.wholeTake s h
  | restartRing => injection e with e; subst e; exact State.work_keeps k _ k.wholeRestart s h
  | operationByteComplete b =>
    injection e with e; subst e; exact State.work_keeps k _ (fun n => k.completeOperation n b) s h
  | transferIgnored b => injection e with e; subst e; exact State.work_keeps k _ (fun n => k.ignoreTransfer n b) s h
  | transferBegins => injection e with e; subst e; exact State.work_keeps k _ k.beginTransfer s h
  | receiverLockGained x => injection e with e; subst e; exact State.act_keeps k _ (fun n => k.lockGained n x) s h
  | receiverLockLost x => injection e with e; subst e; exact State.act_keeps k _ (fun n => k.lockLost n x) s h
  | beaconSent x => injection e with e; subst e; exact State.work_keeps k _ (fun n => k.sendBeacon n x) s h
  | quietPeriodEnd => injection e with e; subst e; exact State.takeRow_keeps k _ s h
  | badRun x => injection e with e; subst e; exact State.takeRow_keeps k _ s h
  | silence x => injection e with e; subst e; exact State.takeRow_keeps k _ s h
  | linkProven x => injection e with e; subst e; exact State.takeRow_keeps k _ s h
  | starvation => injection e with e; subst e; exact State.takeRow_keeps k _ s h
  | claim => injection e with e; subst e; exact State.takeRow_keeps k _ s h
  | windowEnd => injection e with e; subst e; exact State.takeRow_keeps k _ s h
  | returnHoldComplete x => injection e with e; subst e; exact State.takeRow_keeps k _ s h
  | tapClearComplete => injection e with e; subst e; exact State.takeRow_keeps k _ s h
  | slotLost x => injection e with e; subst e; exact State.takeRow_keeps k _ s h
  | holdRecordExpiry x => injection e with e; subst e; exact State.takeRow_keeps k _ s h
  | millisecondMark => injection e with e; subst e; exact State.takeRow_keeps k _ s h
  | talkKeyPressed x => injection e with e; subst e; exact State.takeRow_keeps k _ s h
  | talkKeyReleased x => injection e with e; subst e; exact State.takeRow_keeps k _ s h
  | keepCountExpiry x => injection e with e; subst e; exact State.takeRow_keeps k _ s h
  | talkExpiry => injection e with e; subst e; exact State.takeRow_keeps k _ s h
  | replySlotGrant => injection e with e; subst e; exact State.work_keeps k _ k.grantReply s h
  | unknownKind => injection e with e; subst e; exact State.work_keeps k _ k.unknownKind s h
  | tapSet => injection e with e; subst e; exact State.work_keeps k _ k.tapSet s h
  | tapDrop => injection e with e; subst e; exact State.work_keeps k _ k.tapDrop s h
  | tapClear => injection e with e; subst e; exact State.work_keeps k _ k.tapClear s h
  | mixGain => injection e with e; subst e; exact State.work_keeps k _ k.mixGain s h
  | mixMaster => injection e with e; subst e; exact State.work_keeps k _ k.mixMaster s h
  | outSet => injection e with e; subst e; exact State.work_keeps k _ k.outSet s h
  | talkOpen => injection e with e; subst e; exact State.work_keeps k _ k.talkOpen s h
  | talkKeep => injection e with e; subst e; exact State.work_keeps k _ k.talkKeep s h
  | talkClose => injection e with e; subst e; exact State.work_keeps k _ k.talkClose s h
  | statusQuery => injection e with e; subst e; exact State.work_keeps k _ k.statusQuery s h

end Sys2Proof.Machine
end

