-- ==== Sys2Proof/Laws/Table.lean ====
section
/-! SUPPORT. Reading a table after it has been written. -/

namespace Sys2Proof.Table

variable {n : Nat} {α β : Type}

@[simp] theorem get_set_same (t : Table n α) (i : Fin n) (a : α) : (t.set i a).get i = a := List.getElem_set_self _

@[simp] theorem get_set_other (t : Table n α) (i j : Fin n) (a : α) (h : i ≠ j) : (t.set i a).get j = t.get j := by
  exact List.getElem_set_ne (fun e => h (Fin.ext e)) _

@[simp] theorem get_update_same (t : Table n α) (i : Fin n) (f : α → α) : (t.update i f).get i = f (t.get i) := by
  simp [Table.update]

@[simp] theorem get_update_other (t : Table n α) (i j : Fin n) (f : α → α) (h : i ≠ j) :
    (t.update i f).get j = t.get j := by
  simp [Table.update, h]

@[simp] theorem get_map (t : Table n α) (f : α → β) (i : Fin n) : (t.map f).get i = f (t.get i) :=
  List.getElem_map ..

@[simp] theorem get_ofFn (f : Fin n → α) (i : Fin n) : (Table.ofFn f).get i = f i := by
  have h : (Table.ofFn f).get i = f ((List.finRange n)[i.val]'(by simp)) := List.getElem_map ..
  rw [h]
  simp

@[simp] theorem get_replicate (a : α) (i : Fin n) : (Table.replicate n a).get i = a := by
  simp [Table.get, Table.replicate]

/-- A table filled from a list holds the list's thing, or the filler past its end. -/
@[simp] theorem get_ofList (d : α) (l : List α) (i : Fin n) : (Table.ofList n d l).get i = l.getD i.val d := by
  have h : (Table.ofList n d l).get i = (l.take n ++ List.replicate (n - l.length) d)[i.val]'(by simp; omega) := rfl
  rw [h]
  by_cases hi : i.val < l.length
  · rw [List.getElem_append_left (by simp; omega), List.getElem_take]
    simp [List.getD, hi]
  · rw [List.getElem_append_right (by simp; omega), List.getElem_replicate]
    simp [List.getD, Nat.le_of_not_lt hi]

theorem ext_get {s t : Table n α} (h : ∀ i, s.get i = t.get i) : s = t := by
  cases s with
  | mk xs hx =>
    cases t with
    | mk ys hy =>
      have : xs = ys := by
        apply List.ext_getElem (by rw [hx, hy])
        intro i h1 h2
        have := h ⟨i, by omega⟩
        simpa [Table.get] using this
      subst this
      rfl

theorem mem_items_iff (t : Table n α) (a : α) : a ∈ t.items ↔ ∃ i, t.get i = a := by
  constructor
  · intro h
    obtain ⟨i, hi, rfl⟩ := List.getElem_of_mem h
    exact ⟨⟨i, by have := t.size; omega⟩, by simp [Table.get]⟩
  · rintro ⟨i, rfl⟩
    simp [Table.get]

theorem getD_eq_get (t : Table n α) (i : Fin n) (d : α) : t.getD i.val d = t.get i := by
  have := t.size
  simp [Table.getD, Table.get, List.getD, i.isLt, this]

end Sys2Proof.Table
end

