-- ==== Sys2Proof/Laws/Bytes.lean ====
section
/-! SUPPORT. The bytes of units and of the values in them, said once (R176, R186, R187). -/

namespace Sys2Proof.Machine

open Sys2Proof

/-- A unit made from its first bytes holds them, and 0 behind them. -/
theorem byte_unitOf (l : List Byte) (i : Nat) (h : i < 24) : (unitOf l).byte i = l.getD i 0#8 :=
  (Table.getD_eq_get (unitOf l) ⟨i, h⟩ 0#8).trans (Table.get_ofList ..)

theorem byte_past (u : FrameUnit) (i : Nat) (h : 24 ≤ i) : u.byte i = 0#8 := by
  unfold FrameUnit.byte Table.getD
  rw [List.getD, List.getElem?_eq_none (by rw [u.size]; exact h), Option.getD_none]

/-- A counter is sent modulo 256. -/
theorem low_eq_byteOf (c : Counter) : c.low = byteOf c.toNat := by
  apply BitVec.eq_of_toNat_eq
  simp [Counter.low, byteOf]

theorem countBytes_eq (v : Nat) : countBytes v = [byteOf (v / 256), byteOf v] := by
  unfold countBytes bytes16
  congr 1
  · apply BitVec.eq_of_toNat_eq
    simp [byteOf, Nat.shiftRight_eq_div_pow]
    omega
  · congr 1
    apply BitVec.eq_of_toNat_eq
    simp [byteOf]

theorem bytes24_eq (v : Coef) : bytes24 v = [byteOf (v.toNat / 65536), byteOf (v.toNat / 256), byteOf v.toNat] := by
  unfold bytes24
  congr 1
  · apply BitVec.eq_of_toNat_eq
    simp [byteOf, Nat.shiftRight_eq_div_pow]
  · congr 1
    · apply BitVec.eq_of_toNat_eq
      simp [byteOf, Nat.shiftRight_eq_div_pow]

/-- The flags of a flag byte stand from bit 7 down. -/
theorem getLsbD_flagByte (flags : List Bool) (j : Nat) (h : j < 8) :
    (flagByte flags).getLsbD (7 - j) = flags.getD j false := by
  have key : ∀ a b c d e f g i : Bool, ∀ j : Fin 8,
      (flagByte [a, b, c, d, e, f, g, i]).getLsbD (7 - j.val) = [a, b, c, d, e, f, g, i].getD j.val false := by
    decide
  have e : flagByte flags = flagByte [flags.getD 0 false, flags.getD 1 false, flags.getD 2 false, flags.getD 3 false,
      flags.getD 4 false, flags.getD 5 false, flags.getD 6 false, flags.getD 7 false] := rfl
  rw [e, key _ _ _ _ _ _ _ _ ⟨j, h⟩]
  interval_cases j <;> rfl

/-- The bytes of a part's counters: behind seven bytes each value, and then the saturated flags in order. -/
theorem counterBytes_bytes (cs : List Counter) (front : List Byte) (hf : front.length = 7) (hl : cs.length ≤ 15) :
    let u := unitOf (front ++ counterBytes cs)
    (∀ i, i < cs.length → u.byte (7 + i) = (cs.map Counter.low).getD i 0#8)
      ∧ ∀ i, i < 16 →
        (u.byte (7 + cs.length + i / 8)).getLsbD (7 - i % 8) = (cs.map Counter.saturated).getD i false := by
  intro u
  refine ⟨fun i hi => ?_, fun i hi => ?_⟩
  · rw [byte_unitOf _ _ (by omega), counterBytes, List.getD_append_right _ _ _ _ (by omega), hf,
      Nat.add_sub_cancel_left, List.getD_append _ _ _ _ (by simpa using hi)]
  · rw [byte_unitOf _ _ (by omega), counterBytes, List.getD_append_right _ _ _ _ (by omega), hf,
      List.getD_append_right _ _ _ _ (by rw [List.length_map]; omega), List.length_map,
      show 7 + cs.length + i / 8 - 7 - cs.length = i / 8 by omega]
    rcases (show i / 8 = 0 ∨ i / 8 = 1 by omega) with h | h
    · rw [h, List.getD_cons_zero, getLsbD_flagByte _ _ (by omega)]
      congr 1
      omega
    · rw [h, List.getD_cons_succ, List.getD_cons_zero, getLsbD_flagByte _ _ (by omega)]
      simp only [List.getD, List.getElem?_drop]
      rw [show 8 + i % 8 = i by omega]

end Sys2Proof.Machine
end

