-- ==== Sys2Proof/Laws/Frames.lean ====
section
/-! SUPPORT. What each named operation leaves: for every operation, the blocks of the part that it does not touch. -/

namespace Sys2Proof.Machine

open Sys2Proof

/-- A quantity that each step of a fold leaves is left by the fold. -/
theorem foldl_leaves {α β : Type} {f : Node → α → Node} (g : Node → β) (h : ∀ n a, g (f n a) = g n) (l : List α)
    (n : Node) : g (l.foldl f n) = g n := by
  induction l generalizing n with
  | nil => rfl
  | cons a l ih => exact (ih _).trans (h n a)

/-- A self-addressed message that is taken changes the receive queue alone. -/
theorem Node.selfAddress_eq {n m : Node} {u : FrameUnit} {s : Source} (h : n.selfAddress u s = some m) :
    m = { n with messages := m.messages } := by
  unfold Node.selfAddress at h
  cases hq : n.messages.enqueue { message := u.placed n.station 255#8, source := s } with
  | none => simp [hq] at h
  | some q => simp [hq] at h; subst h; rfl

@[simp] theorem Node.transmit_leaves (n : Node) (side : Side) (t : Transmission) :
    (n.transmit side t).loader = n.loader ∧
    (n.transmit side t).cadence = n.cadence ∧
    (n.transmit side t).engine = n.engine ∧
    (n.transmit side t).messages = n.messages ∧
    (n.transmit side t).taps = n.taps ∧
    (n.transmit side t).router = n.router ∧
    (n.transmit side t).mixer = n.mixer ∧
    (n.transmit side t).talk = n.talk ∧
    (n.transmit side t).reports = n.reports ∧
    (n.transmit side t).port = n.port := by
  unfold Node.transmit
  (repeat' split) <;> simp [*]

@[simp] theorem Node.postNodeState_leaves (n : Node) :
    (n.postNodeState).loader = n.loader ∧
    (n.postNodeState).link = n.link ∧
    (n.postNodeState).cadence = n.cadence ∧
    (n.postNodeState).engine = n.engine ∧
    (n.postNodeState).messages = n.messages ∧
    (n.postNodeState).taps = n.taps ∧
    (n.postNodeState).router = n.router ∧
    (n.postNodeState).mixer = n.mixer ∧
    (n.postNodeState).talk = n.talk ∧
    (n.postNodeState).port = n.port := by
  unfold Node.postNodeState
  simp [*]

@[simp] theorem Node.setNodeState_leaves (n : Node) (s : NodeState) :
    (n.setNodeState s).loader = n.loader ∧
    (n.setNodeState s).link = n.link ∧
    (n.setNodeState s).messages = n.messages ∧
    (n.setNodeState s).taps = n.taps ∧
    (n.setNodeState s).router = n.router ∧
    (n.setNodeState s).mixer = n.mixer ∧
    (n.setNodeState s).talk = n.talk ∧
    (n.setNodeState s).reports = n.reports ∧
    (n.setNodeState s).port = n.port := by
  unfold Node.setNodeState
  (try dsimp only)
  simp [*]

@[simp] theorem Node.placeMessage_leaves (n : Node) (i : Fin 8) (u : FrameUnit) :
    (n.placeMessage i u).loader = n.loader ∧
    (n.placeMessage i u).link = n.link ∧
    (n.placeMessage i u).cadence = n.cadence ∧
    (n.placeMessage i u).engine = n.engine ∧
    (n.placeMessage i u).taps = n.taps ∧
    (n.placeMessage i u).router = n.router ∧
    (n.placeMessage i u).mixer = n.mixer ∧
    (n.placeMessage i u).talk = n.talk ∧
    (n.placeMessage i u).reports = n.reports ∧
    (n.placeMessage i u).port = n.port := by
  unfold Node.placeMessage
  simp [*]

@[simp] theorem Node.bindSlot_leaves (n : Node) (s : Fin 128) (e : EntryNo) :
    (n.bindSlot s e).loader = n.loader ∧
    (n.bindSlot s e).link = n.link ∧
    (n.bindSlot s e).cadence = n.cadence ∧
    (n.bindSlot s e).engine = n.engine ∧
    (n.bindSlot s e).messages = n.messages ∧
    (n.bindSlot s e).taps = n.taps ∧
    (n.bindSlot s e).mixer = n.mixer ∧
    (n.bindSlot s e).talk = n.talk ∧
    (n.bindSlot s e).reports = n.reports ∧
    (n.bindSlot s e).port = n.port := by
  unfold Node.bindSlot
  simp [*]

@[simp] theorem Node.unbindSlot_leaves (n : Node) (s : Fin 128) :
    (n.unbindSlot s).loader = n.loader ∧
    (n.unbindSlot s).link = n.link ∧
    (n.unbindSlot s).cadence = n.cadence ∧
    (n.unbindSlot s).engine = n.engine ∧
    (n.unbindSlot s).messages = n.messages ∧
    (n.unbindSlot s).taps = n.taps ∧
    (n.unbindSlot s).mixer = n.mixer ∧
    (n.unbindSlot s).talk = n.talk ∧
    (n.unbindSlot s).reports = n.reports ∧
    (n.unbindSlot s).port = n.port := by
  unfold Node.unbindSlot
  simp [*]

@[simp] theorem Node.judgeTableLow_leaves (n : Node) (before : Nat) :
    (n.judgeTableLow before).loader = n.loader ∧
    (n.judgeTableLow before).link = n.link ∧
    (n.judgeTableLow before).cadence = n.cadence ∧
    (n.judgeTableLow before).engine = n.engine ∧
    (n.judgeTableLow before).messages = n.messages ∧
    (n.judgeTableLow before).taps = n.taps ∧
    (n.judgeTableLow before).router = n.router ∧
    (n.judgeTableLow before).mixer = n.mixer ∧
    (n.judgeTableLow before).talk = n.talk ∧
    (n.judgeTableLow before).port = n.port := by
  unfold Node.judgeTableLow
  (repeat' split) <;> simp [*]

@[simp] theorem Node.releaseEntry_leaves (n : Node) (e : EntryNo) :
    (n.releaseEntry e).loader = n.loader ∧
    (n.releaseEntry e).link = n.link ∧
    (n.releaseEntry e).cadence = n.cadence ∧
    (n.releaseEntry e).engine = n.engine ∧
    (n.releaseEntry e).messages = n.messages ∧
    (n.releaseEntry e).mixer = n.mixer ∧
    (n.releaseEntry e).talk = n.talk ∧
    (n.releaseEntry e).reports = n.reports ∧
    (n.releaseEntry e).port = n.port := by
  unfold Node.releaseEntry
  (try dsimp only)
  (repeat' split) <;> simp [*]

@[simp] theorem Node.theft_leaves (n : Node) (r : TapSetRequest) (s : Fin 128) :
    (n.theft r s).loader = n.loader ∧
    (n.theft r s).link = n.link ∧
    (n.theft r s).cadence = n.cadence ∧
    (n.theft r s).engine = n.engine ∧
    (n.theft r s).messages = n.messages ∧
    (n.theft r s).mixer = n.mixer ∧
    (n.theft r s).talk = n.talk ∧
    (n.theft r s).reports = n.reports ∧
    (n.theft r s).port = n.port := by
  unfold Node.theft
  (repeat' split) <;> simp [*]

@[simp] theorem Node.releaseOld_leaves (n : Node) (r : TapSetRequest) (s : Fin 128) :
    (n.releaseOld r s).loader = n.loader ∧
    (n.releaseOld r s).link = n.link ∧
    (n.releaseOld r s).cadence = n.cadence ∧
    (n.releaseOld r s).engine = n.engine ∧
    (n.releaseOld r s).messages = n.messages ∧
    (n.releaseOld r s).mixer = n.mixer ∧
    (n.releaseOld r s).talk = n.talk ∧
    (n.releaseOld r s).reports = n.reports ∧
    (n.releaseOld r s).port = n.port := by
  unfold Node.releaseOld
  (try dsimp only)
  (repeat' split) <;> simp [*]

@[simp] theorem Node.bindKey_leaves (n : Node) (r : TapSetRequest) (s : Fin 128) :
    (n.bindKey r s).loader = n.loader ∧
    (n.bindKey r s).link = n.link ∧
    (n.bindKey r s).cadence = n.cadence ∧
    (n.bindKey r s).engine = n.engine ∧
    (n.bindKey r s).messages = n.messages ∧
    (n.bindKey r s).mixer = n.mixer ∧
    (n.bindKey r s).talk = n.talk ∧
    (n.bindKey r s).reports = n.reports ∧
    (n.bindKey r s).port = n.port := by
  unfold Node.bindKey
  refine ⟨?_, ?_, ?_, ?_, ?_, ?_, ?_, ?_, ?_⟩ <;> (try dsimp only) <;> (repeat' split) <;> simp

@[simp] theorem Node.commitTapSet_leaves (n : Node) (r : TapSetRequest) (s : Fin 128) :
    (n.commitTapSet r s).2.loader = n.loader ∧
    (n.commitTapSet r s).2.link = n.link ∧
    (n.commitTapSet r s).2.cadence = n.cadence ∧
    (n.commitTapSet r s).2.engine = n.engine ∧
    (n.commitTapSet r s).2.messages = n.messages ∧
    (n.commitTapSet r s).2.mixer = n.mixer ∧
    (n.commitTapSet r s).2.talk = n.talk ∧
    (n.commitTapSet r s).2.port = n.port := by
  unfold Node.commitTapSet
  (try dsimp only)
  simp [*]

@[simp] theorem Node.slotCheck_leaves (n : Node) (r : TapSetRequest) (s : Fin 128) :
    (n.slotCheck r s).2.loader = n.loader ∧
    (n.slotCheck r s).2.link = n.link ∧
    (n.slotCheck r s).2.cadence = n.cadence ∧
    (n.slotCheck r s).2.engine = n.engine ∧
    (n.slotCheck r s).2.messages = n.messages ∧
    (n.slotCheck r s).2.mixer = n.mixer ∧
    (n.slotCheck r s).2.talk = n.talk ∧
    (n.slotCheck r s).2.port = n.port := by
  unfold Node.slotCheck
  (try dsimp only)
  (repeat' split) <;> simp [*]

@[simp] theorem Node.roomCheck_leaves (n : Node) (r : TapSetRequest) (s : Fin 128) :
    (n.roomCheck r s).2.loader = n.loader ∧
    (n.roomCheck r s).2.link = n.link ∧
    (n.roomCheck r s).2.cadence = n.cadence ∧
    (n.roomCheck r s).2.engine = n.engine ∧
    (n.roomCheck r s).2.messages = n.messages ∧
    (n.roomCheck r s).2.mixer = n.mixer ∧
    (n.roomCheck r s).2.talk = n.talk ∧
    (n.roomCheck r s).2.port = n.port := by
  unfold Node.roomCheck
  (try dsimp only)
  (repeat' split) <;> simp [*]

@[simp] theorem Node.tapSet_leaves (n : Node) (r : TapSetRequest) :
    (n.tapSet r).2.loader = n.loader ∧
    (n.tapSet r).2.link = n.link ∧
    (n.tapSet r).2.cadence = n.cadence ∧
    (n.tapSet r).2.engine = n.engine ∧
    (n.tapSet r).2.messages = n.messages ∧
    (n.tapSet r).2.mixer = n.mixer ∧
    (n.tapSet r).2.talk = n.talk ∧
    (n.tapSet r).2.port = n.port := by
  unfold Node.tapSet
  (try dsimp only)
  (repeat' split) <;> simp [*]

@[simp] theorem Node.tapDrop_leaves (n : Node) (k : Key) :
    (n.tapDrop k).2.loader = n.loader ∧
    (n.tapDrop k).2.link = n.link ∧
    (n.tapDrop k).2.cadence = n.cadence ∧
    (n.tapDrop k).2.engine = n.engine ∧
    (n.tapDrop k).2.messages = n.messages ∧
    (n.tapDrop k).2.mixer = n.mixer ∧
    (n.tapDrop k).2.talk = n.talk ∧
    (n.tapDrop k).2.port = n.port := by
  unfold Node.tapDrop
  (try dsimp only)
  (repeat' split) <;> simp [*]

@[simp] theorem Node.walkEntry_leaves (n : Node) (e : EntryNo) :
    (n.walkEntry e).loader = n.loader ∧
    (n.walkEntry e).link = n.link ∧
    (n.walkEntry e).cadence = n.cadence ∧
    (n.walkEntry e).engine = n.engine ∧
    (n.walkEntry e).messages = n.messages ∧
    (n.walkEntry e).mixer = n.mixer ∧
    (n.walkEntry e).talk = n.talk ∧
    (n.walkEntry e).reports = n.reports ∧
    (n.walkEntry e).port = n.port := by
  unfold Node.walkEntry
  (repeat' split) <;> simp [*]

@[simp] theorem Node.walkStep_leaves (n : Node) :
    (n.walkStep).loader = n.loader ∧
    (n.walkStep).link = n.link ∧
    (n.walkStep).cadence = n.cadence ∧
    (n.walkStep).engine = n.engine ∧
    (n.walkStep).messages = n.messages ∧
    (n.walkStep).mixer = n.mixer ∧
    (n.walkStep).talk = n.talk ∧
    (n.walkStep).reports = n.reports ∧
    (n.walkStep).port = n.port := by
  unfold Node.walkStep
  refine ⟨?_, ?_, ?_, ?_, ?_, ?_, ?_, ?_, ?_⟩ <;> (try dsimp only) <;> (repeat' split) <;> simp [foldl_leaves]

@[simp] theorem Node.talkUserChange_leaves (n : Node) (changes : List (Key × Int)) :
    (n.talkUserChange changes).2.loader = n.loader ∧
    (n.talkUserChange changes).2.link = n.link ∧
    (n.talkUserChange changes).2.cadence = n.cadence ∧
    (n.talkUserChange changes).2.engine = n.engine ∧
    (n.talkUserChange changes).2.messages = n.messages ∧
    (n.talkUserChange changes).2.router = n.router ∧
    (n.talkUserChange changes).2.mixer = n.mixer ∧
    (n.talkUserChange changes).2.talk = n.talk ∧
    (n.talkUserChange changes).2.port = n.port := by
  unfold Node.talkUserChange
  refine ⟨?_, ?_, ?_, ?_, ?_, ?_, ?_, ?_, ?_⟩ <;> (try dsimp only) <;> (repeat' split) <;> simp

@[simp] theorem Node.eventLeaves_leaves (n : Node) (k : Fin 4) :
    (n.eventLeaves k).loader = n.loader ∧
    (n.eventLeaves k).link = n.link ∧
    (n.eventLeaves k).cadence = n.cadence ∧
    (n.eventLeaves k).engine = n.engine ∧
    (n.eventLeaves k).messages = n.messages ∧
    (n.eventLeaves k).taps = n.taps ∧
    (n.eventLeaves k).router = n.router ∧
    (n.eventLeaves k).mixer = n.mixer ∧
    (n.eventLeaves k).reports = n.reports ∧
    (n.eventLeaves k).port = n.port := by
  unfold Node.eventLeaves
  (try dsimp only)
  simp [*]

@[simp] theorem Node.handOwnEvent_leaves (n : Node) (k : Fin 4) :
    (n.handOwnEvent k).loader = n.loader ∧
    (n.handOwnEvent k).link = n.link ∧
    (n.handOwnEvent k).cadence = n.cadence ∧
    (n.handOwnEvent k).engine = n.engine ∧
    (n.handOwnEvent k).taps = n.taps ∧
    (n.handOwnEvent k).router = n.router ∧
    (n.handOwnEvent k).mixer = n.mixer ∧
    (n.handOwnEvent k).reports = n.reports ∧
    (n.handOwnEvent k).port = n.port := by
  unfold Node.handOwnEvent
  (repeat' split) <;> first
    | (rename_i h; rw [Node.selfAddress_eq h]; simp)
    | simp

@[simp] theorem Node.placeOneTalk_leaves (n : Node) :
    (n.placeOneTalk).loader = n.loader ∧
    (n.placeOneTalk).link = n.link ∧
    (n.placeOneTalk).cadence = n.cadence ∧
    (n.placeOneTalk).engine = n.engine ∧
    (n.placeOneTalk).taps = n.taps ∧
    (n.placeOneTalk).router = n.router ∧
    (n.placeOneTalk).mixer = n.mixer ∧
    (n.placeOneTalk).reports = n.reports ∧
    (n.placeOneTalk).port = n.port := by
  unfold Node.placeOneTalk
  (repeat' split) <;> simp [*]

@[simp] theorem Node.placeTalk_leaves (n : Node) :
    (n.placeTalk).loader = n.loader ∧
    (n.placeTalk).link = n.link ∧
    (n.placeTalk).cadence = n.cadence ∧
    (n.placeTalk).engine = n.engine ∧
    (n.placeTalk).taps = n.taps ∧
    (n.placeTalk).router = n.router ∧
    (n.placeTalk).mixer = n.mixer ∧
    (n.placeTalk).reports = n.reports ∧
    (n.placeTalk).port = n.port := by
  unfold Node.placeTalk
  simp [*]

@[simp] theorem Node.setEvent_leaves (n : Node) (k : Fin 4) (ev : TalkEvent) :
    (n.setEvent k ev).loader = n.loader ∧
    (n.setEvent k ev).link = n.link ∧
    (n.setEvent k ev).cadence = n.cadence ∧
    (n.setEvent k ev).engine = n.engine ∧
    (n.setEvent k ev).messages = n.messages ∧
    (n.setEvent k ev).taps = n.taps ∧
    (n.setEvent k ev).router = n.router ∧
    (n.setEvent k ev).mixer = n.mixer ∧
    (n.setEvent k ev).reports = n.reports ∧
    (n.setEvent k ev).port = n.port := by
  unfold Node.setEvent
  (try dsimp only)
  (repeat' split) <;> simp [*]

@[simp] theorem Node.makeEvent_leaves (n : Node) (k : Fin 4) (ev : TalkEvent) :
    (n.makeEvent k ev).loader = n.loader ∧
    (n.makeEvent k ev).link = n.link ∧
    (n.makeEvent k ev).cadence = n.cadence ∧
    (n.makeEvent k ev).engine = n.engine ∧
    (n.makeEvent k ev).taps = n.taps ∧
    (n.makeEvent k ev).router = n.router ∧
    (n.makeEvent k ev).mixer = n.mixer ∧
    (n.makeEvent k ev).reports = n.reports ∧
    (n.makeEvent k ev).port = n.port := by
  unfold Node.makeEvent
  (try dsimp only)
  (repeat' split) <;> simp [*]

@[simp] theorem Node.retryOwnEvents_leaves (n : Node) :
    (n.retryOwnEvents).loader = n.loader ∧
    (n.retryOwnEvents).link = n.link ∧
    (n.retryOwnEvents).cadence = n.cadence ∧
    (n.retryOwnEvents).engine = n.engine ∧
    (n.retryOwnEvents).taps = n.taps ∧
    (n.retryOwnEvents).router = n.router ∧
    (n.retryOwnEvents).mixer = n.mixer ∧
    (n.retryOwnEvents).reports = n.reports ∧
    (n.retryOwnEvents).port = n.port := by
  unfold Node.retryOwnEvents
  refine ⟨?_, ?_, ?_, ?_, ?_, ?_, ?_, ?_, ?_⟩ <;> simp [foldl_leaves]

@[simp] theorem Node.reopen_leaves (n : Node) (k : Fin 4) :
    (n.reopen k).loader = n.loader ∧
    (n.reopen k).link = n.link ∧
    (n.reopen k).cadence = n.cadence ∧
    (n.reopen k).engine = n.engine ∧
    (n.reopen k).taps = n.taps ∧
    (n.reopen k).router = n.router ∧
    (n.reopen k).mixer = n.mixer ∧
    (n.reopen k).reports = n.reports ∧
    (n.reopen k).port = n.port := by
  unfold Node.reopen
  (repeat' split) <;> simp [*]

@[simp] theorem Node.talkSettled_leaves (n : Node) (kind tag : Byte) (d : Delivery) :
    (n.talkSettled kind tag d).loader = n.loader ∧
    (n.talkSettled kind tag d).link = n.link ∧
    (n.talkSettled kind tag d).cadence = n.cadence ∧
    (n.talkSettled kind tag d).engine = n.engine ∧
    (n.talkSettled kind tag d).taps = n.taps ∧
    (n.talkSettled kind tag d).router = n.router ∧
    (n.talkSettled kind tag d).mixer = n.mixer ∧
    (n.talkSettled kind tag d).port = n.port := by
  unfold Node.talkSettled
  (try dsimp only)
  (repeat' split) <;> simp [*]

@[simp] theorem Node.talkResult_leaves (n : Node) (u : FrameUnit) :
    (n.talkResult u).loader = n.loader ∧
    (n.talkResult u).link = n.link ∧
    (n.talkResult u).cadence = n.cadence ∧
    (n.talkResult u).engine = n.engine ∧
    (n.talkResult u).taps = n.taps ∧
    (n.talkResult u).router = n.router ∧
    (n.talkResult u).mixer = n.mixer ∧
    (n.talkResult u).port = n.port := by
  unfold Node.talkResult
  (try dsimp only)
  (repeat' split) <;> simp [*]

@[simp] theorem Node.giveNotice_leaves (n : Node) (x : Notice) :
    (n.giveNotice x).loader = n.loader ∧
    (n.giveNotice x).link = n.link ∧
    (n.giveNotice x).cadence = n.cadence ∧
    (n.giveNotice x).engine = n.engine ∧
    (n.giveNotice x).taps = n.taps ∧
    (n.giveNotice x).router = n.router ∧
    (n.giveNotice x).mixer = n.mixer ∧
    (n.giveNotice x).port = n.port := by
  unfold Node.giveNotice
  (repeat' split) <;> simp [*]

@[simp] theorem Node.setTalks_leaves (n : Node) (m : Fin 24) (l : List Talk) :
    (n.setTalks m l).loader = n.loader ∧
    (n.setTalks m l).link = n.link ∧
    (n.setTalks m l).cadence = n.cadence ∧
    (n.setTalks m l).engine = n.engine ∧
    (n.setTalks m l).messages = n.messages ∧
    (n.setTalks m l).taps = n.taps ∧
    (n.setTalks m l).router = n.router ∧
    (n.setTalks m l).talk = n.talk ∧
    (n.setTalks m l).reports = n.reports ∧
    (n.setTalks m l).port = n.port := by
  unfold Node.setTalks
  simp [*]

@[simp] theorem Node.handTalkUsers_leaves (n : Node) (moves : List (Key × Int)) :
    (n.handTalkUsers moves).loader = n.loader ∧
    (n.handTalkUsers moves).link = n.link ∧
    (n.handTalkUsers moves).cadence = n.cadence ∧
    (n.handTalkUsers moves).engine = n.engine ∧
    (n.handTalkUsers moves).messages = n.messages ∧
    (n.handTalkUsers moves).router = n.router ∧
    (n.handTalkUsers moves).mixer = n.mixer ∧
    (n.handTalkUsers moves).talk = n.talk ∧
    (n.handTalkUsers moves).port = n.port := by
  unfold Node.handTalkUsers
  (try dsimp only)
  (repeat' split) <;> simp [*]

@[simp] theorem Node.handSettings_leaves (n : Node) (ms : List (Fin 24)) :
    (n.handSettings ms).loader = n.loader ∧
    (n.handSettings ms).link = n.link ∧
    (n.handSettings ms).cadence = n.cadence ∧
    (n.handSettings ms).engine = n.engine ∧
    (n.handSettings ms).messages = n.messages ∧
    (n.handSettings ms).taps = n.taps ∧
    (n.handSettings ms).router = n.router ∧
    (n.handSettings ms).talk = n.talk ∧
    (n.handSettings ms).reports = n.reports ∧
    (n.handSettings ms).port = n.port := by
  unfold Node.handSettings
  exact ⟨by refine foldl_leaves Node.loader ?_ _ _; intro _ _; rfl,
    by refine foldl_leaves Node.link ?_ _ _; intro _ _; rfl,
    by refine foldl_leaves Node.cadence ?_ _ _; intro _ _; rfl,
    by refine foldl_leaves Node.engine ?_ _ _; intro _ _; rfl,
    by refine foldl_leaves Node.messages ?_ _ _; intro _ _; rfl,
    by refine foldl_leaves Node.taps ?_ _ _; intro _ _; rfl,
    by refine foldl_leaves Node.router ?_ _ _; intro _ _; rfl,
    by refine foldl_leaves Node.talk ?_ _ _; intro _ _; rfl,
    by refine foldl_leaves Node.reports ?_ _ _; intro _ _; rfl,
    by refine foldl_leaves Node.port ?_ _ _; intro _ _; rfl⟩

@[simp] theorem Node.giveNotices_leaves (n : Node) (evicted : Bool) (losses : List (Station × Fin 24)) :
    (n.giveNotices evicted losses).loader = n.loader ∧
    (n.giveNotices evicted losses).link = n.link ∧
    (n.giveNotices evicted losses).cadence = n.cadence ∧
    (n.giveNotices evicted losses).engine = n.engine ∧
    (n.giveNotices evicted losses).taps = n.taps ∧
    (n.giveNotices evicted losses).router = n.router ∧
    (n.giveNotices evicted losses).mixer = n.mixer ∧
    (n.giveNotices evicted losses).port = n.port := by
  unfold Node.giveNotices
  exact ⟨by refine foldl_leaves Node.loader ?_ _ _; intro _ _; dsimp only; split <;> simp,
    by refine foldl_leaves Node.link ?_ _ _; intro _ _; dsimp only; split <;> simp,
    by refine foldl_leaves Node.cadence ?_ _ _; intro _ _; dsimp only; split <;> simp,
    by refine foldl_leaves Node.engine ?_ _ _; intro _ _; dsimp only; split <;> simp,
    by refine foldl_leaves Node.taps ?_ _ _; intro _ _; dsimp only; split <;> simp,
    by refine foldl_leaves Node.router ?_ _ _; intro _ _; dsimp only; split <;> simp,
    by refine foldl_leaves Node.mixer ?_ _ _; intro _ _; dsimp only; split <;> simp,
    by refine foldl_leaves Node.port ?_ _ _; intro _ _; dsimp only; split <;> simp⟩

@[simp] theorem Node.commitTalkOpen_leaves (n : Node) (r : TalkOpenRequest) (desk : Station) :
    (n.commitTalkOpen r desk).2.loader = n.loader ∧
    (n.commitTalkOpen r desk).2.link = n.link ∧
    (n.commitTalkOpen r desk).2.cadence = n.cadence ∧
    (n.commitTalkOpen r desk).2.engine = n.engine ∧
    (n.commitTalkOpen r desk).2.router = n.router ∧
    (n.commitTalkOpen r desk).2.port = n.port := by
  unfold Node.commitTalkOpen
  dsimp only
  simp only [Node.handSettings_leaves, Node.giveNotices_leaves]
  exact ⟨by rw [foldl_leaves Node.loader (by intro _ _; split <;> simp)]; simp,
    by rw [foldl_leaves Node.link (by intro _ _; split <;> simp)]; simp,
    by rw [foldl_leaves Node.cadence (by intro _ _; split <;> simp)]; simp,
    by rw [foldl_leaves Node.engine (by intro _ _; split <;> simp)]; simp,
    by rw [foldl_leaves Node.router (by intro _ _; split <;> simp)]; simp,
    by rw [foldl_leaves Node.port (by intro _ _; split <;> simp)]; simp⟩

@[simp] theorem Node.talkOpen_leaves (n : Node) (r : TalkOpenRequest) (desk : Station) :
    (n.talkOpen r desk).2.loader = n.loader ∧
    (n.talkOpen r desk).2.link = n.link ∧
    (n.talkOpen r desk).2.cadence = n.cadence ∧
    (n.talkOpen r desk).2.engine = n.engine ∧
    (n.talkOpen r desk).2.router = n.router ∧
    (n.talkOpen r desk).2.port = n.port := by
  unfold Node.talkOpen
  (repeat' split) <;> simp [*]

@[simp] theorem Node.talkKeep_leaves (n : Node) (mask : MixMask) (desk : Station) :
    (n.talkKeep mask desk).2.loader = n.loader ∧
    (n.talkKeep mask desk).2.link = n.link ∧
    (n.talkKeep mask desk).2.cadence = n.cadence ∧
    (n.talkKeep mask desk).2.engine = n.engine ∧
    (n.talkKeep mask desk).2.messages = n.messages ∧
    (n.talkKeep mask desk).2.taps = n.taps ∧
    (n.talkKeep mask desk).2.router = n.router ∧
    (n.talkKeep mask desk).2.talk = n.talk ∧
    (n.talkKeep mask desk).2.reports = n.reports ∧
    (n.talkKeep mask desk).2.port = n.port := by
  unfold Node.talkKeep
  refine ⟨?_, ?_, ?_, ?_, ?_, ?_, ?_, ?_, ?_, ?_⟩ <;> (try dsimp only) <;> simp [foldl_leaves]

@[simp] theorem Node.removeTalks_leaves (n : Node) (ms : List (Fin 24)) (gone : Talk → Bool) :
    (n.removeTalks ms gone).loader = n.loader ∧
    (n.removeTalks ms gone).link = n.link ∧
    (n.removeTalks ms gone).cadence = n.cadence ∧
    (n.removeTalks ms gone).engine = n.engine ∧
    (n.removeTalks ms gone).messages = n.messages ∧
    (n.removeTalks ms gone).router = n.router ∧
    (n.removeTalks ms gone).talk = n.talk ∧
    (n.removeTalks ms gone).port = n.port := by
  unfold Node.removeTalks
  refine ⟨?_, ?_, ?_, ?_, ?_, ?_, ?_, ?_⟩ <;> (try dsimp only) <;> simp [foldl_leaves]

@[simp] theorem Node.talkClose_leaves (n : Node) (mask : MixMask) (desk : Station) :
    (n.talkClose mask desk).loader = n.loader ∧
    (n.talkClose mask desk).link = n.link ∧
    (n.talkClose mask desk).cadence = n.cadence ∧
    (n.talkClose mask desk).engine = n.engine ∧
    (n.talkClose mask desk).messages = n.messages ∧
    (n.talkClose mask desk).router = n.router ∧
    (n.talkClose mask desk).talk = n.talk ∧
    (n.talkClose mask desk).port = n.port := by
  unfold Node.talkClose
  simp [*]

@[simp] theorem Node.expireTalks_leaves (n : Node) :
    (n.expireTalks).loader = n.loader ∧
    (n.expireTalks).link = n.link ∧
    (n.expireTalks).cadence = n.cadence ∧
    (n.expireTalks).engine = n.engine ∧
    (n.expireTalks).router = n.router ∧
    (n.expireTalks).port = n.port := by
  unfold Node.expireTalks
  simp [*]

@[simp] theorem Node.countDeadlines_leaves (n : Node) :
    (n.countDeadlines).loader = n.loader ∧
    (n.countDeadlines).link = n.link ∧
    (n.countDeadlines).cadence = n.cadence ∧
    (n.countDeadlines).engine = n.engine ∧
    (n.countDeadlines).messages = n.messages ∧
    (n.countDeadlines).taps = n.taps ∧
    (n.countDeadlines).router = n.router ∧
    (n.countDeadlines).talk = n.talk ∧
    (n.countDeadlines).reports = n.reports ∧
    (n.countDeadlines).port = n.port := by
  unfold Node.countDeadlines
  (try dsimp only)
  simp [*]

@[simp] theorem Node.settleSlot_leaves (n : Node) (i : Fin 8) (d : Delivery) :
    (n.settleSlot i d).loader = n.loader ∧
    (n.settleSlot i d).link = n.link ∧
    (n.settleSlot i d).cadence = n.cadence ∧
    (n.settleSlot i d).engine = n.engine ∧
    (n.settleSlot i d).taps = n.taps ∧
    (n.settleSlot i d).router = n.router ∧
    (n.settleSlot i d).mixer = n.mixer ∧
    (n.settleSlot i d).port = n.port := by
  unfold Node.settleSlot
  (try dsimp only)
  (repeat' split) <;> simp [*]

@[simp] theorem Node.unitReturns_leaves (n : Node) (u : FrameUnit) :
    (n.unitReturns u).loader = n.loader ∧
    (n.unitReturns u).link = n.link ∧
    (n.unitReturns u).cadence = n.cadence ∧
    (n.unitReturns u).engine = n.engine ∧
    (n.unitReturns u).taps = n.taps ∧
    (n.unitReturns u).router = n.router ∧
    (n.unitReturns u).mixer = n.mixer ∧
    (n.unitReturns u).port = n.port := by
  unfold Node.unitReturns
  (repeat' split) <;> simp [*]

@[simp] theorem Node.loseSlot_leaves (n : Node) (i : Fin 8) :
    (n.loseSlot i).loader = n.loader ∧
    (n.loseSlot i).link = n.link ∧
    (n.loseSlot i).cadence = n.cadence ∧
    (n.loseSlot i).engine = n.engine ∧
    (n.loseSlot i).taps = n.taps ∧
    (n.loseSlot i).router = n.router ∧
    (n.loseSlot i).mixer = n.mixer ∧
    (n.loseSlot i).port = n.port := by
  unfold Node.loseSlot
  simp [*]

@[simp] theorem Node.recordHold_leaves (n : Node) (peer : Station) (flag : Bool) :
    (n.recordHold peer flag).loader = n.loader ∧
    (n.recordHold peer flag).link = n.link ∧
    (n.recordHold peer flag).cadence = n.cadence ∧
    (n.recordHold peer flag).engine = n.engine ∧
    (n.recordHold peer flag).taps = n.taps ∧
    (n.recordHold peer flag).router = n.router ∧
    (n.recordHold peer flag).mixer = n.mixer ∧
    (n.recordHold peer flag).talk = n.talk ∧
    (n.recordHold peer flag).reports = n.reports ∧
    (n.recordHold peer flag).port = n.port := by
  unfold Node.recordHold
  (repeat' split) <;> simp [*]

@[simp] theorem Node.giveReady_leaves (n : Node) (most : Nat) :
    (n.giveReady most).2.loader = n.loader ∧
    (n.giveReady most).2.link = n.link ∧
    (n.giveReady most).2.cadence = n.cadence ∧
    (n.giveReady most).2.engine = n.engine ∧
    (n.giveReady most).2.taps = n.taps ∧
    (n.giveReady most).2.router = n.router ∧
    (n.giveReady most).2.mixer = n.mixer ∧
    (n.giveReady most).2.talk = n.talk ∧
    (n.giveReady most).2.reports = n.reports ∧
    (n.giveReady most).2.port = n.port := by
  unfold Node.giveReady
  refine ⟨?_, ?_, ?_, ?_, ?_, ?_, ?_, ?_, ?_, ?_⟩ <;> (try dsimp only) <;> simp

@[simp] theorem Node.routeAnswer_leaves (n : Node) (u : FrameUnit) :
    (n.routeAnswer u).loader = n.loader ∧
    (n.routeAnswer u).link = n.link ∧
    (n.routeAnswer u).cadence = n.cadence ∧
    (n.routeAnswer u).engine = n.engine ∧
    (n.routeAnswer u).taps = n.taps ∧
    (n.routeAnswer u).router = n.router ∧
    (n.routeAnswer u).mixer = n.mixer ∧
    (n.routeAnswer u).port = n.port := by
  unfold Node.routeAnswer
  (repeat' split) <;> simp [*]

@[simp] theorem Node.offer_leaves (n : Node) (u : FrameUnit) :
    (n.offer u).2.loader = n.loader ∧
    (n.offer u).2.link = n.link ∧
    (n.offer u).2.cadence = n.cadence ∧
    (n.offer u).2.engine = n.engine ∧
    (n.offer u).2.taps = n.taps ∧
    (n.offer u).2.router = n.router ∧
    (n.offer u).2.mixer = n.mixer ∧
    (n.offer u).2.port = n.port := by
  unfold Node.offer
  (repeat' split) <;> simp [*]

@[simp] theorem Node.offerUnit_leaves (n : Node) (u : FrameUnit) :
    (n.offerUnit u).2.loader = n.loader ∧
    (n.offerUnit u).2.link = n.link ∧
    (n.offerUnit u).2.cadence = n.cadence ∧
    (n.offerUnit u).2.engine = n.engine ∧
    (n.offerUnit u).2.taps = n.taps ∧
    (n.offerUnit u).2.router = n.router ∧
    (n.offerUnit u).2.mixer = n.mixer ∧
    (n.offerUnit u).2.port = n.port := by
  unfold Node.offerUnit
  (try dsimp only)
  (repeat' split) <;> simp [*]

@[simp] theorem offerAll_leaves (us : List FrameUnit) (n : Node) :
    (offerAll us n).2.loader = n.loader ∧
    (offerAll us n).2.link = n.link ∧
    (offerAll us n).2.cadence = n.cadence ∧
    (offerAll us n).2.engine = n.engine ∧
    (offerAll us n).2.taps = n.taps ∧
    (offerAll us n).2.router = n.router ∧
    (offerAll us n).2.mixer = n.mixer ∧
    (offerAll us n).2.port = n.port := by
  induction us generalizing n with
  | nil => simp [offerAll]
  | cons u us ih => simp [offerAll, ih]

@[simp] theorem Node.answer_leaves (n : Node) (e : QueueEntry) (r : Reply) :
    (n.answer e r).loader = n.loader ∧
    (n.answer e r).link = n.link ∧
    (n.answer e r).cadence = n.cadence ∧
    (n.answer e r).engine = n.engine ∧
    (n.answer e r).taps = n.taps ∧
    (n.answer e r).router = n.router ∧
    (n.answer e r).mixer = n.mixer ∧
    (n.answer e r).port = n.port := by
  unfold Node.answer
  (try dsimp only)
  (repeat' split) <;> simp [*]

@[simp] theorem Node.complete_leaves (n : Node) (e : QueueEntry) (r : Option Reply) :
    (n.complete e r).loader = n.loader ∧
    (n.complete e r).link = n.link ∧
    (n.complete e r).cadence = n.cadence ∧
    (n.complete e r).engine = n.engine ∧
    (n.complete e r).taps = n.taps ∧
    (n.complete e r).router = n.router ∧
    (n.complete e r).mixer = n.mixer ∧
    (n.complete e r).port = n.port := by
  unfold Node.complete
  (try dsimp only)
  (repeat' split) <;> simp [*]

@[simp] theorem Node.postParts_leaves (n : Node) (subject : Subject) (parts : List Nat) (destination tag : Byte) :
    (n.postParts subject parts destination tag).loader = n.loader ∧
    (n.postParts subject parts destination tag).link = n.link ∧
    (n.postParts subject parts destination tag).cadence = n.cadence ∧
    (n.postParts subject parts destination tag).engine = n.engine ∧
    (n.postParts subject parts destination tag).messages = n.messages ∧
    (n.postParts subject parts destination tag).taps = n.taps ∧
    (n.postParts subject parts destination tag).router = n.router ∧
    (n.postParts subject parts destination tag).mixer = n.mixer ∧
    (n.postParts subject parts destination tag).talk = n.talk ∧
    (n.postParts subject parts destination tag).port = n.port := by
  unfold Node.postParts
  exact ⟨by refine foldl_leaves Node.loader ?_ _ _; intro _ _; rfl,
    by refine foldl_leaves Node.link ?_ _ _; intro _ _; rfl,
    by refine foldl_leaves Node.cadence ?_ _ _; intro _ _; rfl,
    by refine foldl_leaves Node.engine ?_ _ _; intro _ _; rfl,
    by refine foldl_leaves Node.messages ?_ _ _; intro _ _; rfl,
    by refine foldl_leaves Node.taps ?_ _ _; intro _ _; rfl,
    by refine foldl_leaves Node.router ?_ _ _; intro _ _; rfl,
    by refine foldl_leaves Node.mixer ?_ _ _; intro _ _; rfl,
    by refine foldl_leaves Node.talk ?_ _ _; intro _ _; rfl,
    by refine foldl_leaves Node.port ?_ _ _; intro _ _; rfl⟩

@[simp] theorem Node.placePart_leaves (n : Node) (i : Fin 8) (e : QueueEntry) (subject : Subject) (part : Nat) :
    (n.placePart i e subject part).loader = n.loader ∧
    (n.placePart i e subject part).link = n.link ∧
    (n.placePart i e subject part).cadence = n.cadence ∧
    (n.placePart i e subject part).engine = n.engine ∧
    (n.placePart i e subject part).taps = n.taps ∧
    (n.placePart i e subject part).router = n.router ∧
    (n.placePart i e subject part).mixer = n.mixer ∧
    (n.placePart i e subject part).talk = n.talk ∧
    (n.placePart i e subject part).reports = n.reports ∧
    (n.placePart i e subject part).port = n.port := by
  unfold Node.placePart
  simp [*]

@[simp] theorem Node.statusQuery_leaves (n : Node) :
    (n.statusQuery).loader = n.loader ∧
    (n.statusQuery).link = n.link ∧
    (n.statusQuery).cadence = n.cadence ∧
    (n.statusQuery).engine = n.engine ∧
    (n.statusQuery).taps = n.taps ∧
    (n.statusQuery).router = n.router ∧
    (n.statusQuery).mixer = n.mixer ∧
    (n.statusQuery).port = n.port := by
  unfold Node.statusQuery Node.carryOut
  split
  · dsimp only
    (repeat' split) <;> simp
  · simp

@[simp] theorem Node.grantReceive_leaves (n : Node) (i : Fin 8) :
    (n.grantReceive i).loader = n.loader ∧
    (n.grantReceive i).link = n.link ∧
    (n.grantReceive i).cadence = n.cadence ∧
    (n.grantReceive i).engine = n.engine ∧
    (n.grantReceive i).taps = n.taps ∧
    (n.grantReceive i).router = n.router ∧
    (n.grantReceive i).mixer = n.mixer ∧
    (n.grantReceive i).port = n.port := by
  unfold Node.grantReceive
  (try dsimp only)
  (repeat' split) <;> simp [*]

@[simp] theorem Node.grantNotice_leaves (n : Node) (i : Fin 8) :
    (n.grantNotice i).loader = n.loader ∧
    (n.grantNotice i).link = n.link ∧
    (n.grantNotice i).cadence = n.cadence ∧
    (n.grantNotice i).engine = n.engine ∧
    (n.grantNotice i).taps = n.taps ∧
    (n.grantNotice i).router = n.router ∧
    (n.grantNotice i).mixer = n.mixer ∧
    (n.grantNotice i).talk = n.talk ∧
    (n.grantNotice i).reports = n.reports ∧
    (n.grantNotice i).port = n.port := by
  unfold Node.grantNotice
  (repeat' split) <;> simp [*]

@[simp] theorem Node.setTurn_leaves (n : Node) (t : GrantTurn) :
    (n.setTurn t).loader = n.loader ∧
    (n.setTurn t).link = n.link ∧
    (n.setTurn t).cadence = n.cadence ∧
    (n.setTurn t).engine = n.engine ∧
    (n.setTurn t).taps = n.taps ∧
    (n.setTurn t).router = n.router ∧
    (n.setTurn t).mixer = n.mixer ∧
    (n.setTurn t).talk = n.talk ∧
    (n.setTurn t).reports = n.reports ∧
    (n.setTurn t).port = n.port := by
  unfold Node.setTurn
  simp [*]

@[simp] theorem Node.grantReply_leaves (n : Node) :
    (n.grantReply).loader = n.loader ∧
    (n.grantReply).link = n.link ∧
    (n.grantReply).cadence = n.cadence ∧
    (n.grantReply).engine = n.engine ∧
    (n.grantReply).taps = n.taps ∧
    (n.grantReply).router = n.router ∧
    (n.grantReply).mixer = n.mixer ∧
    (n.grantReply).port = n.port := by
  unfold Node.grantReply
  (repeat' split) <;> simp [*]

@[simp] theorem Node.restartSlots_leaves (n : Node) :
    (n.restartSlots).loader = n.loader ∧
    (n.restartSlots).link = n.link ∧
    (n.restartSlots).cadence = n.cadence ∧
    (n.restartSlots).engine = n.engine ∧
    (n.restartSlots).taps = n.taps ∧
    (n.restartSlots).router = n.router ∧
    (n.restartSlots).mixer = n.mixer ∧
    (n.restartSlots).port = n.port := by
  unfold Node.restartSlots
  refine ⟨?_, ?_, ?_, ?_, ?_, ?_, ?_, ?_⟩ <;> simp [foldl_leaves]

@[simp] theorem Node.finishParts_leaves (n : Node) :
    (n.finishParts).loader = n.loader ∧
    (n.finishParts).link = n.link ∧
    (n.finishParts).cadence = n.cadence ∧
    (n.finishParts).engine = n.engine ∧
    (n.finishParts).taps = n.taps ∧
    (n.finishParts).router = n.router ∧
    (n.finishParts).mixer = n.mixer ∧
    (n.finishParts).port = n.port := by
  unfold Node.finishParts
  (repeat' split) <;> simp [*]

@[simp] theorem Node.restartMessages_leaves (n : Node) :
    (n.restartMessages).loader = n.loader ∧
    (n.restartMessages).link = n.link ∧
    (n.restartMessages).cadence = n.cadence ∧
    (n.restartMessages).engine = n.engine ∧
    (n.restartMessages).taps = n.taps ∧
    (n.restartMessages).router = n.router ∧
    (n.restartMessages).mixer = n.mixer ∧
    (n.restartMessages).port = n.port := by
  unfold Node.restartMessages
  simp [*]

@[simp] theorem Node.startFollowing_leaves (n : Node) (origin : Station) (h : SixBytes) :
    (n.startFollowing origin h).loader = n.loader ∧
    (n.startFollowing origin h).link = n.link ∧
    (n.startFollowing origin h).messages = n.messages ∧
    (n.startFollowing origin h).taps = n.taps ∧
    (n.startFollowing origin h).router = n.router ∧
    (n.startFollowing origin h).mixer = n.mixer ∧
    (n.startFollowing origin h).talk = n.talk ∧
    (n.startFollowing origin h).port = n.port := by
  unfold Node.startFollowing
  (try dsimp only)
  simp [*]

@[simp] theorem Node.countStale_leaves (n : Node) :
    (n.countStale).loader = n.loader ∧
    (n.countStale).link = n.link ∧
    (n.countStale).engine = n.engine ∧
    (n.countStale).messages = n.messages ∧
    (n.countStale).taps = n.taps ∧
    (n.countStale).router = n.router ∧
    (n.countStale).mixer = n.mixer ∧
    (n.countStale).talk = n.talk ∧
    (n.countStale).reports = n.reports ∧
    (n.countStale).port = n.port := by
  unfold Node.countStale
  simp [*]

@[simp] theorem Node.countHigher_leaves (n : Node) :
    (n.countHigher).loader = n.loader ∧
    (n.countHigher).link = n.link ∧
    (n.countHigher).engine = n.engine ∧
    (n.countHigher).messages = n.messages ∧
    (n.countHigher).taps = n.taps ∧
    (n.countHigher).router = n.router ∧
    (n.countHigher).mixer = n.mixer ∧
    (n.countHigher).talk = n.talk ∧
    (n.countHigher).reports = n.reports ∧
    (n.countHigher).port = n.port := by
  unfold Node.countHigher
  simp [*]

@[simp] theorem Node.repeatTest_leaves (n : Node) (h : SixBytes) :
    (n.repeatTest h).2.loader = n.loader ∧
    (n.repeatTest h).2.link = n.link ∧
    (n.repeatTest h).2.engine = n.engine ∧
    (n.repeatTest h).2.messages = n.messages ∧
    (n.repeatTest h).2.taps = n.taps ∧
    (n.repeatTest h).2.router = n.router ∧
    (n.repeatTest h).2.mixer = n.mixer ∧
    (n.repeatTest h).2.talk = n.talk ∧
    (n.repeatTest h).2.reports = n.reports ∧
    (n.repeatTest h).2.port = n.port := by
  unfold Node.repeatTest
  (try dsimp only)
  (repeat' split) <;> simp [*]

@[simp] theorem Node.proveClaim_leaves (n : Node) (f : Frame) :
    (n.proveClaim f).loader = n.loader ∧
    (n.proveClaim f).link = n.link ∧
    (n.proveClaim f).messages = n.messages ∧
    (n.proveClaim f).taps = n.taps ∧
    (n.proveClaim f).router = n.router ∧
    (n.proveClaim f).mixer = n.mixer ∧
    (n.proveClaim f).talk = n.talk ∧
    (n.proveClaim f).port = n.port := by
  unfold Node.proveClaim
  (try dsimp only)
  simp [*]

@[simp] theorem Node.answerAdmission_leaves (n : Node) (f : Frame) :
    (n.answerAdmission f).2.loader = n.loader ∧
    (n.answerAdmission f).2.link = n.link ∧
    (n.answerAdmission f).2.messages = n.messages ∧
    (n.answerAdmission f).2.taps = n.taps ∧
    (n.answerAdmission f).2.router = n.router ∧
    (n.answerAdmission f).2.mixer = n.mixer ∧
    (n.answerAdmission f).2.talk = n.talk ∧
    (n.answerAdmission f).2.port = n.port := by
  unfold Node.answerAdmission
  (try dsimp only)
  (repeat' split) <;> simp [*]

@[simp] theorem Node.enterWaiting_leaves (n : Node) :
    (n.enterWaiting).loader = n.loader ∧
    (n.enterWaiting).link = n.link ∧
    (n.enterWaiting).messages = n.messages ∧
    (n.enterWaiting).taps = n.taps ∧
    (n.enterWaiting).router = n.router ∧
    (n.enterWaiting).mixer = n.mixer ∧
    (n.enterWaiting).talk = n.talk ∧
    (n.enterWaiting).port = n.port := by
  unfold Node.enterWaiting
  simp [*]

@[simp] theorem Node.starve_leaves (n : Node) :
    (n.starve).loader = n.loader ∧
    (n.starve).link = n.link ∧
    (n.starve).messages = n.messages ∧
    (n.starve).taps = n.taps ∧
    (n.starve).router = n.router ∧
    (n.starve).mixer = n.mixer ∧
    (n.starve).talk = n.talk ∧
    (n.starve).port = n.port := by
  unfold Node.starve
  simp [*]

@[simp] theorem Node.enterAlone_leaves (n : Node) :
    (n.enterAlone).loader = n.loader ∧
    (n.enterAlone).link = n.link ∧
    (n.enterAlone).messages = n.messages ∧
    (n.enterAlone).taps = n.taps ∧
    (n.enterAlone).router = n.router ∧
    (n.enterAlone).mixer = n.mixer ∧
    (n.enterAlone).talk = n.talk ∧
    (n.enterAlone).port = n.port := by
  unfold Node.enterAlone
  simp [*]

@[simp] theorem Node.linkIsUp_leaves (n : Node) :
    (n.linkIsUp).loader = n.loader ∧
    (n.linkIsUp).link = n.link ∧
    (n.linkIsUp).messages = n.messages ∧
    (n.linkIsUp).taps = n.taps ∧
    (n.linkIsUp).router = n.router ∧
    (n.linkIsUp).mixer = n.mixer ∧
    (n.linkIsUp).talk = n.talk ∧
    (n.linkIsUp).port = n.port := by
  unfold Node.linkIsUp
  (try dsimp only)
  (repeat' split) <;> simp [*]

@[simp] theorem Node.enterClaiming_leaves (n : Node) :
    (n.enterClaiming).loader = n.loader ∧
    (n.enterClaiming).link = n.link ∧
    (n.enterClaiming).messages = n.messages ∧
    (n.enterClaiming).taps = n.taps ∧
    (n.enterClaiming).router = n.router ∧
    (n.enterClaiming).mixer = n.mixer ∧
    (n.enterClaiming).talk = n.talk ∧
    (n.enterClaiming).port = n.port := by
  unfold Node.enterClaiming
  simp [*]

@[simp] theorem Node.restartCadence_leaves (n : Node) :
    (n.restartCadence).loader = n.loader ∧
    (n.restartCadence).link = n.link ∧
    (n.restartCadence).engine = n.engine ∧
    (n.restartCadence).messages = n.messages ∧
    (n.restartCadence).taps = n.taps ∧
    (n.restartCadence).router = n.router ∧
    (n.restartCadence).mixer = n.mixer ∧
    (n.restartCadence).talk = n.talk ∧
    (n.restartCadence).port = n.port := by
  unfold Node.restartCadence
  simp [*]

@[simp] theorem Node.takeEvidence_leaves (n : Node) (side : Side) (good : Bool) :
    (n.takeEvidence side good).loader = n.loader ∧
    (n.takeEvidence side good).cadence = n.cadence ∧
    (n.takeEvidence side good).engine = n.engine ∧
    (n.takeEvidence side good).messages = n.messages ∧
    (n.takeEvidence side good).taps = n.taps ∧
    (n.takeEvidence side good).router = n.router ∧
    (n.takeEvidence side good).mixer = n.mixer ∧
    (n.takeEvidence side good).talk = n.talk ∧
    (n.takeEvidence side good).reports = n.reports ∧
    (n.takeEvidence side good).port = n.port := by
  unfold Node.takeEvidence
  (repeat' split) <;> simp [*]

@[simp] theorem Node.postLink_leaves (n : Node) (side : Side) (cause : LinkCause) :
    (n.postLink side cause).loader = n.loader ∧
    (n.postLink side cause).link = n.link ∧
    (n.postLink side cause).cadence = n.cadence ∧
    (n.postLink side cause).engine = n.engine ∧
    (n.postLink side cause).messages = n.messages ∧
    (n.postLink side cause).taps = n.taps ∧
    (n.postLink side cause).router = n.router ∧
    (n.postLink side cause).mixer = n.mixer ∧
    (n.postLink side cause).talk = n.talk ∧
    (n.postLink side cause).port = n.port := by
  unfold Node.postLink
  simp [*]

@[simp] theorem Node.changeFold_leaves (n : Node) (new : FoldState) (side : Side) (early : Bool) :
    (n.changeFold new side early).loader = n.loader ∧
    (n.changeFold new side early).messages = n.messages ∧
    (n.changeFold new side early).taps = n.taps ∧
    (n.changeFold new side early).router = n.router ∧
    (n.changeFold new side early).mixer = n.mixer ∧
    (n.changeFold new side early).talk = n.talk ∧
    (n.changeFold new side early).port = n.port := by
  unfold Node.changeFold
  (try dsimp only)
  (repeat' split) <;> simp [*]

@[simp] theorem Node.foldOnLoss_leaves (n : Node) (side : Side) :
    (n.foldOnLoss side).loader = n.loader ∧
    (n.foldOnLoss side).messages = n.messages ∧
    (n.foldOnLoss side).taps = n.taps ∧
    (n.foldOnLoss side).router = n.router ∧
    (n.foldOnLoss side).mixer = n.mixer ∧
    (n.foldOnLoss side).talk = n.talk ∧
    (n.foldOnLoss side).port = n.port := by
  unfold Node.foldOnLoss
  (repeat' split) <;> simp [*]

@[simp] theorem Node.tryUnfold_leaves (n : Node) (side : Side) :
    (n.tryUnfold side).loader = n.loader ∧
    (n.tryUnfold side).messages = n.messages ∧
    (n.tryUnfold side).taps = n.taps ∧
    (n.tryUnfold side).router = n.router ∧
    (n.tryUnfold side).mixer = n.mixer ∧
    (n.tryUnfold side).talk = n.talk ∧
    (n.tryUnfold side).port = n.port := by
  unfold Node.tryUnfold
  (repeat' split) <;> simp [*]

@[simp] theorem Node.foldOnUp_leaves (n : Node) (side : Side) :
    (n.foldOnUp side).loader = n.loader ∧
    (n.foldOnUp side).messages = n.messages ∧
    (n.foldOnUp side).taps = n.taps ∧
    (n.foldOnUp side).router = n.router ∧
    (n.foldOnUp side).mixer = n.mixer ∧
    (n.foldOnUp side).talk = n.talk ∧
    (n.foldOnUp side).port = n.port := by
  unfold Node.foldOnUp
  (repeat' split) <;> simp [*]

@[simp] theorem Node.startProving_leaves (n : Node) (side : Side) (cause : LinkCause) :
    (n.startProving side cause).loader = n.loader ∧
    (n.startProving side cause).cadence = n.cadence ∧
    (n.startProving side cause).engine = n.engine ∧
    (n.startProving side cause).messages = n.messages ∧
    (n.startProving side cause).taps = n.taps ∧
    (n.startProving side cause).router = n.router ∧
    (n.startProving side cause).mixer = n.mixer ∧
    (n.startProving side cause).talk = n.talk ∧
    (n.startProving side cause).port = n.port := by
  unfold Node.startProving
  simp [*]

@[simp] theorem Node.goDown_leaves (n : Node) (side : Side) (cause : LinkCause) :
    (n.goDown side cause).loader = n.loader ∧
    (n.goDown side cause).messages = n.messages ∧
    (n.goDown side cause).taps = n.taps ∧
    (n.goDown side cause).router = n.router ∧
    (n.goDown side cause).mixer = n.mixer ∧
    (n.goDown side cause).talk = n.talk ∧
    (n.goDown side cause).port = n.port := by
  unfold Node.goDown
  (try dsimp only)
  (repeat' split) <;> simp [*]

@[simp] theorem Node.becomeUp_leaves (n : Node) (side : Side) :
    (n.becomeUp side).loader = n.loader ∧
    (n.becomeUp side).messages = n.messages ∧
    (n.becomeUp side).taps = n.taps ∧
    (n.becomeUp side).router = n.router ∧
    (n.becomeUp side).mixer = n.mixer ∧
    (n.becomeUp side).talk = n.talk ∧
    (n.becomeUp side).port = n.port := by
  unfold Node.becomeUp
  simp [*]

@[simp] theorem Node.gainLock_leaves (n : Node) (side : Side) :
    (n.gainLock side).loader = n.loader ∧
    (n.gainLock side).cadence = n.cadence ∧
    (n.gainLock side).engine = n.engine ∧
    (n.gainLock side).messages = n.messages ∧
    (n.gainLock side).taps = n.taps ∧
    (n.gainLock side).router = n.router ∧
    (n.gainLock side).mixer = n.mixer ∧
    (n.gainLock side).talk = n.talk ∧
    (n.gainLock side).port = n.port := by
  unfold Node.gainLock
  (try dsimp only)
  (repeat' split) <;> simp [*]

@[simp] theorem Node.loseLock_leaves (n : Node) (side : Side) :
    (n.loseLock side).loader = n.loader ∧
    (n.loseLock side).messages = n.messages ∧
    (n.loseLock side).taps = n.taps ∧
    (n.loseLock side).router = n.router ∧
    (n.loseLock side).mixer = n.mixer ∧
    (n.loseLock side).talk = n.talk ∧
    (n.loseLock side).port = n.port := by
  unfold Node.loseLock
  (try dsimp only)
  simp [*]

@[simp] theorem Node.reArm_leaves (n : Node) (side : Side) :
    (n.reArm side).loader = n.loader ∧
    (n.reArm side).cadence = n.cadence ∧
    (n.reArm side).engine = n.engine ∧
    (n.reArm side).messages = n.messages ∧
    (n.reArm side).taps = n.taps ∧
    (n.reArm side).router = n.router ∧
    (n.reArm side).mixer = n.mixer ∧
    (n.reArm side).talk = n.talk ∧
    (n.reArm side).port = n.port := by
  unfold Node.reArm
  (repeat' split) <;> simp [*]

@[simp] theorem Node.takeBeacon_leaves (n : Node) (side : Side) (b : Beacon) :
    (n.takeBeacon side b).loader = n.loader ∧
    (n.takeBeacon side b).messages = n.messages ∧
    (n.takeBeacon side b).taps = n.taps ∧
    (n.takeBeacon side b).router = n.router ∧
    (n.takeBeacon side b).mixer = n.mixer ∧
    (n.takeBeacon side b).talk = n.talk ∧
    (n.takeBeacon side b).port = n.port := by
  unfold Node.takeBeacon
  (try dsimp only)
  (repeat' split) <;> simp [*]

@[simp] theorem Node.earlyUnfold_leaves (n : Node) :
    (n.earlyUnfold).loader = n.loader ∧
    (n.earlyUnfold).messages = n.messages ∧
    (n.earlyUnfold).taps = n.taps ∧
    (n.earlyUnfold).router = n.router ∧
    (n.earlyUnfold).mixer = n.mixer ∧
    (n.earlyUnfold).talk = n.talk ∧
    (n.earlyUnfold).port = n.port := by
  unfold Node.earlyUnfold
  (try dsimp only)
  simp [*]

@[simp] theorem Node.sendBeacon_leaves (n : Node) (side : Side) :
    (n.sendBeacon side).loader = n.loader ∧
    (n.sendBeacon side).cadence = n.cadence ∧
    (n.sendBeacon side).engine = n.engine ∧
    (n.sendBeacon side).messages = n.messages ∧
    (n.sendBeacon side).taps = n.taps ∧
    (n.sendBeacon side).router = n.router ∧
    (n.sendBeacon side).mixer = n.mixer ∧
    (n.sendBeacon side).talk = n.talk ∧
    (n.sendBeacon side).reports = n.reports ∧
    (n.sendBeacon side).port = n.port := by
  unfold Node.sendBeacon
  (repeat' split) <;> simp [*]

@[simp] theorem Node.reArmIfHeard_leaves (n : Node) (side : Side) :
    (n.reArmIfHeard side).loader = n.loader ∧
    (n.reArmIfHeard side).cadence = n.cadence ∧
    (n.reArmIfHeard side).engine = n.engine ∧
    (n.reArmIfHeard side).messages = n.messages ∧
    (n.reArmIfHeard side).taps = n.taps ∧
    (n.reArmIfHeard side).router = n.router ∧
    (n.reArmIfHeard side).mixer = n.mixer ∧
    (n.reArmIfHeard side).talk = n.talk ∧
    (n.reArmIfHeard side).port = n.port := by
  unfold Node.reArmIfHeard
  (repeat' split) <;> simp [*]

@[simp] theorem Node.endQuiet_leaves (n : Node) :
    (n.endQuiet).loader = n.loader ∧
    (n.endQuiet).cadence = n.cadence ∧
    (n.endQuiet).engine = n.engine ∧
    (n.endQuiet).messages = n.messages ∧
    (n.endQuiet).taps = n.taps ∧
    (n.endQuiet).router = n.router ∧
    (n.endQuiet).mixer = n.mixer ∧
    (n.endQuiet).talk = n.talk ∧
    (n.endQuiet).port = n.port := by
  unfold Node.endQuiet
  (try dsimp only)
  simp [*]

@[simp] theorem Node.restartSide_leaves (n : Node) (side : Side) :
    (n.restartSide side).loader = n.loader ∧
    (n.restartSide side).cadence = n.cadence ∧
    (n.restartSide side).engine = n.engine ∧
    (n.restartSide side).messages = n.messages ∧
    (n.restartSide side).taps = n.taps ∧
    (n.restartSide side).router = n.router ∧
    (n.restartSide side).mixer = n.mixer ∧
    (n.restartSide side).talk = n.talk ∧
    (n.restartSide side).port = n.port := by
  unfold Node.restartSide
  (try dsimp only)
  (repeat' split) <;> simp [*]

@[simp] theorem Node.restartLinks_leaves (n : Node) :
    (n.restartLinks).loader = n.loader ∧
    (n.restartLinks).cadence = n.cadence ∧
    (n.restartLinks).engine = n.engine ∧
    (n.restartLinks).messages = n.messages ∧
    (n.restartLinks).taps = n.taps ∧
    (n.restartLinks).router = n.router ∧
    (n.restartLinks).mixer = n.mixer ∧
    (n.restartLinks).talk = n.talk ∧
    (n.restartLinks).port = n.port := by
  unfold Node.restartLinks
  (try dsimp only)
  (repeat' split) <;> simp [*]

@[simp] theorem Node.countSegmentError_leaves (n : Node) :
    (n.countSegmentError).loader = n.loader ∧
    (n.countSegmentError).link = n.link ∧
    (n.countSegmentError).cadence = n.cadence ∧
    (n.countSegmentError).messages = n.messages ∧
    (n.countSegmentError).taps = n.taps ∧
    (n.countSegmentError).router = n.router ∧
    (n.countSegmentError).mixer = n.mixer ∧
    (n.countSegmentError).talk = n.talk ∧
    (n.countSegmentError).reports = n.reports ∧
    (n.countSegmentError).port = n.port := by
  unfold Node.countSegmentError
  simp [*]

@[simp] theorem Node.learnLayout_leaves (n : Node) (source : Station) (s : Segment) :
    (n.learnLayout source s).loader = n.loader ∧
    (n.learnLayout source s).link = n.link ∧
    (n.learnLayout source s).cadence = n.cadence ∧
    (n.learnLayout source s).messages = n.messages ∧
    (n.learnLayout source s).taps = n.taps ∧
    (n.learnLayout source s).router = n.router ∧
    (n.learnLayout source s).mixer = n.mixer ∧
    (n.learnLayout source s).talk = n.talk ∧
    (n.learnLayout source s).reports = n.reports ∧
    (n.learnLayout source s).port = n.port := by
  unfold Node.learnLayout
  (repeat' split) <;> simp [*]

@[simp] theorem Node.deliver_leaves (n : Node) (source : Station) (s : Segment) :
    (n.deliver source s).loader = n.loader ∧
    (n.deliver source s).link = n.link ∧
    (n.deliver source s).cadence = n.cadence ∧
    (n.deliver source s).engine = n.engine ∧
    (n.deliver source s).messages = n.messages ∧
    (n.deliver source s).router = n.router ∧
    (n.deliver source s).mixer = n.mixer ∧
    (n.deliver source s).talk = n.talk ∧
    (n.deliver source s).reports = n.reports ∧
    (n.deliver source s).port = n.port := by
  unfold Node.deliver
  exact ⟨by refine foldl_leaves Node.loader ?_ _ _; intro _ _; rfl,
    by refine foldl_leaves Node.link ?_ _ _; intro _ _; rfl,
    by refine foldl_leaves Node.cadence ?_ _ _; intro _ _; rfl,
    by refine foldl_leaves Node.engine ?_ _ _; intro _ _; rfl,
    by refine foldl_leaves Node.messages ?_ _ _; intro _ _; rfl,
    by refine foldl_leaves Node.router ?_ _ _; intro _ _; rfl,
    by refine foldl_leaves Node.mixer ?_ _ _; intro _ _; rfl,
    by refine foldl_leaves Node.talk ?_ _ _; intro _ _; rfl,
    by refine foldl_leaves Node.reports ?_ _ _; intro _ _; rfl,
    by refine foldl_leaves Node.port ?_ _ _; intro _ _; rfl⟩

@[simp] theorem Node.extractGood_leaves (n : Node) (source : Station) (s : Segment) :
    (n.extractGood source s).2.loader = n.loader ∧
    (n.extractGood source s).2.link = n.link ∧
    (n.extractGood source s).2.cadence = n.cadence ∧
    (n.extractGood source s).2.router = n.router ∧
    (n.extractGood source s).2.mixer = n.mixer ∧
    (n.extractGood source s).2.port = n.port := by
  unfold Node.extractGood
  (try dsimp only)
  simp [*]

@[simp] theorem Node.extract_leaves (n : Node) (s : Segment) :
    (n.extract s).2.loader = n.loader ∧
    (n.extract s).2.link = n.link ∧
    (n.extract s).2.cadence = n.cadence ∧
    (n.extract s).2.router = n.router ∧
    (n.extract s).2.mixer = n.mixer ∧
    (n.extract s).2.port = n.port := by
  unfold Node.extract
  (repeat' split) <;> simp [*]

@[simp] theorem extractAll_leaves (ss : List Segment) (n : Node) :
    (extractAll ss n).2.loader = n.loader ∧
    (extractAll ss n).2.link = n.link ∧
    (extractAll ss n).2.cadence = n.cadence ∧
    (extractAll ss n).2.router = n.router ∧
    (extractAll ss n).2.mixer = n.mixer ∧
    (extractAll ss n).2.port = n.port := by
  induction ss generalizing n with
  | nil => simp [extractAll]
  | cons u ss ih => simp [extractAll, ih]

@[simp] theorem Node.strip_leaves (n : Node) (ss : List Segment) :
    (n.strip ss).2.loader = n.loader ∧
    (n.strip ss).2.link = n.link ∧
    (n.strip ss).2.cadence = n.cadence ∧
    (n.strip ss).2.engine = n.engine ∧
    (n.strip ss).2.taps = n.taps ∧
    (n.strip ss).2.router = n.router ∧
    (n.strip ss).2.mixer = n.mixer ∧
    (n.strip ss).2.port = n.port := by
  unfold Node.strip
  refine ⟨?_, ?_, ?_, ?_, ?_, ?_, ?_, ?_⟩ <;> (try dsimp only) <;> simp [foldl_leaves]

@[simp] theorem Node.appendSegment_leaves (n : Node) (room : Nat) (p : AppendPlan) :
    (n.appendSegment room p).2.loader = n.loader ∧
    (n.appendSegment room p).2.link = n.link ∧
    (n.appendSegment room p).2.cadence = n.cadence ∧
    (n.appendSegment room p).2.taps = n.taps ∧
    (n.appendSegment room p).2.router = n.router ∧
    (n.appendSegment room p).2.mixer = n.mixer ∧
    (n.appendSegment room p).2.talk = n.talk ∧
    (n.appendSegment room p).2.reports = n.reports ∧
    (n.appendSegment room p).2.port = n.port := by
  unfold Node.appendSegment
  (try dsimp only)
  (repeat' split) <;> simp [*]

@[simp] theorem Node.append_leaves (n : Node) (units : Nat) :
    (n.append units).2.loader = n.loader ∧
    (n.append units).2.link = n.link ∧
    (n.append units).2.cadence = n.cadence ∧
    (n.append units).2.taps = n.taps ∧
    (n.append units).2.router = n.router ∧
    (n.append units).2.mixer = n.mixer ∧
    (n.append units).2.talk = n.talk ∧
    (n.append units).2.reports = n.reports ∧
    (n.append units).2.port = n.port := by
  unfold Node.append
  (try dsimp only)
  (repeat' split) <;> simp [*]

@[simp] theorem Node.forward_leaves (n : Node) (h : SixBytes) (body : List FrameUnit) :
    (n.forward h body).loader = n.loader ∧
    (n.forward h body).cadence = n.cadence ∧
    (n.forward h body).engine = n.engine ∧
    (n.forward h body).messages = n.messages ∧
    (n.forward h body).taps = n.taps ∧
    (n.forward h body).router = n.router ∧
    (n.forward h body).mixer = n.mixer ∧
    (n.forward h body).talk = n.talk ∧
    (n.forward h body).reports = n.reports ∧
    (n.forward h body).port = n.port := by
  unfold Node.forward
  (repeat' split) <;> simp [*]

@[simp] theorem Node.passSegments_leaves (n : Node) (h : SixBytes) (ss : List Segment) :
    (n.passSegments h ss).loader = n.loader ∧
    (n.passSegments h ss).cadence = n.cadence ∧
    (n.passSegments h ss).router = n.router ∧
    (n.passSegments h ss).mixer = n.mixer ∧
    (n.passSegments h ss).port = n.port := by
  unfold Node.passSegments
  (try dsimp only)
  simp [*]

@[simp] theorem Node.cutSpan_leaves (n : Node) (cut : Bool) :
    (n.cutSpan cut).loader = n.loader ∧
    (n.cutSpan cut).link = n.link ∧
    (n.cutSpan cut).cadence = n.cadence ∧
    (n.cutSpan cut).messages = n.messages ∧
    (n.cutSpan cut).taps = n.taps ∧
    (n.cutSpan cut).router = n.router ∧
    (n.cutSpan cut).mixer = n.mixer ∧
    (n.cutSpan cut).talk = n.talk ∧
    (n.cutSpan cut).reports = n.reports ∧
    (n.cutSpan cut).port = n.port := by
  unfold Node.cutSpan
  (repeat' split) <;> simp [*]

@[simp] theorem Node.passFrame_leaves (n : Node) (f : Frame) :
    (n.passFrame f).loader = n.loader ∧
    (n.passFrame f).cadence = n.cadence ∧
    (n.passFrame f).router = n.router ∧
    (n.passFrame f).mixer = n.mixer ∧
    (n.passFrame f).port = n.port := by
  unfold Node.passFrame
  (try dsimp only)
  simp [*]

@[simp] theorem Node.primaryPass_leaves (n : Node) (f : Frame) :
    (n.primaryPass f).loader = n.loader ∧
    (n.primaryPass f).router = n.router ∧
    (n.primaryPass f).mixer = n.mixer ∧
    (n.primaryPass f).port = n.port := by
  unfold Node.primaryPass
  (try dsimp only)
  (repeat' split) <;> simp [*]

@[simp] theorem Node.sendOwn_leaves (n : Node) (origin : Station) (rebuilt : Bool) :
    (n.sendOwn origin rebuilt).loader = n.loader ∧
    (n.sendOwn origin rebuilt).cadence = n.cadence ∧
    (n.sendOwn origin rebuilt).router = n.router ∧
    (n.sendOwn origin rebuilt).mixer = n.mixer ∧
    (n.sendOwn origin rebuilt).port = n.port := by
  unfold Node.sendOwn
  simp [*]

@[simp] theorem Node.reEmit_leaves (n : Node) (f : Frame) :
    (n.reEmit f).loader = n.loader ∧
    (n.reEmit f).cadence = n.cadence ∧
    (n.reEmit f).router = n.router ∧
    (n.reEmit f).mixer = n.mixer ∧
    (n.reEmit f).port = n.port := by
  unfold Node.reEmit
  refine ⟨?_, ?_, ?_, ?_, ?_⟩ <;> (try dsimp only) <;> simp

@[simp] theorem Node.emit_leaves (n : Node) :
    (n.emit).loader = n.loader ∧
    (n.emit).router = n.router ∧
    (n.emit).mixer = n.mixer ∧
    (n.emit).port = n.port := by
  unfold Node.emit
  (repeat' split) <;> simp [*]

@[simp] theorem Node.badHeadFrame_leaves (n : Node) :
    (n.badHeadFrame).loader = n.loader ∧
    (n.badHeadFrame).cadence = n.cadence ∧
    (n.badHeadFrame).router = n.router ∧
    (n.badHeadFrame).mixer = n.mixer ∧
    (n.badHeadFrame).port = n.port := by
  unfold Node.badHeadFrame
  (try dsimp only)
  (repeat' split) <;> simp [*]

@[simp] theorem Node.passThrough_leaves (n : Node) (f : Frame) :
    (n.passThrough f).loader = n.loader ∧
    (n.passThrough f).cadence = n.cadence ∧
    (n.passThrough f).messages = n.messages ∧
    (n.passThrough f).taps = n.taps ∧
    (n.passThrough f).router = n.router ∧
    (n.passThrough f).mixer = n.mixer ∧
    (n.passThrough f).talk = n.talk ∧
    (n.passThrough f).reports = n.reports ∧
    (n.passThrough f).port = n.port := by
  unfold Node.passThrough
  (repeat' split) <;> simp [*]

@[simp] theorem Node.westFrame_leaves (n : Node) (f : Frame) :
    (n.westFrame f).loader = n.loader ∧
    (n.westFrame f).router = n.router ∧
    (n.westFrame f).mixer = n.mixer ∧
    (n.westFrame f).port = n.port := by
  unfold Node.westFrame
  (repeat' split) <;> simp [*]

@[simp] theorem Node.eastFrame_leaves (n : Node) (f : Frame) :
    (n.eastFrame f).loader = n.loader ∧
    (n.eastFrame f).router = n.router ∧
    (n.eastFrame f).mixer = n.mixer ∧
    (n.eastFrame f).port = n.port := by
  unfold Node.eastFrame
  (repeat' split) <;> simp [*]

@[simp] theorem Node.sortFrame_leaves (n : Node) (side : Side) (f : Frame) :
    (n.sortFrame side f).loader = n.loader ∧
    (n.sortFrame side f).router = n.router ∧
    (n.sortFrame side f).mixer = n.mixer ∧
    (n.sortFrame side f).port = n.port := by
  unfold Node.sortFrame
  (repeat' split) <;> simp [*]

@[simp] theorem Node.storeCapture_leaves (n : Node) (c : CaptureFrame) :
    (n.storeCapture c).loader = n.loader ∧
    (n.storeCapture c).link = n.link ∧
    (n.storeCapture c).cadence = n.cadence ∧
    (n.storeCapture c).messages = n.messages ∧
    (n.storeCapture c).taps = n.taps ∧
    (n.storeCapture c).router = n.router ∧
    (n.storeCapture c).mixer = n.mixer ∧
    (n.storeCapture c).talk = n.talk ∧
    (n.storeCapture c).reports = n.reports ∧
    (n.storeCapture c).port = n.port := by
  unfold Node.storeCapture
  (try dsimp only)
  (repeat' split) <;> simp [*]

@[simp] theorem Node.restartEngine_leaves (n : Node) :
    (n.restartEngine).loader = n.loader ∧
    (n.restartEngine).link = n.link ∧
    (n.restartEngine).cadence = n.cadence ∧
    (n.restartEngine).messages = n.messages ∧
    (n.restartEngine).taps = n.taps ∧
    (n.restartEngine).router = n.router ∧
    (n.restartEngine).mixer = n.mixer ∧
    (n.restartEngine).talk = n.talk ∧
    (n.restartEngine).reports = n.reports ∧
    (n.restartEngine).port = n.port := by
  unfold Node.restartEngine
  simp [*]

@[simp] theorem Node.capture_leaves (n : Node) (lanes : LaneBlock) :
    (n.capture lanes).loader = n.loader ∧
    (n.capture lanes).link = n.link ∧
    (n.capture lanes).cadence = n.cadence ∧
    (n.capture lanes).messages = n.messages ∧
    (n.capture lanes).taps = n.taps ∧
    (n.capture lanes).mixer = n.mixer ∧
    (n.capture lanes).talk = n.talk ∧
    (n.capture lanes).reports = n.reports ∧
    (n.capture lanes).port = n.port := by
  unfold Node.capture
  (try dsimp only)
  simp [*]

@[simp] theorem Node.readEntries_leaves (n : Node) :
    (n.readEntries).loader = n.loader ∧
    (n.readEntries).link = n.link ∧
    (n.readEntries).cadence = n.cadence ∧
    (n.readEntries).engine = n.engine ∧
    (n.readEntries).messages = n.messages ∧
    (n.readEntries).router = n.router ∧
    (n.readEntries).mixer = n.mixer ∧
    (n.readEntries).talk = n.talk ∧
    (n.readEntries).reports = n.reports ∧
    (n.readEntries).port = n.port := by
  unfold Node.readEntries
  refine ⟨?_, ?_, ?_, ?_, ?_, ?_, ?_, ?_, ?_, ?_⟩ <;> simp

@[simp] theorem Node.changeDelay_leaves (n : Node) (new : Nat) (cause : DelayCause) :
    (n.changeDelay new cause).loader = n.loader ∧
    (n.changeDelay new cause).link = n.link ∧
    (n.changeDelay new cause).cadence = n.cadence ∧
    (n.changeDelay new cause).engine = n.engine ∧
    (n.changeDelay new cause).messages = n.messages ∧
    (n.changeDelay new cause).router = n.router ∧
    (n.changeDelay new cause).mixer = n.mixer ∧
    (n.changeDelay new cause).talk = n.talk ∧
    (n.changeDelay new cause).port = n.port := by
  unfold Node.changeDelay
  simp [*]

@[simp] theorem Node.settleRaise_leaves (n : Node) :
    (n.settleRaise).loader = n.loader ∧
    (n.settleRaise).link = n.link ∧
    (n.settleRaise).cadence = n.cadence ∧
    (n.settleRaise).engine = n.engine ∧
    (n.settleRaise).messages = n.messages ∧
    (n.settleRaise).router = n.router ∧
    (n.settleRaise).mixer = n.mixer ∧
    (n.settleRaise).talk = n.talk ∧
    (n.settleRaise).port = n.port := by
  unfold Node.settleRaise
  (try dsimp only)
  (repeat' split) <;> simp [*]

@[simp] theorem Node.endWindow_leaves (n : Node) :
    (n.endWindow).loader = n.loader ∧
    (n.endWindow).link = n.link ∧
    (n.endWindow).cadence = n.cadence ∧
    (n.endWindow).engine = n.engine ∧
    (n.endWindow).messages = n.messages ∧
    (n.endWindow).router = n.router ∧
    (n.endWindow).mixer = n.mixer ∧
    (n.endWindow).talk = n.talk ∧
    (n.endWindow).port = n.port := by
  unfold Node.endWindow
  (try dsimp only)
  (repeat' split) <;> simp [*]

@[simp] theorem Node.returnPrimary_leaves (n : Node) (e : EntryNo) (cause : ReturnCause) :
    (n.returnPrimary e cause).loader = n.loader ∧
    (n.returnPrimary e cause).link = n.link ∧
    (n.returnPrimary e cause).cadence = n.cadence ∧
    (n.returnPrimary e cause).engine = n.engine ∧
    (n.returnPrimary e cause).messages = n.messages ∧
    (n.returnPrimary e cause).router = n.router ∧
    (n.returnPrimary e cause).mixer = n.mixer ∧
    (n.returnPrimary e cause).talk = n.talk ∧
    (n.returnPrimary e cause).port = n.port := by
  unfold Node.returnPrimary
  (repeat' split) <;> simp [*]

@[simp] theorem Node.fallBack_leaves (n : Node) (e : EntryNo) :
    (n.fallBack e).loader = n.loader ∧
    (n.fallBack e).link = n.link ∧
    (n.fallBack e).cadence = n.cadence ∧
    (n.fallBack e).engine = n.engine ∧
    (n.fallBack e).messages = n.messages ∧
    (n.fallBack e).router = n.router ∧
    (n.fallBack e).mixer = n.mixer ∧
    (n.fallBack e).talk = n.talk ∧
    (n.fallBack e).port = n.port := by
  unfold Node.fallBack
  (repeat' split) <;> simp [*]

@[simp] theorem Node.decideFallback_leaves (n : Node) (e : EntryNo) :
    (n.decideFallback e).loader = n.loader ∧
    (n.decideFallback e).link = n.link ∧
    (n.decideFallback e).cadence = n.cadence ∧
    (n.decideFallback e).engine = n.engine ∧
    (n.decideFallback e).messages = n.messages ∧
    (n.decideFallback e).router = n.router ∧
    (n.decideFallback e).mixer = n.mixer ∧
    (n.decideFallback e).talk = n.talk ∧
    (n.decideFallback e).port = n.port := by
  unfold Node.decideFallback
  (try dsimp only)
  (repeat' split) <;> simp [*]

@[simp] theorem Node.localAudio_leaves (n : Node) :
    (n.localAudio).1.loader = n.loader ∧
    (n.localAudio).1.link = n.link ∧
    (n.localAudio).1.cadence = n.cadence ∧
    (n.localAudio).1.engine = n.engine ∧
    (n.localAudio).1.messages = n.messages ∧
    (n.localAudio).1.taps = n.taps ∧
    (n.localAudio).1.mixer = n.mixer ∧
    (n.localAudio).1.talk = n.talk ∧
    (n.localAudio).1.reports = n.reports ∧
    (n.localAudio).1.port = n.port := by
  unfold Node.localAudio
  (try dsimp only)
  (repeat' split) <;> simp [*]

@[simp] theorem Node.formSlots_leaves (n : Node) (locals : CaptureFrame) :
    (n.formSlots locals).loader = n.loader ∧
    (n.formSlots locals).link = n.link ∧
    (n.formSlots locals).cadence = n.cadence ∧
    (n.formSlots locals).engine = n.engine ∧
    (n.formSlots locals).messages = n.messages ∧
    (n.formSlots locals).taps = n.taps ∧
    (n.formSlots locals).mixer = n.mixer ∧
    (n.formSlots locals).talk = n.talk ∧
    (n.formSlots locals).reports = n.reports ∧
    (n.formSlots locals).port = n.port := by
  unfold Node.formSlots
  simp [*]

@[simp] theorem Node.computeMixes_leaves (n : Node) :
    (n.computeMixes).loader = n.loader ∧
    (n.computeMixes).link = n.link ∧
    (n.computeMixes).cadence = n.cadence ∧
    (n.computeMixes).engine = n.engine ∧
    (n.computeMixes).messages = n.messages ∧
    (n.computeMixes).taps = n.taps ∧
    (n.computeMixes).router = n.router ∧
    (n.computeMixes).talk = n.talk ∧
    (n.computeMixes).reports = n.reports ∧
    (n.computeMixes).port = n.port := by
  unfold Node.computeMixes
  (try dsimp only)
  simp [*]

@[simp] theorem Node.formOutputs_leaves (n : Node) :
    (n.formOutputs).loader = n.loader ∧
    (n.formOutputs).link = n.link ∧
    (n.formOutputs).cadence = n.cadence ∧
    (n.formOutputs).engine = n.engine ∧
    (n.formOutputs).messages = n.messages ∧
    (n.formOutputs).taps = n.taps ∧
    (n.formOutputs).mixer = n.mixer ∧
    (n.formOutputs).talk = n.talk ∧
    (n.formOutputs).reports = n.reports ∧
    (n.formOutputs).port = n.port := by
  unfold Node.formOutputs
  simp [*]

@[simp] theorem Node.formAudio_leaves (n : Node) :
    (n.formAudio).loader = n.loader ∧
    (n.formAudio).link = n.link ∧
    (n.formAudio).cadence = n.cadence ∧
    (n.formAudio).engine = n.engine ∧
    (n.formAudio).messages = n.messages ∧
    (n.formAudio).taps = n.taps ∧
    (n.formAudio).talk = n.talk ∧
    (n.formAudio).reports = n.reports ∧
    (n.formAudio).port = n.port := by
  unfold Node.formAudio
  (try dsimp only)
  simp [*]

@[simp] theorem Node.restartTaps_leaves (n : Node) :
    (n.restartTaps).loader = n.loader ∧
    (n.restartTaps).link = n.link ∧
    (n.restartTaps).cadence = n.cadence ∧
    (n.restartTaps).engine = n.engine ∧
    (n.restartTaps).messages = n.messages ∧
    (n.restartTaps).router = n.router ∧
    (n.restartTaps).mixer = n.mixer ∧
    (n.restartTaps).talk = n.talk ∧
    (n.restartTaps).port = n.port := by
  unfold Node.restartTaps
  (try dsimp only)
  (repeat' split) <;> simp [*]

@[simp] theorem Node.takeValues_leaves (n : Node) (v : Image) :
    (n.takeValues v).link = n.link ∧
    (n.takeValues v).cadence = n.cadence ∧
    (n.takeValues v).engine = n.engine ∧
    (n.takeValues v).messages = n.messages ∧
    (n.takeValues v).talk = n.talk ∧
    (n.takeValues v).reports = n.reports ∧
    (n.takeValues v).port = n.port := by
  unfold Node.takeValues
  (try dsimp only)
  simp [*]

@[simp] theorem Node.startSide_leaves (n : Node) (side : Side) :
    (n.startSide side).loader = n.loader ∧
    (n.startSide side).cadence = n.cadence ∧
    (n.startSide side).engine = n.engine ∧
    (n.startSide side).messages = n.messages ∧
    (n.startSide side).taps = n.taps ∧
    (n.startSide side).router = n.router ∧
    (n.startSide side).mixer = n.mixer ∧
    (n.startSide side).talk = n.talk ∧
    (n.startSide side).port = n.port := by
  unfold Node.startSide
  (try dsimp only)
  (repeat' split) <;> simp [*]

@[simp] theorem Node.finishLoad_leaves (n : Node) (flash : List Byte) (straps : BitVec 4) :
    (n.finishLoad flash straps).cadence = n.cadence ∧
    (n.finishLoad flash straps).engine = n.engine ∧
    (n.finishLoad flash straps).messages = n.messages ∧
    (n.finishLoad flash straps).talk = n.talk ∧
    (n.finishLoad flash straps).port = n.port := by
  unfold Node.finishLoad
  (try dsimp only)
  simp [*]

@[simp] theorem Node.openBoundary_leaves (n : Node) (lanes : LaneBlock) (pins : Table 4 Bool) :
    (n.openBoundary lanes pins).loader = n.loader ∧
    (n.openBoundary lanes pins).mixer = n.mixer ∧
    (n.openBoundary lanes pins).reports = n.reports ∧
    (n.openBoundary lanes pins).port = n.port := by
  unfold Node.openBoundary
  (try dsimp only)
  simp [*]

@[simp] theorem Node.countMark_leaves (n : Node) :
    (n.countMark).loader = n.loader ∧
    (n.countMark).engine = n.engine ∧
    (n.countMark).router = n.router ∧
    (n.countMark).reports = n.reports ∧
    (n.countMark).port = n.port := by
  unfold Node.countMark
  (try dsimp only)
  simp [*]

@[simp] theorem Node.pressKey_leaves (n : Node) (k : Fin 4) :
    (n.pressKey k).loader = n.loader ∧
    (n.pressKey k).link = n.link ∧
    (n.pressKey k).cadence = n.cadence ∧
    (n.pressKey k).engine = n.engine ∧
    (n.pressKey k).taps = n.taps ∧
    (n.pressKey k).router = n.router ∧
    (n.pressKey k).mixer = n.mixer ∧
    (n.pressKey k).reports = n.reports ∧
    (n.pressKey k).port = n.port := by
  unfold Node.pressKey
  (repeat' split) <;> simp [*]

@[simp] theorem Node.releaseKey_leaves (n : Node) (k : Fin 4) :
    (n.releaseKey k).loader = n.loader ∧
    (n.releaseKey k).link = n.link ∧
    (n.releaseKey k).cadence = n.cadence ∧
    (n.releaseKey k).engine = n.engine ∧
    (n.releaseKey k).taps = n.taps ∧
    (n.releaseKey k).router = n.router ∧
    (n.releaseKey k).mixer = n.mixer ∧
    (n.releaseKey k).reports = n.reports ∧
    (n.releaseKey k).port = n.port := by
  unfold Node.releaseKey
  (try dsimp only)
  (repeat' split) <;> simp [*]

@[simp] theorem Node.keepKey_leaves (n : Node) (k : Fin 4) :
    (n.keepKey k).loader = n.loader ∧
    (n.keepKey k).link = n.link ∧
    (n.keepKey k).cadence = n.cadence ∧
    (n.keepKey k).engine = n.engine ∧
    (n.keepKey k).taps = n.taps ∧
    (n.keepKey k).router = n.router ∧
    (n.keepKey k).mixer = n.mixer ∧
    (n.keepKey k).reports = n.reports ∧
    (n.keepKey k).port = n.port := by
  unfold Node.keepKey
  simp [*]

@[simp] theorem Node.completeWalk_leaves (n : Node) :
    (n.completeWalk).loader = n.loader ∧
    (n.completeWalk).link = n.link ∧
    (n.completeWalk).cadence = n.cadence ∧
    (n.completeWalk).engine = n.engine ∧
    (n.completeWalk).router = n.router ∧
    (n.completeWalk).mixer = n.mixer ∧
    (n.completeWalk).port = n.port := by
  unfold Node.completeWalk
  (repeat' split) <;> simp [*]

@[simp] theorem Node.endTransfer_leaves (n : Node) (bits : Nat) :
    (n.endTransfer bits).loader = n.loader ∧
    (n.endTransfer bits).link = n.link ∧
    (n.endTransfer bits).cadence = n.cadence ∧
    (n.endTransfer bits).engine = n.engine ∧
    (n.endTransfer bits).messages = n.messages ∧
    (n.endTransfer bits).taps = n.taps ∧
    (n.endTransfer bits).router = n.router ∧
    (n.endTransfer bits).mixer = n.mixer ∧
    (n.endTransfer bits).talk = n.talk ∧
    (n.endTransfer bits).reports = n.reports := by
  unfold Node.endTransfer
  simp [*]

@[simp] theorem Node.beginTransfer_leaves (n : Node) :
    (n.beginTransfer).loader = n.loader ∧
    (n.beginTransfer).link = n.link ∧
    (n.beginTransfer).cadence = n.cadence ∧
    (n.beginTransfer).engine = n.engine ∧
    (n.beginTransfer).messages = n.messages ∧
    (n.beginTransfer).taps = n.taps ∧
    (n.beginTransfer).router = n.router ∧
    (n.beginTransfer).mixer = n.mixer ∧
    (n.beginTransfer).talk = n.talk ∧
    (n.beginTransfer).reports = n.reports := by
  unfold Node.beginTransfer
  (repeat' split) <;> simp [*]

@[simp] theorem Node.completeOperation_leaves (n : Node) (op : Byte) :
    (n.completeOperation op).loader = n.loader ∧
    (n.completeOperation op).link = n.link ∧
    (n.completeOperation op).cadence = n.cadence ∧
    (n.completeOperation op).engine = n.engine ∧
    (n.completeOperation op).messages = n.messages ∧
    (n.completeOperation op).taps = n.taps ∧
    (n.completeOperation op).router = n.router ∧
    (n.completeOperation op).mixer = n.mixer ∧
    (n.completeOperation op).talk = n.talk ∧
    (n.completeOperation op).reports = n.reports := by
  unfold Node.completeOperation
  (repeat' split) <;> simp [*]

@[simp] theorem Node.hold_leaves (n : Node) (h : HeldStatus) :
    (n.hold h).loader = n.loader ∧
    (n.hold h).link = n.link ∧
    (n.hold h).cadence = n.cadence ∧
    (n.hold h).engine = n.engine ∧
    (n.hold h).messages = n.messages ∧
    (n.hold h).taps = n.taps ∧
    (n.hold h).router = n.router ∧
    (n.hold h).mixer = n.mixer ∧
    (n.hold h).talk = n.talk ∧
    (n.hold h).reports = n.reports := by
  unfold Node.hold
  simp [*]

@[simp] theorem Node.judgeSend_leaves (n : Node) (u : FrameUnit) :
    (n.judgeSend u).loader = n.loader ∧
    (n.judgeSend u).link = n.link ∧
    (n.judgeSend u).cadence = n.cadence ∧
    (n.judgeSend u).engine = n.engine ∧
    (n.judgeSend u).taps = n.taps ∧
    (n.judgeSend u).router = n.router ∧
    (n.judgeSend u).mixer = n.mixer ∧
    (n.judgeSend u).talk = n.talk ∧
    (n.judgeSend u).reports = n.reports := by
  unfold Node.judgeSend
  (repeat' split) <;> first
    | (rename_i h; rw [Node.selfAddress_eq h]; simp)
    | simp

@[simp] theorem Node.removeReport_leaves (n : Node) :
    (n.removeReport).loader = n.loader ∧
    (n.removeReport).link = n.link ∧
    (n.removeReport).cadence = n.cadence ∧
    (n.removeReport).engine = n.engine ∧
    (n.removeReport).messages = n.messages ∧
    (n.removeReport).taps = n.taps ∧
    (n.removeReport).router = n.router ∧
    (n.removeReport).mixer = n.mixer ∧
    (n.removeReport).talk = n.talk ∧
    (n.removeReport).port = n.port := by
  unfold Node.removeReport
  (repeat' split) <;> simp [*]

@[simp] theorem Node.restartRing_leaves (n : Node) :
    (n.restartRing).loader = n.loader ∧
    (n.restartRing).router = n.router ∧
    (n.restartRing).mixer = n.mixer ∧
    (n.restartRing).port = n.port := by
  unfold Node.restartRing
  simp [*]

@[simp] theorem Node.ignoreTransfer_leaves (n : Node) (bits : Nat) :
    (n.ignoreTransfer bits).loader = n.loader ∧
    (n.ignoreTransfer bits).link = n.link ∧
    (n.ignoreTransfer bits).cadence = n.cadence ∧
    (n.ignoreTransfer bits).engine = n.engine ∧
    (n.ignoreTransfer bits).messages = n.messages ∧
    (n.ignoreTransfer bits).taps = n.taps ∧
    (n.ignoreTransfer bits).router = n.router ∧
    (n.ignoreTransfer bits).mixer = n.mixer ∧
    (n.ignoreTransfer bits).talk = n.talk ∧
    (n.ignoreTransfer bits).reports = n.reports := by
  unfold Node.ignoreTransfer
  (repeat' split) <;> simp [*]

@[simp] theorem Node.lockGained_leaves (n : Node) (side : Side) :
    (n.lockGained side).loader = n.loader ∧
    (n.lockGained side).cadence = n.cadence ∧
    (n.lockGained side).engine = n.engine ∧
    (n.lockGained side).messages = n.messages ∧
    (n.lockGained side).taps = n.taps ∧
    (n.lockGained side).router = n.router ∧
    (n.lockGained side).mixer = n.mixer ∧
    (n.lockGained side).talk = n.talk ∧
    (n.lockGained side).port = n.port := by
  unfold Node.lockGained
  (repeat' split) <;> simp [*]

@[simp] theorem Node.lockLost_leaves (n : Node) (side : Side) :
    (n.lockLost side).loader = n.loader ∧
    (n.lockLost side).messages = n.messages ∧
    (n.lockLost side).taps = n.taps ∧
    (n.lockLost side).router = n.router ∧
    (n.lockLost side).mixer = n.mixer ∧
    (n.lockLost side).talk = n.talk ∧
    (n.lockLost side).port = n.port := by
  unfold Node.lockLost
  (repeat' split) <;> simp [*]

@[simp] theorem Node.outSet_leaves (n : Node) (o : Fin 64) (x : OutSource) :
    (n.outSet o x).2.loader = n.loader ∧
    (n.outSet o x).2.link = n.link ∧
    (n.outSet o x).2.cadence = n.cadence ∧
    (n.outSet o x).2.engine = n.engine ∧
    (n.outSet o x).2.messages = n.messages ∧
    (n.outSet o x).2.taps = n.taps ∧
    (n.outSet o x).2.mixer = n.mixer ∧
    (n.outSet o x).2.talk = n.talk ∧
    (n.outSet o x).2.reports = n.reports ∧
    (n.outSet o x).2.port = n.port := by
  unfold Node.outSet
  (repeat' split) <;> simp [*]

@[simp] theorem Node.startWalk_leaves (n : Node) :
    (n.startWalk).loader = n.loader ∧
    (n.startWalk).link = n.link ∧
    (n.startWalk).cadence = n.cadence ∧
    (n.startWalk).engine = n.engine ∧
    (n.startWalk).router = n.router ∧
    (n.startWalk).mixer = n.mixer ∧
    (n.startWalk).talk = n.talk ∧
    (n.startWalk).reports = n.reports ∧
    (n.startWalk).port = n.port := by
  unfold Node.startWalk
  simp [*]

end Sys2Proof.Machine
end

