-- ==== Sys2Proof/Laws/Image.lean ====
section
/-! SUPPORT. What the Image Loader's readers do, said once: the walk of the sections, the list fields of their sections, and
the clamps (Section 11). -/

namespace Sys2Proof.Machine

open Sys2Proof Sys2Proof.Safety

/-! ### The walk of the sections (R190) -/

theorem sectionSize_iff (code : Nat) (data : List Word16) :
    sectionSize code data = some data.length ↔ SectionFits code data := by
  unfold sectionSize SectionFits
  split
  · cases data with
    | nil => simp
    | cons w places =>
      simp only [List.headD_cons, List.length_cons, Option.some.injEq]
      constructor
      · exact fun h => ⟨w, places, rfl, by omega⟩
      · rintro ⟨a, b, h, e⟩
        obtain ⟨rfl, rfl⟩ := List.cons.inj h
        omega
  all_goals simp [eq_comm]

theorem Sections.find_isNone (s : Sections) (code : Nat) :
    (s.find code).isNone = true ↔ ∀ x ∈ s.taken, x.1 ≠ code := by
  unfold Sections.find
  simp

/-- The walk goes as R190 says, with fuel for a header at each word. -/
theorem walkSections_walked (fuel : Nat) (ws : List Word16) (s : Sections) (hf : ws.length ≤ fuel) :
    Walked ws s.taken s.count (walkSections fuel ws s).taken (walkSections fuel ws s).count := by
  induction fuel generalizing ws s with
  | zero =>
    obtain rfl := List.length_eq_zero_iff.mp (Nat.le_zero.mp hf)
    exact .ended _ _
  | succ fuel ih =>
    match ws with
    | [] => exact .ended _ _
    | header :: rest =>
      unfold walkSections
      by_cases h : rest.length < (header.extractLsb' 0 8).toNat
      · simp only [h, if_true]
        exact .cut _ _ _ _ h
      · simp only [h, if_false]
        have hd : (rest.take (header.extractLsb' 0 8).toNat).length = (header.extractLsb' 0 8).toNat := by
          rw [List.length_take]
          omega
        have next := fun s' => ih (rest.drop (header.extractLsb' 0 8).toNat) s' (by
          rw [List.length_cons] at hf
          rw [List.length_drop]
          omega)
        conv => arg 1; rw [← List.take_append_drop (header.extractLsb' 0 8).toNat rest]
        unfold Sections.take
        by_cases ht : sectionSize (header.extractLsb' 8 8).toNat (rest.take (header.extractLsb' 0 8).toNat)
            = some (rest.take (header.extractLsb' 0 8).toNat).length ∧ (s.find (header.extractLsb' 8 8).toNat).isNone = true
        · rw [if_pos ht]
          exact .taken _ _ _ _ _ _ _ hd ((sectionSize_iff _ _).mp ht.1) ((s.find_isNone _).mp ht.2)
            (next { s with taken := s.taken ++ [_] })
        · rw [if_neg ht]
          refine .passed _ _ _ _ _ _ _ hd ?_ (next { s with count := s.count + 1 })
          rwa [← sectionSize_iff, ← s.find_isNone]

/-- A walk takes no code twice. -/
theorem nodup_of_walked {ws : List Word16} {taken all : List (Nat × List Word16)} {passed count : Nat}
    (h : Walked ws taken passed all count) (hn : (taken.map Prod.fst).Nodup) : (all.map Prod.fst).Nodup := by
  induction h with
  | ended => exact hn
  | cut => exact hn
  | passed _ _ _ _ _ _ _ _ _ _ ih => exact ih hn
  | taken header _ _ _ _ _ _ _ _ hc _ ih =>
    refine ih ?_
    simp only [List.map_append, List.map_cons, List.map_nil]
    refine List.nodup_append.mpr ⟨hn, by simp, ?_⟩
    rintro a ha b hb rfl
    obtain ⟨x, hx, rfl⟩ := List.mem_map.mp ha
    exact hc x hx (by simpa using hb)

/-- The sections of an image are a walk from word 12 to the word before the check word. -/
theorem imageSections_walked (ws : List Word16) :
    Walked ((ws.take (ws.length - 1)).drop 12) [] 0 (imageSections ws).taken (imageSections ws).count :=
  walkSections_walked _ _ { taken := [], count := 0 } (Nat.le_refl _)

/-- A field is the one its section gives, or its default uncounted (R184). -/
theorem sectionOr_taken {α : Type} (s : Sections) (code : Nat) (read : List Word16 → Counted α)
    (P : List Word16 → α → Nat → Prop) (default : α) (hn : (s.taken.map Prod.fst).Nodup)
    (hr : ∀ data, P data (read data).value (read data).count) :
    FieldTaken s.taken code P default (sectionOr s code read default).value (sectionOr s code read default).count := by
  refine ⟨fun data hd => ?_, fun h => ?_⟩
  · have hf : s.find code = some data := by
      unfold Sections.find
      have : (s.taken.find? fun x => x.1 == code) = some (code, data) := by
        generalize s.taken = l at hd hn
        induction l with
        | nil => cases hd
        | cons x l ih =>
          simp only [List.map_cons, List.nodup_cons] at hn
          rcases List.mem_cons.mp hd with rfl | h
          · simp
          · have : x.1 ≠ code := fun e => hn.1 (List.mem_map.mpr ⟨_, h, e.symm⟩)
            simp [this, ih h hn.2]
      simp [this]
    unfold sectionOr
    rw [hf]
    exact hr data
  · have hf : s.find code = none := by
      have := (s.find_isNone code).mpr h
      simpa using this
    unfold sectionOr
    rw [hf]
    exact ⟨rfl, rfl⟩

/-! ### The list fields (R183) -/

theorem takePlace_eq (r : Rate) (kept : Counted (List (Fin 64))) (b : Byte) : takePlace r kept b =
    match placeChannel r b with
    | some c => if c ∈ kept.value then { kept with count := kept.count + 1 } else { kept with value := kept.value ++ [c] }
    | none => { kept with count := kept.count + 1 } := by
  unfold takePlace placeChannel
  by_cases h : b.toNat < 64
  · by_cases hp : r.present ⟨b.toNat, h⟩ = true
    · by_cases hk : (⟨b.toNat, h⟩ : Fin 64) ∈ kept.value <;> simp [h, hp, hk]
    · simp [h, hp]
  · simp [h]

theorem length_firsts_le {α : Type} [DecidableEq α] (l : List α) : (firsts l).length ≤ l.length := by
  induction l with
  | nil => simp [firsts]
  | cons a l ih =>
    rw [firsts, List.length_cons, List.length_cons]
    exact Nat.succ_le_succ ((List.length_filter_le _ _).trans ih)

theorem firsts_append_filter {α : Type} [DecidableEq α] (kept l : List α) (a : α) :
    kept ++ (firsts (a :: l)).filter (· ∉ kept) =
      if a ∈ kept then kept ++ (firsts l).filter (· ∉ kept) else (kept ++ [a]) ++ (firsts l).filter (· ∉ kept ++ [a]) := by
  rw [firsts]
  by_cases h : a ∈ kept
  · rw [if_pos h, List.filter_cons, if_neg (by simp [h]), List.filter_filter]
    congr 1
    refine List.filter_congr fun x _ => ?_
    by_cases hx : x = a
    · subst hx
      simp [h]
    · simp [hx]
  · rw [if_neg h, List.filter_cons, if_pos (by simp [h]), List.filter_filter, List.append_assoc]
    congr 2
    refine List.filter_congr fun x _ => ?_
    by_cases hx : x = a <;> simp [hx]

/-- The places of a send list keep the channels at their first places, and count the others. -/
theorem takePlaces_eq (r : Rate) (bs : List Byte) (kept : Counted (List (Fin 64))) :
    (bs.foldl (takePlace r) kept).value = kept.value ++ (firsts (bs.filterMap (placeChannel r))).filter (· ∉ kept.value)
      ∧ (bs.foldl (takePlace r) kept).value.length + (bs.foldl (takePlace r) kept).count =
        kept.value.length + kept.count + bs.length := by
  induction bs generalizing kept with
  | nil => simp [firsts]
  | cons b bs ih =>
    have h := takePlace_eq r kept b
    rw [List.foldl_cons, List.filterMap_cons, List.length_cons]
    cases hc : placeChannel r b with
    | none =>
      simp only [hc] at h
      obtain ⟨h1, h2⟩ := ih (takePlace r kept b)
      simp only [h] at h1 h2 ⊢
      exact ⟨h1, by omega⟩
    | some c =>
      simp only [hc] at h ⊢
      obtain ⟨h1, h2⟩ := ih (takePlace r kept b)
      rw [firsts_append_filter]
      by_cases hk : c ∈ kept.value
      · simp only [hk, if_true] at h
        simp only [h, hk, if_true] at h1 h2 ⊢
        exact ⟨h1, by omega⟩
      · simp only [hk, if_false] at h
        simp only [h, hk, if_false, List.length_append, List.length_singleton] at h1 h2 ⊢
        exact ⟨h1, by omega⟩

/-- The send list of its section is as R183 says. -/
theorem readSendList_taken (r : Rate) (data : List Word16) :
    SendListTaken r data (readSendList r data).value (readSendList r data).count := by
  unfold readSendList SendListTaken clampInto
  have hm : max 0 (min 64 (data.headD 0#16).toNat) = min (data.headD 0#16).toNat 64 := by omega
  simp only [hm]
  generalize (data.headD 0#16).toNat = k
  obtain ⟨h1, h2⟩ := takePlaces_eq r ((wordBytes data.tail).take (min k 64))
    { value := [], count := if min k 64 = k then 0 else 1 }
  have hv : (((wordBytes data.tail).take (min k 64)).foldl (takePlace r)
      { value := [], count := if min k 64 = k then 0 else 1 }).value
      = firsts (((wordBytes data.tail).take (min k 64)).filterMap (placeChannel r)) := by
    rw [h1]
    simp
  have hle := (congrArg List.length hv).le.trans ((length_firsts_le _).trans (List.length_filterMap_le _ _))
  refine ⟨hv, ?_⟩
  have hk : (if min k 64 = k then 0 else 1) = if 64 < k then 1 else 0 := by split <;> split <;> omega
  simp only [List.length_nil, Nat.zero_add] at h2
  rw [← hk]
  change _ = _ + (((wordBytes data.tail).take (min k 64)).length - _)
  omega

theorem placeChannel_inj {r : Rate} {a b : Byte} {c : Fin 64} (ha : placeChannel r a = some c)
    (hb : placeChannel r b = some c) : a = b := by
  have key : ∀ x, placeChannel r x = some c → x.toNat = c.val := by
    intro x hx
    unfold placeChannel at hx
    split at hx
    · split at hx
      · cases hx
        rfl
      · cases hx
    · cases hx
  exact BitVec.eq_of_toNat_eq ((key a ha).trans (key b hb).symm)

theorem takeSlot_eq (r : Rate) (kept : Counted (List (Option (Fin 64)))) (b : Byte) :
    takeSlot r kept b =
      match placeChannel r b with
      | some c =>
        if some c ∈ kept.value then { value := kept.value ++ [none], count := kept.count + 1 }
        else { kept with value := kept.value ++ [some c] }
      | none => { value := kept.value ++ [none], count := kept.count + if b = 255#8 then 0 else 1 } := by
  unfold takeSlot placeChannel
  by_cases hb : b = 255#8
  · subst hb
    rfl
  · by_cases h : b.toNat < 64
    · by_cases hp : r.present ⟨b.toNat, h⟩ = true
      · by_cases hk : (some ⟨b.toNat, h⟩ : Option (Fin 64)) ∈ kept.value <;> simp [hb, h, hp, hk]
      · simp [hb, h, hp]
    · simp [hb, h]

/-- The places of a slot table, one by one: what each binds, and how many are counted. -/
theorem takeSlots_eq (r : Rate) (bs : List Byte) :
    let t := bs.foldl (takeSlot r) { value := [], count := 0 }
    t.value.length = bs.length
      ∧ (∀ c, some c ∈ t.value ↔ ∃ b ∈ bs, placeChannel r b = some c)
      ∧ (∀ i (h : i < bs.length), t.value[i]? =
          some (if ∃ j, ∃ hj : j < i, bs[j] = bs[i] then none else placeChannel r bs[i]))
      ∧ t.count = ((List.range bs.length).filter fun i =>
          bs.getD i 255#8 != 255#8 && (t.value.getD i none).isNone).length := by
  induction bs using List.reverseRecOn with
  | nil => simp
  | append_singleton bs b ih =>
    obtain ⟨hl, hm, hi, hc⟩ := ih
    rw [List.foldl_concat]
    generalize bs.foldl (takeSlot r) { value := [], count := 0 } = t at hl hm hi hc
    have hd : (∃ c, placeChannel r b = some c ∧ some c ∈ t.value) ↔ ∃ c, placeChannel r b = some c ∧ b ∈ bs := by
      refine exists_congr fun c => and_congr_right fun h => ?_
      rw [hm]
      exact ⟨fun ⟨x, hx, e⟩ => placeChannel_inj h e ▸ hx, fun hb => ⟨b, hb, h⟩⟩
    have hv : ∃ o k, takeSlot r t b = { value := t.value ++ [o], count := t.count + k }
        ∧ o = (if b ∈ bs then none else placeChannel r b) ∧ k = if b ≠ 255#8 ∧ o = none then 1 else 0 := by
      rw [takeSlot_eq]
      cases hp : placeChannel r b with
      | none => exact ⟨none, _, rfl, by simp, by by_cases h : b = 255#8 <;> simp [h]⟩
      | some c =>
        have hb : b ≠ 255#8 := by
          rintro rfl
          cases hp
        by_cases hk : some c ∈ t.value
        · have : b ∈ bs := by
            obtain ⟨x, hx, e⟩ := (hm c).mp hk
            exact placeChannel_inj hp e ▸ hx
          exact ⟨none, 1, by simp [hk], by simp [this], by simp [hb]⟩
        · have : b ∉ bs := fun h => hk ((hm c).mpr ⟨b, h, hp⟩)
          exact ⟨some c, 0, by simp [hk], by simp [this], by simp⟩
    obtain ⟨o, k, ht, ho, hk⟩ := hv
    rw [ht]
    refine ⟨by simp [hl], fun c => ?_, fun i h => ?_, ?_⟩
    · simp only [List.mem_append, List.mem_singleton, hm]
      constructor
      · rintro (⟨x, hx, e⟩ | e)
        · exact ⟨x, .inl hx, e⟩
        · rw [ho] at e
          split at e
          · cases e
          · exact ⟨b, .inr rfl, e.symm⟩
      · rintro ⟨x, hx | rfl, e⟩
        · exact .inl ⟨x, hx, e⟩
        · by_cases h : x ∈ bs
          · exact .inl ⟨x, h, e⟩
          · exact .inr (by rw [ho, if_neg h, e])
    · rw [List.length_append, List.length_singleton] at h
      by_cases h' : i < bs.length
      · rw [List.getElem?_append_left (by omega), hi i h', List.getElem_append_left h']
        congr 2
        refine propext (exists_congr fun j => exists_congr fun hj => ?_)
        rw [List.getElem_append_left (by omega)]
      · have e : i = bs.length := by omega
        subst e
        rw [List.getElem?_append_right (by omega), hl, Nat.sub_self, List.getElem_concat_length rfl, ho]
        simp only [List.getElem?_cons_zero, Option.some.injEq]
        congr 1
        refine propext ⟨fun hb => ?_, fun ⟨j, hj, e⟩ => ?_⟩
        · obtain ⟨j, hj, e⟩ := List.getElem_of_mem hb
          exact ⟨j, hj, by rw [List.getElem_append_left hj]; exact e⟩
        · rw [List.getElem_append_left hj] at e
          exact e ▸ List.getElem_mem _
    · rw [List.length_append, List.length_singleton, List.range_succ, List.filter_append, List.length_append]
      change t.count + k = _
      rw [hc, hk]
      congr 1
      · congr 1
        refine List.filter_congr fun i h => ?_
        rw [List.mem_range] at h
        simp [List.getD, List.getElem?_append_left, h, hl]
      · simp only [List.getD, List.getElem?_append_right (Nat.le_refl _), hl, Nat.sub_self, List.filter_cons,
          List.getElem?_cons_zero, Option.getD_some, List.filter_nil,
          List.getElem?_append_right (show t.value.length ≤ bs.length by omega)]
        cases o <;> by_cases h : b = 255#8 <;> simp [h]

/-- The places of a list up to a bound are the members of the bounded number type. -/
theorem length_filter_range (n : Nat) (p : Nat → Bool) :
    ((List.range n).filter p).length = ((List.finRange n).filter fun i => p i.val).length := by
  rw [← List.map_coe_finRange_eq_range, List.filter_map, List.length_map]
  rfl

theorem length_wordBytes (data : List Word16) : (wordBytes data).length = 2 * data.length := by
  unfold wordBytes
  induction data with
  | nil => rfl
  | cons w data ih => rw [List.flatMap_cons, List.length_append, ih, List.length_cons]; simp [bytes16]; omega

/-- The slot table of its section is as R127 and R183 say. -/
theorem readSlotTable_taken (r : Rate) (data : List Word16) :
    SlotTableTaken r data (readSlotTable r data).value (readSlotTable r data).count := by
  obtain ⟨hl, -, hi, hc⟩ := takeSlots_eq r ((wordBytes data).take 128)
  unfold SlotTableTaken readSlotTable
  simp only [Table.get_ofList]
  generalize hb : wordBytes data = bs at hl hi hc
  have hbs : data.flatMap bytes16 = bs := hb
  rw [hbs]
  generalize (bs.take 128).foldl (takeSlot r) { value := [], count := 0 } = t at hl hi hc
  have hg : ∀ i : Fin 128, t.value.getD i.val none =
      if ∃ j < i, bs.getD j.val 255#8 = bs.getD i.val 255#8 then none else placeChannel r (bs.getD i.val 255#8) := by
    intro i
    by_cases h : i.val < bs.length
    · have ht : i.val < (bs.take 128).length := by rw [List.length_take]; omega
      rw [List.getD, hi i.val ht, Option.getD_some, List.getElem_take]
      simp only [List.getD, List.getElem?_eq_getElem h, Option.getD_some]
      congr 1
      refine propext ⟨fun ⟨j, hj, e⟩ => ⟨⟨j, by omega⟩, hj, ?_⟩, fun ⟨j, hj, e⟩ => ⟨j.val, hj, ?_⟩⟩
      · rw [List.getElem_take] at e
        rw [List.getElem?_eq_getElem (show j < bs.length by omega), Option.getD_some, e]
      · have hj' : j.val < i.val := hj
        rw [List.getElem?_eq_getElem (by omega), Option.getD_some] at e
        rw [List.getElem_take, e]
    · have e1 : t.value.getD i.val none = none := by
        rw [List.getD, List.getElem?_eq_none (by rw [hl, List.length_take]; omega), Option.getD_none]
      have e2 : bs.getD i.val 255#8 = 255#8 := by
        rw [List.getD, List.getElem?_eq_none (by omega), Option.getD_none]
      rw [e1, e2]
      split <;> rfl
  refine ⟨hg, ?_⟩
  rw [hc]
  have h128 : (List.range (bs.take 128).length).filter
        (fun i => (bs.take 128).getD i 255#8 != 255#8 && (t.value.getD i none).isNone)
      = (List.range 128).filter (fun i => bs.getD i 255#8 != 255#8 && (t.value.getD i none).isNone) := by
    have e : List.range 128 = List.range (bs.take 128).length
        ++ (List.range (128 - (bs.take 128).length)).map ((bs.take 128).length + ·) := by
      rw [← List.range_add]
      congr 1
      rw [List.length_take]
      omega
    rw [e, List.filter_append]
    have e2 : ((List.range (128 - (bs.take 128).length)).map ((bs.take 128).length + ·)).filter
        (fun i => bs.getD i 255#8 != 255#8 && (t.value.getD i none).isNone) = [] := by
      rw [List.filter_eq_nil_iff]
      intro x hx
      obtain ⟨y, hy, rfl⟩ := List.mem_map.mp hx
      rw [List.mem_range] at hy
      rw [List.length_take] at hy ⊢
      rw [List.getD, List.getElem?_eq_none (by omega)]
      simp
    rw [e2, List.append_nil]
    refine List.filter_congr fun i h => ?_
    rw [List.mem_range, List.length_take] at h
    simp [List.getD, show i < 128 by omega]
  rw [h128, length_filter_range]

/-- Places past a list's end count nothing: a list's things with a property, counted over more places than it has. -/
theorem length_filter_places {β : Type} (n : Nat) (l : List β) (q : β → Bool) (h : l.length ≤ n) :
    (l.filter q).length =
      ((List.finRange n).filter fun i => match l[i.val]? with | some b => q b | none => false).length := by
  rw [← length_filter_range n fun i => match l[i]? with | some b => q b | none => false]
  induction l generalizing n with
  | nil => simp
  | cons b l ih =>
    obtain ⟨m, rfl⟩ : ∃ m, n = m + 1 := ⟨n - 1, by rw [List.length_cons] at h; omega⟩
    have hm := ih m (by rw [List.length_cons] at h; omega)
    rw [List.range_succ_eq_map, List.filter_cons, List.filter_cons, List.filter_map]
    simp only [List.getElem?_cons_zero, Function.comp_def, List.getElem?_cons_succ]
    split <;> simp [hm]

theorem sum_counts {α β : Type} (l : List β) (f : β → Counted α) (q : β → Bool)
    (hf : ∀ b, (f b).count = if q b then 1 else 0) : ((l.map f).map fun x => x.count).sum = (l.filter q).length := by
  induction l with
  | nil => rfl
  | cons b l ih =>
    rw [List.map_cons, List.map_cons, List.sum_cons, ih, hf, List.filter_cons]
    split <;> simp [Nat.add_comm]

/-- The output map of its section is as R133 and R183 say. -/
theorem readOutMap_taken (r : Rate) (data : List Word16) :
    OutMapTaken r data (readOutMap r data).value (readOutMap r data).count := by
  have hs : ∀ type number : Byte, readSource type number =
      if type.toNat = 0 then some .silent
      else if h : type.toNat = 1 ∧ number.toNat < 24 then some (.mix ⟨number.toNat, h.2⟩)
      else if h : type.toNat = 2 ∧ number.toNat < 128 then some (.slot ⟨number.toNat, h.2⟩)
      else none := by
    intro type number
    have e : ∀ k : Nat, k < 256 → (type = BitVec.ofNat 8 k ↔ type.toNat = k) := by
      intro k hk
      rw [← BitVec.toNat_inj, BitVec.toNat_ofNat, Nat.mod_eq_of_lt (by omega)]
    unfold readSource
    simp only [e 0 (by omega), e 1 (by omega), e 2 (by omega)]
    by_cases h0 : type.toNat = 0
    · simp [h0]
    · by_cases h1 : type.toNat = 1
      · by_cases hn : number.toNat < 24 <;> simp [h1, hn]
      · by_cases h2 : type.toNat = 2
        · by_cases hn : number.toNat < 128 <;> simp [h2, hn]
        · simp [h0, h1, h2]
  have ho : ∀ (o : Fin 64) (w : Word16),
      (readOutput r o w).value = (match readSource (w.extractLsb' 8 8) (w.extractLsb' 0 8) with
          | some x => if r.present o then x else .silent
          | none => .silent)
        ∧ (readOutput r o w).count =
          if readSource (w.extractLsb' 8 8) (w.extractLsb' 0 8) != some (readOutput r o w).value then 1 else 0 := by
    intro o w
    unfold readOutput
    cases readSource (w.extractLsb' 8 8) (w.extractLsb' 0 8) with
    | none => exact ⟨rfl, rfl⟩
    | some x =>
      by_cases hp : r.present o = true
      · simp [hp]
      · by_cases hx : x = .silent
        · simp [hp, hx]
        · simp [hp, hx]
  have hz : ∀ o : Fin 64, readOutput r o 0#16 = { value := .silent, count := 0 } := by
    intro o
    unfold readOutput
    rw [show readSource ((0#16).extractLsb' 8 8) ((0#16).extractLsb' 0 8) = some .silent from rfl]
    simp
  have hzip : ∀ o : Fin 64, ((List.finRange 64).zip data)[o.val]? = data[o.val]?.map fun w => (o, w) := by
    intro o
    rw [List.zip, List.getElem?_zipWith]
    simp only [List.getElem?_eq_getElem (show o.val < (List.finRange 64).length by simp), List.getElem_finRange]
    cases data[o.val]? <;> rfl
  unfold OutMapTaken
  simp only [← hs]
  have hg : ∀ o : Fin 64, (readOutMap r data).value.get o = (readOutput r o (data.getD o.val 0#16)).value := by
    intro o
    unfold readOutMap countedTable
    simp only [Table.get_ofList, List.getD, List.getElem?_map, hzip]
    cases data[o.val]? with
    | none => simp [hz]
    | some w => rfl
  refine ⟨fun o => ?_, ?_⟩
  · refine (hg o).trans ((ho o _).1.trans ?_)
    cases readSource ((data.getD o.val 0#16).extractLsb' 8 8) ((data.getD o.val 0#16).extractLsb' 0 8) <;> rfl
  have hc : (readOutMap r data).count = (((List.finRange 64).zip data).filter fun p =>
      readSource (p.2.extractLsb' 8 8) (p.2.extractLsb' 0 8) != some (readOutput r p.1 p.2).value).length := by
    unfold readOutMap countedTable
    exact sum_counts _ _ _ fun p => (ho p.1 p.2).2
  rw [hc, length_filter_places 64 _ _ (by simp)]
  congr 1
  refine List.filter_congr fun o _ => ?_
  rw [hg, hzip, List.getD]
  cases data[o.val]? with
  | none =>
    rw [Option.getD_none, hz]
    rfl
  | some w => rfl

/-- The mix owners of their section are as R183 says. -/
theorem readOwners_taken (data : List Word16) : OwnersTaken data (readOwners data).value (readOwners data).count := by
  have hb : ∀ b : Byte, (readOwner b).value.map Station.number =
      if 1 ≤ b.toNat ∧ b.toNat ≤ 16 then some b.toNat else none := by
    intro b
    unfold readOwner Station.ofByte Station.ofNumber
    by_cases h : 1 ≤ b.toNat ∧ b.toNat ≤ 16
    · simp only [h, and_self, dite_true, if_true, Option.map_some, Station.number]
      congr 1
      omega
    · simp [h]
  have hg : ∀ m : Fin 24, (readOwners data).value.get m = (readOwner ((wordBytes data).getD m.val 0#8)).value := by
    intro m
    unfold readOwners countedTable
    simp only [Table.get_ofList, List.getD, List.getElem?_map, List.getElem?_take, m.isLt, if_true]
    by_cases h : m.val < (wordBytes data).length
    · simp [List.getElem?_eq_getElem h]
    · have e : (wordBytes data)[m.val]? = none := List.getElem?_eq_none (by omega)
      rw [e]
      rfl
  refine ⟨fun m => by rw [hg, hb]; rfl, ?_⟩
  have hc : (readOwners data).count = (((wordBytes data).take 24).filter fun b => decide (16 < b.toNat)).length := by
    unfold readOwners countedTable
    refine sum_counts _ _ _ fun b => ?_
    unfold readOwner
    by_cases h : 16 < b.toNat <;> simp [h]
  rw [hc, length_filter_places 24 _ _ (by simp)]
  congr 1
  refine List.filter_congr fun m _ => ?_
  simp only [List.getElem?_take, m.isLt, if_true]
  by_cases h : m.val < (wordBytes data).length
  · have h' : m.val < (data.flatMap bytes16).length := h
    simp [List.getD, List.getElem?_eq_getElem h', wordBytes]
  · have e : (wordBytes data)[m.val]? = none := List.getElem?_eq_none (by omega)
    have e' : (data.flatMap bytes16)[m.val]? = none := e
    simp [e, e', List.getD]

/-- The key records of their section are as R183 says. -/
theorem readKeys_taken (data : List Word16) : KeysTaken data (readKeys data).value (readKeys data).count := by
  have hd : ∀ (k : Fin 4) (i : Nat), i < 16 → (((wordBytes data).drop (16 * k.val)).take 16).getD i 0#8
      = (data.flatMap bytes16).getD (16 * k.val + i) 0#8 := by
    intro k i hi
    simp only [List.getD, List.getElem?_take, hi, if_true, List.getElem?_drop]
    rfl
  have hg : ∀ k : Fin 4, (readKeys data).value.get k =
      (readKey (((wordBytes data).drop (16 * k.val)).take 16)).value := by
    intro k
    unfold readKeys countedTable
    simp [List.getD, k.isLt]
  have hk : ∀ bs : List Byte,
      let sound := decide ((bs.getD 1 0#8).toNat < 64) && (decide (1 ≤ (bs.getD 2 0#8).toNat ∧ (bs.getD 2 0#8).toNat ≤ 16)
        || decide (65 ≤ (bs.getD 2 0#8).toNat ∧ (bs.getD 2 0#8).toNat ≤ 72))
      (readKey bs).count = (if (bs.getD 0 0#8 == 1#8 && !sound) then 1 else 0)
        ∧ if (bs.getD 0 0#8 == 1#8 && sound) = true then
            ∃ channel : Fin 64, channel.val = (bs.getD 1 0#8).toNat ∧ (readKey bs).value =
              { bound := true, destination := bs.getD 2 0#8, mask := join24 (bs.getD 5 0#8) (bs.getD 6 0#8) (bs.getD 7 0#8),
                priority := bs.getD 3 0#8, dim := join24 (bs.getD 9 0#8) (bs.getD 10 0#8) (bs.getD 11 0#8),
                level := join24 (bs.getD 13 0#8) (bs.getD 14 0#8) (bs.getD 15 0#8), channel := channel }
          else (readKey bs).value = KeyImage.unbound := by
    intro bs sound
    unfold readKey
    by_cases h0 : bs.getD 0 0#8 = 1#8
    · by_cases h : keyDestination (bs.getD 2 0#8) = true ∧ (bs.getD 1 0#8).toNat < 64
      · have hs : sound = true := by simpa [sound, keyDestination, And.comm] using h
        simp only [h0, h, hs]
        exact ⟨rfl, ⟨_, h.2⟩, rfl, rfl⟩
      · have hs : sound = false := by
          rw [← Bool.not_eq_true]
          exact fun e => h (by simpa [sound, keyDestination, And.comm] using e)
        simp only [h0, if_true, dif_neg h, hs]
        exact ⟨rfl, trivial⟩
    · have hs : (bs.getD 0 0#8 == 1#8) = false := by simpa using h0
      simp only [if_neg h0, hs]
      exact ⟨rfl, trivial⟩
  have hc : (readKeys data).count = ((List.finRange 4).filter fun k : Fin 4 =>
      (readKey (((wordBytes data).drop (16 * k.val)).take 16)).count == 1).length := by
    unfold readKeys countedTable
    rw [← length_filter_range 4 fun k => (readKey (((wordBytes data).drop (16 * k)).take 16)).count == 1]
    refine sum_counts _ _ _ fun k => ?_
    rw [(hk _).1]
    split <;> rfl
  refine ⟨fun k => ?_, ?_⟩
  · have := (hk (((wordBytes data).drop (16 * k.val)).take 16)).2
    simp only [hd k _ (show 0 < 16 by omega), hd k _ (show 1 < 16 by omega), hd k _ (show 2 < 16 by omega),
      hd k _ (show 3 < 16 by omega), hd k _ (show 5 < 16 by omega), hd k _ (show 6 < 16 by omega),
      hd k _ (show 7 < 16 by omega), hd k _ (show 9 < 16 by omega), hd k _ (show 10 < 16 by omega),
      hd k _ (show 11 < 16 by omega), hd k _ (show 13 < 16 by omega), hd k _ (show 14 < 16 by omega),
      hd k _ (show 15 < 16 by omega)] at this
    rw [hg]
    exact this
  · rw [hc]
    congr 1
    refine List.filter_congr fun k _ => ?_
    rw [(hk _).1]
    simp only [hd k _ (show 0 < 16 by omega), hd k _ (show 1 < 16 by omega), hd k _ (show 2 < 16 by omega)]
    split <;> simp_all

end Sys2Proof.Machine
end

