-- ==== Sys2Proof/Laws/Ops.lean ====
section
/-! SUPPORT. What the shared operations do, said once: how a command's meaning reaches the part, the queues, the sides,
the frame head, and the mix records. -/

namespace Sys2Proof.Machine

open Sys2Proof Sys2Proof.Safety

/-! ### From a command to the part -/

/-- A command from outside brings the event in progress to its end and then acts. -/
theorem act_leaves (c : Instr) (s : State) (f : Node → Node) (h : exec c s = .next (s.act f)) :
    Leaves c s (f s.finish.node) := h

/-- A command of a part that works acts on it. -/
theorem work_leaves (c : Instr) (s : State) (f : Node → Node) (h : exec c s = .next (s.work f))
    (r : s.finish.node.running = true) : Leaves c s (f s.finish.node) := by
  unfold Leaves
  rw [h]
  unfold State.work State.act
  simp only [r]
  rfl

/-- A command of a row that waits at the front of the agenda, its condition standing, takes its event. -/
theorem takeRow_takes (c : Instr) (s : State) (t : Task) (ts : List Task) (h : exec c s = .next (s.takeRow t))
    (ha : s.agenda = t :: ts) (r : s.node.due t = true) : Takes c s ts (s.node.doTask t) := by
  unfold Takes
  rw [h]
  unfold State.takeRow
  simp [ha, r]

/-- An entry that is ready at the head is the one taken, if its kind is wanted. -/
theorem head_ready (n : Node) (e : QueueEntry) (w : Byte → Bool) (h : HeadReady n e) (hk : w e.message.kind = true) :
    n.messages.readyHead w = some e := by
  obtain ⟨-, hi, hq, hg⟩ := h
  unfold Messages.readyHead
  rw [hi]
  cases hqq : n.messages.queue with
  | nil => rw [hqq] at hq; cases hq
  | cons a l =>
    rw [hqq] at hq
    injection hq with hq
    subst hq
    simp only [hk, Bool.true_and]
    cases h : a.needsReply
    · rfl
    · simp [hg h]

/-- A request at the head whose fields pass the checks of R68 is carried out by its owner and completes. -/
theorem carry_leaves {α : Type} (c : Instr) (s : State) (e : QueueEntry) (k : Byte) (read : FrameUnit → Option α)
    (owner : α → Station → Node → Option Reply × Node) (a : α)
    (hx : exec c s = .next (s.work fun n => n.carryRequest k read owner)) (h : HeadReady s.finish.node e)
    (hk : e.message.kind = k) (hr : read e.message = some a) :
    Leaves c s ((owner a (s.finish.node.requester e) s.finish.node).2.complete e
      (owner a (s.finish.node.requester e) s.finish.node).1) := by
  have := work_leaves c s _ hx h.1
  rw [Node.carryRequest, Node.carryOut, head_ready _ e _ h (by simp [hk])] at this
  simp only [hr] at this
  exact this

/-- Two parts are the same when their blocks are. -/
theorem node_ext_iff (m n : Node) : m = n ↔ m.loader = n.loader ∧ m.link = n.link ∧ m.cadence = n.cadence
    ∧ m.engine = n.engine ∧ m.messages = n.messages ∧ m.taps = n.taps ∧ m.router = n.router ∧ m.mixer = n.mixer
    ∧ m.talk = n.talk ∧ m.reports = n.reports ∧ m.port = n.port := by
  cases m
  cases n
  simp

/-! ### The queues -/

/-- A post either joins the tail or is counted as lost; the post number advances (R174). -/
theorem ReportQueue.post_cases (q : ReportQueue) (b : ReportBody) :
    (q.items.length < 32 ∧ q.post b = { q with
        items := q.items ++ [{ post := q.postNumber, body := b }], postNumber := q.postNumber + 1#8,
        interrupt := true })
      ∨ (32 ≤ q.items.length ∧ q.post b = { q with postNumber := q.postNumber + 1#8, lost := q.lost.inc }) := by
  unfold ReportQueue.post Config.reportPlaces
  split
  · exact .inl ⟨‹_›, rfl⟩
  · exact .inr ⟨by omega, rfl⟩

/-- A message joins the receive queue while it holds fewer than 16, and HOLD is judged (R75, R77, R79). -/
theorem Messages.enqueue_eq (m : Messages) (e : QueueEntry) : m.enqueue e =
    if m.queue.length < 16 then some (withQueue m (m.queue ++ [e])) else none := rfl

/-- The completed message leaves the head, and HOLD is judged (R75, R80). -/
theorem Messages.dequeue_eq (m : Messages) : m.dequeue = withQueue m m.queue.tail := rfl

/-- A notice for another station joins the list as R82 says. -/
theorem Messages.addNotice_eq (m : Messages) (x : Notice) : m.addNotice x = withNotice m x := rfl

/-! ### The desk side of talkback (R157) -/

/-- An event toward the own station leaves into the receive queue, or stays when that is full. -/
theorem Node.handOwnEvent_eq (n : Node) (k : Fin 4) (ev : TalkEvent) (he : (n.talk.keys.get k).event = some ev)
    (ho : n.keyIsOwn k = true) :
    n.handOwnEvent k = if n.messages.queue.length < 16 then leftToOwnQueue n k ev else n := by
  unfold Node.handOwnEvent Node.selfAddress
  rw [he]
  simp only []
  rw [if_pos ho, Messages.enqueue_eq]
  by_cases h : n.messages.queue.length < 16
  · simp only [if_pos h, Option.map_some]
    rfl
  · simp only [if_neg h, Option.map_none]

/-- One placing takes the first key of the order that leaves through a slot, to the lower FREE talk slot. -/
theorem Node.placeOneTalk_eq (n : Node) (i : Fin 8) (k : Fin 4) (ev : TalkEvent)
    (hf : n.messages.freeSlot talkSlots = some i)
    (hw : (n.talk.pendingOrder.filter fun j => !n.keyIsOwn j).head? = some k)
    (he : (n.talk.keys.get k).event = some ev) : n.placeOneTalk = leftThroughSlot n i k ev := by
  unfold Node.placeOneTalk
  rw [hf, ← List.head?_filter, hw]
  simp only []
  rw [he]
  rfl

/-- With no FREE talk slot, or no key whose event leaves through one, nothing is placed. -/
theorem Node.placeOneTalk_none (n : Node) (h : n.messages.freeSlot talkSlots = none
    ∨ (n.talk.pendingOrder.filter fun j => !n.keyIsOwn j) = []) : n.placeOneTalk = n := by
  unfold Node.placeOneTalk
  rw [← List.head?_filter]
  rcases h with h | h
  · rw [h]
  · rw [h]
    cases n.messages.freeSlot talkSlots <;> rfl

/-- The lowest FREE slot of a kind is the first of its FREE slots (R70). -/
theorem Messages.freeSlot_eq (m : Messages) (slots : List (Fin 8)) :
    m.freeSlot slots = (slots.filter fun i => m.slots.get i == .free).head? := (List.head?_filter ..).symm

/-- Behind an event that has left through a talk slot, the FREE talk slots are the others. -/
theorem leftThroughSlot_free (n : Node) (i : Fin 8) (j : Fin 4) (e : TalkEvent) (rest : List (Fin 8))
    (hf : (talkSlots.filter fun a => n.messages.slots.get a == .free) = i :: rest) :
    (talkSlots.filter fun a => (leftThroughSlot n i j e).messages.slots.get a == .free) = rest := by
  have hn : (i :: rest).Nodup := hf ▸ (show talkSlots.Nodup by decide).filter _
  have hi : i ∉ rest := (List.nodup_cons.mp hn).1
  have : (talkSlots.filter fun a => (leftThroughSlot n i j e).messages.slots.get a == .free)
      = (talkSlots.filter fun a => n.messages.slots.get a == .free).filter (· != i) := by
    rw [List.filter_filter]
    refine List.filter_congr fun a _ => ?_
    by_cases h : a = i
    · subst h
      simp [leftThroughSlot]
    · simp [leftThroughSlot, h, Ne.symm h]
  rw [this, hf, List.filter_cons_of_neg (by simp), List.filter_eq_self]
  intro a ha
  have : a ≠ i := fun e => hi (e ▸ ha)
  simpa using this

/-- An event is made for a key as R156 and R157 say. -/
theorem Node.makeEvent_made (n : Node) (k : Fin 4) (ev : TalkEvent) : EventMade k ev n (n.makeEvent k ev) := by
  unfold EventMade
  intro x made waiting free event
  split
  · rename_i h
    unfold Node.makeEvent
    rw [if_pos h]
  · rename_i h
    have hs : n.setEvent k ev = made := by
      unfold Node.setEvent
      simp only [made, x, Node.updateKey]
      cases he : (n.talk.keys.get k).event <;> simp [Table.update]
    have hm : n.makeEvent k ev = if n.keyIsOwn k = true then made.handOwnEvent k else made.placeTalk := by
      unfold Node.makeEvent
      rw [if_neg h, hs]
      rfl
    rw [hm]
    split
    · rename_i ho
      exact Node.handOwnEvent_eq made k ev (by simp [made]) ho
    · constructor
      · intro hh
        have : made.messages.freeSlot talkSlots = none
            ∨ (made.talk.pendingOrder.filter fun j => !made.keyIsOwn j) = [] :=
          hh.imp (fun h => (Messages.freeSlot_eq _ _).trans (congrArg List.head? h)) id
        unfold Node.placeTalk
        rw [Node.placeOneTalk_none made this, Node.placeOneTalk_none made this]
      · intro i j rest others e hf hw he next
        have h1 : made.placeOneTalk = leftThroughSlot made i j e :=
          Node.placeOneTalk_eq _ _ _ _ ((Messages.freeSlot_eq _ _).trans (congrArg List.head? hf))
            (congrArg List.head? hw) he
        have hf2 := (Messages.freeSlot_eq (leftThroughSlot made i j e).messages talkSlots).trans
          (congrArg List.head? (leftThroughSlot_free made i j e rest hf))
        have hw2 : ((leftThroughSlot made i j e).talk.pendingOrder.filter
            fun a => !(leftThroughSlot made i j e).keyIsOwn a) = next := by
          show ((made.talk.pendingOrder.filter (· != j)).filter fun a => !n.keyIsOwn a) = others.filter (· != j)
          rw [List.filter_comm]
          exact (congrArg _ hw).trans (List.filter_cons_of_neg (by simp))
        unfold Node.placeTalk
        rw [h1]
        refine ⟨fun hh => Node.placeOneTalk_none _ (hh.imp (fun h => ?_) fun h => hw2.trans h),
          fun i' j' rest' others' e' hr hn he' => Node.placeOneTalk_eq _ _ _ _ ?_ ?_ ?_⟩
        · rw [hf2, h]
          rfl
        · rw [hf2, hr]
          rfl
        · rw [hw2, hn]
          rfl
        · have hj : j' ≠ j := by
            have : j' ∈ next := hn ▸ List.mem_cons_self
            simpa using (List.mem_filter.mp this).2
          simp only [leftThroughSlot]
          rw [Table.get_set_other _ _ _ _ (Ne.symm hj)]
          exact he'

/-- A talk slot's delivery is given first, then the slot is freed and takes a pending event (R73, R74, R157). -/
theorem Node.settleSlot_talk (n : Node) (i : Fin 8) (u : FrameUnit) (d : Delivery) (h4 : 4 ≤ i.val) (h6 : i.val < 6)
    (hm : (n.messages.slots.get i).message = some u) :
    n.settleSlot i d = ((n.talkSettled u.kind u.tag d).updateMessages (·.freeUp i)).placeTalk := by
  unfold Node.settleSlot
  rw [hm]
  simp only []
  rw [if_neg (by omega), if_pos h6]

/-! ### Talk lists (R160) -/

theorem outranks_iff (t u : Talk) : t.outranks u = true ↔ Outranks t u := by
  simp [Talk.outranks, Outranks]

theorem Outranks_trans {a b c : Talk} (h : Outranks a b) (k : Outranks b c) : Outranks a c := by
  unfold Outranks at h k ⊢
  rw [Fin.lt_def] at *
  omega

/-- Of two talks of different desks one outranks the other. -/
theorem Outranks_total {a b : Talk} (h : a.desk ≠ b.desk) (k : ¬Outranks a b) : Outranks b a := by
  unfold Outranks at k ⊢
  rw [Fin.lt_def] at *
  have : a.desk.val ≠ b.desk.val := fun e => h (Fin.ext e)
  omega

/-- A talk put at its place adds itself to the list. -/
theorem insertTalk_perm (t : Talk) (l : List Talk) : (insertTalk t l).Perm (t :: l) := by
  induction l with
  | nil => exact .refl _
  | cons u l ih =>
    unfold insertTalk
    split
    · exact .refl _
    · exact (ih.cons u).trans (.swap t u l)

/-- A talk put at its place among those of other desks leaves the list in its order. -/
theorem insertTalk_sorted (t : Talk) (l : List Talk) (h : l.Pairwise Outranks) (hd : ∀ u ∈ l, u.desk ≠ t.desk) :
    (insertTalk t l).Pairwise Outranks := by
  induction l with
  | nil => simp [insertTalk]
  | cons u l ih =>
    obtain ⟨hu, hl⟩ := List.pairwise_cons.mp h
    unfold insertTalk
    split
    · rename_i ho
      refine List.pairwise_cons.mpr ⟨fun b hb => ?_, h⟩
      rcases List.mem_cons.mp hb with rfl | hb
      · exact (outranks_iff _ _).mp ho
      · exact Outranks_trans ((outranks_iff _ _).mp ho) (hu b hb)
    · rename_i ho
      refine List.pairwise_cons.mpr ⟨fun b hb => ?_, ih hl fun v hv => hd v (List.mem_cons_of_mem _ hv)⟩
      rcases List.mem_cons.mp ((insertTalk_perm t l).mem_iff.mp hb) with rfl | hb
      · exact Outranks_total (fun e => hd u List.mem_cons_self e.symm) fun e => ho ((outranks_iff _ _).mpr e)
      · exact hu b hb

/-! ### The reads of a boundary (R113) -/

/-- Reading entries one after the other reads each of them once, and hands the results over in their order. -/
theorem readEntry_foldl (w : Window) (expected : Byte) (l : List EntryNo) (hn : l.Nodup) (t : Taps) :
    let m := l.foldl (Taps.readEntry w expected) t
    (∀ e, m.entries.get e =
        if e ∈ l then (t.entries.get e).map fun x => (x.read w expected).1 else t.entries.get e)
      ∧ m.reads = t.reads ++ l.filterMap (fun e => (t.entries.get e).map fun x => (x.read w expected).2)
      ∧ m = { t with entries := m.entries, reads := m.reads } := by
  induction l generalizing t with
  | nil => simp
  | cons a l ih =>
    obtain ⟨ha, hl⟩ := List.nodup_cons.mp hn
    obtain ⟨h1, h2, h3⟩ := ih hl (t.readEntry w expected a)
    have ho : ∀ e, e ≠ a → (t.readEntry w expected a).entries.get e = t.entries.get e := by
      intro e he
      unfold Taps.readEntry
      cases t.entries.get a <;> simp [Ne.symm he]
    simp only [List.foldl_cons]
    refine ⟨fun e => ?_, ?_, ?_⟩
    · rw [h1]
      by_cases he : e = a
      · subst he
        unfold Taps.readEntry
        cases h : t.entries.get e <;> simp [ha, h]
      · simp [he, ho e he]
    · have hc : l.filterMap (fun e => ((t.readEntry w expected a).entries.get e).map fun x => (x.read w expected).2)
          = l.filterMap fun e => (t.entries.get e).map fun x => (x.read w expected).2 :=
        List.filterMap_congr fun e he => by rw [ho e fun h => ha (h ▸ he)]
      rw [h2, hc]
      unfold Taps.readEntry
      cases h : t.entries.get a <;> simp [h]
    · rw [h3]
      unfold Taps.readEntry
      cases t.entries.get a <;> rfl

/-! ### Sides -/

@[simp] theorem LinkFold.side_setSide (l : LinkFold) (a : Side) (x : SideState) : (l.setSide a x).side a = x := by
  cases a <;> rfl

@[simp] theorem LinkFold.side_setSide_opposite (l : LinkFold) (a : Side) (x : SideState) :
    (l.setSide a x).side a.opposite = l.side a.opposite := by
  cases a <;> rfl

theorem LinkFold.setSide_side (l : LinkFold) (a b : Side) (x : SideState) :
    (l.setSide a x).side b = if a = b then x else l.side b := by
  cases a <;> cases b <;> rfl

/-! ### Checks and heads (R1, R186) -/

/-- A station's byte names it. -/
@[simp] theorem Station.ofByte_byte (o : Station) : Station.ofByte o.byte = some o := by
  revert o
  decide

theorem join16_extract (x : Word16) : join16 (x.extractLsb' 8 8) (x.extractLsb' 0 8) = x := by
  apply BitVec.eq_of_getLsbD_eq
  intro i hi
  unfold join16
  rw [BitVec.getLsbD_append]
  by_cases h : i < 8
  · simp [h]
  · have e : 8 + (i - 8) = i := by omega
    have l : i - 8 < 8 := by omega
    simp [h, e, l]

/-- A check that is written is good when it is read. -/
theorem sixCheckGood_withCheck (a b c d : Byte) : sixCheckGood (withCheck a b c d) = true := by
  unfold sixCheckGood
  rw [beq_iff_eq]
  exact (join16_extract (cyclicCheck [a, b, c, d])).symm

/-- The flag byte of a head gives back its flags and its hops. -/
theorem headFlags_facts (rebuilt secondary : Bool) (hops : Nat) (h : hops < 16) :
    (topFlags rebuilt secondary ||| (byteOf hops &&& 15#8)).getLsbD 7 = rebuilt
      ∧ (topFlags rebuilt secondary ||| (byteOf hops &&& 15#8)).getLsbD 6 = secondary
      ∧ ((topFlags rebuilt secondary ||| (byteOf hops &&& 15#8)).extractLsb' 0 4).toNat = hops := by
  cases rebuilt <;> cases secondary <;> interval_cases hops <;> decide

/-! ### Mix records -/

theorem Node.updateMix_get (n : Node) (m x : Fin 24) (f : Mix → Mix) : (n.updateMix m f).mixer.mixes.get x =
    if m = x then f (n.mixer.mixes.get x) else n.mixer.mixes.get x := by
  unfold Node.updateMix
  by_cases h : m = x
  · subst h
    simp
  · simp [h]

theorem mem_maskMixes (mask : MixMask) (x : Fin 24) : x ∈ maskMixes mask ↔ maskHas mask x = true := by
  unfold maskMixes
  simp

theorem nodup_maskMixes (mask : MixMask) : (maskMixes mask).Nodup := (List.nodup_finRange 24).filter _

/-- A setting gives the duck the winner's dim, or unity for an empty list (R167). -/
theorem Mix.settle_duck_target (x : Mix) (d : Nat) :
    (x.settle d).duck.target = (match x.talks with | t :: _ => t.dim | [] => unity) := by
  unfold Mix.settle Mix.takeSetting Ramp.setting Ramp.retarget
  cases x.talks <;> simp only [] <;> split <;> simp_all

/-- A ramp's value stays between its start and its target (R143). -/
theorem rampValue_le (start target : Coef) (step length : Nat) (h : step ≤ length) :
    (rampValue start target step length).toNat ≤ max start.toNat target.toNat := by
  have hs := start.isLt
  have ht := target.isLt
  unfold rampValue
  rcases Nat.le_total start.toNat target.toNat with hle | hle
  · have e : ((target.toNat : Int) - (start.toNat : Int)) * (step : Int)
        = (((target.toNat - start.toNat) * step : Nat) : Int) := by
      push_cast [Nat.cast_sub hle]
      ring
    have b : (target.toNat - start.toNat) * step / length ≤ target.toNat - start.toNat := by
      refine Nat.div_le_of_le_mul ?_
      rw [Nat.mul_comm]
      exact Nat.mul_le_mul_right _ h
    rw [e, ← Int.ofNat_tdiv, ← Int.natCast_add, BitVec.ofInt_natCast, BitVec.toNat_ofNat, Nat.mod_eq_of_lt (by omega)]
    omega
  · have e : ((target.toNat : Int) - (start.toNat : Int)) * (step : Int)
        = -(((start.toNat - target.toNat) * step : Nat) : Int) := by
      push_cast [Nat.cast_sub hle]
      ring
    have b : (start.toNat - target.toNat) * step / length ≤ start.toNat - target.toNat := by
      refine Nat.div_le_of_le_mul ?_
      rw [Nat.mul_comm]
      exact Nat.mul_le_mul_right _ h
    rw [e, Int.neg_tdiv, ← Int.ofNat_tdiv, ← sub_eq_add_neg, ← Nat.cast_sub (by omega), BitVec.ofInt_natCast,
      BitVec.toNat_ofNat]
    exact (Nat.mod_le _ _).trans ((Nat.sub_le _ _).trans (le_max_left _ _))

/-- A duck coefficient stays in its range over a step (R143, R150). -/
theorem DuckSound_step (r : Ramp) (h : DuckSound r) : DuckSound r.step := by
  obtain ⟨hv, ht, hs⟩ := h
  unfold Ramp.step
  split
  · exact ⟨hv, ht, hs⟩
  · exact ⟨ht, ht, fun _ _ _ e => nomatch e⟩
  · rename_i start length k hp
    have hst := hs _ _ _ hp
    split
    · exact ⟨ht, ht, fun _ _ _ e => nomatch e⟩
    · refine ⟨?_, ht, fun a b c e => ?_⟩
      · rw [BitVec.le_def] at *
        exact (rampValue_le start r.target (k + 1) length (by omega)).trans (max_le hst ht)
      · cases e
        exact hst

/-- A duck coefficient stays in its range when a setting gives it a target in its range (R145, R150). -/
theorem DuckSound_setting (r : Ramp) (target : Coef) (length : Nat) (h : DuckSound r) (ht : target ≤ unity) :
    DuckSound (r.setting target length) := by
  obtain ⟨hv, ht', hs⟩ := h
  unfold Ramp.setting Ramp.retarget
  split
  · exact ⟨hv, ht', hs⟩
  · refine ⟨hv, ht, fun a b c e => ?_⟩
    split at e
    · cases e
    · cases e
      exact hv

/-- A setting leaves the talk list. -/
@[simp] theorem Mix.settle_talks (x : Mix) (d : Nat) : (x.settle d).talks = x.talks := by
  unfold Mix.settle Mix.takeSetting
  cases x.talks <;> simp

/-- Settings handed to several mixes reach those and no other (R167). -/
theorem Node.handSettings_get (n : Node) (ms : List (Fin 24)) (hn : ms.Nodup) (x : Fin 24) :
    (n.handSettings ms).mixer.mixes.get x =
      if x ∈ ms then (n.mixer.mixes.get x).settle n.loader.values.duckRamp else n.mixer.mixes.get x := by
  unfold Node.handSettings
  generalize n.loader.values.duckRamp = d
  induction ms generalizing n with
  | nil => simp
  | cons a l ih =>
    rw [List.foldl_cons, ih _ (List.nodup_cons.mp hn).2, Node.updateMix_get]
    have ha := (List.nodup_cons.mp hn).1
    by_cases h : a = x
    · subst h
      simp [ha]
    · simp [h, Ne.symm h]

end Sys2Proof.Machine
end

