-- ==== Sys2Proof/WellFormed.lean ====
section
/-! DEFINITION. Which commands are well formed.  The operands' types already keep every side, slot, peer, entry
and key in range and every unit, head and beacon at its length, so one check is left. -/

namespace Sys2Proof

/-- The flash the loader can read is 512 bytes at most (R179: no word beyond word 255). -/
def flashFits (flash : List Byte) : Bool := decide (flash.length ≤ 512)

/-- The well-formed commands. -/
def Instr.wellFormed : Instr → Bool
  | .loadFinished flash _ => flashFits flash
  | .powerOn _ => true
  | .resetLineAsserted => true
  | .resetLineReleased => true
  | .send _ => true
  | .takeReport => true
  | .restartRing => true
  | .operationByteComplete _ => true
  | .quietPeriodEnd => true
  | .receiverLockGained _ => true
  | .receiverLockLost _ => true
  | .beaconReceived _ _ => true
  | .badRun _ => true
  | .silence _ => true
  | .linkProven _ => true
  | .beaconSent _ => true
  | .frameReceived _ _ _ => true
  | .boundary _ _ => true
  | .starvation => true
  | .claim => true
  | .windowEnd => true
  | .returnHoldComplete _ => true
  | .tapClearComplete => true
  | .slotLost _ => true
  | .holdRecordExpiry _ => true
  | .millisecondMark => true
  | .talkKeyPressed _ => true
  | .talkKeyReleased _ => true
  | .keepCountExpiry _ => true
  | .talkExpiry => true
  | .replySlotGrant => true
  | .transferIgnored _ => true
  | .unknownKind => true
  | .tapSet => true
  | .tapDrop => true
  | .tapClear => true
  | .mixGain => true
  | .mixMaster => true
  | .outSet => true
  | .talkOpen => true
  | .talkKeep => true
  | .talkClose => true
  | .statusQuery => true
  | .transferBegins => true

end Sys2Proof
end

