-- ==== Sys2Proof/Laws/PerInstr.lean ====
section
/-! SUPPORT. What holds of each command as syntax: it is well formed, but for a load of more flash than the loader can
read, and no word of the table spells it. -/

namespace Sys2Proof.Laws.F

open Sys2Proof

/-- A command is well formed, unless it is a load of a flash of more than 512 bytes (R179); the table gives no row bits,
so no word spells it. -/
def Statement (i : Instr) : Prop :=
  (i.wellFormed = true ↔ ∀ flash straps, i = .loadFinished flash straps → flash.length ≤ 512)
    ∧ ∀ nbits w, decodeTableWord nbits w ≠ some i

theorem powerOn (resetHeld : Bool) : Statement (.powerOn resetHeld) :=
  ⟨⟨fun _ _ _ e => (by cases e), fun _ => rfl⟩, fun _ _ h => (by cases h)⟩

theorem resetLineAsserted : Statement .resetLineAsserted :=
  ⟨⟨fun _ _ _ e => (by cases e), fun _ => rfl⟩, fun _ _ h => (by cases h)⟩

theorem resetLineReleased : Statement .resetLineReleased :=
  ⟨⟨fun _ _ _ e => (by cases e), fun _ => rfl⟩, fun _ _ h => (by cases h)⟩

theorem loadFinished (flash : List Byte) (straps : BitVec 4) : Statement (.loadFinished flash straps) :=
  ⟨⟨fun h f x e => by cases e; exact of_decide_eq_true h, fun h => decide_eq_true (h _ _ rfl)⟩,
    fun _ _ h => by cases h⟩

theorem send (message : FrameUnit) : Statement (.send message) :=
  ⟨⟨fun _ _ _ e => (by cases e), fun _ => rfl⟩, fun _ _ h => (by cases h)⟩

theorem takeReport : Statement .takeReport :=
  ⟨⟨fun _ _ _ e => (by cases e), fun _ => rfl⟩, fun _ _ h => (by cases h)⟩

theorem restartRing : Statement .restartRing :=
  ⟨⟨fun _ _ _ e => (by cases e), fun _ => rfl⟩, fun _ _ h => (by cases h)⟩

theorem operationByteComplete (operation : Byte) : Statement (.operationByteComplete operation) :=
  ⟨⟨fun _ _ _ e => (by cases e), fun _ => rfl⟩, fun _ _ h => (by cases h)⟩

theorem transferIgnored (bits : Nat) : Statement (.transferIgnored bits) :=
  ⟨⟨fun _ _ _ e => (by cases e), fun _ => rfl⟩, fun _ _ h => (by cases h)⟩

theorem quietPeriodEnd : Statement .quietPeriodEnd :=
  ⟨⟨fun _ _ _ e => (by cases e), fun _ => rfl⟩, fun _ _ h => (by cases h)⟩

theorem receiverLockGained (side : Side) : Statement (.receiverLockGained side) :=
  ⟨⟨fun _ _ _ e => (by cases e), fun _ => rfl⟩, fun _ _ h => (by cases h)⟩

theorem receiverLockLost (side : Side) : Statement (.receiverLockLost side) :=
  ⟨⟨fun _ _ _ e => (by cases e), fun _ => rfl⟩, fun _ _ h => (by cases h)⟩

theorem beaconReceived (side : Side) (beacon : SixBytes) : Statement (.beaconReceived side beacon) :=
  ⟨⟨fun _ _ _ e => (by cases e), fun _ => rfl⟩, fun _ _ h => (by cases h)⟩

theorem badRun (side : Side) : Statement (.badRun side) :=
  ⟨⟨fun _ _ _ e => (by cases e), fun _ => rfl⟩, fun _ _ h => (by cases h)⟩

theorem silence (side : Side) : Statement (.silence side) :=
  ⟨⟨fun _ _ _ e => (by cases e), fun _ => rfl⟩, fun _ _ h => (by cases h)⟩

theorem linkProven (side : Side) : Statement (.linkProven side) :=
  ⟨⟨fun _ _ _ e => (by cases e), fun _ => rfl⟩, fun _ _ h => (by cases h)⟩

theorem beaconSent (side : Side) : Statement (.beaconSent side) :=
  ⟨⟨fun _ _ _ e => (by cases e), fun _ => rfl⟩, fun _ _ h => (by cases h)⟩

theorem frameReceived (side : Side) (head : SixBytes) (body : List FrameUnit) : Statement (.frameReceived side head body) :=
  ⟨⟨fun _ _ _ e => (by cases e), fun _ => rfl⟩, fun _ _ h => (by cases h)⟩

theorem boundary (lanes : LaneBlock) (pins : Table 4 Bool) : Statement (.boundary lanes pins) :=
  ⟨⟨fun _ _ _ e => (by cases e), fun _ => rfl⟩, fun _ _ h => (by cases h)⟩

theorem starvation : Statement .starvation :=
  ⟨⟨fun _ _ _ e => (by cases e), fun _ => rfl⟩, fun _ _ h => (by cases h)⟩

theorem claim : Statement .claim :=
  ⟨⟨fun _ _ _ e => (by cases e), fun _ => rfl⟩, fun _ _ h => (by cases h)⟩

theorem windowEnd : Statement .windowEnd :=
  ⟨⟨fun _ _ _ e => (by cases e), fun _ => rfl⟩, fun _ _ h => (by cases h)⟩

theorem returnHoldComplete (entry : Fin 256) : Statement (.returnHoldComplete entry) :=
  ⟨⟨fun _ _ _ e => (by cases e), fun _ => rfl⟩, fun _ _ h => (by cases h)⟩

theorem tapClearComplete : Statement .tapClearComplete :=
  ⟨⟨fun _ _ _ e => (by cases e), fun _ => rfl⟩, fun _ _ h => (by cases h)⟩

theorem slotLost (slot : Fin 8) : Statement (.slotLost slot) :=
  ⟨⟨fun _ _ _ e => (by cases e), fun _ => rfl⟩, fun _ _ h => (by cases h)⟩

theorem holdRecordExpiry (peer : Station) : Statement (.holdRecordExpiry peer) :=
  ⟨⟨fun _ _ _ e => (by cases e), fun _ => rfl⟩, fun _ _ h => (by cases h)⟩

theorem millisecondMark : Statement .millisecondMark :=
  ⟨⟨fun _ _ _ e => (by cases e), fun _ => rfl⟩, fun _ _ h => (by cases h)⟩

theorem talkKeyPressed (key : Fin 4) : Statement (.talkKeyPressed key) :=
  ⟨⟨fun _ _ _ e => (by cases e), fun _ => rfl⟩, fun _ _ h => (by cases h)⟩

theorem talkKeyReleased (key : Fin 4) : Statement (.talkKeyReleased key) :=
  ⟨⟨fun _ _ _ e => (by cases e), fun _ => rfl⟩, fun _ _ h => (by cases h)⟩

theorem keepCountExpiry (key : Fin 4) : Statement (.keepCountExpiry key) :=
  ⟨⟨fun _ _ _ e => (by cases e), fun _ => rfl⟩, fun _ _ h => (by cases h)⟩

theorem talkExpiry : Statement .talkExpiry :=
  ⟨⟨fun _ _ _ e => (by cases e), fun _ => rfl⟩, fun _ _ h => (by cases h)⟩

theorem replySlotGrant : Statement .replySlotGrant :=
  ⟨⟨fun _ _ _ e => (by cases e), fun _ => rfl⟩, fun _ _ h => (by cases h)⟩

theorem unknownKind : Statement .unknownKind :=
  ⟨⟨fun _ _ _ e => (by cases e), fun _ => rfl⟩, fun _ _ h => (by cases h)⟩

theorem tapSet : Statement .tapSet :=
  ⟨⟨fun _ _ _ e => (by cases e), fun _ => rfl⟩, fun _ _ h => (by cases h)⟩

theorem tapDrop : Statement .tapDrop :=
  ⟨⟨fun _ _ _ e => (by cases e), fun _ => rfl⟩, fun _ _ h => (by cases h)⟩

theorem tapClear : Statement .tapClear :=
  ⟨⟨fun _ _ _ e => (by cases e), fun _ => rfl⟩, fun _ _ h => (by cases h)⟩

theorem mixGain : Statement .mixGain :=
  ⟨⟨fun _ _ _ e => (by cases e), fun _ => rfl⟩, fun _ _ h => (by cases h)⟩

theorem mixMaster : Statement .mixMaster :=
  ⟨⟨fun _ _ _ e => (by cases e), fun _ => rfl⟩, fun _ _ h => (by cases h)⟩

theorem outSet : Statement .outSet :=
  ⟨⟨fun _ _ _ e => (by cases e), fun _ => rfl⟩, fun _ _ h => (by cases h)⟩

theorem talkOpen : Statement .talkOpen :=
  ⟨⟨fun _ _ _ e => (by cases e), fun _ => rfl⟩, fun _ _ h => (by cases h)⟩

theorem talkKeep : Statement .talkKeep :=
  ⟨⟨fun _ _ _ e => (by cases e), fun _ => rfl⟩, fun _ _ h => (by cases h)⟩

theorem talkClose : Statement .talkClose :=
  ⟨⟨fun _ _ _ e => (by cases e), fun _ => rfl⟩, fun _ _ h => (by cases h)⟩

theorem statusQuery : Statement .statusQuery :=
  ⟨⟨fun _ _ _ e => (by cases e), fun _ => rfl⟩, fun _ _ h => (by cases h)⟩

theorem transferBegins : Statement .transferBegins :=
  ⟨⟨fun _ _ _ e => (by cases e), fun _ => rfl⟩, fun _ _ h => (by cases h)⟩

end Sys2Proof.Laws.F
end

