-- ==== Sys2Proof/Laws/TapTable.lean ====
section
/-! SUPPORT. What the operations of the tap table do to a table that keeps its law (R88), said through the entry of a
key: each keeps the law and moves the entries it names. -/

namespace Sys2Proof.Safety

open Sys2Proof Sys2Proof.Machine

/-! ### Lookups (R88) -/

/-- In a sound table the lookup of a key gives the one entry that holds it. -/
theorem TableSound.lookup_iff {t : Taps} (h : TableSound t) (k : Key) (e : EntryNo) :
    t.lookup k = some e ↔ ∃ x, t.entries.get e = some x ∧ x.key = k := by
  obtain ⟨-, -, hc, -, hk⟩ := h
  constructor
  · intro hl
    have := List.find?_some hl
    unfold Taps.holds at this
    split at this
    · exact ⟨_, by assumption, LawfulBEq.eq_of_beq this⟩
    · cases this
  · rintro ⟨x, hx, rfl⟩
    have hm : e ∈ t.chains.get x.key.bucket := (hc _ _).mpr ⟨x, hx, rfl⟩
    cases hf : t.lookup x.key with
    | none =>
      have := List.find?_eq_none.mp hf e hm
      simp [Taps.holds, hx] at this
    | some f =>
      have := List.find?_some hf
      unfold Taps.holds at this
      split at this
      · rename_i y hy
        exact congrArg some (hk _ _ _ _ hy hx (LawfulBEq.eq_of_beq this))
      · cases this

/-- A lookup that finds nothing: no entry holds the key. -/
theorem TableSound.lookup_none {t : Taps} (h : TableSound t) (k : Key) :
    t.lookup k = none ↔ ∀ e x, t.entries.get e = some x → x.key ≠ k := by
  rw [Option.eq_none_iff_forall_ne_some]
  constructor
  · intro hn e x hx hk
    exact hn e ((h.lookup_iff k e).mpr ⟨x, hx, hk⟩)
  · intro hn e he
    obtain ⟨x, hx, hk⟩ := (h.lookup_iff k e).mp he
    exact hn e x hx hk

/-- The entry of a key. -/
theorem TableSound.entryOf_iff {t : Taps} (h : TableSound t) (k : Key) (x : TapEntry) :
    t.entryOf k = some x ↔ ∃ e, t.entries.get e = some x ∧ x.key = k := by
  unfold Taps.entryOf
  constructor
  · intro he
    obtain ⟨e, hl, hx⟩ := Option.bind_eq_some_iff.mp he
    obtain ⟨y, hy, hk⟩ := (h.lookup_iff k e).mp hl
    rw [hx] at hy
    injection hy with hy
    subst hy
    exact ⟨e, hx, hk⟩
  · rintro ⟨e, hx, hk⟩
    exact Option.bind_eq_some_iff.mpr ⟨e, (h.lookup_iff k e).mpr ⟨x, hx, hk⟩, hx⟩

theorem TableSound.entryOf_none {t : Taps} (h : TableSound t) (k : Key) :
    t.entryOf k = none ↔ t.lookup k = none := by
  unfold Taps.entryOf
  cases hl : t.lookup k with
  | none => simp
  | some e =>
    obtain ⟨x, hx, -⟩ := (h.lookup_iff k e).mp hl
    simp [hx]

theorem TableSound.entryOf_of_lookup {t : Taps} (h : TableSound t) {k : Key} {e : EntryNo} (hl : t.lookup k = some e) :
    ∃ x, t.entries.get e = some x ∧ x.key = k ∧ t.entryOf k = some x := by
  obtain ⟨x, hx, hk⟩ := (h.lookup_iff k e).mp hl
  exact ⟨x, hx, hk, (h.entryOf_iff k x).mpr ⟨e, hx, hk⟩⟩

theorem TableSound.entryOf_key {t : Taps} (h : TableSound t) {k : Key} {x : TapEntry} (he : t.entryOf k = some x) :
    x.key = k := by
  obtain ⟨_, _, hk⟩ := (h.entryOf_iff k x).mp he
  exact hk

/-! ### An entry changed -/

/-- An entry changed with its key kept: the law stands, every lookup stands. -/
theorem TableSound.updateEntry {t : Taps} (h : TableSound t) (e : EntryNo) (f : TapEntry → TapEntry)
    (hf : ∀ x, (f x).key = x.key) :
    TableSound (t.updateEntry e f) ∧ (∀ k, (t.updateEntry e f).lookup k = t.lookup k)
      ∧ (∀ k, (t.updateEntry e f).entryOf k = if t.lookup k = some e then (t.entryOf k).map f else t.entryOf k) := by
  have hs : TableSound (t.updateEntry e f) := by
    obtain ⟨h1, h2, h3, h4, h5⟩ := h
    have hg : ∀ i, (t.updateEntry e f).entries.get i = if e = i then (t.entries.get i).map f else t.entries.get i := by
      intro i
      by_cases hi : e = i
      · subst hi
        simp [Taps.updateEntry]
      · simp [Taps.updateEntry, hi]
    have hk : ∀ i y, (t.updateEntry e f).entries.get i = some y → ∃ x, t.entries.get i = some x ∧ x.key = y.key := by
      intro i y hy
      rw [hg] at hy
      by_cases hi : e = i
      · rw [if_pos hi] at hy
        obtain ⟨x, hx, rfl⟩ := Option.map_eq_some_iff.mp hy
        exact ⟨x, hx, (hf x).symm⟩
      · rw [if_neg hi] at hy
        exact ⟨y, hy, rfl⟩
    have hk' : ∀ i x, t.entries.get i = some x → ∃ y, (t.updateEntry e f).entries.get i = some y ∧ x.key = y.key := by
      intro i x hx
      rw [hg]
      by_cases hi : e = i
      · exact ⟨f x, by rw [if_pos hi, hx]; rfl, (hf x).symm⟩
      · exact ⟨x, by rw [if_neg hi, hx], rfl⟩
    refine ⟨h1, fun i => ?_, fun b i => ?_, h4, fun i j x y hx hy hxy => ?_⟩
    · rw [hg]
      have := h2 i
      split <;> simp_all [Taps.updateEntry]
    · constructor
      · intro hm
        obtain ⟨x, hx, hb⟩ := (h3 b i).mp hm
        obtain ⟨y, hy, e⟩ := hk' i x hx
        exact ⟨y, hy, e ▸ hb⟩
      · rintro ⟨y, hy, hb⟩
        obtain ⟨x, hx, e⟩ := hk i y hy
        exact (h3 b i).mpr ⟨x, hx, by rw [e]; exact hb⟩
    · obtain ⟨x', hx', e1⟩ := hk i x hx
      obtain ⟨y', hy', e2⟩ := hk j y hy
      exact h5 i j x' y' hx' hy' (by rw [e1, e2, hxy])
  have hl : ∀ k, (t.updateEntry e f).lookup k = t.lookup k := by
    intro k
    apply Option.ext
    intro i
    rw [hs.lookup_iff, h.lookup_iff]
    by_cases hi : e = i
    · subst hi
      cases hx : t.entries.get e <;> simp [Taps.updateEntry, hx, hf]
    · simp [Taps.updateEntry, hi]
  refine ⟨hs, hl, fun k => ?_⟩
  unfold Taps.entryOf
  rw [hl]
  cases hk : t.lookup k with
  | none => simp
  | some i =>
    by_cases hi : e = i
    · subst hi
      simp [Taps.updateEntry]
    · simp [Taps.updateEntry, hi, Ne.symm hi]

/-! ### A new entry -/

/-- A new entry takes the head of the free list; the other keys keep theirs (R87, R88). -/
theorem TableSound.create {t : Taps} (h : TableSound t) (k : Key) {i : EntryNo} {rest : List EntryNo}
    (hf : t.free = i :: rest) (hn : t.lookup k = none) (hc : (t.chains.get k.bucket).length < 8) :
    TableSound (t.create k) ∧ (t.create k).lookup k = some i ∧ (t.create k).free = rest
      ∧ (∀ j, j ≠ k → (t.create k).lookup j = t.lookup j)
      ∧ (∀ j, (t.create k).entryOf j = if j = k then some (TapEntry.fresh k) else t.entryOf j)
      ∧ (∀ b, (t.create k).chains.get b = if k.bucket = b then t.chains.get b ++ [i] else t.chains.get b)
      ∧ (∀ e, (t.create k).entries.get e = if i = e then some (TapEntry.fresh k) else t.entries.get e) := by
  have hcr : t.create k = { t with
      entries := t.entries.set i (some (TapEntry.fresh k)), free := rest,
      chains := t.chains.update k.bucket (· ++ [i]) } := by
    unfold Taps.create
    rw [hf]
  have hg : ∀ e, (t.create k).entries.get e = if i = e then some (TapEntry.fresh k) else t.entries.get e := by
    intro e
    rw [hcr]
    by_cases he : i = e
    · subst he
      simp
    · simp [he]
  have hch : ∀ b, (t.create k).chains.get b = if k.bucket = b then t.chains.get b ++ [i] else t.chains.get b := by
    intro b
    rw [hcr]
    by_cases hb : k.bucket = b
    · subst hb
      simp
    · simp [hb]
  have hi : t.entries.get i = none := (h.2.1 i).mp (by rw [hf]; simp)
  have hnk := (h.lookup_none k).mp hn
  have hs : TableSound (t.create k) := by
    obtain ⟨h1, h2, h3, h4, h5⟩ := h
    rw [hf] at h1
    refine ⟨?_, fun e => ?_, fun b e => ?_, fun b => ?_, fun e f x y hx hy hxy => ?_⟩
    · rw [hcr]
      exact (List.nodup_cons.mp h1).2
    · rw [hg]
      have h2e := h2 e
      rw [hf] at h2e
      rw [hcr]
      by_cases he : i = e
      · subst he
        simp [(List.nodup_cons.mp h1).1]
      · simpa [he, Ne.symm he] using h2e
    · rw [hch, hg]
      have h3e := h3 b e
      by_cases he : i = e
      · subst he
        have hni : i ∉ t.chains.get b := by
          rw [h3e, hi]
          simp
        by_cases hb : k.bucket = b
        · simp [hb, TapEntry.fresh]
        · simp [hb, hni, TapEntry.fresh]
      · by_cases hb : k.bucket = b
        · simp [hb, he, Ne.symm he, h3e]
        · simp [hb, he, h3e]
    · rw [hch]
      have hni : i ∉ t.chains.get b := by
        rw [h3, hi]
        simp
      by_cases hb : k.bucket = b
      · rw [if_pos hb]
        refine ⟨List.nodup_append.mpr ⟨(h4 b).1, by simp, ?_⟩, ?_⟩
        · intro a ha c hcm e
          simp at hcm
          subst hcm
          exact hni (e ▸ ha)
        · subst hb
          simp
          omega
      · rw [if_neg hb]
        exact h4 b
    · rw [hg] at hx hy
      by_cases he : i = e <;> by_cases hf' : i = f
      · rw [← he, ← hf']
      · rw [if_pos he] at hx
        rw [if_neg hf'] at hy
        injection hx with hx
        subst hx
        exact absurd hxy.symm (hnk f y hy)
      · rw [if_neg he] at hx
        rw [if_pos hf'] at hy
        injection hy with hy
        subst hy
        exact absurd hxy (hnk e x hx)
      · rw [if_neg he] at hx
        rw [if_neg hf'] at hy
        exact h5 e f x y hx hy hxy
  have hlk : (t.create k).lookup k = some i := (hs.lookup_iff k i).mpr ⟨_, by rw [hg, if_pos rfl], rfl⟩
  have hlj : ∀ j, j ≠ k → (t.create k).lookup j = t.lookup j := by
    intro j hj
    apply Option.ext
    intro e
    rw [hs.lookup_iff, h.lookup_iff]
    simp only [hg]
    by_cases he : i = e
    · subst he
      simp only [if_true, hi]
      constructor
      · rintro ⟨x, hx, rfl⟩
        injection hx with hx
        subst hx
        exact absurd rfl hj
      · rintro ⟨x, hx, -⟩
        cases hx
    · simp [he]
  refine ⟨hs, hlk, by rw [hcr], hlj, fun j => ?_, hch, hg⟩
  by_cases hj : j = k
  · subst hj
    unfold Taps.entryOf
    rw [hlk]
    simp [hg]
  · unfold Taps.entryOf
    rw [hlj j hj, if_neg hj]
    cases hl : t.lookup j with
    | none => rfl
    | some e =>
      obtain ⟨x, hx, -⟩ := (h.lookup_iff j e).mp hl
      have : i ≠ e := by
        rintro rfl
        rw [hi] at hx
        cases hx
      simp [hg, this]

/-! ### An entry freed -/

/-- A freed entry joins the free list's tail; the other keys keep theirs (R87). -/
theorem TableSound.freeEntry {t : Taps} (h : TableSound t) {e : EntryNo} {x : TapEntry}
    (hx : t.entries.get e = some x) :
    TableSound (t.freeEntry e) ∧ (t.freeEntry e).free = t.free ++ [e]
      ∧ (∀ j, (t.freeEntry e).lookup j = if j = x.key then none else t.lookup j)
      ∧ (∀ j, (t.freeEntry e).entryOf j = if j = x.key then none else t.entryOf j)
      ∧ (∀ i, (t.freeEntry e).entries.get i = if e = i then none else t.entries.get i)
      ∧ ∀ b, (t.freeEntry e).chains.get b =
          if x.key.bucket = b then (t.chains.get b).filter (· != e) else t.chains.get b := by
  have hfe : t.freeEntry e = { t with
      entries := t.entries.set e none, free := t.free ++ [e],
      chains := t.chains.update x.key.bucket (·.filter (· != e)) } := by
    unfold Taps.freeEntry
    rw [hx]
  have hg : ∀ i, (t.freeEntry e).entries.get i = if e = i then none else t.entries.get i := by
    intro i
    rw [hfe]
    by_cases he : e = i
    · subst he
      simp
    · simp [he]
  have hch : ∀ b, (t.freeEntry e).chains.get b =
      if x.key.bucket = b then (t.chains.get b).filter (· != e) else t.chains.get b := by
    intro b
    rw [hfe]
    by_cases hb : x.key.bucket = b
    · subst hb
      simp
    · simp [hb]
  have hs : TableSound (t.freeEntry e) := by
    obtain ⟨h1, h2, h3, h4, h5⟩ := h
    have hne : e ∉ t.free := by
      rw [h2, hx]
      simp
    refine ⟨?_, fun i => ?_, fun b i => ?_, fun b => ?_, fun i f y z hy hz hyz => ?_⟩
    · rw [hfe]
      refine List.nodup_append.mpr ⟨h1, by simp, ?_⟩
      intro a ha c hc he
      simp at hc
      subst hc
      exact hne (he ▸ ha)
    · rw [hg, hfe]
      have := h2 i
      by_cases he : e = i
      · simp [he]
      · simp [he, Ne.symm he, this]
    · rw [hch, hg]
      have h3i := h3 b i
      by_cases he : e = i
      · subst he
        simp only [if_true]
        by_cases hb : x.key.bucket = b
        · simp [hb]
        · have : e ∉ t.chains.get b := by
            rw [h3i, hx]
            simpa using hb
          simp [hb, this]
      · by_cases hb : x.key.bucket = b
        · simp [hb, he, Ne.symm he, h3i]
        · simp [hb, he, h3i]
    · rw [hch]
      split
      · exact ⟨(h4 b).1.filter _, le_trans (List.length_filter_le ..) (h4 b).2⟩
      · exact h4 b
    · rw [hg] at hy hz
      split at hy
      · cases hy
      · split at hz
        · cases hz
        · exact h5 i f y z hy hz hyz
  have hl : ∀ j, (t.freeEntry e).lookup j = if j = x.key then none else t.lookup j := by
    intro j
    apply Option.ext
    intro i
    rw [hs.lookup_iff]
    simp only [hg]
    by_cases hj : j = x.key
    · subst hj
      rw [if_pos rfl]
      simp only [reduceCtorEq, iff_false]
      rintro ⟨y, hy, hk⟩
      split at hy
      · cases hy
      · rename_i hei
        exact hei (h.2.2.2.2 e i x y hx hy hk.symm)
    · rw [if_neg hj, h.lookup_iff]
      by_cases he : e = i
      · subst he
        simp only [if_true, hx]
        constructor
        · rintro ⟨y, hy, -⟩
          cases hy
        · rintro ⟨y, hy, rfl⟩
          injection hy with hy
          subst hy
          exact absurd rfl hj
      · simp [he]
  refine ⟨hs, by rw [hfe], hl, fun j => ?_, hg, hch⟩
  unfold Taps.entryOf
  rw [hl]
  by_cases hj : j = x.key
  · simp [hj]
  · rw [if_neg hj, if_neg hj]
    cases hlj : t.lookup j with
    | none => rfl
    | some i =>
      obtain ⟨y, hy, hk⟩ := (h.lookup_iff j i).mp hlj
      have : e ≠ i := by
        rintro rfl
        rw [hx] at hy
        injection hy with hy
        subst hy
        exact hj hk.symm
      simp [hg, this]

/-! ### Operations that keep every lookup -/

/-- What a change that only rewrites entries keeps: the law, every lookup, the chains and the free list. -/
structure KeepsLookups (t t' : Taps) : Prop where
  sound : TableSound t'
  lookup : ∀ k, t'.lookup k = t.lookup k
  frame : t' = { t with entries := t'.entries }
  chains : t'.chains = t.chains := by rw [frame]
  free : t'.free = t.free := by rw [frame]

theorem KeepsLookups.refl {t : Taps} (h : TableSound t) : KeepsLookups t t := ⟨h, fun _ => rfl, rfl, rfl, rfl⟩

theorem KeepsLookups.trans {a b c : Taps} (h1 : KeepsLookups a b) (h2 : KeepsLookups b c) : KeepsLookups a c :=
  ⟨h2.sound, fun k => (h2.lookup k).trans (h1.lookup k), by rw [h2.frame, h1.frame], h2.chains.trans h1.chains,
    h2.free.trans h1.free⟩

theorem TableSound.updateEntry_keeps {t : Taps} (h : TableSound t) (e : EntryNo) (f : TapEntry → TapEntry)
    (hf : ∀ x, (f x).key = x.key) : KeepsLookups t (t.updateEntry e f) :=
  ⟨(h.updateEntry e f hf).1, (h.updateEntry e f hf).2.1, rfl, rfl, rfl⟩

/-- One entry is found for one key only. -/
theorem TableSound.lookup_inj {t : Taps} (h : TableSound t) {j k : Key} {e : EntryNo} (h1 : t.lookup j = some e)
    (h2 : t.lookup k = some e) : j = k := by
  obtain ⟨x, hx, rfl⟩ := (h.lookup_iff _ _).mp h1
  obtain ⟨y, hy, rfl⟩ := (h.lookup_iff _ _).mp h2
  rw [hx] at hy
  injection hy with hy
  rw [hy]

/-- An update of the entry a key is found at, if any, changes that key's entry alone. -/
theorem TableSound.updateKey {t : Taps} (h : TableSound t) (k : Key) (f : TapEntry → TapEntry)
    (hf : ∀ x, (f x).key = x.key) :
    let t' := match t.lookup k with | some e => t.updateEntry e f | none => t
    KeepsLookups t t' ∧ ∀ j, t'.entryOf j = if j = k then (t.entryOf j).map f else t.entryOf j := by
  cases hl : t.lookup k with
  | none =>
    refine ⟨.refl h, fun j => ?_⟩
    by_cases hj : j = k
    · subst hj
      rw [(h.entryOf_none _).mpr hl]
      simp
    · rw [if_neg hj]
  | some e =>
    refine ⟨h.updateEntry_keeps e f hf, fun j => ?_⟩
    simp only []
    rw [(h.updateEntry e f hf).2.2]
    by_cases hj : j = k
    · subst hj
      simp [hl]
    · rw [if_neg hj, if_neg (fun h' => hj (h.lookup_inj h' hl))]

/-- The backs of a key's entry fall by one, and nothing else moves (R101). -/
theorem TableSound.dropBack {t : Taps} (h : TableSound t) (k : Key) :
    KeepsLookups t (t.dropBack k) ∧ ∀ j, (t.dropBack k).entryOf j =
      if j = k then (t.entryOf j).map fun x => { x with backs := x.backs - 1 } else t.entryOf j :=
  h.updateKey k _ fun _ => rfl

/-- The backs of a key's entry rise by one, and nothing else moves (R101). -/
theorem TableSound.addBack {t : Taps} (h : TableSound t) (k : Key) :
    KeepsLookups t (t.addBack k) ∧ ∀ j, (t.addBack k).entryOf j =
      if j = k then (t.entryOf j).map fun x => { x with backs := x.backs + 1 } else t.entryOf j :=
  h.updateKey k _ fun _ => rfl

/-! ### Free checks (R90) -/

/-- An entry with no slot, no backs and no talk users (R90). -/
def unused (x : TapEntry) : Bool := x.slot.isNone && x.backs == 0 && x.talkUsers == 0

/-- A free check does nothing to an entry that is used, and frees one that is not. -/
theorem TableSound.freeCheck {t : Taps} (h : TableSound t) (e : EntryNo) :
    (t.freeCheck e = t ∧ ∀ x, t.entries.get e = some x → unused x = false)
      ∨ ∃ x, t.entries.get e = some x ∧ unused x = true ∧ t.freeCheck e = t.freeEntry e
        ∧ TableSound (t.freeCheck e)
        ∧ (∀ j, (t.freeCheck e).lookup j = if j = x.key then none else t.lookup j)
        ∧ (∀ j, (t.freeCheck e).entryOf j = if j = x.key then none else t.entryOf j)
        ∧ (t.freeCheck e).free = t.free ++ [e] := by
  unfold Taps.freeCheck
  cases hx : t.entries.get e with
  | none => exact .inl ⟨rfl, by simp⟩
  | some x =>
    simp only []
    have hu : (x.slot.isNone && x.backs == 0 && x.talkUsers == 0) = unused x := rfl
    rw [hu]
    by_cases hc : unused x = true
    · have hf := h.freeEntry hx
      rw [if_pos hc]
      exact .inr ⟨x, rfl, hc, rfl, hf.1, hf.2.2.1, hf.2.2.2.1, hf.2.1⟩
    · rw [if_neg hc]
      exact .inl ⟨rfl, by simpa using hc⟩

theorem Taps.freeEntry_frame (t : Taps) (e : EntryNo) : t.freeEntry e =
    { t with entries := (t.freeEntry e).entries, free := (t.freeEntry e).free, chains := (t.freeEntry e).chains } := by
  unfold Taps.freeEntry
  split <;> rfl

theorem Taps.freeCheck_frame (t : Taps) (e : EntryNo) : t.freeCheck e =
    { t with entries := (t.freeCheck e).entries, free := (t.freeCheck e).free, chains := (t.freeCheck e).chains } := by
  unfold Taps.freeCheck
  split
  · split
    · exact Taps.freeEntry_frame ..
    · rfl
  · rfl

/-- Several free checks: each key keeps its entry or loses it, and it loses it exactly when the entry is unused and
checked; the free list only grows. -/
theorem TableSound.freeChecks (es : List EntryNo) {t : Taps} (h : TableSound t) :
    TableSound (t.freeChecks es) ∧ t.free.length ≤ (t.freeChecks es).free.length
      ∧ (∀ j, ((t.freeChecks es).entryOf j = t.entryOf j ∧ (t.freeChecks es).lookup j = t.lookup j)
        ∨ ((t.freeChecks es).entryOf j = none ∧ (t.freeChecks es).lookup j = none
          ∧ ∃ e x, e ∈ es ∧ t.lookup j = some e ∧ t.entryOf j = some x ∧ unused x = true))
      ∧ (∀ j e x, e ∈ es → t.lookup j = some e → t.entryOf j = some x → unused x = true →
          (t.freeChecks es).entryOf j = none)
      ∧ t.freeChecks es = { t with entries := (t.freeChecks es).entries, free := (t.freeChecks es).free,
                                   chains := (t.freeChecks es).chains } := by
  induction es generalizing t with
  | nil => exact ⟨h, le_refl _, fun j => .inl ⟨rfl, rfl⟩, by simp, rfl⟩
  | cons a l ih =>
    have hc : t.freeChecks (a :: l) = (t.freeCheck a).freeChecks l := rfl
    rw [hc]
    rcases h.freeCheck a with ⟨e1, hx1⟩ | ⟨x, hx, hu, he, hs, hl, hen, hfr⟩
    · rw [e1]
      obtain ⟨i1, i2, i3, i4, i5⟩ := ih h
      refine ⟨i1, i2, fun j => ?_, fun j e x he hj hen hu => ?_, i5⟩
      · rcases i3 j with h1 | ⟨a1, a2, e, x, a3, a4, a5, a6⟩
        · exact .inl h1
        · exact .inr ⟨a1, a2, e, x, by simp [a3], a4, a5, a6⟩
      · rcases List.mem_cons.mp he with rfl | he
        · obtain ⟨y, hy, _, hye⟩ := h.entryOf_of_lookup hj
          rw [hye] at hen
          injection hen with hen
          subst hen
          rw [hx1 _ hy] at hu
          cases hu
        · exact i4 j e x he hj hen hu
    · obtain ⟨i1, i2, i3, i4, i5⟩ := ih hs
      have hlx : t.lookup x.key = some a := (h.lookup_iff _ _).mpr ⟨x, hx, rfl⟩
      have hex : t.entryOf x.key = some x := (h.entryOf_iff _ _).mpr ⟨a, hx, rfl⟩
      have hnone : ((t.freeCheck a).freeChecks l).entryOf x.key = none
          ∧ ((t.freeCheck a).freeChecks l).lookup x.key = none := by
        rcases i3 x.key with ⟨h1, h2⟩ | ⟨h1, h2, _⟩
        · rw [h1, h2, hen, hl]
          simp
        · exact ⟨h1, h2⟩
      refine ⟨i1, ?_, fun j => ?_, fun j e y hel hj hen' hu' => ?_, ?_⟩
      · rw [hfr] at i2
        simp at i2
        omega
      · by_cases hj : j = x.key
        · subst hj
          exact .inr ⟨hnone.1, hnone.2, a, x, by simp, hlx, hex, hu⟩
        · rcases i3 j with ⟨h1, h2⟩ | ⟨a1, a2, e, y, a3, a4, a5, a6⟩
          · rw [h1, h2, hen, hl, if_neg hj, if_neg hj]
            exact .inl ⟨rfl, rfl⟩
          · rw [hl, if_neg hj] at a4
            rw [hen, if_neg hj] at a5
            exact .inr ⟨a1, a2, e, y, by simp [a3], a4, a5, a6⟩
      · by_cases hjx : j = x.key
        · subst hjx
          exact hnone.1
        · rcases List.mem_cons.mp hel with rfl | hel
          · exact absurd (h.lookup_inj hj hlx) hjx
          · exact i4 j e y hel (by rw [hl, if_neg hjx]; exact hj) (by rw [hen, if_neg hjx]; exact hen') hu'
      · rw [i5, Taps.freeCheck_frame]

/-! ### A release (R90) -/

theorem releaseEntry_eq (n : Node) (e : EntryNo) (x : TapEntry) (hx : n.taps.entries.get e = some x) :
    n.releaseEntry e = { n with
      router := match x.slot with
        | some q => { n.router with bindings := n.router.bindings.set q .unbound }
        | none => n.router
      taps := (match x.alternate with | some k => n.taps.dropBack k | none => n.taps).updateEntry e
        TapEntry.released } := by
  unfold Node.releaseEntry
  rw [hx]
  obtain ⟨key, slot, alternate, a, b, c, d, f, g, i, j, k, l, m, o, p⟩ := x
  cases slot <;> cases alternate <;> rfl

/-- A release: the entry loses its slot and its alternate, its slot becomes unbound, and its alternate's entry loses one of
its backs; no other key's entry and no other slot moves. -/
theorem TableSound.releaseEntry (n : Node) (h : TableSound n.taps) (e : EntryNo) (x : TapEntry)
    (hx : n.taps.entries.get e = some x) :
    KeepsLookups n.taps (n.releaseEntry e).taps
      ∧ (∀ j, (n.releaseEntry e).taps.entryOf j =
          if j = x.key then (n.taps.entryOf j).map fun y =>
            { y.released with backs := if x.alternate = some j then y.backs - 1 else y.backs }
          else if x.alternate = some j then (n.taps.entryOf j).map fun y => { y with backs := y.backs - 1 }
          else n.taps.entryOf j)
      ∧ (∀ o, (n.releaseEntry e).router.bindings.get o =
          if x.slot = some o then .unbound else n.router.bindings.get o)
      ∧ n.releaseEntry e = { n with
          taps := (n.releaseEntry e).taps,
          router := { n.router with bindings := (n.releaseEntry e).router.bindings } } := by
  have hlx : n.taps.lookup x.key = some e := (h.lookup_iff _ _).mpr ⟨x, hx, rfl⟩
  have hb : ∀ o, (n.releaseEntry e).router.bindings.get o =
      if x.slot = some o then .unbound else n.router.bindings.get o := by
    intro o
    rw [releaseEntry_eq n e x hx]
    cases hs : x.slot with
    | none => simp
    | some q =>
      by_cases hq : q = o
      · subst hq
        simp
      · simp [hq]
  have hm : KeepsLookups n.taps (match x.alternate with | some k => n.taps.dropBack k | none => n.taps)
      ∧ ∀ j, (match x.alternate with | some k => n.taps.dropBack k | none => n.taps).entryOf j =
        if x.alternate = some j then (n.taps.entryOf j).map fun y => { y with backs := y.backs - 1 }
        else n.taps.entryOf j := by
    cases ha : x.alternate with
    | none => exact ⟨.refl h, fun j => by simp⟩
    | some k =>
      refine ⟨(h.dropBack k).1, fun j => ?_⟩
      simp only []
      rw [(h.dropBack k).2]
      by_cases hj : j = k
      · subst hj
        simp
      · simp [hj, Ne.symm hj]
  have hu := hm.1.sound.updateEntry e TapEntry.released fun _ => rfl
  refine ⟨?_, ?_, hb, ?_⟩
  · rw [releaseEntry_eq n e x hx]
    exact hm.1.trans (hm.1.sound.updateEntry_keeps e _ fun _ => rfl)
  · intro j
    rw [releaseEntry_eq n e x hx, hu.2.2, hm.1.lookup, hm.2]
    by_cases hj : j = x.key
    · subst hj
      rw [if_pos hlx, if_pos rfl]
      by_cases ha : x.alternate = some x.key
      · simp [ha, TapEntry.released, Function.comp_def]
      · rw [if_neg ha]
        simp only [ha, if_false]
        rfl
    · rw [if_neg (fun h' => hj (h.lookup_inj h' hlx)), if_neg hj]
  · rw [releaseEntry_eq n e x hx]
    cases hs : x.slot <;> rfl

end Sys2Proof.Safety
end

