-- ==== Sys2Proof/Tests/Slice0.lean ====
section
/-! SUPPORT. Tests of the model against the worked examples of the manual, and for each statement of
Certificates/Slice0/Obligations.lean a concrete state and operands that meet its hypotheses. -/

namespace Sys2Proof.Tests

open Sys2Proof Sys2Proof.Machine Sys2Proof.Safety

set_option Elab.async false

/-! ### Small states -/

/-- Station 1 at work under its defaults, at the power-on values, with light on both fibres. -/
def part : Node := Node.powerOn .finished true true

/-- The part before its load. -/
def unread : Node := Node.powerOn .reading true true

/-- The part as another station. -/
def as (station : Station) (n : Node) : Node :=
  { n with loader := { n.loader with values := Image.defaultsAt station .khz48 } }

/-- A state with no event in progress. -/
def still (n : Node) : State := { node := n, agenda := [], pending := [] }

/-- A state whose event in progress waits at this task. -/
def midst (t : Task) (n : Node) : State := { node := n, agenda := [t], pending := [] }

/-- The state after a command. -/
def next (c : Instr) (s : State) : State :=
  match exec c s with
  | .next t => t
  | _ => s

/-- The part after a command. -/
def after (c : Instr) (s : State) : Node := (next c s).node

/-- A message of a kind to a destination, from a sender, with tag 17 and these fields from byte 6 on. -/
def message (kind sender destination : Byte) (fields : List Byte) : FrameUnit :=
  unitOf ([kind, sender, destination, 17#8, 0#8, 0#8] ++ fields)

/-- The part with one message at the head of its queue. -/
def queued (source : Source) (u : FrameUnit) (n : Node) : Node :=
  n.updateMessages fun m => { m with queue := [{ message := u, source := source }] }

/-- The part with a reply slot granted to the head. -/
def granted (n : Node) : Node :=
  n.updateMessages fun m => { m with slots := m.slots.set 6 .reserved, granted := some 6 }

/-- The part with a transfer under way whose operation byte is complete. -/
def under (op : Byte) (n : Node) : Node := n.updatePort fun p => { p with transfer := .counting 8 (some op) none }

/-- The part with both links UP and the fold state WHOLE. -/
def whole (n : Node) : Node :=
  { n with link := { n.link with fold := .whole, east := { n.link.east with link := .up },
                                 west := { n.link.west with link := .up } } }

/-- The part in a node state with a followed origin. -/
def inState (s : NodeState) (followed : Option Station) (n : Node) : Node :=
  { n with cadence := { n.cadence with node := s, followed := followed } }

/-- The head report's body. -/
def firstReport (n : Node) : Option ReportBody := n.reports.items.head?.map Report.body

/-- The bytes from byte 6 on of the STATUS REPORT at the head of the Report Queue. -/
def firstStatus (n : Node) (count : Nat) : List Byte :=
  match firstReport n with
  | some (.statusReport u) => (u.items.drop 6).take count
  | _ => []

/-- The head and the body of the one frame that a side has sent. -/
def sentFrame (n : Node) (side : Side) : Option (SixBytes × List FrameUnit) :=
  match (n.side side).sent with
  | [.frame h body] => some (h, body)
  | _ => none

/-- The outcome and the first detail bytes of the RESULT at the head of the Report Queue. -/
def firstDetail (n : Node) (count : Nat) : List Byte :=
  match firstReport n with
  | some (.result u) => (u.items.drop 8).take (count + 1)
  | _ => []

/-- Lanes that carry nothing. -/
def darkLanes : LaneBlock := Table.replicate 8 (Table.replicate 8 (Table.replicate 8 0#32))

/-- Pins that are high. -/
def highPins : Table 4 Bool := Table.replicate 4 false

/-- An entry of the tap table that feeds a slot and has an alternate. -/
def primaryEntry : TapEntry :=
  { TapEntry.fresh ⟨1, 12⟩ with slot := some 70, alternate := some ⟨2, 12⟩, autoReturn := true }

/-- A part with one entry in the tap table. -/
def tapped (x : TapEntry) (n : Node) : Node :=
  let t := n.taps.create x.key
  { n with taps := t.updateEntry 0 fun _ => x,
           router := match x.slot with
             | some s => { n.router with bindings := n.router.bindings.set s (.tap 0) }
             | none => n.router }

/-- A talk of a desk on its channel 40. -/
def talkOf (desk : Station) (priority : Nat) : Talk :=
  { desk := desk, source := ⟨desk, 40⟩, priority := priority, dim := 262144#24, level := unity, deadline := 60 }

/-- The part with talks on mix 7. -/
def talking (l : List Talk) (n : Node) : Node := n.setTalks 7 l

/-- The desks and priorities of mix 7's list. -/
def ranks (n : Node) : List (Nat × Nat) := (n.talks 7).map fun t => (t.desk.number, t.priority)

/-- A key's image: channel 40, mix mask of mix 7, to a destination byte. -/
def keyTo (destination : Byte) : KeyImage :=
  { bound := true, destination := destination, mask := 128#24, priority := 4#8, dim := 262144#24, level := unity,
    channel := 40 }

/-- The part with key 0 bound to a destination. -/
def keyed (destination : Byte) (n : Node) : Node :=
  { n with loader := { n.loader with values := { n.loader.values with
      keys := n.loader.values.keys.set 0 (keyTo destination) } } }

/-! ### Well-formedness -/

/-- A flash of 512 bytes is well formed; one of 513 bytes is refused (R179). -/
theorem test_wellFormed_flash :
    (Instr.loadFinished (List.replicate 512 0#8) 5#4).wellFormed = true
      ∧ (Instr.loadFinished (List.replicate 513 0#8) 5#4).wellFormed = false := by decide +kernel

/-! ### Formats (R186) -/

/-- The cyclic check of R186's parameters over the bytes of "123456789" is 0x29B1 (the published check value of that
generator and start). -/
theorem test_cyclicCheck :
    cyclicCheck [49#8, 50#8, 51#8, 52#8, 53#8, 54#8, 55#8, 56#8, 57#8] = 10673#16 := by decide +kernel

/-! ### Start-up -/

theorem test_powerOn_held :
    (after (.powerOn true) (still part)).loader.state = .held
      ∧ (after (.powerOn true) (still part)).loader.flashCommand = [] := by decide +kernel

theorem test_powerOn_reading :
    (after (.powerOn false) (still part)).loader.state = .reading
      ∧ (after (.powerOn false) (still part)).loader.flashCommand = [3#8, 0#8, 0#8, 0#8] := by decide +kernel

theorem test_resetLineAsserted_clears :
    let n := after .resetLineAsserted (still (part.post (.tableLow 3 4)))
    n.loader.state = .held ∧ n.reports.items = [] ∧ n.reports.interrupt = false := by decide +kernel

theorem test_resetLineReleased_reads :
    (after .resetLineReleased (still (Node.powerOn .held false false))).loader.state = .reading := by decide +kernel

/-- The image of Section 11.8: 40 words, with the fields the example names, four sections, and a check word that makes
the sum 0. -/
def exampleWords : List Word16 :=
  let words : List Word16 :=
    [40#16, 0#16, 2#16, 1#16, 4#16, 20#16, 31#16, 4#16, 5#16, 0#16, 16#16, 0#16]
      ++ [260#16, 6#16, 1#16, 10241#16, 515#16]
      ++ [1036#16, 3092#16] ++ List.replicate 11 0#16 ++ [1312#16] ++ List.replicate 8 7#16
  words ++ [0#16 - imageSum words]

/-- The example's flash. -/
def exampleFlash : List Byte := exampleWords.flatMap bytes16

/-- Section 11.8: the first report is IMAGE, LOADED, length 40, station 5 from STRAPS, 96 kHz, 7 fields clamped. -/
theorem test_loadFinished_example_report :
    firstReport (after (.loadFinished exampleFlash 5#4) (still unread))
        = some (.image .loaded 40#16 4 false .khz96 7)
      ∧ (after (.loadFinished exampleFlash 5#4) (still unread)).reports.interrupt = true := by decide +kernel

/-- Section 11.8: the values in force. -/
theorem test_loadFinished_example_values :
    let v := (load exampleFlash 5#4).values
    v.linkHoldOff = 8 ∧ v.window = .w32 ∧ v.delay = 30 ∧ v.fallback = 4 ∧ v.returnHold = 10
      ∧ v.sendList = [0, 1, 2, 3] ∧ v.owners.get 0 = some 11 ∧ v.owners.get 1 = none
      ∧ (∀ k, (v.keys.get k).bound = false) := by decide +kernel

/-- No device on the flash pins: every word reads 65,535, so the outcome is DEFAULTS, NO IMAGE (R179), and straps of 0
stand for station 16 (R181). -/
theorem test_load_noImage :
    (load [] 0#4).outcome = .defaults .noImage ∧ (load [] 0#4).values.station = 15 := by decide +kernel

/-! ### The Local Message Port -/

theorem test_transferBegins_counts :
    (after .transferBegins (still part)).port.transfer = .counting 0 none none := by decide +kernel

/-- Section 10.4, step 2: the operation byte shifts out ACCEPTED, slot 2, code 1 in bits 7..4 (R189). -/
theorem test_operationByte_accepted :
    let n := after (.operationByteComplete 1#8)
      (still (after .transferBegins (still (part.hold (.accepted (some 2))))))
    n.port.shiftedOut = [false, false, false, true, false, false, true, false] ∧ n.port.held = .nothing := by
  decide +kernel

/-- R175: an empty queue gives the empty marker with the present post number and remaining count 0. -/
theorem test_operationByte_emptyMarker :
    let n := after (.operationByteComplete 2#8)
      (still (after .transferBegins (still { part with reports := { part.reports with postNumber := 120#8 } })))
    n.port.reply.take 3 = [0#8, 120#8, 0#8] ∧ n.port.reply.length = 27 := by decide +kernel

/-- Section 10.4, step 1: with port slots 0 and 1 IN FLIGHT the message goes into slot 2, with the station as sender. -/
theorem test_send_takes_lowest_free_slot :
    let busy := part.updateMessages fun m => { m with slots := (m.slots.set 0 (.inFlight (unitOf []) 9)).set 1 (.inFlight (unitOf []) 9) }
    let n := after (.send (message kindTapSet 9#8 3#8 [])) (still (under 1#8 busy))
    n.port.held = .accepted (some 2)
      ∧ (n.messages.slots.get 2).message.map (fun u => (u.sender, u.slot)) = some (1#8, 2#8) := by decide +kernel

/-- R172: a RESULT is MALFORMED. -/
theorem test_send_malformed :
    (after (.send (message kindResult 0#8 3#8 [])) (still (under 1#8 part))).port.held = .malformed := by decide +kernel

theorem test_takeReport_clears_line :
    let chosen := after (.operationByteComplete 2#8)
      (still (after .transferBegins (still (part.post (.tableLow 3 4)))))
    let n := after .takeReport (still chosen)
    n.reports.items = [] ∧ n.reports.interrupt = false ∧ n.port.transfer = .idle := by decide +kernel

/-- Table 10-1 and R174: the 33rd report is discarded and counted, and the post number advances. -/
theorem test_report_queue_full :
    let q := (List.range 33).foldl (fun q _ => q.post (.tableLow 3 4)) ReportQueue.initial
    q.items.length = 32 ∧ q.postNumber = 33#8 ∧ q.lost = 1#16 := by decide +kernel

/-- R64: both sides DOWN with cause RESTART, and a quiet period of 24 boundaries. -/
theorem test_restartRing_links :
    let n := after .restartRing (still (under 3#8 (whole part)))
    n.link.quiet = some 24 ∧ n.link.fold = .isolated
      ∧ firstReport n = some (.link .east .down .restart none) := by decide +kernel

/-- R85: a port slot's message is settled LOST. -/
theorem test_restartRing_slots :
    let busy := part.placeMessage 0 (message kindTapSet 0#8 3#8 [])
    (after .restartRing (still (under 3#8 busy))).messages.slots.get 0 = .free := by decide +kernel

/-- Section 10.4, step 3: select rises after 20 bytes of a SEND. -/
theorem test_transferIgnored_short_send :
    (after (.transferIgnored 160) (still (under 1#8 part))).port.framing = 1#16 := by decide +kernel

/-- R170: 7 bits are ignored and counted; a whole SEND is not an ignored transfer; the later bytes of an unknown operation
shift out 0. -/
theorem test_transferIgnored_bounds :
    (after (.transferIgnored 7) (still (after .transferBegins (still part)))).port.framing = 1#16
      ∧ (after (.transferIgnored 200) (still (under 1#8 part))).port.framing = 0#16
      ∧ (after (.transferIgnored 19) (still (under 4#8 part))).port.shiftedOut = List.replicate 11 false := by
  decide +kernel

/-! ### Links -/

/-- R48: PROVING for 12 × 250 ms. -/
theorem test_receiverLockGained :
    let n := after (.receiverLockGained .west) (still (Node.powerOn .finished true false))
    n.link.west.link = .proving ∧ n.link.west.holdOff = some 3000
      ∧ firstReport n = some (.link .west .proving .lockGained none) := by decide +kernel

/-- Section 3.6, step 1: station 2's East receiver loses lock, and it folds east. -/
theorem test_receiverLockLost_folds :
    let n := after (.receiverLockLost .east) (still (whole part))
    n.link.east.link = .down ∧ n.link.fold = .foldedEast ∧ n.link.east.linkDown = 1#16
      ∧ n.link.foldChange = 1#16 := by decide +kernel

/-- Section 3.7, step 2: a beacon saying hears = no takes station 2's East link DOWN with FAR END, and the link report
names station 3, FOLDED WEST. -/
theorem test_beaconReceived_farEnd :
    let n := after (.beaconReceived .east (makeBeacon 2 .west false false .foldedWest)) (still (whole part))
    n.link.east.link = .down ∧ n.link.fold = .foldedEast
      ∧ firstReport n = some (.link .east .down .farEnd (some (2, .foldedWest))) := by decide +kernel

/-- R50: the fourth bad item stops at BAD_RUN, whose command takes the link DOWN. -/
theorem test_badRun_takes_link_down :
    let three := whole (part.updateSide .west fun x => { x with badRun := 3 })
    let s := next (.beaconReceived .west (Table.replicate 6 0#8)) (still three)
    s.agenda = [.badRun .west] ∧ (after (.badRun .west) s).link.west.link = .down := by decide +kernel

/-- R45, R50: the boundary that brings the silence count to 16 stops at SILENCE. -/
theorem test_silence_waits_at_16 :
    let quiet := whole (part.updateSide .east fun x => { x with silence := 15 })
    let s := next (.boundary darkLanes highPins) (still quiet)
    s.agenda.head? = some (.silence .east)
      ∧ firstReport (after (.silence .east) s) = some (.link .east .down .silence none) := by decide +kernel

/-- Section 3.6, steps 5 and 6: a proven hold-off gives UP; the unfold needs the far end's proven. -/
theorem test_linkProven_unfolds :
    let folded (proven : Bool) : Node :=
      let w := whole part
      { w with link := { w.link with fold := .foldedWest, west :=
        { w.link.west with link := .proving, holdOff := some 0, latest := some ⟨1, true, proven, .foldedEast⟩ } } }
    (after (.linkProven .west) (midst (.linkProven .west) (folded true))).link.fold = .whole
      ∧ (after (.linkProven .west) (midst (.linkProven .west) (folded false))).link.fold = .foldedWest := by
  decide +kernel

/-- R47: the beacon due goes once. -/
theorem test_beaconSent_once :
    let n := after (.beaconSent .east) (still (part.updateSide .east fun x => { x with beaconDue := true }))
    n.link.east.sent.length = 1 ∧ (after (.beaconSent .east) (still n)).link.east.sent.length = 1 := by decide +kernel

/-- R64: a side heard re-arms at the end of the quiet period. -/
theorem test_quietPeriodEnd :
    let heard := part.updateSide .east fun x => { x with latest := some ⟨1, true, false, .isolated⟩ }
    let n := after .quietPeriodEnd (midst .quietEnd { heard with link := { heard.link with quiet := some 0 } })
    n.link.quiet = none ∧ n.link.east.link = .proving ∧ n.link.west.link = .down := by decide +kernel

/-! ### Frames and the cadence -/

/-- Section 3.6: a frame turned at station 2 that arrives at station 1 with 0 hops leaves it with 1. -/
theorem test_frameReceived_passes_through :
    let n := after (.frameReceived .east (makeHead 1#8 40#8 3#8 false true 0) []) (still (whole part))
    n.link.west.sent = [.frame (makeHead 1#8 40#8 3#8 false true 1) []] := by decide +kernel

/-- Section 1.7, in small: station 3, FOLLOWING origin 1, strips its own segment, whose message settles port slot 2
TAKEN, takes station 2's TAP SET, and sends the unit on marked. -/
theorem test_frameReceived_primary_pass :
    let tapSet := message kindTapSet 2#8 3#8 [1#8, 5#8, 64#8, 0#8, 0#8, 0#8]
    let own := (message kindTapSet 3#8 4#8 []).setByte 4 2#8
    let h2 := segmentHeader 2#8 40#8 true false false 0 0 1 [] [] [tapSet]
    let h3 := segmentHeader 3#8 36#8 false false false 0 0 1 [] [] [own]
    let listening := inState .following (some 0) (as 2 (whole part))
    let ready := listening.updateMessages fun m => { m with slots := m.slots.set 2 (.inFlight own 9) }
    let body := [h3, own.mark true false, h2, tapSet]
    let n := after (.frameReceived .west (makeHead 1#8 40#8 3#8 false false 0) body) (still ready)
    n.messages.slots.get 2 = .free ∧ firstReport n = some (.delivery 2 kindTapSet 17#8 4#8 .taken)
      ∧ n.messages.queue = [{ message := tapSet, source := .ring 1 0#8 }]
      ∧ n.engine.known.get 1 = some []
      ∧ ((sentFrame n .east).map fun f => (f.1, f.2.take 2))
          = some (makeHead 1#8 40#8 3#8 false false 0, [h2, tapSet.mark true false]) := by decide +kernel

/-- R36: a frame emitted at count 253 that returns at count 2 gives L = 5. -/
theorem test_return_measures_round :
    let n := inState .origin (some 0) part
    ((({ n with cadence := { n.cadence with localCount := 2#8 } } : Node).answerAdmission
      { head := makeHead 1#8 253#8 0#8 false false 0, body := [] }).2).cadence.roundLength = 5#8 := by decide +kernel

/-- Section 2.10: of 2 returns to a queue of 3, one is dropped. -/
theorem test_return_queue_drops :
    let n := inState .origin (some 0) part
    let f : Frame := { head := makeHead 1#8 0#8 0#8 false false 0, body := [] }
    let three : Node := { n with cadence := { n.cadence with returnQueue := [f, f, f] } }
    let m := ((three.answerAdmission f).2.answerAdmission f).2
    m.cadence.returnQueue.length = 4 ∧ m.cadence.returnDiscard = 1#16 := by decide +kernel

/-- The append of Section 1.8: full header, layout-due after, n, TRIMMED, units of header. -/
def append18 (units : Nat) : Bool × Bool × Nat × Bool × Nat :=
  let v := Image.defaultsAt 5 .khz96
  let n : Node := { part with loader := { part.loader with values := v },
                              engine := { part.engine with unsent := some (7#8, silentCapture) } }
  let p := n.appendPlan (n.capacity - units)
  (p.full, p.layoutDue, p.carried, p.trimmed, p.headerUnits)

/-- Section 1.8: the first four rows of the table. -/
theorem test_append_under_pressure :
    append18 153 = (true, false, 32, false, 3) ∧ append18 240 = (true, false, 13, true, 3)
      ∧ append18 254 = (false, true, 1, true, 1) ∧ append18 255 = (false, true, 0, true, 1) := by decide +kernel

/-- Section 1.8: the last row: nothing is appended and the starved-for-room count rises. -/
theorem test_append_no_room :
    let n : Node := { part with engine := { part.engine with unsent := some (7#8, silentCapture) } }
    ((n.append 512).1 = []) ∧ (n.append 512).2.engine.starvedForRoom = 1#16
      ∧ (n.append 512).2.engine.layoutDue = true := by decide +kernel

/-- R26: the count goes from 255 to 0. -/
theorem test_boundary_wraps :
    let n : Node := { part with cadence := { part.cadence with localCount := 255#8 } }
    (after (.boundary darkLanes highPins) (still n)).cadence.localCount = 0#8 := by decide +kernel

/-- R129: the first time slot of lane 1 at 48 kHz is channel 8, and its sample is the first 24 bit clocks. -/
theorem test_boundary_captures :
    let lanes : LaneBlock := darkLanes.set 1 ((darkLanes.get 1).set 0 (Table.replicate 8 305419896#32))
    let n := after (.boundary lanes highPins) (still part)
    (n.router.capture.get 8).get 0 = 1193046#24 ∧ (n.router.capture.get 7).get 0 = 0#24 := by decide +kernel

/-- Section 2.9: station 2 enters WAITING with a back-off of 16. -/
theorem test_starvation_sets_backOff :
    let n := as 1 (whole part)
    let m := after .starvation (midst .starvation { n with cadence := { n.cadence with starvation := 48 } })
    m.cadence.node = .waiting ∧ m.cadence.backOff = some 16 ∧ m.engine.layoutDue = true := by decide +kernel

/-- Section 2.9: station 2 claims with a frame of origin 2, its local count and L 0. -/
theorem test_claim_sends :
    let n := as 1 (whole part)
    let m := after .claim (midst .claim { n with cadence :=
      { n.cadence with node := .waiting, backOff := some 0, localCount := 64#8, roundLength := 9#8 } })
    m.cadence.node = .claiming ∧ m.cadence.followed = some 1
      ∧ (sentFrame m .east).map Prod.fst = some (makeHead 2#8 64#8 0#8 false false 0) := by decide +kernel

/-! ### The Message Controller -/

/-- Section 4.7, step 2: the slot goes IN FLIGHT with 2 × 4 + 16 = 24. -/
theorem test_launch_flight_count :
    let n := (part.placeMessage 0 (message kindTapSet 0#8 3#8 [])).updateCadence fun c => { c with roundLength := 4#8 }
    (n.giveReady 8).2.messages.slots.get 0 = .inFlight ((message kindTapSet 0#8 3#8 []).placed 0 0#8) 24 := by
  decide +kernel

/-- Section 4.8: HOLD is as it was at 4 free places, set at 3, and clear at 8. -/
theorem test_hold_thresholds :
    let q (k : Nat) (h : Bool) : Messages :=
      { Messages.initial with queue := List.replicate k { message := unitOf [], source := .port }, hold := h }
    (q 12 false).judgeHold.hold = false ∧ (q 13 false).judgeHold.hold = true ∧ (q 9 true).judgeHold.hold = true
      ∧ (q 8 true).judgeHold.hold = false := by decide +kernel

/-- R74: a lost port slot is reported LOST. -/
theorem test_slotLost_reports :
    let n := part.updateMessages fun m => { m with slots := m.slots.set 3 (.inFlight (message kindTapSet 1#8 4#8 []) 0) }
    let m := after (.slotLost 3) (midst (.slotLost 3) n)
    firstReport m = some (.delivery 3 kindTapSet 17#8 4#8 .lost) ∧ m.messages.lostSlot = 1#16 := by decide +kernel

/-- R76: the HOLD of a peer not seen for 128 boundaries is forgotten; not at 127. -/
theorem test_holdRecordExpiry :
    let n (c : Nat) := part.updateMessages fun m => { m with peers := m.peers.set 4 ⟨true, c⟩ }
    ((after (.holdRecordExpiry 4) (midst (.holdExpiry 4) (n 128))).messages.peers.get 4).hold = false
      ∧ ((after (.holdRecordExpiry 4) (midst (.holdExpiry 4) (n 127))).messages.peers.get 4).hold = true := by
  decide +kernel

/-- Section 4.7, step 5: slot 6 is granted and RESERVED. -/
theorem test_replySlotGrant :
    let n := queued (.ring 0 0#8) (message kindTapSet 1#8 3#8 []) part
    let m := after .replySlotGrant (still n)
    m.messages.slots.get 6 = .reserved ∧ m.messages.granted = some 6 ∧ m.messages.turn = .notice := by decide +kernel

theorem test_unknownKind_badField :
    let n := after .unknownKind (still (queued .port (message 9#8 1#8 1#8 []) part))
    firstDetail n 0 = [10#8] ∧ n.messages.queue = [] := by decide +kernel

/-! ### The Tap Controller -/

/-- A TAP SET from the port, as Section 5.10 sends it. -/
def tapSetOf (fields : List Byte) (n : Node) : Node :=
  after .tapSet (still (queued .port (message kindTapSet 5#8 5#8 fields)
    { n with reports := ReportQueue.initial }))

/-- Section 5.10 after step 1: two entries, slot 70, an alternate. -/
def patched1 : Node := tapSetOf [1#8, 12#8, 70#8, 2#8, 12#8, 4#8] (as 4 part)

/-- Section 5.10, step 1: entry 0 feeds slot 70, entry 1's backs is 1, free count 254, DONE. -/
theorem test_tapSet_new :
    patched1.router.bindings.get 70 = .tap 0 ∧ (patched1.taps.entries.get 1).map TapEntry.backs = some 1
      ∧ patched1.taps.free.length = 254 ∧ firstDetail patched1 0 = [1#8] := by decide +kernel

/-- Section 5.10, steps 2 and 3: SLOT BUSY without TAKE; with it entries 0 and 1 are freed and the free list reads
3..255, 0, 1. -/
theorem test_tapSet_steals :
    firstDetail (tapSetOf [3#8, 12#8, 70#8, 0#8, 0#8, 0#8] patched1) 0 = [7#8]
      ∧ (tapSetOf [3#8, 12#8, 70#8, 0#8, 0#8, 2#8] patched1).taps.free
          = (List.finRange 256).drop 3 ++ [0, 1] := by decide +kernel

/-- Section 5.9: bucket 0 holds these keys. -/
theorem test_buckets :
    (⟨0, 0⟩ : Key).bucket = 0 ∧ (⟨1, 43⟩ : Key).bucket = 0 ∧ (⟨7, 45⟩ : Key).bucket = 0
      ∧ (⟨6, 40⟩ : Key).bucket = 38 := by decide +kernel

/-- Section 5.10, step 9: TAP DROP frees the entry. -/
theorem test_tapDrop_frees :
    let n := after .tapDrop (still (queued .port (message kindTapDrop 5#8 5#8 [1#8, 12#8])
      { patched1 with reports := ReportQueue.initial }))
    n.taps.free.length = 256 ∧ n.router.bindings.get 70 = .unbound
      ∧ firstDetail n 4 = [1#8, 2#8, 1#8, 0#8, 0#8] := by decide +kernel

/-- R99: bucket 0 is walked at the first boundary after the hand-off. -/
theorem test_tapClear_walks :
    let n := after .tapClear (still (queued .port (message kindTapClear 1#8 1#8 []) part))
    n.taps.walk = some ⟨0, 0⟩
      ∧ (after (.boundary darkLanes highPins) (still n)).taps.walk = some ⟨1, 0⟩ := by decide +kernel

/-- Section 5.11: DONE, with 3 entries freed and 1 left in use. -/
theorem test_tapClearComplete :
    let n := queued .port (message kindTapClear 1#8 1#8 []) (tapped { TapEntry.fresh ⟨5, 55⟩ with talkUsers := 1 } part)
    let walked : Node := { n with taps := { n.taps with walk := some ⟨64, 3⟩ },
                                  messages := { n.messages with carrying := .tapClear } }
    firstDetail (after .tapClearComplete (midst .walkComplete walked)) 4 = [1#8, 0#8, 3#8, 0#8, 1#8] := by decide +kernel

/-- Section 6.7: the late arrival at age 8 records a raise to 9. -/
theorem test_arrival_late :
    let t := (Taps.initial 6).create ⟨2, 5⟩
    (t.arrive .w16 110#8 ⟨2, 5⟩ 102#8 silentFrame).raise = some 9
      ∧ ((t.arrive .w16 110#8 ⟨2, 5⟩ 108#8 silentFrame).raise = none) := by decide +kernel

/-- Section 6.8: P_eff 9 with P = 6 and a largest age of 3 becomes 6, with cause LOWER. -/
theorem test_windowEnd_lowers :
    let v := { part.loader.values with delay := 6 }
    let n : Node := { part with loader := { part.loader with values := v },
                                taps := { part.taps with pEff := 9, windowCount := 256, largestAge := some 3 } }
    let m := after .windowEnd (midst .windowEnd n)
    m.taps.pEff = 6 ∧ firstReport m = some (.delayChanged 6 9 .lower) ∧ m.taps.largestAge = none := by decide +kernel

/-- Section 6.9: 800,000 and −1,000,001 concealed. -/
theorem test_conceal_example :
    concealSample 1 800000#24 = 600000#24 ∧ concealSample 2 800000#24 = 400000#24
      ∧ concealSample 3 800000#24 = 200000#24 ∧ concealSample 4 800000#24 = 0#24
      ∧ (concealSample 1 (BitVec.ofInt 24 (-1000001))).toInt = -750001
      ∧ (concealSample 2 (BitVec.ofInt 24 (-1000001))).toInt = -500001
      ∧ (concealSample 3 (BitVec.ofInt 24 (-1000001))).toInt = -250001 := by decide +kernel

/-- R116: a sample of −5 gives −4, −3 and −2. -/
theorem test_conceal_minus_five :
    (concealSample 1 (BitVec.ofInt 24 (-5))).toInt = -4 ∧ (concealSample 2 (BitVec.ofInt 24 (-5))).toInt = -3
      ∧ (concealSample 3 (BitVec.ofInt 24 (-5))).toInt = -2 := by decide +kernel

/-- Section 6.9, reads 6 and 7: 500,000 is halved after five absent reads and stays as it is after three. -/
theorem test_recovery_example :
    recovered 5 (Table.replicate 8 500000#24) = Table.replicate 8 250000#24
      ∧ recovered 3 (Table.replicate 8 500000#24) = Table.replicate 8 500000#24 := by decide +kernel

/-- Section 6.10: the primary's fourth absent read with the alternate present falls back. -/
theorem test_fallback_example :
    let n := tapped { primaryEntry with conceal := 4 } part
    let read : Node := { n with taps := { n.taps with reads := [⟨⟨2, 12⟩, true, silentFrame⟩] } }
    firstReport (read.decideFallback 0) = some (.fallback 0 ⟨1, 12⟩ 70 ⟨2, 12⟩) := by decide +kernel

/-- Section 6.10: the return hold is reached, and RETURNED has cause HOLD. -/
theorem test_returnHoldComplete :
    let n := tapped { primaryEntry with onAlternate := true, returnHold := 500 } part
    let m := after (.returnHoldComplete 0) (midst (.returnHold 0) n)
    firstReport m = some (.returned 0 ⟨1, 12⟩ 70 ⟨2, 12⟩ .hold)
      ∧ (m.taps.entries.get 0).map TapEntry.onAlternate = some false := by decide +kernel

/-! ### The Mix Engine and the outputs -/

/-- Section 8.10 before the first request: mix 3 owned by station 12, and the requests from it. -/
def mixGainOf (desk : Station) (fields : List Byte) (n : Node) : Node :=
  let owned := n.updateMix 3 fun x => { x with owner := some 11 }
  after .mixGain (still (queued .port (message kindMixGain 5#8 5#8 fields)
    { as desk owned with reports := ReportQueue.initial }))

/-- Section 8.10, requests 1 and 5: DONE with count 1, free 1,023, current 0, target 1,048,576; LOCKED with 12. -/
theorem test_mixGain_answers :
    firstDetail (mixGainOf 11 [3#8, 70#8, 16#8, 0#8, 0#8, 4#8] part) 9
        = [1#8, 1#8, 3#8, 255#8, 0#8, 0#8, 0#8, 16#8, 0#8, 0#8]
      ∧ firstDetail (mixGainOf 6 [3#8, 5#8, 4#8, 0#8, 0#8, 0#8] part) 1 = [9#8, 12#8] := by decide +kernel

/-- Section 8.10, requests 2 and 3: slot 0 is linked ahead of slot 70; the same target again is ALREADY and the ramp
keeps its length 4. -/
theorem test_mixGain_links :
    let n1 := mixGainOf 11 [3#8, 70#8, 16#8, 0#8, 0#8, 4#8] part
    let n2 := mixGainOf 11 [3#8, 0#8, 8#8, 0#8, 0#8, 0#8] n1
    let n3 := mixGainOf 11 [3#8, 70#8, 16#8, 0#8, 0#8, 10#8] n2
    (n2.mixer.mixes.get 3).crosspoints.map (fun c => c.slot) = [0, 70] ∧ n2.mixer.freeCrosspoints = 1022
      ∧ firstDetail n3 0 = [2#8]
      ∧ ((n3.mixer.mixes.get 3).crosspoints.map fun c => c.gain.phase) = [.pending, .ramping 0#24 4 0] := by
  decide +kernel

/-- Section 8.10, b3 and b4: the quotient is truncated toward 0. -/
theorem test_ramp_values :
    rampValue 524288#24 0#24 1 3 = 349526#24 ∧ rampValue 524288#24 0#24 2 3 = 174763#24
      ∧ rampValue 1048576#24 262144#24 4 16 = 851968#24 := by decide +kernel

/-- R142: a MIX MASTER to the target in force is ALREADY; another ramps. -/
theorem test_mixMaster :
    let q (t : Byte) := after .mixMaster (still (queued .port (message kindMixMaster 1#8 1#8 [2#8, t, 0#8, 0#8, 8#8]) part))
    firstDetail (q 16#8) 0 = [2#8]
      ∧ ((q 8#8).mixer.mixes.get 2).master = { value := unity, target := 524288#24, phase := .ramping unity 8 0 } := by
  decide +kernel

/-- Section 8.8: the sum 6,375,000, and with a talk level of 3 × unity 9,375,000, which is clamped. -/
theorem test_mix_sum_example :
    let x (talk : Coef) : Mix := { Mix.initial with
      master := Ramp.settledAt 1572864#24, duck := Ramp.settledAt 262144#24, talkLevel := Ramp.settledAt talk }
    (x 2097152#24).sum 1000000 3000000 = 6375000 ∧ (x 3145728#24).sum 1000000 3000000 = 9375000
      ∧ clampSample 9375000 = 8388607#24 ∧ (clampSample (-9000000)).toInt = -8388608 := by decide +kernel

/-- Section 8.9: the rounding table. -/
theorem test_rounding_table :
    roundShift 1572864 = 2 ∧ roundShift (-1572864) = -1 ∧ roundShift (-2621440) = -2 ∧ roundShift (-1677722) = -2
      ∧ roundShift (-524288) = 0 ∧ roundShift (-524289) = -1 ∧ roundShift (-1) = 0 := by decide +kernel

/-- Section 7.8: output 12 goes from MIX 4 to MIX 5, with detail MIX 4. -/
theorem test_outSet_example :
    let n : Node := { part with router := { part.router with outMap := part.router.outMap.set 12 (.mix 4) } }
    let m := after .outSet (still (queued .port (message kindOutSet 1#8 1#8 [12#8, 1#8, 5#8]) n))
    m.router.outMap.get 12 = .mix 5 ∧ firstDetail m 2 = [1#8, 1#8, 4#8] := by decide +kernel

/-! ### Talkback -/

/-- Section 9.5: mix 7 with four talks. -/
def arbitrated : Node := talking [talkOf 1 6, talkOf 0 4, talkOf 4 4, talkOf 8 2] part

/-- A TALK OPEN of a desk at a priority for mix 7. -/
def opens (desk : Station) (priority : Byte) (n : Node) : Node :=
  after .talkOpen (still (granted (queued (.ring desk 4#8)
    (message kindTalkOpen desk.byte 1#8
      ([desk.byte, 40#8, 0#8, 0#8, 128#8, priority] ++ bytes24 262144#24 ++ bytes24 unity)) n)))

/-- Section 9.5, steps 1 and 2. -/
theorem test_talkOpen_evicts :
    ranks (opens 2 4#8 arbitrated) = [(2, 6), (1, 4), (3, 4), (5, 4)]
      ∧ (opens 2 4#8 arbitrated).messages.notices = [{ desk := 8, evicted := true, mask := 128#24 }]
      ∧ ranks (opens 3 4#8 (opens 2 4#8 arbitrated)) = [(2, 6), (1, 4), (3, 4), (4, 4)] := by decide +kernel

/-- Section 9.5, steps 3 and 4: MIX BUSY with busy mask 7; desk 1 at priority 7 becomes the winner. -/
theorem test_talkOpen_busy_and_replace :
    let two := talking [talkOf 1 6, talkOf 0 4, talkOf 2 4, talkOf 3 4] part
    ranks (opens 5 4#8 two) = [(2, 6), (1, 4), (3, 4), (4, 4)]
      ∧ ((opens 5 4#8 two).messages.slots.get 6).message.map (fun u => (u.items.drop 8).take 7)
          = some [11#8, 0#8, 0#8, 0#8, 0#8, 0#8, 128#8]
      ∧ ranks (opens 0 7#8 two) = [(1, 7), (2, 6), (3, 4), (4, 4)] := by decide +kernel

/-- R164: the deadline is 120 again; a mask with a mix that holds no talk of the sender is NOT FOUND with it. -/
theorem test_talkKeep :
    let q := queued .port (message kindTalkKeep 1#8 1#8 [0#8, 1#8, 128#8]) (talking [talkOf 0 4] part)
    let n := after .talkKeep (still q)
    (n.talks 7).map (fun t => t.deadline) = [120]
      ∧ firstDetail n 3 = [8#8, 0#8, 1#8, 0#8] := by decide +kernel

/-- R165: the talk leaves the list, the duck ramps back to unity over 16, and there is no answer. -/
theorem test_talkClose :
    let ducked := (talking [talkOf 0 4] part).updateMix 7 fun x => { x with duck := Ramp.settledAt 262144#24 }
    let n := after .talkClose (still (queued .port (message kindTalkClose 1#8 1#8 [0#8, 0#8, 128#8]) ducked))
    n.talks 7 = [] ∧ n.reports.items = []
      ∧ (n.mixer.mixes.get 7).duck = { value := 262144#24, target := unity, phase := .ramping 262144#24 16 0 } := by
  decide +kernel

/-- R166: the talk whose deadline came to 0 leaves, and its desk gets TIMED OUT. -/
theorem test_talkExpiry :
    let n := talking [talkOf 1 6, { talkOf 4 4 with deadline := 0 }] part
    let m := after .talkExpiry (midst .talkExpiry n)
    ranks m = [(2, 6)] ∧ m.messages.notices = [{ desk := 4, evicted := false, mask := 128#24 }] := by decide +kernel

/-- R156, R157: the press of a key to station 4 places a TALK OPEN in slot 4 with tag 4 × 0 + 0, and the serial
advances. -/
theorem test_talkKeyPressed :
    let n := (keyed 4#8 part).updateKey 0 fun x => { x with debounce := 5 }
    let m := after (.talkKeyPressed 0) (midst (.keyPressed 0) n)
    ((m.messages.slots.get 4).message.map fun u => (u.kind, u.destination, u.tag)) = some (kindTalkOpen, 4#8, 0#8)
      ∧ (m.talk.keys.get 0).keep = some 40 ∧ (m.talk.keys.get 0).serial = 1 := by decide +kernel

/-- R156: the release makes a CLOSE and stops the keep count. -/
theorem test_talkKeyReleased :
    let n := (keyed 4#8 part).updateKey 0 fun x => { x with debounce := 5, pressed := true, keep := some 7, serial := 3 }
    let m := after (.talkKeyReleased 0) (midst (.keyReleased 0) n)
    ((m.messages.slots.get 4).message.map fun u => (u.kind, u.tag)) = some (kindTalkClose, 12#8)
      ∧ (m.talk.keys.get 0).keep = none := by decide +kernel

/-- R156: the keep count's end makes a KEEP and starts it again at 40. -/
theorem test_keepCountExpiry :
    let n := (keyed 4#8 part).updateKey 0 fun x => { x with pressed := true, keep := some 0 }
    let m := after (.keepCountExpiry 0) (midst (.keepExpiry 0) n)
    (m.messages.slots.get 4).message.map FrameUnit.kind = some kindTalkKeep
      ∧ (m.talk.keys.get 0).keep = some 40 := by decide +kernel

/-- R27: at 48 kHz the sixth boundary is a mark, and the deadlines fall at it. -/
theorem test_millisecondMark :
    let n := talking [talkOf 1 6] { part with cadence := { part.cadence with markPhase := 6 } }
    let m := after .millisecondMark (midst .mark n)
    m.cadence.markPhase = 0 ∧ (m.talks 7).map (fun t => t.deadline) = [59] := by decide +kernel

/-- Table 12-6: MIX 2 of a fresh part: no crosspoints, master unity, no winner, clip count 0. -/
theorem test_statusQuery_mix :
    let n := after .statusQuery (still (queued .port (message kindStatusQuery 1#8 1#8 [2#8, 2#8]) part))
    firstStatus n 10 = [33#8, 2#8, 0#8, 16#8, 0#8, 0#8, 0#8, 0#8, 0#8, 0#8] := by decide +kernel

/-! ### The step -/

/-- The front command runs and leaves the queue. -/
theorem test_step_runs_front :
    let s := still part
    step { s with pending := [.transferBegins, .takeReport] }
      = .next { s with node := s.node.beginTransfer, pending := [.takeReport] } := rfl

/-! ### Witnesses: states and operands that meet the statements' hypotheses -/

theorem witness_StepRunsTheFrontCommand :
    ({ still part with pending := [.takeReport, .restartRing] } : State).pending = .takeReport :: [.restartRing]
      ∧ State.reset.pending = [] := by decide +kernel

theorem witness_PowerAndResetLineHoldTheStart :
    (still (Node.powerOn .held false false)).finish.node.loader.state = .held
      ∧ (still part).finish.node.loader.state ≠ .held := by decide +kernel

theorem witness_LoadFinishedStartsTheBlocks :
    let n := (still unread).finish.node
    n.loader.state = .reading ∧ (n.side .east).lock = true ∧ (n.side .east).link = .down := by decide +kernel

theorem witness_LoadedValuesLieInRange :
    let v := (load exampleFlash 5#4).values
    v.sendList = [0, 1, 2, 3] ∧ v.slotTable.get 31 = some 31 ∧ v.rate.present 31 = true
      ∧ v.rate.present 32 = false := by decide +kernel

/-- A load of each outcome: the example of Section 11.8, no device, a length of 1, and the example with a changed word. -/
theorem witness_LoadOutcomes :
    (load exampleFlash 5#4).outcome = .loaded ∧ (load [] 0#4).outcome = .defaults .noImage
      ∧ (load [0#8, 1#8] 0#4).outcome = .defaults .badLength
      ∧ (load (exampleFlash.set 3 1#8) 5#4).outcome = .defaults .badCheck := by decide +kernel

/-- The example's sections: a send list and mix owners are taken, and the key records are cut. -/
theorem witness_LoadSections :
    (imageSections exampleWords).taken.map Prod.fst = [1, 4] ∧ (imageSections exampleWords).count = 0 := by decide +kernel

/-- A code of an earlier section, and a send list of a wrong size, are passed over and counted. -/
theorem test_sections_passed_over :
    let s := walkSections 9 [0x0102#16, 2#16, 0x0001#16, 0x0102#16, 1#16, 0x0200#16, 0x0201#16, 7#16]
      { taken := [], count := 0 }
    s.taken = [(1, [2#16, 0x0001#16])] ∧ s.count = 2 := by decide +kernel

theorem witness_OperationByteShowsTheHeldStatus :
    let n := (still part).finish.node
    let m := (still (after .transferBegins (still part))).finish.node
    let q := (still (after .transferBegins (still (part.post (.tableLow 3 4))))).finish.node
    (n.running = true ∧ n.port.transfer = .idle)
      ∧ (m.running = true ∧ m.port.transfer = .counting 0 none none ∧ m.reports.items = [])
      ∧ (q.running = true ∧ q.port.transfer = .counting 0 none none
        ∧ q.reports.items = [{ post := 0#8, body := .tableLow 3 4 }]) := by decide +kernel

/-- The part with a SEND under way, and this many self-addressed messages waiting. -/
def sending (waiting : Nat) : Node :=
  (under 1#8 part).updateMessages fun m =>
    { m with queue := List.replicate waiting { message := unitOf [], source := .port } }

/-- The part with a SEND under way and no port slot FREE. -/
def crowded : Node :=
  (sending 0).updateMessages fun m =>
    { m with slots := portSlots.foldl (fun t i => t.set i (.ready (unitOf []))) m.slots }

theorem witness_WholeSendIsJudgedInOrder :
    let u (kind destination : Byte) := message kind 0#8 destination []
    (∀ n ∈ [sending 0, sending 15, sending 16, crowded], (still n).finish.node.running = true
        ∧ (still n).finish.node.port.operation = some 1#8)
      ∧ isAnswerKind (u kindStatusReport 1#8).kind = true
      ∧ (isAnswerKind (u kindTapSet 1#8).kind = false ∧ (u kindTapSet 1#8).destination = part.station.byte)
      ∧ (16 ≤ (sending 16).messages.queue.length ∧ (sending 15).messages.queue.length < 16)
      ∧ (u kindTapSet 2#8).destination ≠ part.station.byte
      ∧ (sending 0).messages.freeSlot portSlots = some 0 ∧ crowded.messages.freeSlot portSlots = none
      ∧ (u kindTapDrop 2#8).kind = kindTapDrop ∧ isUnknownKind (u 9#8 2#8).kind = true := by
  decide +kernel

theorem witness_TakeReportRemovesTheChosen :
    let chosen := after (.operationByteComplete 2#8) (still (after .transferBegins (still (part.post (.tableLow 3 4)))))
    let marker := after (.operationByteComplete 2#8) (still (after .transferBegins (still part)))
    (chosen.running = true ∧ chosen.port.operation = some 2#8
        ∧ chosen.port.chosen = some { post := 0#8, body := .tableLow 3 4 })
      ∧ (marker.running = true ∧ marker.port.operation = some 2#8 ∧ marker.port.chosen = none) := by decide +kernel

theorem witness_IgnoredTransferCountsFraming :
    (after .transferBegins (still part)).port.transfer = .counting 0 none none ∧ 7 < 8
      ∧ (∀ op ∈ [0#8, 1#8, 2#8, 3#8], (under op part).running = true
        ∧ (under op part).port.transfer = .counting 8 (some op) none)
      ∧ (∀ p ∈ [(1#8, 8), (1#8, 199), (1#8, 201), (2#8, 223), (2#8, 225), (3#8, 9), (0#8, 8), (4#8, 200)],
        8 ≤ p.2 ∧ ¬((p.1 = 1#8 ∧ p.2 = 200) ∨ (p.1 = 2#8 ∧ p.2 = 224) ∨ (p.1 = 3#8 ∧ p.2 = 8))) := by
  decide +kernel

theorem witness_RestartRingResetsTheRing :
    let e : QueueEntry := { message := message kindStatusQuery 2#8 1#8 [0#8], source := .ring 1 0#8 }
    let n (c : Carrying) := (still (under 3#8 (queued e.source e.message
      (whole (part.updateMessages fun m => { m with carrying := c }))))).finish.node
    ∀ c ∈ [Carrying.idle, .tapClear, .station 1, .station 3], (n c).running = true
      ∧ (n c).port.operation = some 3#8 ∧ (n c).messages.carrying = c ∧ (n c).messages.queue = [e] := by decide +kernel

theorem witness_LockGainedStartsProving :
    let dark := (still (Node.powerOn .finished false false)).finish.node
    let up := (still (whole (Node.powerOn .finished false false))).finish.node
    let unloaded := (still (Node.powerOn .reading false false)).finish.node
    (dark.running = true ∧ (dark.side .east).lock = false ∧ (dark.side .east).link = .down)
      ∧ (up.running = true ∧ (up.side .east).lock = false ∧ (up.side .east).link ≠ .down)
      ∧ (unloaded.running = false ∧ (unloaded.side .east).lock = false)
      ∧ ((still part).finish.node.side .east).lock = true := by decide +kernel

theorem witness_LockLostTakesTheLinkDown :
    let up := (still (whole part)).finish.node
    let down := (still part).finish.node
    (up.running = true ∧ (up.side .west).lock = true ∧ (up.side .west).link ≠ .down)
      ∧ (down.running = true ∧ (down.side .west).lock = true ∧ (down.side .west).link = .down) := by decide +kernel

theorem witness_BadRunAndSilenceTakeTheLinkDown :
    let bad := midst (.badRun .west) (whole (part.updateSide .west fun x => { x with badRun := 4 }))
    let quiet := midst (.silence .west) (whole (part.updateSide .west fun x => { x with silence := 16 }))
    (bad.node.running = true ∧ (bad.node.side .west).link ≠ .down ∧ bad.agenda = [.badRun .west]
        ∧ (bad.node.side .west).badRun = 4)
      ∧ (quiet.node.running = true ∧ (quiet.node.side .west).link ≠ .down ∧ quiet.agenda = [.silence .west]
        ∧ (quiet.node.side .west).silence = 16) := by decide +kernel

theorem witness_LinkProvenMakesTheLinkUp :
    let s := midst (.linkProven .east) (part.updateSide .east fun x => { x with link := .proving, holdOff := some 0 })
    s.node.running = true ∧ s.agenda = [.linkProven .east] ∧ (s.node.side .east).link = .proving
      ∧ (s.node.side .east).holdOff = some 0 := by decide +kernel

theorem witness_BeaconReceivedIsEvidence :
    let n := (still part).finish.node
    let folded (f : FoldState) : Node := { whole part with link := { (whole part).link with fold := f } }
    (n.running = true ∧ (n.side .east).lock = true)
      ∧ readBeacon .east (makeBeacon 2 .west true false .whole) = some ⟨2, true, false, .whole⟩
      ∧ readBeacon .east (Table.replicate 6 0#8) = none
      ∧ ((n.side .east).link = .down ∧ n.link.quiet = none)
      ∧ (((folded .foldedEast).side .east).link = .up ∧ (folded .foldedEast).link.fold = .foldedEast)
      ∧ (((folded .foldedWest).side .west).link = .up ∧ (folded .foldedWest).link.fold = .foldedWest)
      ∧ ((whole part).side .east).link ≠ .down := by decide +kernel

theorem witness_BeaconSentOnceABoundary :
    let due := part.updateSide .east fun x => { x with beaconDue := true }
    let resting : Node := { due with link := { due.link with quiet := some 24 } }
    (due.running = true ∧ (due.side .east).beaconDue = true ∧ due.link.quiet = none)
      ∧ (part.side .east).beaconDue = false ∧ (resting.running = true ∧ resting.link.quiet ≠ none) := by decide +kernel

theorem witness_QuietPeriodEndReArms :
    let s := midst .quietEnd { part with link := { part.link with quiet := some 0 } }
    s.node.running = true ∧ s.agenda = [.quietEnd] ∧ s.node.link.quiet = some 0 := by decide +kernel

theorem witness_MisdirectedFrameIsDiscarded :
    let n := (still (whole part)).finish.node
    let clear := makeHead 1#8 40#8 3#8 false false 0
    let set := makeHead 1#8 40#8 3#8 false true 15
    (n.running = true ∧ (n.side .east).lock = true ∧ (n.side .west).lock = true)
      ∧ (headGood clear = true ∧ headSecondary clear = false) ∧ (headGood set = true ∧ headSecondary set = true) := by
  decide +kernel

theorem witness_SecondaryFrameIsPassedThrough :
    let n (f : FoldState) : Node := { whole part with link := { (whole part).link with fold := f } }
    let h (hops : Nat) := makeHead 1#8 40#8 3#8 false true hops
    (∀ f ∈ [FoldState.whole, .foldedEast, .foldedWest, .isolated], (n f).running = true ∧ (n f).link.east.lock = true
        ∧ (n f).link.fold = f ∧ (n f).link.quiet = none)
      ∧ (∀ k ∈ [0, 13, 14, 15], headGood (h k) = true ∧ headSecondary (h k) = true)
      ∧ (14 ≤ headHops (h 14) ∧ headHops (h 13) < 14) := by decide +kernel

theorem witness_ValidFrameStartsAFollowing :
    let h := makeHead 2#8 40#8 3#8 false false 0
    let n (s : NodeState) (f : Option Station) := (still (inState s f (as 4 (whole part)))).finish.node
    (headGood h = true ∧ headSecondary h = false ∧ headRebuilt h = false ∧ Station.ofByte (headOrigin h) = some 1)
      ∧ (∀ p ∈ [(NodeState.starting, none), (.waiting, none), (.following, some 2), (.claiming, some 4),
          (.origin, some 4)],
        (n p.1 p.2).running = true ∧ (n p.1 p.2).link.west.lock = true ∧ (1 : Station) ≠ (n p.1 p.2).station
          ∧ (n p.1 p.2).link.fold = .whole ∧ (n p.1 p.2).cadence.node = p.1 ∧ (n p.1 p.2).cadence.followed = p.2)
      ∧ (1 : Station) < 2 ∧ (1 : Station) < 4 := by decide +kernel

theorem witness_ValidFrameUnfoldsEarly :
    let h (origin : Byte) (rebuilt : Bool) := makeHead origin 40#8 3#8 rebuilt false 0
    let n (g : Option Station) : Node := inState .following g
      { as 4 (whole part) with link := { (whole part).link with fold := .foldedWest } }
    (∀ p ∈ [(2#8, false), (2#8, true), (5#8, false)], headGood (h p.1 p.2) = true ∧ headSecondary (h p.1 p.2) = false
        ∧ (Station.ofByte (headOrigin (h p.1 p.2))).isSome = true)
      ∧ (∀ g ∈ [none, some 1, some 0], (n g).running = true ∧ (n g).link.west.lock = true
        ∧ (n g).link.fold = .foldedWest ∧ (n g).link.west.link = .up ∧ (n g).cadence.followed = g)
      ∧ (1 : Station) ≤ 1 ∧ ¬(1 : Station) ≤ 0 ∧ (1 : Station) ≠ 4 := by decide +kernel

theorem witness_AdmissionKeepsTheOriginLaw :
    let f (origin : Byte) (rebuilt : Bool) : Frame := { head := makeHead origin 40#8 3#8 rebuilt false 0, body := [] }
    let fate (s : NodeState) (g : Option Station) (origin : Byte) (rebuilt : Bool) :=
      ((inState s g (as 4 part)).answerAdmission (f origin rebuilt)).1
    fate .following (some 2) 2#8 false = .pass ∧ fate .claiming (some 4) 2#8 false = .pass
      ∧ fate .following (some 1) 2#8 true = .pass
      ∧ fate .following (some 0) 2#8 false = .discard ∧ fate .waiting none 2#8 true = .discard
      ∧ fate .alone none 2#8 false = .discard ∧ fate .claiming (some 4) 5#8 false = .taken
      ∧ fate .origin (some 4) 5#8 true = .taken := by decide +kernel

/-- The clauses on a frame of the followed origin, newer (1 and 127 ahead) and older (0 and 128 ahead), on the own frame,
and on frames of other origins. -/
theorem witness_AdmissionClauses :
    let h (origin : Byte) (rebuilt : Bool) := makeHead origin 40#8 3#8 rebuilt false 0
    let n (s : NodeState) (g : Option Station) := inState s g (as 4 part)
    Station.ofByte (headOrigin (h 2#8 false)) = some 1 ∧ Station.ofByte (headOrigin (h 5#8 false)) = some 4
      ∧ ((n .following (some 1)).cadence.node = .following ∧ (n .following (some 1)).cadence.followed = some 1
        ∧ (1 : Station) ≠ (n .following (some 1)).station)
      ∧ (∀ l ∈ [39#8, 169#8], 1 ≤ (headSequence (h 2#8 false) - l).toNat
        ∧ (headSequence (h 2#8 false) - l).toNat ≤ 127)
      ∧ (∀ l ∈ [40#8, 168#8], ¬(1 ≤ (headSequence (h 2#8 false) - l).toNat
        ∧ (headSequence (h 2#8 false) - l).toNat ≤ 127))
      ∧ (n .origin (some 4)).cadence.node = .origin ∧ (n .claiming (some 4)).cadence.node = .claiming
      ∧ (4 : Station) = (n .origin (some 4)).station ∧ (headRebuilt (h 5#8 false) = false ∧ headRebuilt (h 2#8 true) = true)
      ∧ ¬((n .waiting none).cadence.node = .following ∧ (n .waiting none).cadence.followed = some 1)
      ∧ ((0 : Station) < 1 ∧ (4 : Station) < 5) := by decide +kernel

theorem witness_BeaconsAndHeadsReadBackAsMade :
    let h := makeHead 1#8 40#8 3#8 false false 0
    headGood h = true ∧ headSecondary h = false
      ∧ ∀ f ∈ [FoldState.isolated, .whole, .foldedWest, .foldedEast],
        let n : Node := { whole part with link := { (whole part).link with fold := f } }
        n.link.fold = f ∧ n.link.quiet = none := by decide +kernel

theorem witness_SegmentReadsBackAsAppended :
    let list : List (Fin 64) := [3, 63, 0]
    list.length ≤ 64 ∧ list.Nodup ∧ [unitOf [1#8], unitOf [2#8]].length ≤ list.length
      ∧ (List.replicate 8 (message kindTapSet 1#8 2#8 [])).length ≤ 8
      ∧ (List.replicate 8 (true, false)).length = (List.replicate 8 (message kindTapSet 1#8 2#8 [])).length := by
  decide +kernel

/-- A segment of a station's empty layout, with a byte of its header set. -/
def segmentOf (source : Byte) (full : Bool) (good : Bool) : Segment :=
  let h := segmentHeader source 40#8 full false false 0 0 0 [] [] []
  { header := if good then h else h.setByte 22 0#8, layout := [], audio := [], messages := [] }

theorem witness_StagesOfThePass :
    (segmentOf 1#8 true true).source = part.station.byte
      ∧ ((segmentOf 2#8 true false).source ≠ part.station.byte ∧ (segmentOf 2#8 true false).good = false)
      ∧ (∀ full ∈ [true, false], (segmentOf 16#8 full true).source = Station.byte 15 ∧ (15 : Station) ≠ part.station
        ∧ (segmentOf 16#8 full true).good = true ∧ (segmentOf 16#8 full true).isFull = full)
      ∧ part.capacity - 512 = 0 ∧ part.capacity - 511 ≠ 0 := by decide +kernel

theorem witness_BoundaryAdvancesTheCount :
    let aligned : Node := { part with loader := { part.loader with values :=
      { part.loader.values with localAlignment := true } } }
    (still part).finish.node.running = true ∧ (still unread).finish.node.running = false
      ∧ part.loader.values.localAlignment = false ∧ aligned.loader.values.localAlignment = true := by decide +kernel

/-- R109, R113: a station emits its frame, and with it hands the arrivals over, behind the reads of the boundary. -/
theorem test_boundary_emits_behind_the_reads :
    part.boundaryTasks.idxOf .raise < part.boundaryTasks.idxOf .reads
      ∧ part.boundaryTasks.idxOf .reads < part.boundaryTasks.idxOf .emit := by decide +kernel

/-- R129: input lane 3, time slot 2 carries channel 26 at 48 kHz and channel 14 at 96 kHz, and its last 8 bit clocks are
ignored; output 26 goes out there at 48 kHz with 0 in them. -/
theorem test_lanes :
    let lanes := darkLanes.set 3 (Table.set (Table.replicate 8 (Table.replicate 8 0#32)) 2
      (Table.replicate 8 0x123456FF#32))
    let sounding := part.updateRouter fun r => { r with outputs := r.outputs.set 26 (Table.replicate 8 0x123456#24) }
    (captureOf .khz48 lanes).get 26 = Table.replicate 8 0x123456#24
      ∧ (captureOf .khz96 lanes).get 14 = Table.replicate 8 0x123456#24
      ∧ sounding.outputLanes.map (fun l => (l.get 3).get 2) = some (Table.replicate 8 0x12345600#32)
      ∧ unread.outputLanes = none := by decide +kernel

/-- An entry as the read of a channel of an empty local delay store sees it: R131's hypotheses are met. -/
theorem witness_AlignedRead :
    let d := part.router.delay
    let x : TapEntry := { TapEntry.fresh ⟨0, 0⟩ with
      buffer := d.places.map (Option.map fun p => (p.1, p.2.get 0)), conceal := d.conceal, lastGood := d.lastGood.get 0,
      lastPlayed := d.lastPlayed }
    x.buffer = d.places.map (Option.map fun p => (p.1, p.2.get 0)) ∧ x.conceal = d.conceal
      ∧ x.lastGood = d.lastGood.get 0 ∧ x.lastPlayed = d.lastPlayed := ⟨rfl, rfl, rfl, rfl⟩

theorem witness_StarvationEntersWaiting :
    let s (k : NodeState) := midst .starvation (inState k none { whole part with
      cadence := { part.cadence with starvation := 48 } })
    (∀ k ∈ [NodeState.following, .starting], (s k).node.running = true ∧ (s k).agenda = [.starvation]
        ∧ (s k).node.cadence.starvation = 48 ∧ (s k).node.cadence.node = k)
      ∧ (s .starting).node.link.fold ≠ .isolated := by decide +kernel

theorem witness_ClaimSendsTheFirstFrame :
    let s := midst .claim { whole part with cadence := { part.cadence with node := .waiting, backOff := some 0 } }
    s.node.running = true ∧ s.agenda = [.claim] ∧ s.node.cadence.node = .waiting ∧ s.node.cadence.backOff = some 0
      ∧ s.node.link.fold.output = some .east ∧ s.node.link.quiet = none := by decide +kernel

/-- The frames a station emits: in CLAIMING, in ORIGIN with nothing returned, and in ORIGIN with a returned frame. -/
theorem witness_Emissions :
    let f : Frame := { head := makeHead 1#8 40#8 3#8 false false 0, body := [] }
    let n (s : NodeState) (q : List Frame) : Node := inState s (some 0)
      { whole part with cadence := { part.cadence with returnQueue := q } }
    part.link.fold = .isolated ∧ ((n .following []).cadence.node ≠ .claiming ∧ (n .following []).cadence.node ≠ .origin)
      ∧ ((n .claiming []).link.fold ≠ .isolated ∧ (n .claiming []).cadence.node = .claiming)
      ∧ ((n .origin []).cadence.node = .origin ∧ (n .origin []).cadence.returnQueue = [])
      ∧ ((n .origin [f]).cadence.node = .origin ∧ (n .origin [f]).cadence.returnQueue = [f]) := by decide +kernel

/-- Bad heads: the fourth bad item, on another input, on the active one with an origin followed, and with none. -/
theorem witness_BadHeads :
    let n (s : NodeState) (g : Option Station) (bad : Nat) := inState s g
      (whole (part.updateSide .west fun x => { x with badRun := bad }))
    headGood (Table.replicate 6 0#8) = false
      ∧ (∀ s ∈ [NodeState.following, .waiting, .origin], ∀ g ∈ [none, some 2], ∀ bad ∈ [2, 3, 4],
        (n s g bad).running = true ∧ ((n s g bad).side .west).lock = true ∧ ((n s g bad).side .west).badRun = bad
          ∧ ((n s g bad).side .west).link ≠ .down ∧ (n s g bad).link.fold.input = some .west
          ∧ (n s g bad).link.fold.input ≠ some .east ∧ (n s g bad).cadence.node = s
          ∧ (n s g bad).cadence.followed = g) := by decide +kernel

theorem witness_WindowEndLowersTheDelay :
    let s := midst .windowEnd { part with taps := { part.taps with windowCount := 256, largestAge := some 3 } }
    s.node.running = true ∧ s.agenda = [.windowEnd] ∧ s.node.taps.windowCount = 256 := by decide +kernel

/-- Arrivals at an entry and without one, at the ages W − 1 and W; raise requests below and above P_eff. -/
theorem witness_ArrivalsAndRaises :
    let t := (Taps.initial 6).create ⟨2, 5⟩
    t.lookup ⟨2, 6⟩ = none ∧ t.lookup ⟨2, 5⟩ = some 0 ∧ t.entries.get 0 = some (TapEntry.fresh ⟨2, 5⟩)
      ∧ (Window.w16.frames ≤ (20#8 - 4#8).toNat ∧ (20#8 - 5#8).toNat < Window.w16.frames)
      ∧ part.taps.raise = none
      ∧ (∀ r ∈ [2, 20], ({ part with taps := { part.taps with raise := some r } } : Node).taps.raise = some r)
      ∧ min (part.loader.values.window.frames - 1) 2 ≤ part.taps.pEff
      ∧ part.taps.pEff < min (part.loader.values.window.frames - 1) 20 := by decide +kernel

theorem witness_MillisecondMarkCounts :
    let s := midst .mark { tapped primaryEntry part with cadence := { part.cadence with markPhase := 6 } }
    s.node.running = true ∧ s.agenda = [.mark] ∧ s.node.cadence.markPhase = s.node.markPeriod
      ∧ s.node.taps.entries.get 0 = some primaryEntry := by decide +kernel

/-- Self-addressed events that wait: with room in the receive queue, and with none. -/
theorem witness_OwnEventsWait :
    let own (k : Nat) : Node := (sending k).updateKey 0 fun x => { x with event := some .openTalk }
    let bound (k : Nat) := keyed 1#8 (own k)
    (∀ k ∈ [15, 16], ((bound k).talk.keys.get 0).event = some .openTalk ∧ (bound k).keyIsOwn 0 = true
        ∧ (bound k).messages.queue.length = k)
      ∧ (∀ k ∈ part.talk.pendingOrder, (part.talk.keys.get k).event = none) := by decide +kernel

/-- A primary on its alternate whose return hold has come to its end. -/
def heldEntry : TapEntry := { primaryEntry with onAlternate := true, returnHold := 500 }

theorem witness_ReturnHoldCompleteReturns :
    let s := midst (.returnHold 0) (tapped heldEntry part)
    s.node.running = true ∧ s.agenda = [.returnHold 0] ∧ s.node.taps.entries.get 0 = some heldEntry
      ∧ heldEntry.slot = some 70 ∧ heldEntry.alternate = some ⟨2, 12⟩ ∧ heldEntry.onAlternate = true
      ∧ heldEntry.autoReturn = true ∧ s.node.loader.values.returnHold ≤ heldEntry.returnHold := by decide +kernel

/-- A fallback and a return by the alternate's failure, with F = 4. -/
theorem witness_FallbackDecisions :
    let n (k : Nat) (onAlternate : Bool) (alternate : Key) (reads : List ReadResult) : Node :=
      let m := tapped { primaryEntry with conceal := k, onAlternate := onAlternate } part
      let t := m.taps.create alternate
      { m with taps := { t with reads := reads } }
    let fall := n 4 false ⟨2, 12⟩ [⟨⟨2, 12⟩, true, silentFrame⟩]
    let back := n 0 true ⟨2, 12⟩ [⟨⟨1, 12⟩, true, silentFrame⟩]
    fall.loader.values.fallback = 4
      ∧ (fall.taps.entries.get 0 = some { primaryEntry with conceal := 4 } ∧ fall.taps.readPresent ⟨2, 12⟩ = true)
      ∧ (back.taps.entries.get 0 = some { primaryEntry with conceal := 0, onAlternate := true }
        ∧ (back.taps.entryOf ⟨2, 12⟩).map TapEntry.conceal = some 4 ∧ back.taps.readPresent ⟨1, 12⟩ = true)
      ∧ (primaryEntry.slot = some 70 ∧ primaryEntry.alternate = some ⟨2, 12⟩) := by decide +kernel

theorem witness_TapClearCompleteAnswers :
    let q := queued .port (message kindTapClear 1#8 1#8 []) part
    let s := midst .walkComplete { q with taps := { q.taps with walk := some ⟨64, 3⟩ } }
    s.node.running = true ∧ s.agenda = [.walkComplete] ∧ s.node.taps.walk = some ⟨64, 3⟩
      ∧ s.node.messages.queue = [{ message := message kindTapClear 1#8 1#8 [], source := .port }] := by decide +kernel

theorem witness_SlotLostIsSettled :
    let u := message kindTalkOpen 1#8 4#8 []
    let s (i : Fin 8) := midst (.slotLost i) (part.updateMessages fun m => { m with slots := m.slots.set i (.inFlight u 0) })
    ∀ i ∈ [(0 : Fin 8), 3, 4, 5, 6, 7], (s i).node.running = true ∧ (s i).agenda = [.slotLost i]
      ∧ (s i).node.messages.slots.get i = .inFlight u 0 := by decide +kernel

/-- Key 0, held and toward `destination`, with its OPEN's message at its end in slot 4, and slot 5 as given. -/
def lostOpen (destination : Byte) (other : SendSlot) : Node :=
  let u := (message kindTalkOpen 1#8 destination []).setByte 3 16#8
  ((keyed destination part).updateKey 0 fun x => { x with pressed := true }).updateMessages fun m =>
    { m with slots := (m.slots.set 4 (.inFlight u 0)).set 5 other }

/-- R74, R157, R158: the lost slot is freed behind its delivery, so the OPEN made again goes into slot 5 where that is FREE,
and into slot 4 where it is not. -/
theorem test_lost_open_made_again :
    let lost (other : SendSlot) := after (.slotLost 4) (midst (.slotLost 4) (lostOpen 4#8 other))
    let tagOf (n : Node) (i : Fin 8) := (n.messages.slots.get i).message.map fun u => (u.kind, u.tag)
    (tagOf (lost .free) 5 = some (kindTalkOpen, 0#8) ∧ (lost .free).messages.slots.get 4 = .free)
      ∧ tagOf (lost (.ready (unitOf [kindTalkKeep, 1#8, 4#8, 5#8]))) 4 = some (kindTalkOpen, 0#8) := by decide +kernel

/-- Settlements of an OPEN of a held key: with the other talk slot FREE and taken, and toward the own station with room in
the receive queue and with none. -/
theorem witness_OpenMadeAgain :
    let u := (message kindTalkOpen 1#8 4#8 []).setByte 3 16#8
    let full (n : Node) : Node := n.updateMessages fun m => { m with
      queue := List.replicate 16 { message := unitOf [], source := .port } }
    (∀ other ∈ [SendSlot.free, .ready u], ((lostOpen 4#8 other).messages.slots.get 4).message = some u
        ∧ keyOfTag u.tag = 0 ∧ u.kind = kindTalkOpen ∧ ((lostOpen 4#8 other).talk.keys.get 0).pressed = true
        ∧ ((lostOpen 4#8 other).talk.keys.get 0).event = none ∧ (lostOpen 4#8 other).keyIsOwn 0 = false
        ∧ (lostOpen 4#8 other).talk.pendingOrder = [] ∧ (lostOpen 4#8 other).messages.slots.get 5 = other)
      ∧ (lostOpen 1#8 .free).keyIsOwn 0 = true ∧ (lostOpen 1#8 .free).messages.queue.length < 16
      ∧ ¬(full (lostOpen 1#8 .free)).messages.queue.length < 16 := by decide +kernel

/-- Settlements of a talk slot: an OPEN of a held key, with no event waiting and with one; and returns and launches. -/
theorem witness_Settlements :
    let u := message kindTalkOpen 1#8 4#8 []
    let n (e : Option TalkEvent) : Node := (keyed 4#8 part).updateMessages (fun m =>
        { m with slots := (m.slots.set 4 (.inFlight u 0)).set 5 (.ready u) }) |>.updateKey 1 fun x =>
          { x with pressed := true, event := e }
    let w : Node := { n (some .keep) with talk := { (n (some .keep)).talk with pendingOrder := [1] } }
    (((n none).messages.slots.get 4).message = some u ∧ keyOfTag u.tag = 1 ∧ u.kind = kindTalkOpen
        ∧ ((n none).talk.keys.get 1).pressed = true ∧ ((n none).talk.keys.get 1).event = none
        ∧ (n none).keyIsOwn 1 = false ∧ (n none).talk.pendingOrder = [])
      ∧ (w.talk.pendingOrder.filter (fun j => !w.keyIsOwn j) = [1] ∧ (w.talk.keys.get 1).event = some .keep
        ∧ ∀ x ∈ talkSlots, x ≠ 4 → w.messages.slots.get x ≠ .free)
      ∧ ((u.setByte 4 4#8).slot = byteOf (4 : Fin 8).val ∧ (n none).messages.slots.get 4 = .inFlight u 0)
      ∧ (u.slot = byteOf (0 : Fin 8).val ∧ (n none).messages.slots.get 0 = .free)
      ∧ (n none).messages.slots.get 5 = .ready u := by decide +kernel

theorem witness_HoldRecordExpires :
    let s := midst (.holdExpiry 15) (part.updateMessages fun m => { m with peers := m.peers.set 15 ⟨true, 128⟩ })
    s.node.running = true ∧ s.agenda = [.holdExpiry 15] ∧ s.node.messages.peers.get 15 = ⟨true, 128⟩ := by
  decide +kernel

/-- A good segment of a peer, and of the own number. -/
theorem witness_HoldRecords : part.station = 0 ∧ (15 : Station) ≠ part.station := by decide +kernel

theorem witness_TalkKeysMakeEvents :
    let key (f : KeyState → KeyState) (n : Node) := n.updateKey 0 f
    let pressing := key fun x => { x with debounce := 5 }
    let releasing := key fun x => { x with debounce := 5, pressed := true }
    let keeping (e : Option TalkEvent) := key fun x => { x with pressed := true, keep := some 0, event := e }
    (∀ n ∈ [keyed 4#8 part, part], n.running = true
        ∧ ((pressing n).talk.keys.get 0).debounce = 5 ∧ ((pressing n).talk.keys.get 0).pressed = false
        ∧ ((releasing n).talk.keys.get 0).debounce = 5 ∧ ((releasing n).talk.keys.get 0).pressed = true)
      ∧ ((keyed 4#8 part).keyImage 0).bound = true ∧ (part.keyImage 0).bound = false
      ∧ (midst (.keyPressed 0) part).agenda = [.keyPressed 0]
      ∧ ((keeping none (keyed 4#8 part)).talk.keys.get 0).keep = some 0
      ∧ ((keeping none (keyed 4#8 part)).talk.keys.get 0).event ≠ some .openTalk
      ∧ ((keeping (some .openTalk) (keyed 4#8 part)).talk.keys.get 0).event = some .openTalk := by decide +kernel

/-- Key 0 toward a destination makes an OPEN: with both talk slots FREE, with one, with none, with key 1's event waiting,
and toward the own station with room and with a full queue. -/
theorem witness_EventMade :
    let two (n : Node) : Node := { n with loader := { n.loader with values := { n.loader.values with
      keys := n.loader.values.keys.set 1 (keyTo 5#8) } } }
    let waiting (n : Node) : Node := { two n with talk := { n.talk with
      keys := n.talk.keys.set 1 { n.talk.keys.get 1 with event := some .close }, pendingOrder := [1] } }
    let full (n : Node) : Node := n.updateMessages fun m => { m with
      queue := List.replicate 16 { message := message kindTapClear 2#8 1#8 [], source := .port } }
    let taken (is : List (Fin 8)) (n : Node) : Node := n.updateMessages fun m => { m with
      slots := is.foldl (fun s i => s.set i .reserved) m.slots }
    let free (n : Node) := talkSlots.filter fun i => n.messages.slots.get i == .free
    (free (keyed 4#8 part) = [4, 5] ∧ free (taken [4] (keyed 4#8 part)) = [5] ∧ free (taken [4, 5] (keyed 4#8 part)) = [])
      ∧ ((keyed 4#8 part).keyIsOwn 0 = false ∧ (waiting (keyed 4#8 part)).keyIsOwn 1 = false)
      ∧ ((waiting (keyed 4#8 part)).talk.pendingOrder = [1]
        ∧ ((waiting (keyed 4#8 part)).talk.keys.get 1).event = some .close)
      ∧ (keyed 1#8 part).keyIsOwn 0 = true ∧ (keyed 1#8 part).messages.queue.length < 16
      ∧ 16 ≤ (full (keyed 1#8 part)).messages.queue.length := by decide +kernel

theorem witness_TalkExpiryRemovesTalks :
    let s := midst .talkExpiry (talking [{ talkOf 4 4 with deadline := 0 }] part)
    s.node.running = true ∧ s.agenda = [.talkExpiry] ∧ s.node.messages.notices = []
      ∧ (∃ x, ∃ t ∈ (s.node.mixer.mixes.get x).talks, t.deadline = 0) ∧ (4 : Station) ≠ s.node.station := by
  decide +kernel

/-- R82: a notice joins one of its desk and outcome, joins the tail, and is dropped behind 16. -/
theorem test_notices :
    let x : Notice := { desk := 4, evicted := false, mask := 128#24 }
    let held (l : List Notice) : Messages := { part.messages with notices := l }
    let full := (List.finRange 16).map fun d => ({ desk := d, evicted := true, mask := 1#24 } : Notice)
    ((held [{ x with mask := 1#24 }]).addNotice x).notices = [{ x with mask := 129#24 }]
      ∧ ((held [{ x with evicted := true }]).addNotice x).notices = [{ x with evicted := true }, x]
      ∧ ((held full).addNotice x).notices = full ∧ ((held full).addNotice x).noticeDrop = 1#16 := by decide +kernel

theorem witness_ReplySlotIsGrantedByTurn :
    let e : QueueEntry := { message := message kindStatusQuery 2#8 1#8 [0#8], source := .ring 1 0#8 }
    let n := queued e.source e.message part
    let x : Notice := { desk := 8, evicted := true, mask := 128#24 }
    let noticed := part.updateMessages fun m => { m with notices := [x] }
    let middle (p : Fin 4) := n.updateMessages fun m => { m with carrying := .station p }
    let full := n.updateMessages fun m => { m with slots := (m.slots.set 6 .reserved).set 7 .reserved }
    (n.running = true ∧ n.messages.freeSlot replySlots = some 6 ∧ n.messages.queue.head? = some e
        ∧ n.messages.carrying = .idle ∧ e.needsReply = true ∧ n.messages.granted = none ∧ n.messages.notices = [])
      ∧ (noticed.messages.freeSlot replySlots = some 6 ∧ noticed.messages.notices = [x]
        ∧ noticed.messages.receiveClaims = false)
      ∧ (∀ p ∈ [(2 : Fin 4), 3], (middle p).messages.freeSlot replySlots = some 6
        ∧ (middle p).messages.carrying = .station p ∧ (middle p).messages.queue = [e]
        ∧ (middle p).messages.granted = none ∧ (middle p).messages.notices = [])
      ∧ full.messages.freeSlot replySlots = none
      ∧ (part.messages.receiveClaims = false ∧ part.messages.notices = []) := by decide +kernel

theorem witness_ResultGoesToItsSource :
    let u (kind sender destination : Byte) := message kind sender destination [1#8, 255#8, 1#8]
    let talk := message kindResult 2#8 1#8 [32#8, 4#8, 1#8]
    (granted part).messages.granted = some 6 ∧ part.messages.granted = none
      ∧ (∀ s ∈ [Source.ring 1 0#8, .detached 1 0#8, .port, .talk],
        ({ message := unitOf [], source := s } : QueueEntry).source = s)
      ∧ (Station.ofByte (u kindResult 2#8 1#8).sender = some 1 ∧ (1 : Station) ≠ part.station)
      ∧ ((u kindResult 2#8 1#8).destination = part.station.byte ∧ (u kindResult 2#8 255#8).destination = 255#8
        ∧ (u kindResult 2#8 255#8).destination ≠ part.station.byte
        ∧ (u kindTapSet 2#8 72#8).destination = byteOf (65 + (7 : Fin 8).val))
      ∧ Station.ofByte (u kindTapSet 0#8 1#8).sender = none
      ∧ (isAnswerKind (u kindResult 2#8 1#8).kind = true ∧ isAnswerKind (u kindTapSet 2#8 1#8).kind = false)
      ∧ (talk.byte 7 = 4#8 ∧ ¬((u kindResult 2#8 1#8).byte 7 = 4#8 ∨ (u kindResult 2#8 1#8).byte 7 = 5#8
        ∨ (u kindResult 2#8 1#8).byte 8 = 12#8 ∨ (u kindResult 2#8 1#8).byte 8 = 13#8))
      ∧ (16 ≤ (sending 16).messages.queue.length ∧ (sending 15).messages.queue.length < 16) := by decide +kernel

/-- RESULTs that the Talkback Controller is given: a notice, one to an OPEN, a NOT FOUND to a KEEP of a key that is held, of
one that is not and of one whose OPEN is in a talk slot, and one to a KEEP with another outcome. -/
theorem witness_TalkResults :
    let u (kind outcome : Byte) := (message kindResult 4#8 1#8 [kind, 4#8, outcome]).setByte 3 16#8
    let held := (keyed 4#8 part).updateKey 0 fun x => { x with pressed := true }
    (u 32#8 13#8).byte 8 = 13#8 ∧ ((u 32#8 0#8).byte 6 = 32#8 ∧ (u 32#8 0#8).byte 8 = 0#8)
      ∧ ((u 33#8 8#8).byte 6 = 33#8 ∧ (u 33#8 8#8).byte 8 = 8#8 ∧ (u 33#8 8#8).tag.toNat % 4 = (0 : Fin 4).val)
      ∧ ((u 33#8 0#8).byte 6 ≠ 32#8 ∧ (u 33#8 0#8).byte 8 ≠ 8#8)
      ∧ ((held.keyImage 0).bound = true ∧ (held.talk.keys.get 0).pressed = true ∧ (held.talk.keys.get 0).event = none
        ∧ ∀ i ∈ talkSlots, (held.messages.slots.get i).message = none)
      ∧ (part.keyImage 0).bound = false ∧ ((keyed 4#8 part).talk.keys.get 0).pressed = false
      ∧ ((lostOpen 4#8 .free).messages.slots.get 4).message.map (fun v => (v.kind, v.tag.toNat % 4))
        = some (32#8, 0) := by decide +kernel

/-- The queue entry of a request from station 2's slot 0. -/
def entryOf (kind : Byte) (fields : List Byte) : QueueEntry :=
  { message := message kind 2#8 1#8 fields, source := .ring 1 0#8 }

/-- A state whose queue's head is this entry, with a reply slot granted. -/
def readyFor (e : QueueEntry) (n : Node) : State := still (granted (queued e.source e.message n))

/-- The head is ready in any such state of a part at work. -/
theorem headReady_readyFor (e : QueueEntry) (n : Node) (r : n.running = true) (c : n.messages.carrying = .idle) :
    HeadReady (readyFor e n).finish.node e := ⟨r, c, rfl, fun _ => rfl⟩

theorem witness_UnknownKindIsBadField :
    HeadReady (readyFor (entryOf 9#8 []) part).finish.node (entryOf 9#8 [])
      ∧ isUnknownKind (entryOf 9#8 []).message.kind = true :=
  ⟨headReady_readyFor _ _ rfl rfl, by decide +kernel⟩

/-- A TAP SET of key (3, 12) to slot 70. -/
def tapSetEntry (flags : Byte) : QueueEntry := entryOf kindTapSet [3#8, 12#8, 70#8, 0#8, 0#8, flags]

theorem witness_TapSetBindsOrChangesNothing :
    let n := (readyFor (tapSetEntry 4#8) part).finish.node
    HeadReady n (tapSetEntry 4#8) ∧ (tapSetEntry 4#8).message.kind = kindTapSet
      ∧ readTapSet (tapSetEntry 4#8).message = some ⟨⟨2, 12⟩, some 70, none, false, false, true⟩
      ∧ (2 : Station) ≠ n.station ∧ n.taps.lookup ⟨2, 12⟩ = none ∧ n.taps.free = 0 :: (List.finRange 256).tail
      ∧ (n.taps.chains.get (Key.bucket ⟨2, 12⟩)).length < 8 ∧ n.router.bindings.get 70 = .unbound :=
  ⟨headReady_readyFor _ _ rfl rfl, by decide +kernel⟩

/-- A CONFLICT comes about: key (2, 12) feeds slot 70 with an alternate, and the request names slot 71. -/
theorem witness_TapSetConflict :
    let e := entryOf kindTapSet [2#8, 12#8, 71#8, 0#8, 0#8, 0#8]
    let n := (readyFor e (tapped primaryEntry part)).finish.node
    (readTapSet e.message).map (fun r => (n.tapSet r).1.outcome) = some .conflict := by decide +kernel

/-- An entry that feeds slot 70 and nothing else. -/
def plainEntry : TapEntry := { TapEntry.fresh ⟨1, 12⟩ with slot := some 70 }

/-- A part with that entry. -/
def plain : Node := tapped plainEntry part

/-- The one entry in use is entry 0. -/
theorem plain_entries (e : EntryNo) (x : TapEntry) (h : plain.taps.entries.get e = some x) :
    e = 0 ∧ x = plainEntry := by
  have none' : ∀ e : EntryNo, e ≠ 0 → plain.taps.entries.get e = none := by decide +kernel
  by_cases z : e = 0
  · subst z
    have zero : plain.taps.entries.get 0 = some plainEntry := by decide +kernel
    exact ⟨rfl, by rw [zero] at h; exact (Option.some.inj h).symm⟩
  · rw [none' e z] at h; cases h

theorem plain_sound : TableSound plain.taps := by
  have zero : plain.taps.entries.get 0 = some plainEntry := by decide +kernel
  have chain : ∀ b, plain.taps.chains.get b = if b = plainEntry.key.bucket then [0] else [] := by decide +kernel
  refine ⟨by decide +kernel, by decide +kernel, fun b e => ?_, by decide +kernel, fun e f x y he hf _ => ?_⟩
  · rw [chain b]
    constructor
    · intro h
      split at h
      · rename_i hb
        exact ⟨plainEntry, by rw [List.mem_singleton.mp h]; exact zero, hb.symm⟩
      · cases h
    · rintro ⟨x, hx, rfl⟩
      obtain ⟨rfl, rfl⟩ := plain_entries e x hx
      simp
  · rw [(plain_entries e x he).1, (plain_entries f y hf).1]

theorem plain_bindings : BindingsAgree plain := by
  have zero : plain.taps.entries.get 0 = some plainEntry := by decide +kernel
  have bound : ∀ s, plain.router.bindings.get s = if s = 70 then .tap 0 else .unbound := by decide +kernel
  intro s e
  rw [bound s]
  constructor
  · intro h
    split at h
    · rename_i hs
      cases h
      exact ⟨plainEntry, zero, by rw [hs]; rfl⟩
    · cases h
  · rintro ⟨x, hx, hs⟩
    obtain ⟨rfl, rfl⟩ := plain_entries e x hx
    cases hs
    rfl

/-- The same entry kept for a talk alone, without its slot. -/
def sourced : Node :=
  { plain with taps := plain.taps.updateEntry 0 fun x => { x with slot := none, talkUsers := 1 }, router := part.router }

theorem sourced_sound : TableSound sourced.taps :=
  (plain_sound.updateEntry 0 (fun x => { x with slot := none, talkUsers := 1 }) fun _ => rfl).1

theorem sourced_bindings : BindingsAgree sourced := by
  have free : ∀ s, sourced.router.bindings.get s = .unbound := by decide +kernel
  have slots : ∀ e, (sourced.taps.entries.get e).bind TapEntry.slot = none := by decide +kernel
  intro s e
  rw [free s]
  constructor
  · intro h; cases h
  · rintro ⟨x, hx, hs⟩
    have := slots e
    rw [hx] at this
    exact absurd (this.symm.trans hs) (by simp)

/-- A TAP DROP of a key. -/
def tapDropEntry (channel : Byte) : QueueEntry := entryOf kindTapDrop [2#8, channel]

theorem witness_TapDropFreesOrMisses :
    let n := (readyFor (tapDropEntry 12#8) plain).finish.node
    let kept := (readyFor (tapDropEntry 12#8) sourced).finish.node
    (HeadReady n (tapDropEntry 12#8) ∧ TableSound n.taps)
      ∧ (HeadReady kept (tapDropEntry 12#8) ∧ TableSound kept.taps)
      ∧ messageKey (tapDropEntry 12#8).message 6 = some ⟨1, 12⟩ ∧ n.taps.lookup ⟨1, 12⟩ = some 0
      ∧ n.taps.entries.get 0 = some plainEntry ∧ plainEntry.slot = some 70 ∧ plainEntry.alternate = none
      ∧ plainEntry.backs = 0 ∧ plainEntry.talkUsers = 0
      ∧ (kept.taps.lookup ⟨1, 12⟩ = some 0
        ∧ kept.taps.entries.get 0 = some { plainEntry with slot := none, talkUsers := 1 })
      ∧ messageKey (tapDropEntry 63#8).message 6 = some ⟨1, 63⟩ ∧ n.taps.lookup ⟨1, 63⟩ = none
      ∧ messageKey (tapDropEntry 64#8).message 6 = none :=
  ⟨⟨headReady_readyFor _ _ rfl rfl, plain_sound⟩, ⟨headReady_readyFor _ _ rfl rfl, sourced_sound⟩, by decide +kernel⟩

/-- An entry with an alternate, entry 1, which the entry alone names. -/
def backed (users : Nat) : Node :=
  let named := (plain.taps.create ⟨2, 12⟩).updateEntry 0 fun x => { x with alternate := some ⟨2, 12⟩ }
  { plain with taps := named.updateEntry 1 fun x => { x with backs := 1, talkUsers := users } }

theorem backed_sound (users : Nat) : TableSound (backed users).taps := by
  have made := plain_sound.create ⟨2, 12⟩ (i := 1) (rest := (List.finRange 256).drop 2) (by decide +kernel)
    (by decide +kernel) (by decide +kernel)
  exact ((made.1.updateEntry 0 (fun x => { x with alternate := some ⟨2, 12⟩ }) fun _ => rfl).1.updateEntry 1
    (fun x => { x with backs := 1, talkUsers := users }) fun _ => rfl).1

/-- A TAP DROP of that entry frees the alternate with it, unless the alternate serves a talk. -/
theorem witness_TapDropOfAPrimary :
    ∀ users ∈ [0, 1], ∃ x y, let n := (readyFor (tapDropEntry 12#8) (backed users)).finish.node
      (HeadReady n (tapDropEntry 12#8) ∧ TableSound n.taps)
        ∧ n.taps.lookup ⟨1, 12⟩ = some 0 ∧ n.taps.entries.get 0 = some x ∧ x.alternate = some ⟨2, 12⟩
        ∧ n.taps.lookup ⟨2, 12⟩ = some 1 ∧ n.taps.entries.get 1 = some y ∧ y.backs = 1 ∧ y.talkUsers = users := by
  intro users _
  refine ⟨{ plainEntry with alternate := some ⟨2, 12⟩ }, { TapEntry.fresh ⟨2, 12⟩ with backs := 1, talkUsers := users },
    ⟨headReady_readyFor _ _ rfl rfl, backed_sound users⟩, ?_⟩
  simp only [List.mem_cons, List.not_mem_nil, or_false] at *
  rename_i h
  rcases h with rfl | rfl <;> decide +kernel

theorem witness_TapClearStartsTheWalk :
    HeadReady (readyFor (entryOf kindTapClear []) part).finish.node (entryOf kindTapClear [])
      ∧ (entryOf kindTapClear []).message.kind = kindTapClear :=
  ⟨headReady_readyFor _ _ rfl rfl, by decide +kernel⟩

/-- A walk at the bucket of the one entry: one that feeds a slot, and one that a talk keeps. -/
theorem witness_TapClearWalkStep :
    let walking (m : Node) : Node := { m with taps := { m.taps with walk := some ⟨(33 : Fin 64).val, 2⟩ } }
    (TableSound (walking plain).taps ∧ BindingsAgree (walking plain))
      ∧ (TableSound (walking sourced).taps ∧ BindingsAgree (walking sourced))
      ∧ (walking plain).taps.walk = some ⟨33, 2⟩ ∧ Key.bucket ⟨1, 12⟩ = 33
      ∧ (sourced.taps.entries.get 0).map (fun x => (x.slot, x.talkUsers)) = some (none, 1) :=
  ⟨⟨plain_sound, plain_bindings⟩, ⟨sourced_sound, sourced_bindings⟩, by decide +kernel⟩

/-- A MIX GAIN of mix 3, slot 70. -/
def mixGainEntry (target : Byte) : QueueEntry := entryOf kindMixGain [3#8, 70#8, target, 0#8, 0#8, 4#8]

/-- The part with mix 3 of an owner, this many free crosspoints, and a crosspoint of slot 70 at half gain or none. -/
def mixing (owner : Option Station) (free : Nat) (present : Bool) : Node :=
  let n := part.updateMix 3 fun x =>
    { x with owner := owner,
             crosspoints := if present then [{ slot := 70, gain := Ramp.settledAt 524288#24 }] else [] }
  { n with mixer := { n.mixer with freeCrosspoints := free } }

theorem witness_MixGainIsAnsweredByRule :
    let n (o : Option Station) (free : Nat) (p : Bool) (t : Byte) := (readyFor (mixGainEntry t) (mixing o free p)).finish.node
    let found (p : Bool) := findCrosspoint ((n none 4 p 8#8).mixer.mixes.get 3).crosspoints 70
    (∀ o free p t, (mixing o free p).running = true → HeadReady (n o free p t) (mixGainEntry t))
      ∧ (mixing none 4 true).running = true
      ∧ (readMixGain (mixGainEntry 8#8).message = some ⟨3, 70, 524288#24, 4⟩
        ∧ readMixGain (mixGainEntry 16#8).message = some ⟨3, 70, unity, 4⟩
        ∧ readMixGain (mixGainEntry 0#8).message = some ⟨3, 70, 0#24, 4⟩)
      ∧ (((n (some 11) 4 true 8#8).mixer.mixes.get 3).owner = some 11
        ∧ (11 : Station) ≠ (n (some 11) 4 true 8#8).requester (mixGainEntry 8#8))
      ∧ ((n none 4 true 8#8).mixer.mixes.get 3).owner = none
      ∧ ((n (some 1) 4 true 8#8).mixer.mixes.get 3).owner
          = some ((n (some 1) 4 true 8#8).requester (mixGainEntry 8#8))
      ∧ found true = some { slot := 70, gain := Ramp.settledAt 524288#24 } ∧ found false = none
      ∧ (n none 0 false 16#8).mixer.freeCrosspoints = 0 ∧ (n none 4 false 16#8).mixer.freeCrosspoints ≠ 0 := by
  refine ⟨fun o free p t r => headReady_readyFor _ _ r ?_, ?_⟩
  · rfl
  · decide +kernel

/-- A MIX MASTER of mix 3. -/
def mixMasterEntry (target : Byte) : QueueEntry := entryOf kindMixMaster [3#8, target, 0#8, 0#8, 4#8]

theorem witness_MixMasterIsAnsweredByRule :
    let n (o : Option Station) (t : Byte) := (readyFor (mixMasterEntry t) (mixing o 4 false)).finish.node
    HeadReady (n none 8#8) (mixMasterEntry 8#8) ∧ HeadReady (n (some 11) 8#8) (mixMasterEntry 8#8)
      ∧ HeadReady (n none 16#8) (mixMasterEntry 16#8)
      ∧ readMixMaster (mixMasterEntry 8#8).message = some (3, 524288#24, 4)
      ∧ readMixMaster (mixMasterEntry 16#8).message = some (3, unity, 4)
      ∧ ((n (some 11) 8#8).mixer.mixes.get 3).owner = some 11 ∧ (11 : Station) ≠ (n (some 11) 8#8).requester (mixMasterEntry 8#8)
      ∧ ((n none 8#8).mixer.mixes.get 3).owner = none ∧ ((n none 8#8).mixer.mixes.get 3).master.target ≠ 524288#24
      ∧ ((n none 16#8).mixer.mixes.get 3).master.target = unity :=
  ⟨headReady_readyFor _ _ rfl rfl, headReady_readyFor _ _ rfl rfl, headReady_readyFor _ _ rfl rfl, by decide +kernel⟩

/-- The part at 96 kHz. -/
def fast : Node := { part with loader := { part.loader with values := Image.defaultsAt 0 .khz96 } }

/-- An OUT SET of an output to MIX 5. -/
def outSetEntry (output : Byte) : QueueEntry := entryOf kindOutSet [output, 1#8, 5#8]

theorem witness_OutSetChangesTheMap :
    HeadReady (readyFor (outSetEntry 31#8) fast).finish.node (outSetEntry 31#8)
      ∧ HeadReady (readyFor (outSetEntry 32#8) fast).finish.node (outSetEntry 32#8)
      ∧ readOutSet (outSetEntry 31#8).message = some (31, .mix 5)
      ∧ readOutSet (outSetEntry 32#8).message = some (32, .mix 5)
      ∧ fast.loader.values.rate.present 31 = true ∧ fast.loader.values.rate.present 32 = false :=
  ⟨headReady_readyFor _ _ rfl rfl, headReady_readyFor _ _ rfl rfl, by decide +kernel⟩

/-- Requests whose fields are out of range: mix 25, slot 128, output 64. -/
theorem witness_UnreadableFields :
    (∀ e, HeadReady (readyFor e part).finish.node e)
      ∧ readMixGain (entryOf kindMixGain [24#8, 70#8, 0#8, 0#8, 0#8, 0#8]).message = none
      ∧ readMixGain (entryOf kindMixGain [3#8, 128#8, 0#8, 0#8, 0#8, 0#8]).message = none
      ∧ readMixMaster (entryOf kindMixMaster [24#8, 0#8, 0#8, 0#8, 0#8]).message = none
      ∧ readOutSet (entryOf kindOutSet [64#8, 0#8, 0#8]).message = none
      ∧ readTalkOpen (entryOf kindTalkOpen [0#8, 40#8, 0#8, 0#8, 1#8, 4#8]).message = none :=
  ⟨fun _ => headReady_readyFor _ _ rfl rfl, by decide +kernel⟩

/-- A TALK OPEN of station 2 with a source of a station, for mix 7 or for none. -/
def talkOpenEntry (source mask : Byte) : QueueEntry :=
  entryOf kindTalkOpen ([source, 40#8, 0#8, 0#8, mask, 4#8] ++ bytes24 262144#24 ++ bytes24 unity)

/-- The request it carries. -/
def talkOpenRequest (source : Station) (mask : MixMask) : TalkOpenRequest :=
  { source := ⟨source, 40⟩, mask := mask, priority := 4, dim := 262144#24, level := unity }

/-- The part with no free tap entry. -/
def noEntries : Node := { part with taps := { part.taps with free := [] } }

/-- The part whose chain for key (2, 40) is full. -/
def noChain : Node :=
  { part with taps := { part.taps with chains := part.taps.chains.set (Key.bucket ⟨1, 40⟩) (List.replicate 8 0) } }

/-- The other answers: an unreadable slot, no slot, the binding in force, no entry free, a full chain, a busy slot, and a
slot that is taken. -/
theorem witness_TapSetAnswers :
    let ask (channel slot alternate flags : Byte) := entryOf kindTapSet [2#8, channel, slot, alternate, 12#8, flags]
    let n (e : QueueEntry) (m : Node) := (readyFor e m).finish.node
    (∀ e, HeadReady (n e part) e ∧ HeadReady (n e (tapped primaryEntry part)) e ∧ HeadReady (n e noEntries) e
        ∧ HeadReady (n e noChain) e ∧ HeadReady (n e plain) e ∧ TableSound (n e plain).taps ∧ BindingsAgree (n e plain))
      ∧ readTapSet (ask 12#8 128#8 0#8 0#8).message = none
      ∧ readTapSet (ask 12#8 255#8 0#8 0#8).message = some ⟨⟨1, 12⟩, none, none, false, false, false⟩
      ∧ (readTapSet (ask 12#8 70#8 3#8 4#8).message = some ⟨⟨1, 12⟩, some 70, some ⟨2, 12⟩, false, false, true⟩
        ∧ (tapped primaryEntry part).taps.entryOf ⟨1, 12⟩ = some primaryEntry)
      ∧ readTapSet (ask 40#8 71#8 0#8 0#8).message = some ⟨⟨1, 40⟩, some 71, none, false, false, false⟩
      ∧ noEntries.taps.entryOf ⟨1, 40⟩ = none ∧ noEntries.taps.free = []
      ∧ (noChain.taps.entryOf ⟨1, 40⟩ = none ∧ 1 ≤ noChain.taps.free.length
        ∧ 8 < (noChain.taps.chains.get (Key.bucket ⟨1, 40⟩)).length + 1)
      ∧ (∀ flags ∈ [0#8, 2#8], (readTapSet (ask 13#8 70#8 0#8 flags).message).map (fun r => (r.key, r.slot, r.take))
          = some (⟨1, 13⟩, some 70, flags == 2#8))
      ∧ plain.taps.lookup ⟨1, 13⟩ = none ∧ plain.router.bindings.get 70 = .tap 0
      ∧ (plain.taps.chains.get (Key.bucket ⟨1, 13⟩)).length + 1 ≤ 8 := by
  refine ⟨fun e => ⟨?_, ?_, ?_, ?_, ?_, plain_sound, plain_bindings⟩, by decide +kernel⟩ <;>
    exact headReady_readyFor _ _ rfl rfl

theorem witness_TalkOpenChangesTheLists :
    (∀ u m : Byte, ∀ n ∈ [part, noEntries, noChain], HeadReady (readyFor (talkOpenEntry u m) n).finish.node (talkOpenEntry u m))
      ∧ readTalkOpen (talkOpenEntry 3#8 128#8).message = some (talkOpenRequest 2 128#24)
      ∧ readTalkOpen (talkOpenEntry 2#8 0#8).message = some (talkOpenRequest 1 0#24)
      ∧ readTalkOpen (talkOpenEntry 2#8 128#8).message = some (talkOpenRequest 1 128#24)
      ∧ part.requester (talkOpenEntry 2#8 128#8) = 1 ∧ (2 : Station) ≠ part.requester (talkOpenEntry 3#8 128#8)
      ∧ noEntries.taps.sourceQuestion ⟨1, 40⟩ = .tableFull ∧ noChain.taps.sourceQuestion ⟨1, 40⟩ = .chainFull
      ∧ part.taps.sourceQuestion ⟨1, 40⟩ = .room := by
  refine ⟨fun u m n hn => headReady_readyFor _ _ ?_ ?_, by decide +kernel⟩
  · simp only [List.mem_cons, List.not_mem_nil, or_false] at hn
    rcases hn with rfl | rfl | rfl <;> rfl
  · simp only [List.mem_cons, List.not_mem_nil, or_false] at hn
    rcases hn with rfl | rfl | rfl <;> rfl

/-- An OPEN of desk 2 to mix 7, whose list is full: desk 8 is evicted. -/
theorem witness_TalkOpenEvicts :
    let m := talking [talkOf 4 3, talkOf 5 3, talkOf 6 2, talkOf 7 2] part
    let n := (readyFor (talkOpenEntry 2#8 128#8) m).finish.node
    HeadReady n (talkOpenEntry 2#8 128#8)
      ∧ (maskMixes 128#24 = [7] ∧ (talkFate ((talkOpenRequest 1 128#24).talk 1) (n.talks 7)).evicted = some 7)
      ∧ (7 : Station) ≠ n.station ∧ n.messages.notices = [] ∧ n.taps.sourceQuestion ⟨1, 40⟩ = .room :=
  ⟨headReady_readyFor _ _ rfl rfl, by decide +kernel⟩

/-- The fates of a talk of desk 3 at priority 4: in its own place, in a list with room, for the last of four, and busy. -/
theorem witness_TalkFates :
    let sound (l : List Talk) : Prop := l.Pairwise (fun t u => t.outranks u = true) ∧ (l.map fun t => t.desk).Nodup
      ∧ l.length ≤ 4
    let four (last : Nat) := [talkOf 1 6, talkOf 0 5, talkOf 4 5, talkOf 8 last]
    let t := talkOf 2 4
    (sound [talkOf 1 6, talkOf 2 2] ∧ talkFate t [talkOf 1 6, talkOf 2 2] = .replace ⟨2, 40⟩ [talkOf 1 6, t])
      ∧ (sound [talkOf 1 6, talkOf 8 2] ∧ talkFate t [talkOf 1 6, talkOf 8 2] = .insert [talkOf 1 6, t, talkOf 8 2])
      ∧ (sound (four 2) ∧ talkFate t (four 2) = .evict (talkOf 8 2) [talkOf 1 6, talkOf 0 5, talkOf 4 5, t])
      ∧ sound (four 5) ∧ talkFate t (four 5) = .busy := by decide +kernel

/-- The answers to a talk-source question, and the clamps of R68. -/
theorem witness_SourceQuestions :
    plain.taps.lookup ⟨1, 12⟩ = some 0 ∧ noEntries.taps.lookup ⟨1, 40⟩ = none ∧ noEntries.taps.free.length = 0
      ∧ noChain.taps.lookup ⟨1, 40⟩ = none ∧ noChain.taps.free.length ≠ 0
      ∧ 8 ≤ (noChain.taps.chains.get (Key.bucket ⟨1, 40⟩)).length
      ∧ (readTalkOpen (entryOf kindTalkOpen ([2#8, 40#8, 0#8, 0#8, 1#8, 0#8] ++ bytes24 1048577#24)).message).map
          (fun r => (r.priority, r.dim)) = some (1, 1048576#24) := by decide +kernel

theorem witness_TalkKeepRenewsTheDeadlines :
    let e := entryOf kindTalkKeep [0#8, 1#8, 128#8]
    HeadReady (readyFor e (talking [talkOf 1 4] part)).finish.node e ∧ e.message.kind = kindTalkKeep :=
  ⟨headReady_readyFor _ _ rfl rfl, by decide +kernel⟩

theorem witness_TalkCloseRemovesTheTalks :
    let e := entryOf kindTalkClose [0#8, 1#8, 128#8]
    let n := (readyFor e (talking [talkOf 1 4, talkOf 5 2] part)).finish.node
    HeadReady n e ∧ e.message.kind = kindTalkClose ∧ maskHas (e.message.field24 6) 7 = true
      ∧ (∃ t ∈ n.talks 7, t.desk = n.requester e) ∧ maskHas (e.message.field24 6) 6 = false
      ∧ (maskHas (e.message.field24 6) 8 = true ∧ ∀ t ∈ n.talks 8, t.desk ≠ n.requester e) :=
  ⟨headReady_readyFor _ _ rfl rfl, by decide +kernel⟩

/-- Talk-user changes on a sound table: one that fits, one of 256 new keys, and one of 9 new keys of one bucket. -/
theorem witness_TalkUserChanges :
    let fits : List (Key × Int) := [(⟨1, 12⟩, -1), (⟨2, 12⟩, 2)]
    let many : List (Key × Int) := (List.finRange 256).map fun i =>
      (⟨⟨3 + i.val / 64, by omega⟩, ⟨i.val % 64, by omega⟩⟩, 1)
    let nine : List (Key × Int) := (List.finRange 9).map fun i =>
      (⟨⟨i.val + 2, by omega⟩, ⟨(64 * 4 - 21 * (i.val + 2)) % 64, by omega⟩⟩, 1)
    let new (n : Node) (c : List (Key × Int)) :=
      ((c.filter fun x => decide (0 < x.2)).map Prod.fst).filter fun k => (n.taps.lookup k).isNone
    TableSound sourced.taps
      ∧ ((fits.map Prod.fst).Nodup ∧ new sourced fits = [⟨2, 12⟩] ∧ 1 ≤ sourced.taps.free.length
        ∧ (sourced.taps.chains.get (Key.bucket ⟨2, 12⟩)).length + 1 ≤ 8)
      ∧ ((many.map Prod.fst).Nodup ∧ sourced.taps.free.length < (new sourced many).length)
      ∧ ((nine.map Prod.fst).Nodup ∧ (new sourced nine).length = 9 ∧ 9 ≤ sourced.taps.free.length
        ∧ ∀ k ∈ new sourced nine, k.bucket = 0) :=
  ⟨sourced_sound, by decide +kernel⟩

/-- A STATUS QUERY of a subject. -/
def statusEntry (source : Source) (subject : Byte) : QueueEntry :=
  { message := message kindStatusQuery 2#8 1#8 [subject, 2#8, 23#8], source := source }

theorem witness_StatusQueryIsAnsweredInParts :
    (∀ source ∈ [Source.ring 1 0#8, .port], ∀ subject : Byte,
        HeadReady (readyFor (statusEntry source subject) part).finish.node (statusEntry source subject))
      ∧ (statusEntry .port 0#8).message.kind = kindStatusQuery
      ∧ readSubject (statusEntry .port 0#8).message = some .station
      ∧ readSubject (statusEntry .port 1#8).message = some (.tap ⟨1, 23⟩)
      ∧ readSubject (statusEntry .port 2#8).message = some (.mix 2)
      ∧ readSubject (statusEntry .port 3#8).message = none ∧ (granted part).messages.granted = some 6 := by
  refine ⟨fun source _ subject => headReady_readyFor _ _ rfl rfl, by decide +kernel⟩

/-- A key with an entry, which has last played nothing, and a key without one. -/
theorem witness_StatusParts :
    plain.taps.lookup ⟨1, 12⟩ = some 0 ∧ plain.taps.entries.get 0 = some plainEntry ∧ plainEntry.lastPlayed = none
      ∧ plain.taps.lookup ⟨1, 23⟩ = none := by decide +kernel

/-- An entry that holds frame 40, of 500,000, after a number of absent reads. -/
def buffered (conceal : Nat) (last : Option Byte) : TapEntry :=
  { plainEntry with conceal := conceal, lastPlayed := last, lastGood := Table.replicate 8 800000#24,
                    buffer := plainEntry.buffer.set (Window.w32.place 40#8) (some (40#8, Table.replicate 8 500000#24)) }

theorem witness_AbsentReadIsConcealed :
    ∀ k ∈ [0, 1, 2, 3, 63, 255], presentFrame ((buffered k (some 39#8)).buffer.get (Window.w32.place 41#8)) 41#8
      (buffered k (some 39#8)).lastPlayed = none := by decide +kernel

theorem witness_PresentReadRecovers :
    (∀ k ∈ [0, 3, 4, 255], (buffered k (some 39#8)).buffer.get (Window.w32.place 40#8)
        = some (40#8, Table.replicate 8 500000#24))
      ∧ (1 ≤ (40#8 - 39#8).toNat ∧ (40#8 - 39#8).toNat ≤ 127)
      ∧ (1 ≤ (40#8 - 169#8).toNat ∧ (40#8 - 169#8).toNat ≤ 127) := by decide +kernel

theorem witness_RampStepsTowardItsTarget :
    let up : Ramp := { value := 0#24, target := unity, phase := .ramping 0#24 4 0 }
    let down : Ramp := { value := unity, target := 0#24, phase := .ramping unity 4 3 }
    (up.phase = .ramping 0#24 4 0 ∧ 0 + 1 < 4 ∧ (0#24).toNat ≤ up.target.toNat)
      ∧ (down.phase = .ramping unity 4 3 ∧ 4 ≤ 3 + 1 ∧ down.target.toNat ≤ unity.toNat) := by decide +kernel

/-- A mix whose program is a slot's sample at a large gain. -/
def loud (gain : Coef) : Mix := { Mix.initial with crosspoints := [{ slot := 0, gain := Ramp.settledAt gain }] }

theorem witness_MixSamplesAreClamped :
    let slots : Table 128 AudioFrame := Table.replicate 128 (Table.replicate 8 8388607#24)
    let low : Table 128 AudioFrame := Table.replicate 128 (Table.replicate 8 8388608#24)
    8388607 < ((loud 2097152#24).sums slots silentFrame).get 0 ∧ ((loud 2097152#24).sums low silentFrame).get 7 < -8388608
      ∧ (∀ i, -8388608 ≤ ((loud unity).sums low silentFrame).get i
        ∧ ((loud unity).sums low silentFrame).get i ≤ 8388607) := by decide +kernel

/-! ### Witnesses of the invariants: a working part with a command waiting -/

/-- A part at work with an entry, talks and a report, and a command waiting. -/
def busy : State := { still plain with pending := [.boundary darkLanes highPins] }

theorem busy_steps : ∃ t, step busy = .next t := ⟨_, rfl⟩

theorem witness_FoldAgreesWithTheLinks :
    let s : State := { still (whole part) with pending := [.receiverLockLost .east] }
    (∃ t, step s = .next t) ∧ FoldAgrees s.node.link ∧ ∀ side, EvidenceSound (s.node.side side) :=
  ⟨⟨_, rfl⟩, ⟨rfl, rfl⟩, fun side => by cases side <;> exact ⟨by decide, by decide⟩⟩

theorem witness_OriginFollowsItself :
    let s : State := { still (inState .origin (some 0) part) with pending := [.takeReport] }
    (∃ t, step s = .next t) ∧ ReturnsSound s.node.cadence ∧ FollowsItself s.node :=
  ⟨⟨_, rfl⟩, Nat.zero_le _, fun _ => rfl, by decide +kernel⟩

theorem witness_QueuesKeepTheirBounds :
    let s : State := { still (part.post (.tableLow 3 4)) with pending := [.takeReport] }
    (∃ t, step s = .next t) ∧ ReportsSound s.node.reports ∧ MessagesSound s.node.messages :=
  ⟨⟨_, rfl⟩, ⟨by decide +kernel, by decide +kernel⟩,
    ⟨by decide +kernel, by decide +kernel, by decide +kernel, by decide +kernel⟩⟩

theorem witness_DelayStaysInTheWindow :
    (∃ t, step busy = .next t) ∧ DelaySound busy.node :=
  ⟨busy_steps, ⟨by decide +kernel, by decide +kernel⟩, by decide +kernel, by decide +kernel⟩

theorem witness_TapTableKeepsItsLaw :
    (∃ t, step busy = .next t) ∧ (TableSound busy.node.taps ∧ BindingsAgree busy.node ∧ EmptyBeforeLoad busy.node)
      ∧ EntriesUsed busy.node.taps ∧ BacksAgree busy.node.taps ∧ TalkUsersAgree busy.node := by
  have found : ∀ k x, plain.taps.entryOf k = some x → x = plainEntry := fun k x h =>
    let ⟨e, he, _⟩ := (plain_sound.entryOf_iff k x).mp h
    (plain_entries e x he).2
  have used : inUse plain.taps = [plainEntry] := by decide +kernel
  have silent : ∀ x ∈ plain.mixer.mixes.items, x.talks = [] := by decide +kernel
  refine ⟨busy_steps, ⟨plain_sound, plain_bindings, fun h => by cases h⟩, fun e x h => ?_, fun k => ?_, fun k => ?_⟩
  · rw [(plain_entries e x h).2]
    decide +kernel
  · change (match plain.taps.entryOf k with | some x => x.backs | none => 0) = ((inUse plain.taps).filter _).length
    rw [used]
    cases h : plain.taps.entryOf k with
    | none => rfl
    | some x => rw [found k x h]; rfl
  · change (match plain.taps.entryOf k with | some x => x.talkUsers | none => 0)
      = (plain.mixer.mixes.items.flatMap _).length
    rw [List.flatMap_eq_nil_iff.mpr fun x hx => by rw [silent x hx]; rfl]
    cases h : plain.taps.entryOf k with
    | none => rfl
    | some x => rw [found k x h]; rfl

/-- A part with a talk on mix 7 that has set its duck target, and a crosspoint in mix 3. -/
def mixed : Node :=
  let n := (talking [talkOf 1 4] (mixing none 1023 true)).handSettings [7]
  n

theorem witness_MixStoresKeepTheirLaw :
    let s : State := { still mixed with pending := [.takeReport] }
    (∃ t, step s = .next t) ∧ CrosspointsSound s.node.mixer ∧ TalksSound s.node.mixer :=
  by
  refine ⟨⟨_, rfl⟩, by unfold CrosspointsSound; decide +kernel, fun x hx => ⟨?_, ?_⟩⟩
  · have ducks : ∀ x ∈ mixed.mixer.mixes.items, x.duck = Ramp.settledAt unity
        ∨ x.duck = { value := unity, target := 262144#24, phase := .ramping unity 16 0 } := by decide +kernel
    rcases ducks x hx with h | h <;> rw [h]
    · exact ⟨by decide +kernel, by decide +kernel, fun _ _ _ e => nomatch e⟩
    · refine ⟨by decide +kernel, by decide +kernel, fun _ _ _ e => ?_⟩
      cases e
      decide +kernel
  · revert x
    unfold Outranks
    decide +kernel

end Sys2Proof.Tests
end

section
/-! PROOF. The read of a tap entry (R114 to R117): when it is present, what it leaves, and what it plays. -/

namespace Sys2Proof.Machine

open Sys2Proof

/-! ### When a read is present (R114) -/

theorem isLater_iff (a b : Byte) : isLater a b = true ↔ 1 ≤ (a - b).toNat ∧ (a - b).toNat ≤ 127 := by
  simp [isLater]

@[simp] theorem isLater_self (a : Byte) : isLater a a = false := by
  simp [isLater]

theorem presentFrame_eq_some_iff {α : Type} (place : Option (Byte × α)) (expected : Byte) (last : Option Byte) (f : α) :
    presentFrame place expected last = some f ↔
      place = some (expected, f) ∧ ∀ l, last = some l → isLater expected l = true := by
  cases place with
  | none => simp [presentFrame]
  | some p =>
    obtain ⟨tag, frame⟩ := p
    cases last with
    | none => simp [presentFrame, and_comm]
    | some l =>
      simp only [presentFrame, Option.ite_none_right_eq_some, Option.some.injEq, Prod.mk.injEq, forall_eq']
      tauto

/-- An index is not later than itself, so a place is not played a second time. -/
theorem presentFrame_last_played {α : Type} (place : Option (Byte × α)) (expected : Byte) :
    presentFrame place expected (some expected) = none := by
  rw [Option.eq_none_iff_forall_ne_some]
  intro f hf
  obtain ⟨-, later⟩ := (presentFrame_eq_some_iff ..).mp hf
  simpa using later expected rfl

/-! ### The two answers of a read (R114, R115, R117) -/

theorem TapEntry.read_of_present {x : TapEntry} {w : Window} {expected : Byte} {f : AudioFrame}
    (h : presentFrame (x.buffer.get (w.place expected)) expected x.lastPlayed = some f) :
    x.read w expected =
      ({ x with conceal := 0, lastGood := f, lastPlayed := some expected },
        { key := x.key, present := true, samples := recovered x.conceal f }) := by
  rw [TapEntry.read, h]

theorem TapEntry.read_of_absent {x : TapEntry} {w : Window} {expected : Byte}
    (h : presentFrame (x.buffer.get (w.place expected)) expected x.lastPlayed = none) :
    x.read w expected =
      ({ x with
          conceal := concealNext x.conceal, lastPlayed := playedAfterAbsence x.conceal x.lastPlayed,
          returnHold := 0, absent := x.absent.inc },
        { key := x.key, present := false, samples := x.lastGood.map (concealSample (concealNext x.conceal)) }) := by
  rw [TapEntry.read, h]

/-- A read that is reported present plays the frame of its place, recovered from the conceal count before it. -/
theorem TapEntry.samples_of_present {x : TapEntry} {w : Window} {expected : Byte} {f : AudioFrame}
    (stored : x.buffer.get (w.place expected) = some (expected, f)) (present : (x.read w expected).2.present = true) :
    (x.read w expected).2.samples = recovered x.conceal f := by
  cases h : presentFrame (x.buffer.get (w.place expected)) expected x.lastPlayed with
  | none => simp [TapEntry.read_of_absent h] at present
  | some g =>
    obtain ⟨held, -⟩ := (presentFrame_eq_some_iff ..).mp h
    obtain rfl : f = g := by simpa [stored] using held
    rw [TapEntry.read_of_present h]

/-! ### The scaling of samples (R116, R117) -/

/-- An arithmetic shift right by `k` divides by 2 to the `k`, rounding down. -/
theorem toInt_sshiftRight_eq_ediv (x : Sample) (k : Nat) : (x.sshiftRight k).toInt = x.toInt / 2 ^ k := by
  rw [BitVec.toInt_sshiftRight, Int.shiftRight_eq_div_pow]
  norm_num

theorem recovered_of_lt {k : Nat} (h : k < 4) (f : AudioFrame) : recovered k f = f := if_neg (by omega)

theorem get_recovered_of_le {k : Nat} (h : 4 ≤ k) (f : AudioFrame) (i : Fin 8) :
    ((recovered k f).get i).toInt = (f.get i).toInt / 2 := by
  rw [recovered, if_pos h, Table.get_map, toInt_sshiftRight_eq_ediv, pow_one]

theorem toInt_concealSample_one (x : Sample) : (concealSample 1 x).toInt = x.toInt * 3 / 4 := by
  have low : -2 ^ 23 ≤ x.toInt := BitVec.le_toInt x
  have high : x.toInt < 2 ^ 23 := BitVec.toInt_lt
  change (BitVec.ofInt 24 ((x.toInt * 3) >>> (2 : Nat))).toInt = _
  rw [Int.shiftRight_eq_div_pow]
  exact BitVec.toInt_ofInt_eq_self (by decide) (by omega) (by omega)

theorem toInt_concealSample_two (x : Sample) : (concealSample 2 x).toInt = x.toInt / 2 :=
  toInt_sshiftRight_eq_ediv x 1

theorem toInt_concealSample_three (x : Sample) : (concealSample 3 x).toInt = x.toInt / 4 :=
  toInt_sshiftRight_eq_ediv x 2

theorem toInt_concealSample_add_four (k : Nat) (x : Sample) : (concealSample (k + 4) x).toInt = 0 := rfl

/-- Table 6-1 never makes a sample louder: rounding down stays within the magnitude of a negative sample. -/
theorem natAbs_concealSample_le (k : Nat) (x : Sample) : (concealSample k x).toInt.natAbs ≤ x.toInt.natAbs := by
  match k with
  | 0 => exact le_rfl
  | 1 => rw [toInt_concealSample_one]; omega
  | 2 => rw [toInt_concealSample_two]; omega
  | 3 => rw [toInt_concealSample_three]; omega
  | k + 4 => rw [toInt_concealSample_add_four]; omega

theorem one_le_concealNext (k : Nat) : 1 ≤ concealNext k := by
  unfold concealNext
  omega

/-! ### The statements -/

/-- Settles O50: the absent answer of a read, and Table 6-1 row by row at the raised conceal count. -/
theorem absentReadIsConcealed : Obligations.AbsentReadIsConcealed := by
  intro x w expected absent
  rw [TapEntry.read_of_absent absent]
  refine ⟨rfl, rfl, fun i => ?_⟩
  simp only [Table.get_map]
  refine ⟨?_, natAbs_concealSample_le ..⟩
  match concealNext x.conceal, one_le_concealNext x.conceal with
  | 1, _ => exact toInt_concealSample_one _
  | 2, _ => exact toInt_concealSample_two _
  | 3, _ => exact toInt_concealSample_three _
  | k + 4, _ => exact toInt_concealSample_add_four k _

/-- Settles O51: the present answer of a read leaves k = 0 and the expected index as the last played one, from which the
later reads follow. -/
theorem presentReadRecovers : Obligations.PresentReadRecovers := by
  refine ⟨fun x w expected f stored later => ?_, fun _ => rfl, fun _ => rfl⟩
  have present : presentFrame (x.buffer.get (w.place expected)) expected x.lastPlayed = some f :=
    (presentFrame_eq_some_iff ..).mpr ⟨stored, fun l hl => (isLater_iff ..).mpr (later l hl)⟩
  rw [TapEntry.read_of_present present]
  refine ⟨rfl, rfl, rfl, rfl, fun few => recovered_of_lt few f, fun many => get_recovered_of_le many f, ?_, ?_⟩
  · rw [TapEntry.read_of_absent (presentFrame_last_played ..)]
  · intro index g held again
    rw [TapEntry.samples_of_present held again]
    exact recovered_of_lt (k := 0) (by decide) g

end Sys2Proof.Machine
end


section
/-! PROOF. From a property of the part to every command: a request keeps what its completion and its owner keep. -/

namespace Sys2Proof.Machine

open Sys2Proof

variable {P : Node → Prop}

/-- A message taken at the head keeps what its carrying out keeps. -/
theorem Node.carryOut_keeps {n : Node} (w : Byte → Bool) (owner : QueueEntry → Node → Node) (h : P n)
    (ho : ∀ e, n.messages.readyHead w = some e → P (owner e n)) : P (n.carryOut w owner) := by
  unfold Node.carryOut
  split
  · exact ho _ ‹_›
  · exact h

/-- A request keeps what completion and its owner keep. -/
theorem Node.carryRequest_keeps {α : Type} {n : Node} (k : Byte) (read : FrameUnit → Option α)
    (owner : α → Station → Node → Option Reply × Node) (hc : ∀ m e r, P m → P (m.complete e r)) (h : P n)
    (ho : ∀ e a, read e.message = some a → P (owner a (n.requester e) n).2) :
    P (n.carryRequest k read owner) := by
  refine n.carryOut_keeps _ _ h fun e _ => ?_
  dsimp only
  split
  · exact hc _ _ _ h
  · exact hc _ _ _ (ho _ _ ‹_›)

/-- What has to be shown of a property of the part for every command to keep it, with the requests reduced to their
completion and their owners.  Where an operation leaves every block that the property reads, the default shows it. -/
structure Keeps (P : Node → Prop) : Prop where
  powerOn : ∀ l e w, P (Node.powerOn l e w)
  finishLoad : ∀ n f x, n.loader.state = .reading → P n → P (n.finishLoad f x)
  openBoundary : ∀ n l p, n.running = true → P n → P (n.openBoundary l p) := by intro n l p _ h; simpa using h
  task : ∀ n t, n.due t = true → P n → P (n.doTask t)
  beginTransfer : ∀ n, n.running = true → P n → P n.beginTransfer := by intro n _ h; simpa using h
  completeOperation : ∀ n b, n.running = true → P n → P (n.completeOperation b) := by intro n b _ h; simpa using h
  endTransfer : ∀ n b, P n → P (n.endTransfer b) := by intro n b h; simpa using h
  judgeSend : ∀ n u, n.running = true → P n → P (n.judgeSend u) := by intro n u _ h; simpa using h
  removeReport : ∀ n, n.running = true → P n → P n.removeReport := by intro n _ h; simpa using h
  restartRing : ∀ n, n.running = true → P n → P n.restartRing := by intro n _ h; simpa [Node.restartRing] using h
  ignoreTransfer : ∀ n b, n.running = true → P n → P (n.ignoreTransfer b) := by intro n b _ h; simpa using h
  lockGained : ∀ n x, P n → P (n.lockGained x) := by intro n x h; simpa using h
  lockLost : ∀ n x, P n → P (n.lockLost x) := by intro n x h; simpa using h
  takeBeacon : ∀ n x b, n.running = true → P n → P (n.takeBeacon x b) := by intro n x b _ h; simpa using h
  takeEvidence : ∀ n x g, n.running = true → P n → P (n.takeEvidence x g) := by intro n x g _ h; simpa using h
  sendBeacon : ∀ n x, n.running = true → P n → P (n.sendBeacon x) := by intro n x _ h; simpa using h
  grantReply : ∀ n, n.running = true → P n → P n.grantReply := by intro n _ h; simpa using h
  complete : ∀ n e r, P n → P (n.complete e r) := by intro n e r h; simpa using h
  tapSet : ∀ n r, n.running = true → P n → P (n.tapSet r).2 := by intro n r _ h; simpa using h
  tapDrop : ∀ n k, n.running = true → P n → P (n.tapDrop k).2 := by intro n k _ h; simpa using h
  startWalk : ∀ n, n.running = true → P n → P n.startWalk := by intro n _ h; simpa using h
  mixGain : ∀ n r d, P n → P { n with mixer := (n.mixer.mixGain r d).2 } := by intro n r d h; simpa using h
  mixMaster : ∀ n m c l d, P n → P { n with mixer := (n.mixer.mixMaster m c l d).2 } := by
    intro n m c l d h; simpa using h
  outSet : ∀ n o x, P n → P (n.outSet o x).2 := by intro n o x h; simpa using h
  talkOpen : ∀ n u r d, readTalkOpen u = some r → n.running = true → P n → P (n.talkOpen r d).2 := by
    intro n u r d _ _ h; simpa using h
  talkKeep : ∀ n m d, P n → P (n.talkKeep m d).2 := by intro n m d h; simpa using h
  talkClose : ∀ n m d, n.running = true → P n → P (n.talkClose m d) := by intro n m d _ h; simpa using h
  statusQuery : ∀ n, n.running = true → P n → P n.statusQuery := by intro n _ h; simpa using h

theorem Node.wholeTransfer_keeps (k : Keeps P) {n : Node} (op : Byte) (f : Node → Node) (h : P n) (hf : P (f n)) :
    P (n.wholeTransfer op f) := by
  unfold Node.wholeTransfer
  split
  · exact k.endTransfer _ _ hf
  · exact h

theorem Keeps.kept (k : Keeps P) : Kept P where
  powerOn := k.powerOn
  finishLoad := k.finishLoad
  openBoundary := k.openBoundary
  task := k.task
  beginTransfer := k.beginTransfer
  completeOperation := k.completeOperation
  wholeSend n u r h := n.wholeTransfer_keeps k _ _ h (k.judgeSend n u r h)
  wholeTake n r h := n.wholeTransfer_keeps k _ _ h (k.removeReport n r h)
  wholeRestart n r h := n.wholeTransfer_keeps k _ _ h (k.restartRing n r h)
  ignoreTransfer := k.ignoreTransfer
  lockGained := k.lockGained
  lockLost := k.lockLost
  takeBeacon := k.takeBeacon
  takeEvidence := k.takeEvidence
  sendBeacon := k.sendBeacon
  grantReply := k.grantReply
  unknownKind n _ h := n.carryOut_keeps _ _ h fun e _ => k.complete n e _ h
  tapSet n r h := n.carryRequest_keeps _ _ _ k.complete h fun _ a _ => k.tapSet n a r h
  tapDrop n r h := n.carryRequest_keeps _ _ _ k.complete h fun _ a _ => k.tapDrop n a r h
  tapClear n r h := n.carryOut_keeps _ _ h fun _ _ => k.startWalk n r h
  mixGain n _ h := n.carryRequest_keeps _ _ _ k.complete h fun _ a _ => k.mixGain n a _ h
  mixMaster n _ h := n.carryRequest_keeps _ _ _ k.complete h fun _ a _ => k.mixMaster n a.1 a.2.1 a.2.2 _ h
  outSet n _ h := n.carryRequest_keeps _ _ _ k.complete h fun _ a _ => k.outSet n a.1 a.2 h
  talkOpen n r h := n.carryRequest_keeps _ _ _ k.complete h fun _ a ha => k.talkOpen n _ a _ ha r h
  talkKeep n _ h := n.carryRequest_keeps _ _ _ k.complete h fun _ a _ => k.talkKeep n a _ h
  talkClose n r h := n.carryRequest_keeps _ _ _ k.complete h fun _ a _ => k.talkClose n a _ r h
  statusQuery := k.statusQuery

/-- What every command keeps holds behind every step. -/
theorem step_keeps (k : Keeps P) {s t : State} (e : step s = .next t) (h : P s.node) : P t.node := by
  unfold step at e
  split at e
  · injection e with e
    exact e ▸ h
  · exact exec_keeps k.kept _ _ _ e h

end Sys2Proof.Machine
end
section
/-! PROOF. The fold state agrees with the link states (R51), and the evidence counts lie in their ranges (R45). -/

namespace Sys2Proof.Machine

open Sys2Proof Sys2Proof.Safety

/-- The fold state agrees with the links and the evidence counts lie in their ranges. -/
def LinkSound (l : LinkFold) : Prop := FoldAgrees l ∧ ∀ side, EvidenceSound (l.side side)

/-! ### Sides changed -/

/-- The fold state and what it depends on of both sides stand as they were. -/
def LinkFold.SameLinks (l m : LinkFold) : Prop :=
  m.fold = l.fold ∧ ∀ side, (m.side side).link = (l.side side).link ∧ (m.side side).badRun = (l.side side).badRun
    ∧ (m.side side).silence = (l.side side).silence

theorem LinkFold.SameLinks.refl (l : LinkFold) : l.SameLinks l := ⟨rfl, fun _ => ⟨rfl, rfl, rfl⟩⟩

theorem LinkFold.SameLinks.trans {a b c : LinkFold} (h : a.SameLinks b) (k : b.SameLinks c) : a.SameLinks c :=
  ⟨k.1.trans h.1, fun x => ⟨(k.2 x).1.trans (h.2 x).1, (k.2 x).2.1.trans (h.2 x).2.1, (k.2 x).2.2.trans (h.2 x).2.2⟩⟩

theorem foldAgrees_congr {l m : LinkFold} (hf : m.fold = l.fold) (hl : ∀ x, (m.side x).link = (l.side x).link) :
    FoldAgrees m ↔ FoldAgrees l := by
  have he : m.east.link = l.east.link := hl .east
  have hw : m.west.link = l.west.link := hl .west
  unfold FoldAgrees
  rw [hf, he, hw]

theorem LinkFold.SameLinks.sound {l m : LinkFold} (h : l.SameLinks m) (hl : LinkSound l) : LinkSound m := by
  refine ⟨(foldAgrees_congr h.1 fun x => (h.2 x).1).mpr hl.1, fun x => ?_⟩
  unfold EvidenceSound
  rw [(h.2 x).2.1, (h.2 x).2.2]
  exact hl.2 x

/-- Where a fold state asks a link to be UP it asks the active input's; a side that is not UP may go to another state
that is not UP. -/
theorem foldAgrees_setSide_of_ne_up {l : LinkFold} (h : FoldAgrees l) (side : Side) (x : SideState)
    (before : (l.side side).link ≠ .up) (after : x.link ≠ .up) : FoldAgrees (l.setSide side x) := by
  cases side <;> cases hf : l.fold <;>
    simp_all [FoldAgrees, LinkFold.setSide, LinkFold.side]

theorem evidence_setSide {l : LinkFold} (h : ∀ s, EvidenceSound (l.side s)) (side : Side) {x : SideState}
    (hx : EvidenceSound x) : ∀ s, EvidenceSound ((l.setSide side x).side s) := by
  intro s
  rw [LinkFold.setSide_side]
  split
  · exact hx
  · exact h s

/-- A side whose link stands and whose evidence lies in its range. -/
theorem linkSound_setSide {l : LinkFold} (h : LinkSound l) (side : Side) {x : SideState}
    (hl : x.link = (l.side side).link) (hx : EvidenceSound x) : LinkSound (l.setSide side x) := by
  refine ⟨(foldAgrees_congr (by simp) fun s => ?_).mpr h.1, evidence_setSide h.2 side hx⟩
  rw [LinkFold.setSide_side]
  split
  · rename_i e
    rw [hl, e]
  · rfl

theorem SideState.badItem_sound {x : SideState} (h : EvidenceSound x) (k : Nat) : EvidenceSound (x.badItem k) :=
  ⟨Nat.min_le_right _ _, h.2⟩

theorem SideState.goodItem_sound (x : SideState) : EvidenceSound x.goodItem := ⟨by simp [goodItem], by simp [goodItem]⟩

theorem SideState.cleared_sound (x : SideState) : EvidenceSound x.cleared := ⟨by simp [cleared], by simp [cleared]⟩

/-! ### The fold state changed -/

@[simp] theorem Node.changeFold_link (n : Node) (new : FoldState) (side : Side) (early : Bool) :
    (n.changeFold new side early).link = { n.link with fold := new, foldChange := n.link.foldChange.inc } := by
  unfold Node.changeFold
  dsimp only
  split <;> simp

@[simp] theorem Node.linkIsUp_link (n : Node) : n.linkIsUp.link = n.link := by
  unfold Node.linkIsUp
  dsimp only
  split
  · split <;> simp
  · rfl

/-- Behind the loss of a link that was UP, the fold rules R53 and R54 put the fold state right. -/
theorem Node.foldOnLoss_sound (n : Node) (side : Side)
    (h : FoldAgrees (n.link.setSide side { n.link.side side with link := .up }))
    (down : (n.link.side side).link = .down) : FoldAgrees (n.foldOnLoss side).link := by
  unfold Node.foldOnLoss
  cases side <;> cases hf : n.link.fold <;> by_cases he : n.link.east.link = .up <;>
    by_cases hw : n.link.west.link = .up <;>
    simp_all [FoldAgrees, LinkFold.setSide, LinkFold.side]

@[simp] theorem Node.foldOnLoss_side (n : Node) (side s : Side) :
    (n.foldOnLoss side).link.side s = n.link.side s := by
  unfold Node.foldOnLoss
  split <;> first | rfl | cases s <;> simp [LinkFold.side]

/-- Behind a link that has become UP, the fold rules R55 to R57 put the fold state right. -/
theorem Node.foldOnUp_sound (n : Node) (side : Side) {before : LinkState} (hb : before ≠ .up)
    (h : FoldAgrees (n.link.setSide side { n.link.side side with link := before }))
    (up : (n.link.side side).link = .up) : FoldAgrees (n.foldOnUp side).link := by
  unfold Node.foldOnUp Node.tryUnfold
  cases side <;> cases hf : n.link.fold <;> by_cases he : n.link.east.restored = true <;>
    by_cases hw : n.link.west.restored = true <;>
    simp_all [FoldAgrees, LinkFold.setSide, LinkFold.side]

/-- An unfold by R56 or R57 finds both links UP. -/
theorem Node.tryUnfold_sound (n : Node) (side : Side) (h : FoldAgrees n.link) : FoldAgrees (n.tryUnfold side).link := by
  unfold Node.tryUnfold
  split
  · split
    · rename_i hf hr
      simp_all [FoldAgrees, SideState.restored]
    · exact h
  · split
    · rename_i hf hr
      simp_all [FoldAgrees, SideState.restored]
    · exact h
  · exact h

@[simp] theorem Node.tryUnfold_side (n : Node) (side s : Side) : (n.tryUnfold side).link.side s = n.link.side s := by
  unfold Node.tryUnfold
  split
  · split <;> cases s <;> simp [LinkFold.side]
  · split <;> cases s <;> simp [LinkFold.side]
  · rfl

@[simp] theorem Node.foldOnUp_side (n : Node) (side s : Side) : (n.foldOnUp side).link.side s = n.link.side s := by
  unfold Node.foldOnUp
  split
  · cases s <;> simp [LinkFold.side]
  · simp

/-! ### The link states changed (R48 to R50) -/

theorem Node.goDown_sound (n : Node) (side : Side) (cause : LinkCause) (h : LinkSound n.link) :
    LinkSound (n.goDown side cause).link := by
  unfold Node.goDown
  split
  · exact h
  · dsimp only
    have hev : EvidenceSound (n.side side) := h.2 side
    split
    · rename_i up
      refine ⟨Node.foldOnLoss_sound _ _ ?_ (by simp [Node.postLink]), fun s => ?_⟩
      · refine (foldAgrees_congr (by simp [Node.postLink]) fun s => ?_).mpr h.1
        rw [LinkFold.setSide_side]
        split
        · subst_vars
          exact up.symm
        · simp [Node.postLink, *]
      · rw [Node.foldOnLoss_side]
        exact evidence_setSide h.2 side (x := { n.side side with link := .down, holdOff := none, linkDown := _ }) hev s
    · rename_i up
      exact ⟨foldAgrees_setSide_of_ne_up h.1 side _ up (by simp), evidence_setSide h.2 side hev⟩

theorem Node.startProving_sound (n : Node) (side : Side) (cause : LinkCause) (h : LinkSound n.link)
    (down : (n.side side).link = .down) : LinkSound (n.startProving side cause).link :=
  ⟨foldAgrees_setSide_of_ne_up h.1 side _ (by rw [← Node.side, down]; decide) (by simp),
    evidence_setSide h.2 side (h.2 side)⟩

theorem Node.becomeUp_sound (n : Node) (side : Side) (h : LinkSound n.link) (proving : (n.side side).link = .proving) :
    LinkSound (n.becomeUp side).link := by
  refine ⟨Node.foldOnUp_sound _ side (before := .proving) (by decide) ?_ (by simp [Node.postLink]), fun s => ?_⟩
  · refine (foldAgrees_congr (by simp [Node.postLink]) fun s => ?_).mpr h.1
    rw [LinkFold.setSide_side]
    split
    · subst_vars
      exact proving.symm
    · simp [Node.postLink, *]
  · unfold Node.becomeUp
    rw [Node.foldOnUp_side]
    exact evidence_setSide h.2 side (x := { n.side side with link := .up, holdOff := none }) (h.2 side) s

theorem Node.gainLock_sound (n : Node) (side : Side) (h : LinkSound n.link) : LinkSound (n.gainLock side).link := by
  have h1 : LinkSound (n.updateSide side fun x => { x.cleared with lock := true }).link :=
    linkSound_setSide h side rfl (SideState.cleared_sound (n.side side))
  unfold Node.gainLock
  dsimp only
  split
  · exact Node.startProving_sound _ _ _ h1 (by simpa [SideState.cleared] using ‹_›)
  · exact h1

theorem Node.loseLock_sound (n : Node) (side : Side) (h : LinkSound n.link) : LinkSound (n.loseLock side).link :=
  Node.goDown_sound _ _ _ (linkSound_setSide h side rfl (SideState.cleared_sound (n.side side)))

theorem Node.reArm_sound (n : Node) (side : Side) (h : LinkSound n.link) : LinkSound (n.reArm side).link := by
  unfold Node.reArm
  split
  · exact Node.startProving_sound _ _ _ h (‹_ ∧ _›).1
  · exact h

theorem Node.reArmIfHeard_sound (n : Node) (side : Side) (h : LinkSound n.link) :
    LinkSound (n.reArmIfHeard side).link := by
  unfold Node.reArmIfHeard
  split
  · split
    · exact n.reArm_sound side h
    · exact h
  · exact h

theorem Node.takeBeacon_sound (n : Node) (side : Side) (b : Beacon) (h : LinkSound n.link) :
    LinkSound (n.takeBeacon side b).link := by
  have h1 : LinkSound (n.updateSide side fun x => { x.goodItem with latest := some b }).link :=
    linkSound_setSide h side rfl (SideState.goodItem_sound (n.side side))
  unfold Node.takeBeacon
  dsimp only
  split
  · split
    · exact Node.reArm_sound _ _ h1
    · exact h1
  · split
    · exact ⟨Node.tryUnfold_sound _ _ h1.1, fun s => by rw [Node.tryUnfold_side]; exact h1.2 s⟩
    · exact Node.goDown_sound _ _ _ h1

theorem Node.takeEvidence_sound (n : Node) (side : Side) (good : Bool) (h : LinkSound n.link) :
    LinkSound (n.takeEvidence side good).link := by
  refine linkSound_setSide h side ?_ ?_
  · cases good <;> rfl
  · cases good
    · exact SideState.badItem_sound (h.2 side) _
    · exact SideState.goodItem_sound _

theorem Node.endQuiet_sound (n : Node) (h : LinkSound n.link) : LinkSound n.endQuiet.link :=
  Node.reArmIfHeard_sound _ _ (Node.reArmIfHeard_sound _ _ h)

theorem Node.restartSide_link (n : Node) (side : Side) :
    (n.restartSide side).link
      = n.link.setSide side ({ n.link.side side with link := .down, holdOff := none } : SideState).cleared := by
  unfold Node.restartSide
  dsimp only
  cases side <;> split <;> rfl

/-- A ring restart leaves both sides DOWN and the fold state ISOLATED (R64). -/
theorem Node.restartLinks_sound (n : Node) : LinkSound n.restartLinks.link := by
  unfold Node.restartLinks
  dsimp only
  split
  · rename_i hf
    refine ⟨?_, fun s => ?_⟩
    · simp [FoldAgrees, Node.restartSide_link, hf, LinkFold.setSide, SideState.cleared]
    · cases s <;> simp [EvidenceSound, Node.restartSide_link, LinkFold.setSide, LinkFold.side, SideState.cleared]
  · refine ⟨?_, fun s => ?_⟩
    · simp [FoldAgrees, Node.restartSide_link, LinkFold.setSide, SideState.cleared]
    · cases s <;> simp [EvidenceSound, Node.restartSide_link, LinkFold.setSide, LinkFold.side, SideState.cleared]

/-! ### Frames -/

theorem Node.updateSide_sameLinks (n : Node) (side : Side) (f : SideState → SideState)
    (hl : ∀ x, (f x).link = x.link ∧ (f x).badRun = x.badRun ∧ (f x).silence = x.silence) :
    n.link.SameLinks (n.updateSide side f).link := by
  refine ⟨by simp, fun s => ?_⟩
  rw [Node.updateSide_link, LinkFold.setSide_side]
  split
  · subst_vars
    exact hl _
  · exact ⟨rfl, rfl, rfl⟩

theorem Node.updateSide_sound (n : Node) (side : Side) (f : SideState → SideState) (h : LinkSound n.link)
    (hl : ∀ x, (f x).link = x.link ∧ (f x).badRun = x.badRun ∧ (f x).silence = x.silence) :
    LinkSound (n.updateSide side f).link := (n.updateSide_sameLinks side f hl).sound h

theorem Node.transmit_sameLinks (n : Node) (side : Side) (t : Transmission) :
    n.link.SameLinks (n.transmit side t).link := by
  unfold Node.transmit
  split
  · exact .refl _
  · exact n.updateSide_sameLinks _ _ fun _ => ⟨rfl, rfl, rfl⟩

theorem Node.passSegments_sameLinks (n : Node) (h : SixBytes) (ss : List Segment) :
    n.link.SameLinks (n.passSegments h ss).link := by
  unfold Node.passSegments Node.forward
  dsimp only
  split
  · have := Node.transmit_sameLinks (((extractAll ss n).2.strip (extractAll ss n).1).2.append
      (((extractAll ss n).2.strip (extractAll ss n).1).1.flatMap Segment.units).length).2
    simp only [Node.append_leaves, Node.strip_leaves, extractAll_leaves] at this
    exact this _ _
  · simp only [Node.append_leaves, Node.strip_leaves, extractAll_leaves]
    exact .refl _

theorem Node.passFrame_sameLinks (n : Node) (f : Frame) : n.link.SameLinks (n.passFrame f).link := by
  have := Node.passSegments_sameLinks (n.cutSpan (walkBody n.capacity f.body).2) f.head (walkBody n.capacity f.body).1
  rwa [(Node.cutSpan_leaves _ _).2.1] at this

theorem Node.primaryPass_sameLinks (n : Node) (f : Frame) : n.link.SameLinks (n.primaryPass f).link := by
  unfold Node.primaryPass
  dsimp only
  split
  · have := Node.passFrame_sameLinks (n.answerAdmission f).2 f
    simpa using this
  · simpa using .refl _
  · simpa using .refl _

theorem Node.sendOwn_sameLinks (n : Node) (origin : Station) (rebuilt : Bool) :
    n.link.SameLinks (n.sendOwn origin rebuilt).link := by
  unfold Node.sendOwn
  exact n.passSegments_sameLinks _ _

theorem Node.reEmit_sameLinks (n : Node) (f : Frame) : n.link.SameLinks (n.reEmit f).link := by
  unfold Node.reEmit
  dsimp only
  refine .trans ?_ (Node.passSegments_sameLinks _ _ _)
  rw [Node.updateEngine_link, (Node.cutSpan_leaves _ _).2.1]
  exact .refl _

theorem Node.emit_sameLinks (n : Node) : n.link.SameLinks n.emit.link := by
  unfold Node.emit
  split
  · exact .refl _
  · split
    · exact n.sendOwn_sameLinks _ _
    · split
      · exact n.sendOwn_sameLinks _ _
      · exact Node.reEmit_sameLinks (n.updateCadence _) _
    · exact .refl _

theorem Node.badHeadFrame_sameLinks (n : Node) : n.link.SameLinks n.badHeadFrame.link := by
  unfold Node.badHeadFrame
  dsimp only
  split
  · refine .trans ?_ (Node.sendOwn_sameLinks _ _ _)
    exact .refl _
  · refine .trans ?_ (Node.sendOwn_sameLinks _ _ _)
    exact .refl _
  · exact .refl _

theorem Node.westFrame_sound (n : Node) (f : Frame) (h : LinkSound n.link) : LinkSound (n.westFrame f).link := by
  unfold Node.westFrame
  split
  · exact (n.primaryPass_sameLinks f).sound h
  · exact (n.primaryPass_sameLinks f).sound h
  · split
    · rename_i hf hu
      refine (Node.primaryPass_sameLinks _ f).sound ⟨?_, fun s => ?_⟩
      · rw [Node.earlyUnfold, Node.changeFold_link]
        have he : n.link.east.link = .up := by simpa [FoldAgrees, hf] using h.1
        exact ⟨he, hu.1⟩
      · have := h.2 s
        cases s <;> simpa [Node.earlyUnfold, LinkFold.side] using this
    · exact h
  · exact h

theorem Node.sortFrame_sound (n : Node) (side : Side) (f : Frame) (h : LinkSound n.link) :
    LinkSound (n.sortFrame side f).link := by
  unfold Node.sortFrame
  split
  · split
    · exact n.westFrame_sound f h
    · unfold Node.eastFrame
      split
      · unfold Node.passThrough
        split
        · exact h
        · exact (n.transmit_sameLinks _ _).sound h
      · exact (n.primaryPass_sameLinks _).sound h
      · exact h
      · exact h
    · exact h
  · split
    · exact n.badHeadFrame_sameLinks.sound h
    · exact h

/-! ### Every command -/

theorem Node.startSide_sound (n : Node) (side : Side) (h : LinkSound n.link) : LinkSound (n.startSide side).link := by
  have h1 := (n.updateSide_sameLinks side (fun x => { x with beaconDue := true }) fun _ => ⟨rfl, rfl, rfl⟩).sound h
  unfold Node.startSide
  dsimp only
  split
  · exact Node.gainLock_sound _ _ h1
  · exact h1

theorem Node.openBoundary_sound (n : Node) (lanes : LaneBlock) (pins : Table 4 Bool) (h : LinkSound n.link) :
    LinkSound (n.openBoundary lanes pins).link := by
  have he : EvidenceSound n.link.east := h.2 .east
  have hw : EvidenceSound n.link.west := h.2 .west
  have hb : ∀ x : SideState, EvidenceSound x → EvidenceSound x.atBoundary := by
    refine fun x hx => ⟨hx.1, ?_⟩
    unfold SideState.atBoundary
    dsimp only
    split
    · exact Nat.min_le_left _ _
    · exact hx.2
  unfold Node.openBoundary
  rw [(Node.capture_leaves _ _).2.1]
  refine ⟨(foldAgrees_congr rfl fun s => by cases s <;> rfl).mpr h.1, fun s => ?_⟩
  cases s
  · exact hb _ he
  · exact hb _ hw

theorem Node.countMark_sameLinks (n : Node) : n.link.SameLinks n.countMark.link := by
  unfold Node.countMark
  rw [(Node.retryOwnEvents_leaves _).2.1, (Node.countDeadlines_leaves _).2.1]
  exact ⟨rfl, fun s => by cases s <;> exact ⟨rfl, rfl, rfl⟩⟩

theorem Node.doTask_linkSound (n : Node) (t : Task) (due : n.due t = true) (h : LinkSound n.link) :
    LinkSound (n.doTask t).link := by
  cases t with
  | quietEnd => exact n.endQuiet_sound h
  | silence side => exact n.goDown_sound side _ h
  | badRun side => exact n.goDown_sound side _ h
  | linkProven side =>
    refine n.becomeUp_sound side h ?_
    simp only [Node.due, Node.rowStands, Bool.and_eq_true, beq_iff_eq] at due
    exact due.2.1
  | emit => exact n.emit_sameLinks.sound h
  | claim => exact (Node.emit_sameLinks n.enterClaiming).sound (by simpa using h)
  | mark => exact n.countMark_sameLinks.sound h
  | takeFrame side head body => exact n.sortFrame_sound side _ h
  | _ => simpa [Node.doTask] using h

theorem Node.lockGained_sound (n : Node) (side : Side) (h : LinkSound n.link) :
    LinkSound (n.lockGained side).link := by
  unfold Node.lockGained
  split
  · exact h
  · split
    · exact n.gainLock_sound side h
    · exact n.updateSide_sound _ _ h fun _ => ⟨rfl, rfl, rfl⟩

theorem Node.lockLost_sound (n : Node) (side : Side) (h : LinkSound n.link) : LinkSound (n.lockLost side).link := by
  unfold Node.lockLost
  split
  · split
    · exact n.loseLock_sound side h
    · exact n.updateSide_sound _ _ h fun _ => ⟨rfl, rfl, rfl⟩
  · exact h

theorem Node.sendBeacon_sound (n : Node) (side : Side) (h : LinkSound n.link) :
    LinkSound (n.sendBeacon side).link := by
  unfold Node.sendBeacon
  split
  · exact (Node.transmit_sameLinks _ _ _).sound (n.updateSide_sound _ _ h fun _ => ⟨rfl, rfl, rfl⟩)
  · exact h

theorem linkSound_keeps : Keeps fun n => LinkSound n.link where
  powerOn _ _ _ :=
    ⟨⟨LinkState.noConfusion, LinkState.noConfusion⟩, fun s => by cases s <;> exact ⟨Nat.zero_le _, Nat.zero_le _⟩⟩
  finishLoad _ _ _ _ h := Node.startSide_sound _ _ (Node.startSide_sound _ _ (by simpa using h))
  openBoundary n l p _ := n.openBoundary_sound l p
  task n t := n.doTask_linkSound t
  restartRing n _ _ := by simpa [Node.restartRing] using n.restartLinks_sound
  lockGained n x := n.lockGained_sound x
  lockLost n x := n.lockLost_sound x
  takeBeacon n x b _ := n.takeBeacon_sound x b
  takeEvidence n x g _ := n.takeEvidence_sound x g
  sendBeacon n x _ := n.sendBeacon_sound x

/-- Settles O55: the fold state follows every change of a link, and the evidence counts stop at their limits. -/
theorem foldAgreesWithTheLinks : Obligations.FoldAgreesWithTheLinks :=
  fun _ _ e fold evidence => step_keeps linkSound_keeps e ⟨fold, evidence⟩

end Sys2Proof.Machine
end
section
/-! PROOF. A station in CLAIMING or ORIGIN follows itself (R25), and at most 4 returned frames wait (R36). -/

namespace Sys2Proof.Machine

open Sys2Proof Sys2Proof.Safety

/-! ### What each operation makes of the Cadence Unit -/

@[simp] theorem Node.setNodeState_cadence (n : Node) (s : NodeState) :
    (n.setNodeState s).cadence = { n.cadence with node := s } := rfl

@[simp] theorem Node.startFollowing_cadence (n : Node) (o : Station) (h : SixBytes) :
    (n.startFollowing o h).cadence = n.cadence.follow o (headSequence h) (headRound h) := rfl

@[simp] theorem Node.proveClaim_cadence (n : Node) (f : Frame) : (n.proveClaim f).cadence =
    { ({ n.cadence with node := .origin } : Cadence).measure f.head with returnQueue := [f] } := rfl

@[simp] theorem Node.enterWaiting_cadence (n : Node) :
    n.enterWaiting.cadence = { n.cadence with node := .waiting, backOff := n.newBackOff } := rfl

@[simp] theorem Node.enterAlone_cadence (n : Node) : n.enterAlone.cadence =
    { n.cadence with node := .alone, returnQueue := [], backOff := none, starvation := 0 } := rfl

@[simp] theorem Node.enterClaiming_cadence (n : Node) : n.enterClaiming.cadence =
    { n.cadence with node := .claiming, followed := some n.station, roundLength := 0#8, lastSequence := none,
                     backOff := none } := rfl

@[simp] theorem Node.restartCadence_cadence (n : Node) : n.restartCadence.cadence =
    { n.cadence with node := .starting, followed := none, lastSequence := none, roundLength := 0#8, returnQueue := [],
                     starvation := 0, backOff := none } := rfl

/-! ### The law of the origin -/

/-- At most 4 returned frames wait, and in CLAIMING and ORIGIN the station follows itself. -/
def OwnFollowed (own : Station) (c : Cadence) : Prop :=
  ReturnsSound c ∧ (c.node = .claiming ∨ c.node = .origin → c.followed = some own)

/-- The node state, the followed origin and the return queue stand as they were. -/
theorem OwnFollowed.congr {own : Station} {c d : Cadence} (h : OwnFollowed own c) (hn : d.node = c.node)
    (hf : d.followed = c.followed) (hq : d.returnQueue = c.returnQueue) : OwnFollowed own d := by
  unfold OwnFollowed ReturnsSound
  rw [hn, hf, hq]
  exact h

/-- In the other node states only the return queue is bounded. -/
theorem OwnFollowed.of_other {own : Station} {c : Cadence} (hq : c.returnQueue.length ≤ 4) (h1 : c.node ≠ .claiming)
    (h2 : c.node ≠ .origin) : OwnFollowed own c := ⟨hq, fun h => h.elim (absurd · h1) (absurd · h2)⟩

theorem Cadence.follow_own {own : Station} {c : Cadence} (h : OwnFollowed own c) (o : Station) (q l : Byte) :
    OwnFollowed own (c.follow o q l) := by
  refine .of_other ?_ (by simp [follow]) (by simp [follow])
  unfold follow
  dsimp only
  split
  · exact Nat.zero_le _
  · exact h.1

theorem Cadence.passNewer_own {own : Station} {c : Cadence} (h : OwnFollowed own c) (q l : Byte) (r : Bool) :
    OwnFollowed own (c.passNewer q l r) := by
  unfold passNewer
  dsimp only
  split
  · exact h
  · split <;> exact h

theorem Cadence.measure_own {own : Station} {c : Cadence} (h : OwnFollowed own c) (x : SixBytes) :
    OwnFollowed own (c.measure x) := by
  unfold measure
  split <;> exact h

theorem Cadence.joinReturns_own {own : Station} {c : Cadence} (h : OwnFollowed own c) (f : Frame) :
    OwnFollowed own (c.joinReturns f) := by
  unfold joinReturns
  split
  · rename_i hl
    refine ⟨?_, h.2⟩
    unfold ReturnsSound Config.returnPlaces at *
    simp
    omega
  · exact h

theorem Node.repeatTest_own {n : Node} (h : OwnFollowed n.station n.cadence) (x : SixBytes) :
    OwnFollowed n.station (n.repeatTest x).2.cadence := by
  unfold Node.repeatTest
  dsimp only
  split <;> split <;> first | exact Cadence.passNewer_own h _ _ _ | exact h

theorem Node.proveClaim_own {n : Node} (h : OwnFollowed n.station n.cadence) (hc : n.cadence.node = .claiming)
    (f : Frame) : OwnFollowed n.station (n.proveClaim f).cadence := by
  have hm : (({ n.cadence with node := .origin } : Cadence).measure f.head).followed = some n.station := by
    have := h.2 (.inl hc)
    unfold Cadence.measure
    split <;> exact this
  exact ⟨by simp [ReturnsSound], fun _ => hm⟩

/-- Whatever admission answers, the law of the origin stands (R29 to R32, R35, R36). -/
theorem Node.answerAdmission_own {n : Node} (h : OwnFollowed n.station n.cadence) (f : Frame) :
    OwnFollowed n.station (n.answerAdmission f).2.cadence := by
  unfold Node.answerAdmission
  dsimp only
  split
  · exact h
  · split
    · split
      · split
        · exact Node.repeatTest_own h _
        · exact h
      · split
        · exact Cadence.joinReturns_own (Cadence.measure_own h _) _
        · exact h
      all_goals exact h
    · split
      · split
        · exact h
        · exact Cadence.follow_own h _ _ _
      · split
        · exact h
        · exact Cadence.follow_own h _ _ _
      · split
        · exact h
        · split
          · exact Cadence.follow_own h _ _ _
          · split
            · exact Node.repeatTest_own h _
            · split
              · exact Cadence.follow_own h _ _ _
              · exact h
      · rename_i hc
        split
        · exact Node.proveClaim_own h hc f
        · split
          · exact Cadence.follow_own h _ _ _
          · exact h
      · split
        · exact Cadence.joinReturns_own (Cadence.measure_own h _) _
        · split
          · exact Cadence.follow_own h _ _ _
          · exact h
      · exact h

section

variable {own : Station} {n : Node} (h : OwnFollowed own n.cadence)
include h

theorem Node.enterWaiting_own : OwnFollowed own n.enterWaiting.cadence := .of_other h.1 (by simp) (by simp)

omit h in
theorem Node.enterAlone_own : OwnFollowed own n.enterAlone.cadence := .of_other (Nat.zero_le _) (by simp) (by simp)

theorem Node.linkIsUp_own : OwnFollowed own n.linkIsUp.cadence := by
  unfold Node.linkIsUp
  dsimp only
  split
  · split
    · exact .of_other h.1 (by simp) (by simp)
    · exact Node.enterWaiting_own h
  · exact h

theorem Node.changeFold_own (new : FoldState) (side : Side) (early : Bool) :
    OwnFollowed own (n.changeFold new side early).cadence := by
  unfold Node.changeFold
  dsimp only
  split
  · exact Node.enterAlone_own
  · exact h

theorem Node.foldOnLoss_own (side : Side) : OwnFollowed own (n.foldOnLoss side).cadence := by
  unfold Node.foldOnLoss
  split
  case h_5 | h_6 | h_7 => exact h
  all_goals exact Node.changeFold_own h _ _ _

theorem Node.goDown_own (side : Side) (cause : LinkCause) : OwnFollowed own (n.goDown side cause).cadence := by
  unfold Node.goDown
  split
  · exact h
  · dsimp only
    split
    · exact Node.foldOnLoss_own (by exact h) side
    · exact h

theorem Node.tryUnfold_own (side : Side) : OwnFollowed own (n.tryUnfold side).cadence := by
  unfold Node.tryUnfold
  split
  · split
    · exact Node.changeFold_own h _ _ _
    · exact h
  · split
    · exact Node.changeFold_own h _ _ _
    · exact h
  · exact h

theorem Node.becomeUp_own (side : Side) : OwnFollowed own (n.becomeUp side).cadence := by
  unfold Node.becomeUp Node.foldOnUp
  split
  · exact Node.linkIsUp_own (Node.changeFold_own (by exact h) _ _ _)
  · exact Node.tryUnfold_own (by exact h) side

theorem Node.loseLock_own (side : Side) : OwnFollowed own (n.loseLock side).cadence :=
  Node.goDown_own (by exact h) side _

theorem Node.takeBeacon_own (side : Side) (b : Beacon) : OwnFollowed own (n.takeBeacon side b).cadence := by
  unfold Node.takeBeacon
  dsimp only
  split
  · split
    · simpa using h
    · exact h
  · split
    · exact Node.tryUnfold_own (by exact h) side
    · exact Node.goDown_own (by exact h) side _

end

theorem Node.primaryPass_cadence (n : Node) (f : Frame) :
    (n.primaryPass f).cadence = (n.answerAdmission f).2.cadence := by
  unfold Node.primaryPass
  dsimp only
  split <;> simp

theorem Node.badHeadFrame_cadence (n : Node) : n.badHeadFrame.cadence = n.cadence := by
  unfold Node.badHeadFrame
  dsimp only
  split <;> simp

theorem Node.sortFrame_own {n : Node} (h : OwnFollowed n.station n.cadence) (side : Side) (f : Frame) :
    OwnFollowed n.station (n.sortFrame side f).cadence := by
  have pass : ∀ (m : Node) (g : Frame), m.station = n.station → OwnFollowed n.station m.cadence →
      OwnFollowed n.station (m.primaryPass g).cadence := by
    intro m g hs hm
    rw [Node.primaryPass_cadence]
    rw [← hs] at hm ⊢
    exact Node.answerAdmission_own hm g
  unfold Node.sortFrame
  split
  · split
    · unfold Node.westFrame
      split
      · exact pass n f rfl h
      · exact pass n f rfl h
      · split
        · refine pass n.earlyUnfold f ?_ (Node.changeFold_own (by exact h) _ _ _)
          rw [Node.station, (Node.earlyUnfold_leaves n).1, Node.station]
        · exact h
      · exact h
    · unfold Node.eastFrame
      split
      · simpa using h
      · exact pass n f.turned rfl h
      · exact h
      · exact h
    · exact h
  · split
    · rw [Node.badHeadFrame_cadence]
      exact h
    · exact h

/-- An emission takes at most the oldest returned frame from the queue. -/
theorem Node.emit_cadence (n : Node) : n.emit.cadence = n.cadence
    ∨ n.emit.cadence = { n.cadence with returnQueue := n.cadence.returnQueue.tail } := by
  unfold Node.emit
  split
  · exact .inl rfl
  · split
    · exact .inl (by simp [Node.sendOwn])
    · split
      · exact .inl (by simp [Node.sendOwn])
      · rename_i hq
        exact .inr (by simp [Node.reEmit, hq])
    · exact .inl rfl

theorem Node.emit_own {own : Station} {n : Node} (h : OwnFollowed own n.cadence) :
    OwnFollowed own n.emit.cadence := by
  rcases n.emit_cadence with e | e <;> rw [e]
  · exact h
  · exact ⟨(List.length_tail.trans_le (Nat.sub_le _ _)).trans h.1, h.2⟩

/-! ### Every command -/

/-- The law of the origin, and STARTING until the loader has finished (R178). -/
def OriginSound (l : Loader) (c : Cadence) : Prop :=
  OwnFollowed l.values.station c ∧ (l.state ≠ .finished → c.node = .starting)

/-- Once the loader has finished the law of the origin is all. -/
theorem OriginSound.of_running {n : Node} {c : Cadence} (r : n.running = true) (h : OwnFollowed n.station c) :
    OriginSound n.loader c := ⟨h, fun hl => absurd (LawfulBEq.eq_of_beq r) hl⟩

/-- Before the loader has finished the node state is STARTING, so the station number may change. -/
theorem OriginSound.of_starting {l m : Loader} {c : Cadence} (h : OriginSound l c) (hl : l.state ≠ .finished) :
    OriginSound m c := by
  have hs := h.2 hl
  refine ⟨.of_other h.1.1 ?_ ?_, fun _ => hs⟩ <;> rw [hs] <;> decide

theorem Node.doTask_origin (n : Node) (t : Task) (due : n.due t = true) (h : OriginSound n.loader n.cadence) :
    OriginSound (n.doTask t).loader (n.doTask t).cadence := by
  have r : n.running = true := (Bool.and_eq_true_iff.mp due).1
  have own : OwnFollowed n.station n.cadence := h.1
  have hl : (n.doTask t).loader = n.loader := by cases t <;> simp [Node.doTask]
  rw [hl]
  cases t with
  | silence side => exact .of_running r (Node.goDown_own own _ _)
  | badRun side => exact .of_running r (Node.goDown_own own _ _)
  | linkProven side => exact .of_running r (Node.becomeUp_own own _)
  | starvation => exact .of_running r (Node.enterWaiting_own own)
  | emit => exact .of_running r (Node.emit_own own)
  | claim => exact .of_running r (Node.emit_own ⟨own.1, fun _ => rfl⟩)
  | mark => exact .of_running r (own.congr (by simp [Node.doTask, Node.countMark]) (by simp [Node.doTask, Node.countMark])
      (by simp [Node.doTask, Node.countMark]))
  | takeFrame side head body => exact .of_running r (Node.sortFrame_own own _ _)
  | _ => simpa [Node.doTask] using h

theorem originSound_keeps : Keeps fun n => OriginSound n.loader n.cadence where
  powerOn _ _ _ := ⟨.of_other (Nat.zero_le _) NodeState.noConfusion NodeState.noConfusion, fun _ => rfl⟩
  finishLoad n f x hl h := by
    rw [(Node.finishLoad_leaves n f x).1]
    exact h.of_starting (by rw [hl]; decide)
  openBoundary n l p r h := by
    rw [(Node.openBoundary_leaves n l p).1]
    refine .of_running r (h.1.congr ?_ ?_ ?_) <;> simp [Node.openBoundary, Cadence.atBoundary]
  task := Node.doTask_origin
  restartRing n r h := by
    simpa [Node.restartRing] using
      OriginSound.of_running r (.of_other (Nat.zero_le _) NodeState.noConfusion NodeState.noConfusion)
  lockLost n x h := by
    unfold Node.lockLost
    split
    · split
      · rw [(Node.loseLock_leaves n x).1]
        exact .of_running ‹_› (Node.loseLock_own h.1 x)
      · exact h
    · exact h
  takeBeacon n x b r h := by
    rw [(Node.takeBeacon_leaves n x b).1]
    exact .of_running r (Node.takeBeacon_own h.1 x b)

/-- Settles O56: the node states that ask for it set the followed origin, and a return joins the queue only below 4. -/
theorem originFollowsItself : Obligations.OriginFollowsItself := by
  intro s t e returns follows
  have running : ∀ n : Node, n.running = false ↔ n.loader.state ≠ .finished := fun n => by simp [Node.running]
  obtain ⟨⟨hr, hf⟩, hs⟩ := step_keeps originSound_keeps e
    ⟨⟨returns, follows.1⟩, fun hl => follows.2 ((running _).mpr hl)⟩
  exact ⟨hr, hf, fun hl => hs ((running _).mp hl)⟩

end Sys2Proof.Machine
end
section
/-! PROOF. Every operation only posts to the Report Queue (R174), and keeps the bounds of the receive queue and the notice
list with HOLD as the free places judge it (R75, R78, R82). -/

namespace Sys2Proof.Machine

open Sys2Proof Sys2Proof.Safety

/-! ### The bounds of the Message Controller -/

/-- The queue, the notices and HOLD stand as they were. -/
theorem messagesSound_congr {m k : Messages} (h : MessagesSound m) (hq : k.queue = m.queue) (hn : k.notices = m.notices)
    (hh : k.hold = m.hold) : MessagesSound k := by
  unfold MessagesSound
  rw [hq, hn, hh]
  exact h

theorem withQueue_sound {m : Messages} (h : MessagesSound m) {q : List QueueEntry} (hq : q.length ≤ 16) :
    MessagesSound (withQueue m q) := by
  refine ⟨hq, h.2.1, fun few => ?_, fun many => ?_⟩
  · exact if_pos few
  · have : ¬(16 - q.length ≤ 3) := fun few => by have : 8 ≤ 16 - q.length := many; omega
    exact (if_neg this).trans (if_pos many)

theorem dequeue_sound {m : Messages} (h : MessagesSound m) : MessagesSound m.dequeue :=
  withQueue_sound h (by rw [List.length_tail]; exact (Nat.sub_le _ _).trans h.1)

theorem enqueue_sound {m k : Messages} (h : MessagesSound m) {e : QueueEntry} (he : m.enqueue e = some k) :
    MessagesSound k := by
  rw [Messages.enqueue_eq] at he
  split at he
  · injection he with he
    subst he
    exact withQueue_sound h (by simp; omega)
  · cases he

theorem addNotice_sound {m : Messages} (h : MessagesSound m) (x : Notice) : MessagesSound (m.addNotice x) := by
  obtain ⟨hq, hn, hh⟩ := h
  unfold Messages.addNotice Config.noticePlaces
  dsimp only
  split
  · exact ⟨hq, by simpa using hn, hh⟩
  · split
    · exact ⟨hq, by simp; omega, hh⟩
    · exact ⟨hq, hn, hh⟩

theorem freeUp_sound {m : Messages} (h : MessagesSound m) (i : Fin 8) : MessagesSound (m.freeUp i) :=
  messagesSound_congr h rfl rfl rfl

theorem releaseGrant_sound {m : Messages} (h : MessagesSound m) : MessagesSound m.releaseGrant := by
  unfold Messages.releaseGrant
  split <;> exact h

theorem launch_sound {m : Messages} (h : MessagesSound m) (l : Byte) (i : Fin 8) : MessagesSound (m.launch l i) := by
  unfold Messages.launch
  split <;> exact h

theorem length_restart_queue (m : Messages) : m.restart.queue.length ≤ 1 := by
  unfold Messages.restart
  dsimp only
  split <;> simp

theorem restart_sound (m : Messages) : MessagesSound m.restart := by
  have := length_restart_queue m
  exact ⟨by omega, Nat.zero_le _, fun few => by omega, fun _ => rfl⟩

/-! ### Posting -/

/-- What has happened to the queues of `a` on the way to `n`: reports were posted, and the bounds of the Message Controller
were kept. -/
def QueuesFollow (a n : Node) : Prop :=
  (∃ bs, Posted a.reports n.reports bs) ∧ (MessagesSound a.messages → MessagesSound n.messages)

theorem QueuesFollow.refl (n : Node) : QueuesFollow n n := ⟨⟨[], rfl⟩, id⟩

theorem reportsSound_post {q : ReportQueue} (h : ReportsSound q) (b : ReportBody) : ReportsSound (q.post b) := by
  rcases q.post_cases b with ⟨hl, e⟩ | ⟨hl, e⟩ <;> rw [e]
  · exact ⟨by simp; omega, by simp⟩
  · exact h

theorem reportsSound_posted {q r : ReportQueue} {bs : List ReportBody} (h : ReportsSound q) (p : Posted q r bs) :
    ReportsSound r := by
  unfold Posted at p
  subst p
  induction bs generalizing q with
  | nil => exact h
  | cons b bs ih => exact ih (reportsSound_post h b)

section

variable {a n : Node} (h : QueuesFollow a n)
include h

theorem QueuesFollow.congr {m : Node} (hr : m.reports = n.reports) (hm : m.messages = n.messages) :
    QueuesFollow a m := by
  unfold QueuesFollow
  rw [hr, hm]
  exact h

theorem QueuesFollow.messages {m : Node} (hr : m.reports = n.reports)
    (hm : MessagesSound n.messages → MessagesSound m.messages) : QueuesFollow a m :=
  ⟨by rw [hr]; exact h.1, fun ha => hm (h.2 ha)⟩

theorem post_follow (b : ReportBody) : QueuesFollow a (n.post b) := by
  obtain ⟨⟨bs, hb⟩, hm⟩ := h
  refine ⟨⟨bs ++ [b], ?_⟩, hm⟩
  unfold Posted at hb ⊢
  rw [Node.post_reports, hb, List.foldl_append]
  rfl

theorem updateMessages_follow (f : Messages → Messages) (hf : ∀ m, MessagesSound m → MessagesSound (f m)) :
    QueuesFollow a (n.updateMessages f) := h.messages rfl (hf _)

theorem updateCadence_follow (f : Cadence → Cadence) : QueuesFollow a (n.updateCadence f) := h.congr rfl rfl
theorem updateEngine_follow (f : FrameEngine → FrameEngine) : QueuesFollow a (n.updateEngine f) := h.congr rfl rfl
theorem updateTaps_follow (f : Taps → Taps) : QueuesFollow a (n.updateTaps f) := h.congr rfl rfl
theorem updateSide_follow (s : Side) (f : SideState → SideState) : QueuesFollow a (n.updateSide s f) := h.congr rfl rfl
theorem updateKey_follow (k : Fin 4) (f : KeyState → KeyState) : QueuesFollow a (n.updateKey k f) := h.congr rfl rfl
theorem updatePort_follow (f : Port → Port) : QueuesFollow a (n.updatePort f) := h.congr rfl rfl

/-! ### The cadence -/

theorem startFollowing_follow (o : Station) (x : SixBytes) : QueuesFollow a (n.startFollowing o x) :=
  post_follow (h.congr rfl rfl) _

theorem proveClaim_follow (f : Frame) : QueuesFollow a (n.proveClaim f) := post_follow (h.congr rfl rfl) _

theorem repeatTest_follow (x : SixBytes) : QueuesFollow a (n.repeatTest x).2 := h.congr (by simp) (by simp)

theorem answerAdmission_follow (f : Frame) : QueuesFollow a (n.answerAdmission f).2 := by
  have start := startFollowing_follow h
  have again := repeatTest_follow h
  have claim := proveClaim_follow h f
  unfold Node.answerAdmission Node.countStale Node.countHigher
  dsimp only
  repeat' split
  all_goals first | exact h | exact updateCadence_follow h _ | exact start _ _ | exact again _ | exact claim

theorem enterWaiting_follow : QueuesFollow a n.enterWaiting := post_follow (h.congr rfl rfl) _

theorem enterAlone_follow : QueuesFollow a n.enterAlone := post_follow (h.congr rfl rfl) _

theorem enterClaiming_follow : QueuesFollow a n.enterClaiming := post_follow (h.congr rfl rfl) _

theorem restartCadence_follow : QueuesFollow a n.restartCadence := post_follow (h.congr rfl rfl) _

theorem linkIsUp_follow : QueuesFollow a n.linkIsUp := by
  unfold Node.linkIsUp
  dsimp only
  split
  · split
    · exact enterWaiting_follow (h.congr rfl rfl)
    · exact enterWaiting_follow h
  · exact h

/-! ### The links and the fold state -/

theorem changeFold_follow (new : FoldState) (side : Side) (early : Bool) :
    QueuesFollow a (n.changeFold new side early) := by
  have hp (n1 : Node) (e : n1.reports = n.reports) (e' : n1.messages = n.messages) (b : ReportBody) :
      QueuesFollow a (n1.post b) := post_follow (h.congr e e') b
  unfold Node.changeFold
  dsimp only
  split
  · exact enterAlone_follow (hp _ rfl rfl _)
  · exact hp _ rfl rfl _

theorem foldOnLoss_follow (side : Side) : QueuesFollow a (n.foldOnLoss side) := by
  unfold Node.foldOnLoss
  split
  case h_5 | h_6 | h_7 => exact h
  all_goals exact changeFold_follow h _ _ _

theorem tryUnfold_follow (side : Side) : QueuesFollow a (n.tryUnfold side) := by
  unfold Node.tryUnfold
  split
  · split
    · exact changeFold_follow h _ _ _
    · exact h
  · split
    · exact changeFold_follow h _ _ _
    · exact h
  · exact h

theorem postLink_follow (side : Side) (cause : LinkCause) : QueuesFollow a (n.postLink side cause) := post_follow h _

theorem startProving_follow (side : Side) (cause : LinkCause) : QueuesFollow a (n.startProving side cause) :=
  postLink_follow (updateSide_follow h _ _) _ _

theorem goDown_follow (side : Side) (cause : LinkCause) : QueuesFollow a (n.goDown side cause) := by
  have down := postLink_follow (updateSide_follow h side fun x =>
    { x with link := .down, holdOff := none, linkDown := x.linkDown.inc }) side cause
  unfold Node.goDown
  split
  · exact h
  · dsimp only
    split
    · exact foldOnLoss_follow down side
    · exact down

theorem becomeUp_follow (side : Side) : QueuesFollow a (n.becomeUp side) := by
  have up := postLink_follow (updateSide_follow h side fun x => { x with link := .up, holdOff := none }) side .proven
  unfold Node.becomeUp Node.foldOnUp
  split
  · exact linkIsUp_follow (changeFold_follow up _ _ _)
  · exact tryUnfold_follow up side

theorem gainLock_follow (side : Side) : QueuesFollow a (n.gainLock side) := by
  unfold Node.gainLock
  dsimp only
  split
  · exact startProving_follow (updateSide_follow h _ _) _ _
  · exact updateSide_follow h _ _

theorem loseLock_follow (side : Side) : QueuesFollow a (n.loseLock side) :=
  goDown_follow (updateSide_follow h side _) _ _

theorem reArm_follow (side : Side) : QueuesFollow a (n.reArm side) := by
  unfold Node.reArm
  split
  · exact startProving_follow h _ _
  · exact h

theorem reArmIfHeard_follow (side : Side) : QueuesFollow a (n.reArmIfHeard side) := by
  unfold Node.reArmIfHeard
  split
  · split
    · exact reArm_follow h side
    · exact h
  · exact h

theorem endQuiet_follow : QueuesFollow a n.endQuiet := by
  have quiet : QueuesFollow a { n with link := { n.link with quiet := none } } := h.congr rfl rfl
  exact reArmIfHeard_follow (reArmIfHeard_follow quiet _) _

theorem takeBeacon_follow (side : Side) (b : Beacon) : QueuesFollow a (n.takeBeacon side b) := by
  have seen := updateSide_follow h side fun x => { x.goodItem with latest := some b }
  unfold Node.takeBeacon
  dsimp only
  split
  · split
    · exact reArm_follow seen side
    · exact seen
  · split
    · exact tryUnfold_follow seen side
    · exact goDown_follow seen side _

theorem restartSide_follow (side : Side) : QueuesFollow a (n.restartSide side) := by
  unfold Node.restartSide
  dsimp only
  refine updateSide_follow ?_ _ _
  split
  · exact updateSide_follow h _ _
  · exact postLink_follow (updateSide_follow h _ _) _ _

theorem restartLinks_follow : QueuesFollow a n.restartLinks := by
  have sides := restartSide_follow (restartSide_follow h .east) .west
  have hp (n1 : Node) (e : n1.reports = ((n.restartSide .east).restartSide .west).reports)
      (e' : n1.messages = ((n.restartSide .east).restartSide .west).messages) (b : ReportBody) :
      QueuesFollow a (n1.post b) := post_follow (sides.congr e e') b
  unfold Node.restartLinks
  dsimp only
  split
  · exact sides.congr rfl rfl
  · refine (hp _ rfl rfl _).congr rfl rfl

/-! ### The tap table and the delay -/

theorem judgeTableLow_follow (before : Nat) : QueuesFollow a (n.judgeTableLow before) := by
  unfold Node.judgeTableLow
  split
  · exact post_follow h _
  · exact h

theorem commitTapSet_follow (r : TapSetRequest) (s : Fin 128) : QueuesFollow a (n.commitTapSet r s).2 := by
  unfold Node.commitTapSet
  exact judgeTableLow_follow (h.congr (by simp) (by simp)) _

theorem roomCheck_follow (r : TapSetRequest) (s : Fin 128) : QueuesFollow a (n.roomCheck r s).2 := by
  have commit := commitTapSet_follow h r s
  unfold Node.roomCheck Node.slotCheck
  dsimp only
  repeat' split
  all_goals first | exact h | exact commit

theorem tapSet_follow (r : TapSetRequest) : QueuesFollow a (n.tapSet r).2 := by
  have room := roomCheck_follow h r
  unfold Node.tapSet
  dsimp only
  repeat' split
  all_goals first | exact h | exact updateTaps_follow h _ | exact room _

theorem tapDrop_follow (k : Key) : QueuesFollow a (n.tapDrop k).2 := by
  unfold Node.tapDrop
  split
  · exact h
  · exact judgeTableLow_follow (h.congr (by simp) (by simp)) _

theorem talkUserChange_follow (changes : List (Key × Int)) : QueuesFollow a (n.talkUserChange changes).2 := by
  unfold Node.talkUserChange
  dsimp only
  repeat' split
  · exact h
  · exact h
  · exact judgeTableLow_follow (n := n.updateTaps _) (h.congr rfl rfl) _

theorem handTalkUsers_follow (moves : List (Key × Int)) : QueuesFollow a (n.handTalkUsers moves) := by
  unfold Node.handTalkUsers
  dsimp only
  split
  · exact h
  · exact talkUserChange_follow h _

theorem changeDelay_follow (new : Nat) (cause : DelayCause) : QueuesFollow a (n.changeDelay new cause) :=
  post_follow (h.congr rfl rfl) _

theorem settleRaise_follow : QueuesFollow a n.settleRaise := by
  unfold Node.settleRaise
  split
  · exact h
  · dsimp only
    split
    · exact (changeDelay_follow h _ _).congr rfl rfl
    · exact h.congr rfl rfl

theorem endWindow_follow : QueuesFollow a n.endWindow := by
  unfold Node.endWindow
  dsimp only
  split
  · split
    · exact (changeDelay_follow h _ _).congr rfl rfl
    · exact h.congr rfl rfl
  · exact h.congr rfl rfl

theorem returnPrimary_follow (e : EntryNo) (cause : ReturnCause) : QueuesFollow a (n.returnPrimary e cause) := by
  unfold Node.returnPrimary
  split
  · exact h
  · split
    · exact h
    · exact post_follow (h.congr rfl rfl) _

theorem fallBack_follow (e : EntryNo) : QueuesFollow a (n.fallBack e) := by
  unfold Node.fallBack
  split
  · exact h
  · split
    · exact h
    · exact post_follow (h.congr rfl rfl) _

theorem decideFallback_follow (e : EntryNo) : QueuesFollow a (n.decideFallback e) := by
  have back := returnPrimary_follow h e
  have fall := fallBack_follow h e
  unfold Node.decideFallback
  dsimp only
  repeat' split
  all_goals first | exact h | exact back _ | exact fall

theorem restartTaps_follow : QueuesFollow a n.restartTaps := by
  unfold Node.restartTaps
  dsimp only
  split
  · exact h.congr rfl rfl
  · exact changeDelay_follow (h.congr rfl rfl) _ _

/-! ### The desk side of talkback -/

theorem selfAddress_follow {m : Node} {u : FrameUnit} {s : Source} (hs : n.selfAddress u s = some m) :
    QueuesFollow a m := by
  unfold Node.selfAddress at hs
  obtain ⟨q, hq, rfl⟩ := Option.map_eq_some_iff.mp hs
  exact h.messages rfl fun hm => enqueue_sound hm hq

theorem eventLeaves_follow (k : Fin 4) : QueuesFollow a (n.eventLeaves k) := h.congr rfl rfl

theorem placeMessage_follow (i : Fin 8) (u : FrameUnit) : QueuesFollow a (n.placeMessage i u) :=
  updateMessages_follow h _ fun _ hm => hm

theorem handOwnEvent_follow (k : Fin 4) : QueuesFollow a (n.handOwnEvent k) := by
  unfold Node.handOwnEvent
  split
  · split
    · split
      · exact eventLeaves_follow (selfAddress_follow h ‹_›) k
      · exact h
    · exact h
  · exact h

theorem placeOneTalk_follow : QueuesFollow a n.placeOneTalk := by
  unfold Node.placeOneTalk
  split
  · split
    · exact eventLeaves_follow (placeMessage_follow h _ _) _
    · exact h
  · exact h

theorem placeTalk_follow : QueuesFollow a n.placeTalk := placeOneTalk_follow (placeOneTalk_follow h)

theorem setEvent_follow (k : Fin 4) (ev : TalkEvent) : QueuesFollow a (n.setEvent k ev) :=
  h.congr (by simp) (by simp)

theorem makeEvent_follow (k : Fin 4) (ev : TalkEvent) : QueuesFollow a (n.makeEvent k ev) := by
  unfold Node.makeEvent
  dsimp only
  split
  · exact h
  · split
    · exact handOwnEvent_follow (setEvent_follow h k ev) k
    · exact placeTalk_follow (setEvent_follow h k ev)

omit h in
/-- A fold of operations that each follow follows. -/
theorem foldl_follow {α : Type} {f : Node → α → Node} (hf : ∀ {a n} x, QueuesFollow a n → QueuesFollow a (f n x))
    {a n : Node} (l : List α) (h : QueuesFollow a n) : QueuesFollow a (l.foldl f n) := by
  induction l generalizing n with
  | nil => exact h
  | cons x l ih => exact ih (hf x h)

theorem retryOwnEvents_follow : QueuesFollow a n.retryOwnEvents :=
  foldl_follow (fun k hk => handOwnEvent_follow hk k) _ h

theorem reopen_follow (k : Fin 4) : QueuesFollow a (n.reopen k) := by
  unfold Node.reopen
  split
  · exact makeEvent_follow h _ _
  · exact h

theorem talkSettled_follow (kind tag : Byte) (d : Delivery) : QueuesFollow a (n.talkSettled kind tag d) := by
  unfold Node.talkSettled
  dsimp only
  split
  · exact reopen_follow (post_follow h _) _
  · exact h

theorem talkResult_follow (u : FrameUnit) : QueuesFollow a (n.talkResult u) := by
  unfold Node.talkResult
  dsimp only
  split
  · exact reopen_follow (post_follow h _) _
  · exact post_follow h _

/-! ### Talk lists -/

theorem giveNotice_follow (x : Notice) : QueuesFollow a (n.giveNotice x) := by
  unfold Node.giveNotice
  split
  · exact talkResult_follow h _
  · exact updateMessages_follow h _ fun _ hm => addNotice_sound hm x

theorem giveNotices_follow (evicted : Bool) (losses : List (Station × Fin 24)) :
    QueuesFollow a (n.giveNotices evicted losses) := by
  refine foldl_follow (fun d hd => ?_) _ h
  dsimp only
  split
  · exact hd
  · exact giveNotice_follow hd _

theorem handSettings_follow (ms : List (Fin 24)) : QueuesFollow a (n.handSettings ms) :=
  h.congr (by simp) (by simp)

theorem commitTalkOpen_follow (r : TalkOpenRequest) (desk : Station) : QueuesFollow a (n.commitTalkOpen r desk).2 := by
  have users (moves : List (Key × Int)) (fates : List (Fin 24 × Fate)) : QueuesFollow a (fates.foldl
      (fun s f => match f.2.list with | some l => s.setTalks f.1 l | none => s) (n.handTalkUsers moves)) := by
    refine foldl_follow (fun f hf => ?_) _ (handTalkUsers_follow h moves)
    split
    · exact hf.congr (by simp) (by simp)
    · exact hf
  exact handSettings_follow (giveNotices_follow (users _ _) _ _) _

theorem talkOpen_follow (r : TalkOpenRequest) (desk : Station) : QueuesFollow a (n.talkOpen r desk).2 := by
  have commit := commitTalkOpen_follow h r desk
  unfold Node.talkOpen
  repeat' split
  all_goals first | exact h | exact commit

theorem removeTalks_follow (ms : List (Fin 24)) (gone : Talk → Bool) : QueuesFollow a (n.removeTalks ms gone) := by
  unfold Node.removeTalks
  dsimp only
  refine handSettings_follow (handTalkUsers_follow (h.congr ?_ ?_) _) _
  · exact foldl_leaves (·.reports) (fun s x => by simp) _ _
  · exact foldl_leaves (·.messages) (fun s x => by simp) _ _

theorem expireTalks_follow : QueuesFollow a n.expireTalks := giveNotices_follow (removeTalks_follow h _ _) _ _

/-! ### The Message Controller -/

theorem settleSlot_follow (i : Fin 8) (d : Delivery) : QueuesFollow a (n.settleSlot i d) := by
  have freed {m : Node} (hm : QueuesFollow a m) : QueuesFollow a (m.updateMessages (·.freeUp i)) :=
    updateMessages_follow hm _ fun _ hs => freeUp_sound hs i
  unfold Node.settleSlot
  split
  · exact h
  · dsimp only
    split
    · exact post_follow (freed h) _
    · split
      · exact placeTalk_follow (freed (talkSettled_follow h _ _ _))
      · split
        · exact updateMessages_follow (freed h) _ (by exact fun _ hs => hs)
        · exact freed h

theorem unitReturns_follow (u : FrameUnit) : QueuesFollow a (n.unitReturns u) := by
  unfold Node.unitReturns
  split
  · exact settleSlot_follow h _ _
  · exact updateMessages_follow h _ (by exact fun _ hs => hs)

theorem loseSlot_follow (i : Fin 8) : QueuesFollow a (n.loseSlot i) :=
  settleSlot_follow (updateMessages_follow h _ (by exact fun _ hs => hs)) _ _

theorem recordHold_follow (peer : Station) (flag : Bool) : QueuesFollow a (n.recordHold peer flag) := by
  unfold Node.recordHold
  split
  · exact h
  · exact updateMessages_follow h _ (by exact fun _ hs => hs)

theorem giveReady_follow (most : Nat) : QueuesFollow a (n.giveReady most).2 := by
  refine updateMessages_follow h _ fun m hs => ?_
  generalize n.messages.givingOrder.take most = l
  induction l generalizing m with
  | nil => exact hs
  | cons i l ih => exact ih _ (launch_sound hs _ i)

theorem routeAnswer_follow (u : FrameUnit) : QueuesFollow a (n.routeAnswer u) := by
  unfold Node.routeAnswer
  split
  · exact post_follow h _
  · split
    · exact talkResult_follow h u
    · exact post_follow h _

theorem offer_follow (u : FrameUnit) : QueuesFollow a (n.offer u).2 := by
  unfold Node.offer
  split
  · split
    · exact routeAnswer_follow h u
    · exact updateMessages_follow h _ (by exact fun _ hs => hs)
  · split
    · exact h
    · split
      · exact h.messages rfl fun hm => enqueue_sound hm ‹_›
      · exact updateMessages_follow h _ (by exact fun _ hs => hs)

theorem offerUnit_follow (u : FrameUnit) : QueuesFollow a (n.offerUnit u).2 := by
  unfold Node.offerUnit
  split
  · exact offer_follow h u
  · exact h

omit h in
theorem offerAll_follow {a n : Node} (us : List FrameUnit) (h : QueuesFollow a n) :
    QueuesFollow a (offerAll us n).2 := by
  induction us generalizing n with
  | nil => exact h
  | cons u us ih => exact ih (offerUnit_follow h u)

theorem answer_follow (e : QueueEntry) (r : Reply) : QueuesFollow a (n.answer e r) := by
  unfold Node.answer
  dsimp only
  split
  · split
    · exact updateMessages_follow (placeMessage_follow h _ _) _ (by exact fun _ hs => hs)
    · exact h
  · exact post_follow h _
  · exact post_follow h _
  · exact talkResult_follow h _

theorem complete_follow (e : QueueEntry) (r : Option Reply) : QueuesFollow a (n.complete e r) := by
  unfold Node.complete
  dsimp only
  refine updateMessages_follow ?_ _ fun _ hs => dequeue_sound (releaseGrant_sound hs)
  split
  · exact answer_follow h _ _
  · exact h

theorem postParts_follow (subject : Subject) (parts : List Nat) (destination tag : Byte) :
    QueuesFollow a (n.postParts subject parts destination tag) :=
  foldl_follow (fun _ hp => post_follow hp _) _ h

theorem placePart_follow (i : Fin 8) (e : QueueEntry) (subject : Subject) (part : Nat) :
    QueuesFollow a (n.placePart i e subject part) := placeMessage_follow h _ _

theorem statusQuery_follow : QueuesFollow a n.statusQuery := by
  refine n.carryOut_keeps _ _ h fun e _ => ?_
  dsimp only
  split
  · exact complete_follow h _ _
  · split
    · have placed (g : Fin 8) (s : Subject) :=
        updateMessages_follow (placePart_follow h g e s 1) (fun m => { m with granted := none }) fun _ hs => hs
      split
      · exact updateMessages_follow (placed _ _) _ (by exact fun _ hs => hs)
      · exact complete_follow (placed _ _) _ _
    · exact h
    · exact complete_follow (postParts_follow h _ _ _ _) _ _

theorem grantReceive_follow (i : Fin 8) : QueuesFollow a (n.grantReceive i) := by
  unfold Node.grantReceive
  split
  · dsimp only
    split
    · exact updateMessages_follow (placePart_follow h _ _ _ _) _ (by exact fun _ hs => hs)
    · exact complete_follow (updateMessages_follow (placePart_follow h _ _ _ _) _ (by exact fun _ hs => hs)) _ _
  · exact updateMessages_follow h _ (by exact fun _ hs => hs)

theorem grantNotice_follow (i : Fin 8) : QueuesFollow a (n.grantNotice i) := by
  unfold Node.grantNotice
  split
  · exact h
  · rename_i x rest hn
    refine (placeMessage_follow h i (x.result n.station (byteOf i.val))).messages rfl fun hm => ⟨hm.1, ?_, hm.2.2⟩
    have : n.messages.notices.length ≤ 16 := hm.2.1
    rw [hn] at this
    exact (Nat.le_succ _).trans this

theorem grantReply_follow : QueuesFollow a n.grantReply := by
  have turn {m : Node} (hm : QueuesFollow a m) (t : GrantTurn) : QueuesFollow a (m.setTurn t) :=
    updateMessages_follow hm _ (by exact fun _ hs => hs)
  unfold Node.grantReply
  repeat' split
  all_goals first
    | exact h
    | exact turn (grantReceive_follow h _) _
    | exact turn (grantNotice_follow h _) _

theorem restartMessages_follow : QueuesFollow a n.restartMessages := by
  have slots : QueuesFollow a n.restartSlots := foldl_follow (fun i hi => settleSlot_follow hi i .lost) _ h
  have restarted := updateMessages_follow slots Messages.restart fun m _ => restart_sound m
  unfold Node.restartMessages Node.finishParts
  split
  · exact complete_follow (updateMessages_follow (postParts_follow restarted _ _ _ _) _ (by exact fun _ hs => hs)) _ _
  · exact restarted

theorem completeWalk_follow : QueuesFollow a n.completeWalk := by
  unfold Node.completeWalk
  split
  · exact complete_follow (updateMessages_follow (updateTaps_follow h _) _ (by exact fun _ hs => hs)) _ _
  · exact h

/-! ### Frames -/

theorem extractGood_follow (source : Station) (s : Segment) : QueuesFollow a (n.extractGood source s).2 := by
  unfold Node.extractGood
  exact offerAll_follow _ ((recordHold_follow h source s.hold).congr (by simp) (by simp))

theorem extract_follow (s : Segment) : QueuesFollow a (n.extract s).2 := by
  unfold Node.extract
  split
  · exact h
  · split
    · exact extractGood_follow h _ _
    · exact h.congr rfl rfl

omit h in
theorem extractAll_follow {a n : Node} (ss : List Segment) (h : QueuesFollow a n) :
    QueuesFollow a (extractAll ss n).2 := by
  induction ss generalizing n with
  | nil => exact h
  | cons s ss ih => exact ih (extract_follow h s)

theorem strip_follow (ss : List Segment) : QueuesFollow a (n.strip ss).2 :=
  foldl_follow (fun u hu => unitReturns_follow hu u) _ h

theorem append_follow (units : Nat) : QueuesFollow a (n.append units).2 := by
  unfold Node.append Node.appendSegment
  dsimp only
  split
  · exact h.congr rfl rfl
  · split
    · exact (giveReady_follow h _).congr rfl rfl
    · exact h.congr rfl rfl

theorem forward_follow (x : SixBytes) (body : List FrameUnit) : QueuesFollow a (n.forward x body) :=
  h.congr (by simp) (by simp)

theorem passSegments_follow (x : SixBytes) (ss : List Segment) : QueuesFollow a (n.passSegments x ss) := by
  unfold Node.passSegments
  exact forward_follow (append_follow (strip_follow (extractAll_follow ss h) _) _) _ _

theorem passFrame_follow (f : Frame) : QueuesFollow a (n.passFrame f) :=
  passSegments_follow (h.congr (by simp) (by simp)) _ _

theorem primaryPass_follow (f : Frame) : QueuesFollow a (n.primaryPass f) := by
  have answered := answerAdmission_follow h f
  unfold Node.primaryPass
  dsimp only
  split
  · exact passFrame_follow answered f
  · exact answered
  · exact answered

theorem sendOwn_follow (origin : Station) (rebuilt : Bool) : QueuesFollow a (n.sendOwn origin rebuilt) :=
  passSegments_follow h _ _

theorem emit_follow : QueuesFollow a n.emit := by
  unfold Node.emit Node.reEmit
  dsimp only
  split
  · exact h
  · split
    · exact sendOwn_follow h _ _
    · split
      · exact sendOwn_follow h _ _
      · exact passSegments_follow (h.congr (by simp) (by simp)) _ _
    · exact h

theorem badHeadFrame_follow : QueuesFollow a n.badHeadFrame := by
  unfold Node.badHeadFrame
  dsimp only
  split
  · exact sendOwn_follow (updateEngine_follow (updateEngine_follow h _) _) _ _
  · exact sendOwn_follow (updateEngine_follow (updateEngine_follow h _) _) _ _
  · exact updateEngine_follow h _

theorem sortFrame_follow (side : Side) (f : Frame) : QueuesFollow a (n.sortFrame side f) := by
  have early : QueuesFollow a n.earlyUnfold :=
    changeFold_follow (by exact h.congr rfl rfl) _ _ _
  unfold Node.sortFrame Node.westFrame Node.eastFrame
  split
  · split
    · split
      · exact primaryPass_follow h f
      · exact primaryPass_follow h f
      · split
        · exact primaryPass_follow early f
        · exact h
      · exact h
    · split
      · exact h.congr (by simp) (by simp)
      · exact primaryPass_follow h f.turned
      · exact h
      · exact h
    · exact updateEngine_follow h _
  · split
    · exact badHeadFrame_follow h
    · exact h

/-! ### Boundaries, start-up and the port -/

theorem pressKey_follow (k : Fin 4) : QueuesFollow a (n.pressKey k) := by
  unfold Node.pressKey
  split
  · exact makeEvent_follow (updateKey_follow h _ _) _ _
  · exact h.congr rfl rfl

theorem releaseKey_follow (k : Fin 4) : QueuesFollow a (n.releaseKey k) := by
  unfold Node.releaseKey
  dsimp only
  split
  · exact makeEvent_follow (updateKey_follow h _ _) _ _
  · exact h.congr rfl rfl

theorem keepKey_follow (k : Fin 4) : QueuesFollow a (n.keepKey k) :=
  makeEvent_follow (updateKey_follow h _ _) _ _

theorem countMark_follow : QueuesFollow a n.countMark := retryOwnEvents_follow (h.congr rfl rfl)

theorem openBoundary_follow (lanes : LaneBlock) (pins : Table 4 Bool) : QueuesFollow a (n.openBoundary lanes pins) :=
  h.messages (by simp) fun hm => messagesSound_congr hm (by simp [Node.openBoundary]) (by simp [Node.openBoundary])
    (by simp [Node.openBoundary])

theorem startSide_follow (side : Side) : QueuesFollow a (n.startSide side) := by
  unfold Node.startSide
  dsimp only
  split
  · exact gainLock_follow (updateSide_follow h _ _) _
  · exact updateSide_follow h _ _

theorem finishLoad_follow (flash : List Byte) (straps : BitVec 4) : QueuesFollow a (n.finishLoad flash straps) := by
  unfold Node.finishLoad
  exact startSide_follow (startSide_follow (post_follow (by exact h.congr rfl rfl) _) _) _

theorem lockGained_follow (side : Side) : QueuesFollow a (n.lockGained side) := by
  unfold Node.lockGained
  split
  · exact h
  · split
    · exact gainLock_follow h side
    · exact updateSide_follow h _ _

theorem lockLost_follow (side : Side) : QueuesFollow a (n.lockLost side) := by
  unfold Node.lockLost
  split
  · split
    · exact loseLock_follow h side
    · exact updateSide_follow h _ _
  · exact h

theorem judgeSend_follow (u : FrameUnit) : QueuesFollow a (n.judgeSend u) := by
  unfold Node.judgeSend Node.hold
  split
  · exact h.congr rfl rfl
  · split
    · split
      · exact updatePort_follow (selfAddress_follow h ‹_›) _
      · exact updatePort_follow h _
    · split
      · exact updatePort_follow (placeMessage_follow h _ _) _
      · exact updatePort_follow h _

theorem restartRing_follow : QueuesFollow a n.restartRing :=
  restartTaps_follow (restartMessages_follow ((restartCadence_follow (restartLinks_follow h)).congr rfl rfl))

theorem doTask_follow (t : Task) : QueuesFollow a (n.doTask t) := by
  cases t with
  | quietEnd => exact endQuiet_follow h
  | silence side => exact goDown_follow h _ _
  | holdExpiry p => exact updateMessages_follow h _ (by exact fun _ hs => hs)
  | slotLost i => exact loseSlot_follow h i
  | starvation => exact enterWaiting_follow h
  | emit => exact emit_follow h
  | claim => exact emit_follow (enterClaiming_follow h)
  | raise => exact settleRaise_follow h
  | windowEnd => exact endWindow_follow h
  | mark => exact countMark_follow h
  | linkProven side => exact becomeUp_follow h side
  | keyPressed k => exact pressKey_follow h k
  | keyReleased k => exact releaseKey_follow h k
  | keepExpiry k => exact keepKey_follow h k
  | talkExpiry => exact expireTalks_follow h
  | returnHold e => exact returnPrimary_follow h e _
  | decide e => exact decideFallback_follow h e
  | walkComplete => exact completeWalk_follow h
  | badRun side => exact goDown_follow h _ _
  | takeFrame side head body => exact sortFrame_follow h side _
  | _ => exact h.congr (by simp [Node.doTask]) (by simp [Node.doTask])

end

/-! ### Every command -/

/-- The bounds of the Report Queue, or of the Message Controller, that posting and following keep. -/
def QueueLaw (P : Node → Prop) : Prop := ∀ a n, QueuesFollow a n → P a → P n

/-- What posting and following keep, power-on gives and the taking of a report keeps, every command keeps. -/
theorem QueueLaw.keeps {P : Node → Prop} (law : QueueLaw P) (start : ∀ l e w, P (Node.powerOn l e w))
    (take : ∀ n, P n → P n.removeReport) : Keeps P where
  powerOn := start
  finishLoad n f x _ := law _ _ (finishLoad_follow (.refl n) f x)
  openBoundary n l p _ := law _ _ (openBoundary_follow (.refl n) l p)
  task n t _ := law _ _ (doTask_follow (.refl n) t)
  beginTransfer n _ := law _ _ ((QueuesFollow.refl n).congr (by simp) (by simp))
  completeOperation n _ _ := law _ _ ((QueuesFollow.refl n).congr (by simp) (by simp))
  endTransfer n _ := law _ _ ((QueuesFollow.refl n).congr (by simp) (by simp))
  judgeSend n u _ := law _ _ (judgeSend_follow (.refl n) u)
  removeReport n _ := take n
  restartRing n _ := law _ _ (restartRing_follow (.refl n))
  ignoreTransfer n _ _ := law _ _ ((QueuesFollow.refl n).congr (by simp) (by simp))
  lockGained n x := law _ _ (lockGained_follow (.refl n) x)
  lockLost n x := law _ _ (lockLost_follow (.refl n) x)
  takeBeacon n x b _ := law _ _ (takeBeacon_follow (.refl n) x b)
  takeEvidence n _ _ _ := law _ _ ((QueuesFollow.refl n).congr (by simp) (by simp))
  sendBeacon n _ _ := law _ _ ((QueuesFollow.refl n).congr (by simp) (by simp))
  grantReply n _ := law _ _ (grantReply_follow (.refl n))
  complete n e r := law _ _ (complete_follow (.refl n) e r)
  tapSet n r _ := law _ _ (tapSet_follow (.refl n) r)
  tapDrop n k _ := law _ _ (tapDrop_follow (.refl n) k)
  startWalk n _ := law _ _ ((QueuesFollow.refl n).messages rfl id)
  mixGain n _ _ := law _ _ ((QueuesFollow.refl n).congr rfl rfl)
  mixMaster n _ _ _ _ := law _ _ ((QueuesFollow.refl n).congr rfl rfl)
  outSet n _ _ := law _ _ ((QueuesFollow.refl n).congr (by simp) (by simp))
  talkOpen n _ r d _ _ := law _ _ (talkOpen_follow (.refl n) r d)
  talkKeep n _ _ := law _ _ ((QueuesFollow.refl n).congr (by simp) (by simp))
  talkClose n _ _ _ := law _ _ (removeTalks_follow (.refl n) _ _)
  statusQuery n _ := law _ _ (statusQuery_follow (.refl n))

theorem reportsSound_keeps : Keeps fun n => ReportsSound n.reports :=
  QueueLaw.keeps (fun _ _ h hs => reportsSound_posted hs h.1.choose_spec) (fun _ _ _ => ⟨Nat.zero_le _, rfl⟩)
    fun n h => by
      unfold Node.removeReport
      split
      · refine ⟨?_, rfl⟩
        rw [ReportQueue.take, List.length_tail]
        exact (Nat.sub_le _ _).trans h.1
      · exact h

theorem messagesSound_keeps : Keeps fun n => MessagesSound n.messages :=
  QueueLaw.keeps (fun _ _ h => h.2) (fun _ _ _ => ⟨Nat.zero_le _, Nat.zero_le _, fun few => absurd (show 16 - 0 ≤ 3 from few) (by decide), fun _ => rfl⟩)
    fun n h => by simpa using h

/-- Settles O57: reports are only posted, but for the one a TAKE REPORT removes, and the queues stop at their places. -/
theorem queuesKeepTheirBounds : Obligations.QueuesKeepTheirBounds :=
  fun _ _ e => ⟨step_keeps reportsSound_keeps e, step_keeps messagesSound_keeps e⟩

end Sys2Proof.Machine
end
section
/-! PROOF. The clamps of a load (R107, R182), and the presentation delay within its window (R110). -/

namespace Sys2Proof.Machine

open Sys2Proof Sys2Proof.Safety

/-! ### Clamps (R182) -/

theorem clampInto_value_mem (lo hi v : Nat) (h : lo ≤ hi) :
    lo ≤ (clampInto lo hi v).value ∧ (clampInto lo hi v).value ≤ hi := by
  unfold clampInto
  dsimp only
  omega

/-- A field that is clamped into a range, or has a default in the range, lies in the range. -/
theorem orDefault_clampInto_mem (f : Option Word16) {lo hi d : Nat} (h : lo ≤ hi) (hd : lo ≤ d ∧ d ≤ hi) :
    lo ≤ (orDefault f (clampInto lo hi) d).value ∧ (orDefault f (clampInto lo hi) d).value ≤ hi := by
  unfold orDefault
  split
  · exact clampInto_value_mem lo hi _ h
  · exact hd

theorem Window.eight_le_frames (w : Window) : 8 ≤ w.frames := by cases w <;> decide

theorem defaultsAt_delayClamped (station : Station) (r : Rate) : DelayClamped (Image.defaultsAt station r) :=
  ⟨show 2 ≤ 12 by decide, show 12 ≤ 32 - 2 by decide⟩

theorem loadedImage_delayClamped (ws : List Word16) (straps : BitVec 4) : DelayClamped (loadedImage ws straps).value := by
  unfold DelayClamped loadedImage
  dsimp only
  generalize orDefault (imageField ws 5) clampWindow _ = w
  have h8 := Window.eight_le_frames w.value
  exact orDefault_clampInto_mem (imageField ws 6) (by omega) ⟨le_min (by omega) (show 2 ≤ 12 by decide), min_le_left _ _⟩

/-- Whatever the flash holds, W and P are clamped. -/
theorem load_delayClamped (flash : List Byte) (straps : BitVec 4) : DelayClamped (load flash straps).values := by
  unfold load
  dsimp only
  split
  · exact loadedImage_delayClamped _ _
  · exact defaultsAt_delayClamped _ _

/-! ### The delay's moves -/

/-- P ≤ P_eff ≤ W − 1 under clamped W and P, of the values in force and a delay. -/
def DelayLaw (v : Image) (p : Nat) : Prop := DelayClamped v ∧ v.delay ≤ p ∧ p ≤ v.window.frames - 1

/-- The delay that goes with the values in force lies in its window. -/
theorem delayLaw_start {v : Image} (h : DelayClamped v) : DelayLaw v v.delay := ⟨h, le_rfl, by have := h.2; omega⟩

theorem settleRaise_pEff (n : Node) : n.settleRaise.taps.pEff =
    match n.taps.raise with
    | none => n.taps.pEff
    | some r => max n.taps.pEff (min (n.frames - 1) r) := by
  unfold Node.settleRaise
  cases n.taps.raise with
  | none => rfl
  | some r =>
    dsimp only
    split
    · simp only [Node.changeDelay, Node.updateTaps_taps, Node.post_taps]
      omega
    · simp only [Node.updateTaps_taps]
      omega

/-- A raise stops at W − 1 (R111). -/
theorem Node.settleRaise_delay {n : Node} (h : DelayLaw n.loader.values n.taps.pEff) :
    DelayLaw n.loader.values n.settleRaise.taps.pEff := by
  rw [settleRaise_pEff]
  obtain ⟨hc, lo, hi⟩ := h
  split
  · exact ⟨hc, lo, hi⟩
  · unfold Node.frames
    exact ⟨hc, by omega, by omega⟩

/-- A lowering stops at P (R112). -/
theorem Node.endWindow_delay {n : Node} (h : DelayLaw n.loader.values n.taps.pEff) :
    DelayLaw n.loader.values n.endWindow.taps.pEff := by
  obtain ⟨hc, lo, hi⟩ := h
  unfold Node.endWindow
  dsimp only
  split
  · split
    · rename_i ha
      refine ⟨hc, le_max_left _ _, ?_⟩
      simp only [Node.changeDelay, Node.updateTaps_taps, Node.post_taps]
      omega
    · exact ⟨hc, lo, hi⟩
  · exact ⟨hc, lo, hi⟩

theorem Node.restartTaps_pEff (n : Node) : n.restartTaps.taps.pEff = n.loader.values.delay := by
  unfold Node.restartTaps
  dsimp only
  split
  · assumption
  · rfl

/-! ### What leaves the delay -/

/-- A quantity that each step of a fold leaves is left by the fold. -/
theorem foldl_fixes {σ α β : Type} {f : σ → α → σ} (g : σ → β) (h : ∀ s a, g (f s a) = g s) (l : List α) (s : σ) :
    g (l.foldl f s) = g s := by
  induction l generalizing s with
  | nil => rfl
  | cons a l ih => exact (ih _).trans (h s a)

@[simp] theorem Taps.updateEntry_pEff (t : Taps) (e : EntryNo) (f : TapEntry → TapEntry) :
    (t.updateEntry e f).pEff = t.pEff := rfl

@[simp] theorem Taps.ensure_pEff (t : Taps) (k : Key) : (t.ensure k).pEff = t.pEff := by
  unfold Taps.ensure Taps.create
  (repeat' split) <;> rfl

@[simp] theorem Taps.freeCheck_pEff (t : Taps) (e : EntryNo) : (t.freeCheck e).pEff = t.pEff := by
  rw [Taps.freeCheck_frame]

@[simp] theorem Taps.freeChecks_pEff (t : Taps) (es : List EntryNo) : (t.freeChecks es).pEff = t.pEff :=
  foldl_fixes Taps.pEff Taps.freeCheck_pEff es t

@[simp] theorem Taps.addBack_pEff (t : Taps) (k : Key) : (t.addBack k).pEff = t.pEff := by
  unfold Taps.addBack
  split <;> rfl

@[simp] theorem Taps.dropBack_pEff (t : Taps) (k : Key) : (t.dropBack k).pEff = t.pEff := by
  unfold Taps.dropBack
  split <;> rfl

@[simp] theorem Taps.moveTalkUsers_pEff (t : Taps) (c : Key × Int) : (t.moveTalkUsers c).pEff = t.pEff := by
  unfold Taps.moveTalkUsers
  split <;> rfl

@[simp] theorem Taps.readEntry_pEff (w : Window) (i : Byte) (t : Taps) (e : EntryNo) :
    (Taps.readEntry w i t e).pEff = t.pEff := by
  unfold Taps.readEntry
  split <;> rfl

@[simp] theorem Taps.arrive_pEff (t : Taps) (w : Window) (c : Byte) (k : Key) (i : Byte) (f : AudioFrame) :
    (t.arrive w c k i f).pEff = t.pEff := by
  unfold Taps.arrive
  dsimp only
  (repeat' split) <;> rfl

@[simp] theorem Node.releaseEntry_pEff (n : Node) (e : EntryNo) : (n.releaseEntry e).taps.pEff = n.taps.pEff := by
  unfold Node.releaseEntry
  dsimp only
  (repeat' split) <;> simp

@[simp] theorem Node.theft_pEff (n : Node) (r : TapSetRequest) (s : Fin 128) : (n.theft r s).taps.pEff = n.taps.pEff := by
  unfold Node.theft
  (repeat' split) <;> simp

@[simp] theorem Node.releaseOld_pEff (n : Node) (r : TapSetRequest) (s : Fin 128) :
    (n.releaseOld r s).taps.pEff = n.taps.pEff := by
  unfold Node.releaseOld
  dsimp only
  (repeat' split) <;> simp

@[simp] theorem Node.bindKey_pEff (n : Node) (r : TapSetRequest) (s : Fin 128) :
    (n.bindKey r s).taps.pEff = n.taps.pEff := by
  unfold Node.bindKey
  dsimp only
  (repeat' split) <;> simp [foldl_fixes Taps.pEff Taps.ensure_pEff]

theorem Node.commitTapSet_pEff (n : Node) (r : TapSetRequest) (s : Fin 128) :
    (n.commitTapSet r s).2.taps.pEff = n.taps.pEff := by
  unfold Node.commitTapSet
  simp

theorem Node.roomCheck_pEff (n : Node) (r : TapSetRequest) (s : Fin 128) :
    (n.roomCheck r s).2.taps.pEff = n.taps.pEff := by
  unfold Node.roomCheck Node.slotCheck
  dsimp only
  (repeat' split) <;> simp [Node.commitTapSet_pEff]

@[simp] theorem Node.tapSet_pEff (n : Node) (r : TapSetRequest) : (n.tapSet r).2.taps.pEff = n.taps.pEff := by
  unfold Node.tapSet
  (repeat' split) <;> simp [Node.roomCheck_pEff]

@[simp] theorem Node.tapDrop_pEff (n : Node) (k : Key) : (n.tapDrop k).2.taps.pEff = n.taps.pEff := by
  unfold Node.tapDrop
  dsimp only
  split <;> simp

@[simp] theorem Node.walkEntry_pEff (n : Node) (e : EntryNo) : (n.walkEntry e).taps.pEff = n.taps.pEff := by
  unfold Node.walkEntry
  (repeat' split) <;> simp

@[simp] theorem Node.walkStep_pEff (n : Node) : n.walkStep.taps.pEff = n.taps.pEff := by
  unfold Node.walkStep
  dsimp only
  (repeat' split) <;> simp [foldl_leaves fun m => m.taps.pEff]

@[simp] theorem Node.talkUserChange_pEff (n : Node) (c : List (Key × Int)) :
    (n.talkUserChange c).2.taps.pEff = n.taps.pEff := by
  unfold Node.talkUserChange
  dsimp only
  (repeat' split) <;> simp [foldl_fixes Taps.pEff Taps.ensure_pEff, foldl_fixes Taps.pEff Taps.moveTalkUsers_pEff]

@[simp] theorem Node.handTalkUsers_pEff (n : Node) (c : List (Key × Int)) :
    (n.handTalkUsers c).taps.pEff = n.taps.pEff := by
  unfold Node.handTalkUsers
  dsimp only
  split <;> simp

theorem Node.commitTalkOpen_pEff (n : Node) (r : TalkOpenRequest) (d : Station) :
    (n.commitTalkOpen r d).2.taps.pEff = n.taps.pEff := by
  unfold Node.commitTalkOpen
  dsimp only
  rw [(Node.handSettings_leaves _ _).2.2.2.2.2.1, (Node.giveNotices_leaves _ _ _).2.2.2.2.1,
    foldl_leaves (·.taps) (fun n a => by split <;> simp), Node.handTalkUsers_pEff]

@[simp] theorem Node.talkOpen_pEff (n : Node) (r : TalkOpenRequest) (d : Station) :
    (n.talkOpen r d).2.taps.pEff = n.taps.pEff := by
  unfold Node.talkOpen
  (repeat' split) <;> simp [Node.commitTalkOpen_pEff]

@[simp] theorem Node.removeTalks_pEff (n : Node) (ms : List (Fin 24)) (gone : Talk → Bool) :
    (n.removeTalks ms gone).taps.pEff = n.taps.pEff := by
  unfold Node.removeTalks
  simp [foldl_leaves (·.taps)]

@[simp] theorem Node.talkClose_pEff (n : Node) (mask : MixMask) (d : Station) :
    (n.talkClose mask d).taps.pEff = n.taps.pEff := Node.removeTalks_pEff ..

@[simp] theorem Node.startWalk_pEff (n : Node) : n.startWalk.taps.pEff = n.taps.pEff := rfl

@[simp] theorem Node.expireTalks_pEff (n : Node) : n.expireTalks.taps.pEff = n.taps.pEff := by
  unfold Node.expireTalks
  simp

@[simp] theorem Node.deliver_pEff (n : Node) (o : Station) (s : Segment) : (n.deliver o s).taps.pEff = n.taps.pEff :=
  foldl_leaves (fun m => m.taps.pEff) (fun _ _ => by simp) _ n

@[simp] theorem Node.extract_pEff (n : Node) (s : Segment) : (n.extract s).2.taps.pEff = n.taps.pEff := by
  unfold Node.extract Node.extractGood
  dsimp only
  (repeat' split) <;> simp [Node.countSegmentError]

@[simp] theorem extractAll_pEff (ss : List Segment) (n : Node) : (extractAll ss n).2.taps.pEff = n.taps.pEff := by
  induction ss generalizing n with
  | nil => rfl
  | cons s ss ih => exact (ih _).trans (Node.extract_pEff n s)

@[simp] theorem Node.passSegments_pEff (n : Node) (h : SixBytes) (ss : List Segment) :
    (n.passSegments h ss).taps.pEff = n.taps.pEff := by
  unfold Node.passSegments
  simp

@[simp] theorem Node.primaryPass_pEff (n : Node) (f : Frame) : (n.primaryPass f).taps.pEff = n.taps.pEff := by
  unfold Node.primaryPass Node.passFrame
  dsimp only
  split <;> simp

@[simp] theorem Node.sendOwn_pEff (n : Node) (o : Station) (b : Bool) : (n.sendOwn o b).taps.pEff = n.taps.pEff :=
  Node.passSegments_pEff ..

@[simp] theorem Node.emit_pEff (n : Node) : n.emit.taps.pEff = n.taps.pEff := by
  unfold Node.emit Node.reEmit
  dsimp only
  (repeat' split) <;> simp

@[simp] theorem Node.badHeadFrame_pEff (n : Node) : n.badHeadFrame.taps.pEff = n.taps.pEff := by
  unfold Node.badHeadFrame
  dsimp only
  (repeat' split) <;> simp

@[simp] theorem Node.sortFrame_pEff (n : Node) (side : Side) (f : Frame) : (n.sortFrame side f).taps.pEff = n.taps.pEff := by
  unfold Node.sortFrame Node.westFrame Node.eastFrame
  (repeat' split) <;> simp

@[simp] theorem Node.readEntries_pEff (n : Node) : n.readEntries.taps.pEff = n.taps.pEff :=
  foldl_fixes Taps.pEff (Taps.readEntry_pEff _ _) _ _

@[simp] theorem Node.returnPrimary_pEff (n : Node) (e : EntryNo) (c : ReturnCause) :
    (n.returnPrimary e c).taps.pEff = n.taps.pEff := by
  unfold Node.returnPrimary
  (repeat' split) <;> rfl

@[simp] theorem Node.decideFallback_pEff (n : Node) (e : EntryNo) : (n.decideFallback e).taps.pEff = n.taps.pEff := by
  unfold Node.decideFallback Node.fallBack
  dsimp only
  (repeat' split) <;> simp

@[simp] theorem Node.countMark_pEff (n : Node) : n.countMark.taps.pEff = n.taps.pEff := by
  unfold Node.countMark
  simp [Taps.countHolds]

@[simp] theorem Node.completeWalk_pEff (n : Node) : n.completeWalk.taps.pEff = n.taps.pEff := by
  unfold Node.completeWalk
  split <;> simp

@[simp] theorem Node.openBoundary_pEff (n : Node) (lanes : LaneBlock) (pins : Table 4 Bool) :
    (n.openBoundary lanes pins).taps.pEff = n.taps.pEff := by
  unfold Node.openBoundary
  simp

/-! ### Every command -/

theorem DelayLaw.task (n : Node) (t : Task) (h : DelayLaw n.loader.values n.taps.pEff) :
    DelayLaw (n.doTask t).loader.values (n.doTask t).taps.pEff := by
  cases t with
  | raise => simpa [Node.doTask] using n.settleRaise_delay h
  | windowEnd => simpa [Node.doTask] using n.endWindow_delay h
  | holdExpiry p => exact h
  | _ => simpa [Node.doTask] using h

theorem DelayLaw.keeps : Keeps fun n => DelayLaw n.loader.values n.taps.pEff where
  powerOn := fun _ _ _ => delayLaw_start (defaultsAt_delayClamped _ _)
  finishLoad := fun n f x _ _ => by
    have h := delayLaw_start (load_delayClamped f x)
    unfold Node.finishLoad
    simpa [Node.takeValues] using h
  task := fun n t _ h => DelayLaw.task n t h
  restartRing := fun n _ h => by
    unfold Node.restartRing
    simpa [Node.restartTaps_pEff] using delayLaw_start h.1

/-- Settles O58: raises stop at W - 1, lowerings at P, and a load or a restart puts P_eff at P. -/
theorem delayStaysInTheWindow : Obligations.DelayStaysInTheWindow := by
  unfold Obligations.DelayStaysInTheWindow
  intro s t e h
  exact step_keeps DelayLaw.keeps e h

end Sys2Proof.Machine
end
section
/-! PROOF. The mixes: sums over the places of a table, what each operation makes of the mix records, and the laws of the
crosspoint store (R137), the talk lists (R160) and the duck coefficients (R150). -/

namespace Sys2Proof.Table

variable {n : Nat} {α : Type}

@[simp] theorem set_get_self (t : Table n α) (i : Fin n) : t.set i (t.get i) = t := by
  apply ext_get
  intro j
  by_cases h : i = j
  · subst h
    simp
  · simp [h]

theorem items_eq_map_get (t : Table n α) : t.items = (List.finRange n).map t.get :=
  congrArg Table.items (ext_get fun i => by rw [get_ofFn] : t = Table.ofFn t.get)

/-- A sum over the places of a table. -/
theorem sum_items (t : Table n α) (w : α → Nat) : (t.items.map w).sum = ∑ i, w (t.get i) := by
  rw [items_eq_map_get, List.map_map, ← List.ofFn_eq_map, List.sum_ofFn]
  rfl

/-- A place that is changed moves a sum over the places by what its own weight moves. -/
theorem sum_items_set (t : Table n α) (w : α → Nat) (i : Fin n) (a : α) :
    ((t.set i a).items.map w).sum + w (t.get i) = (t.items.map w).sum + w a := by
  rw [sum_items, sum_items, ← Finset.add_sum_erase _ _ (Finset.mem_univ i),
    ← Finset.add_sum_erase (a := i) _ (fun j => w (t.get j)) (Finset.mem_univ i), get_set_same,
    Finset.sum_congr rfl fun j hj => by rw [get_set_other t i j a (Ne.symm (Finset.ne_of_mem_erase hj))]]
  omega

end Sys2Proof.Table

namespace Sys2Proof.Machine

open Sys2Proof Sys2Proof.Safety

/-! ### Mix records changed one after the other -/

/-- Changes of several mixes in a row reach those, each once, and nothing else. -/
theorem foldl_updateMix (f : Fin 24 → Mix → Mix) (ms : List (Fin 24)) (hn : ms.Nodup) (n : Node) :
    (∀ x, (ms.foldl (fun s m => s.updateMix m (f m)) n).mixer.mixes.get x =
        if x ∈ ms then f x (n.mixer.mixes.get x) else n.mixer.mixes.get x)
      ∧ (ms.foldl (fun s m => s.updateMix m (f m)) n).mixer.freeCrosspoints = n.mixer.freeCrosspoints
      ∧ ms.foldl (fun s m => s.updateMix m (f m)) n
        = { n with mixer := (ms.foldl (fun s m => s.updateMix m (f m)) n).mixer } := by
  induction ms generalizing n with
  | nil => exact ⟨fun _ => by simp, rfl, rfl⟩
  | cons a l ih =>
    obtain ⟨ha, hl⟩ := List.nodup_cons.mp hn
    obtain ⟨hget, hfree, heq⟩ := ih hl (n.updateMix a (f a))
    rw [List.foldl_cons]
    refine ⟨fun x => ?_, hfree, heq⟩
    rw [hget, Node.updateMix_get]
    by_cases h : a = x
    · subst h
      simp [ha]
    · simp [h, Ne.symm h]

/-- A list that has changed and hands its setting (R167). -/
theorem settle_eq_withTalks (x : Mix) (l : List Talk) (d : Nat) :
    ({ x with talks := l } : Mix).settle d = withTalks x l d := by
  cases l <;> rfl

theorem handSettings_eq (n : Node) (ms : List (Fin 24)) (hn : ms.Nodup) :
    (n.handSettings ms).mixer.freeCrosspoints = n.mixer.freeCrosspoints
      ∧ n.handSettings ms = { n with mixer := (n.handSettings ms).mixer } :=
  (foldl_updateMix (fun _ x => x.settle n.loader.values.duckRamp) ms hn n).2

theorem judgeTableLow_reports (n : Node) (before : Nat) : (n.judgeTableLow before).reports =
    if n.loader.values.lowFreeMark ≤ before ∧ n.taps.free.length < n.loader.values.lowFreeMark then
      n.reports.post (.tableLow n.taps.free.length n.loader.values.lowFreeMark)
    else n.reports := by
  unfold Node.judgeTableLow
  split <;> rfl

/-- The tap table behind a talk-user change, with the change's answer (R103). -/
def Taps.changeUsers (t : Taps) (changes : List (Key × Int)) : Answer × Taps :=
  let new := t.missing ((changes.filter fun c => decide (0 < c.2)).map Prod.fst)
  if t.free.length < new.length then (.tableFull, t)
  else if !t.chainsHave new then (.chainFull, t)
  else
    let t2 := changes.foldl Taps.moveTalkUsers (new.foldl Taps.ensure t)
    (.done, t2.freeChecks ((changes.filter fun c => decide (c.2 < 0)).filterMap fun c => t2.lookup c.1))

/-- A table that is as it was posts no TABLE LOW. -/
theorem judgeTableLow_same (n : Node) : n.judgeTableLow n.taps.free.length = n := by
  unfold Node.judgeTableLow
  exact if_neg (by omega)

/-- A talk-user change is a change of the tap table, with TABLE LOW judged (R89, R103). -/
theorem talkUserChange_eq (n : Node) (c : List (Key × Int)) : n.talkUserChange c =
    ((n.taps.changeUsers c).1, ({ n with taps := (n.taps.changeUsers c).2 } : Node).judgeTableLow n.taps.free.length) := by
  unfold Node.talkUserChange Taps.changeUsers
  dsimp only
  split
  · exact congrArg (Prod.mk _) (judgeTableLow_same n).symm
  · split
    · exact congrArg (Prod.mk _) (judgeTableLow_same n).symm
    · rfl

/-- A talk-user change takes no notice of the mixes. -/
theorem talkUserChange_mixer (n : Node) (x : MixEngine) (c : List (Key × Int)) :
    (({ n with mixer := x } : Node).talkUserChange c).2 = { (n.talkUserChange c).2 with mixer := x } := by
  rw [node_ext_iff]
  simp [talkUserChange_eq, judgeTableLow_reports]

theorem handTalkUsers_mixer (n : Node) (x : MixEngine) (c : List (Key × Int)) :
    ({ n with mixer := x } : Node).handTalkUsers c = { n.handTalkUsers c with mixer := x } := by
  unfold Node.handTalkUsers
  dsimp only
  split
  · rfl
  · exact talkUserChange_mixer n x _

theorem handTalkUsers_eq (n : Node) (c : List (Key × Int)) :
    n.handTalkUsers c = { n with taps := (n.handTalkUsers c).taps, reports := (n.handTalkUsers c).reports } := by
  rw [node_ext_iff]
  simp

/-! ### TALK OPEN, TALK KEEP, and talks removed -/

/-- A fate carried out on its mix: the list it leaves, with the setting the list calls for; BUSY leaves the mix. -/
def Fate.applied (f : Fate) (x : Mix) (d : Nat) : Mix :=
  match f.list with
  | some l => withTalks x l d
  | none => x

/-- The lists that the fates of a TALK OPEN leave. -/
def setFates (fate : Fin 24 → Fate) (n : Node) (ms : List (Fin 24)) : Node :=
  ms.foldl (fun s m => s.updateMix m fun x => { x with talks := (fate m).list.getD x.talks }) n

theorem setFates_loader (fate : Fin 24 → Fate) (n : Node) (ms : List (Fin 24)) : (setFates fate n ms).loader = n.loader :=
  foldl_leaves (f := fun s m => s.updateMix m fun x => { x with talks := (fate m).list.getD x.talks }) (·.loader) (fun _ _ => rfl) ms n

theorem setTalks_getD (s : Node) (m : Fin 24) (f : Fate) :
    (match f.list with | some l => s.setTalks m l | none => s)
      = s.updateMix m fun x => { x with talks := f.list.getD x.talks } := by
  cases f.list with
  | none => exact (congrArg (fun t => ({ s with mixer := { s.mixer with mixes := t } } : Node)) (Table.set_get_self _ m)).symm
  | some l => rfl

/-- The part behind the talk-user change, the lists and the notices of a TALK OPEN (R163). -/
def Node.openLists (n : Node) (r : TalkOpenRequest) (desk : Station) : Node :=
  (setFates (fun m => talkFate (r.talk desk) (n.talks m))
    (n.handTalkUsers (((maskMixes r.mask).map fun m => (m, talkFate (r.talk desk) (n.talks m))).flatMap
      fun f => f.2.moves r.source)) (maskMixes r.mask)).giveNotices true
    (((maskMixes r.mask).map fun m => (m, talkFate (r.talk desk) (n.talks m))).filterMap
      fun f => f.2.evicted.map fun d => (d, f.1))

/-- The mixes of a TALK OPEN whose list takes the talk. -/
def Node.opened (n : Node) (r : TalkOpenRequest) (desk : Station) : List (Fin 24) :=
  (maskMixes r.mask).filter fun m => (talkFate (r.talk desk) (n.talks m)).list.isSome

theorem commitTalkOpen_eq (n : Node) (r : TalkOpenRequest) (desk : Station) :
    (n.commitTalkOpen r desk).2 = (n.openLists r desk).handSettings (n.opened r desk) := by
  unfold Node.commitTalkOpen Node.openLists Node.opened setFates
  simp only [List.filter_map, List.map_map, List.foldl_map]
  congr 1
  · congr 3
    funext s m
    exact setTalks_getD s m _
  · exact List.map_id _

theorem openLists_mixer (n : Node) (r : TalkOpenRequest) (desk : Station) :
    (∀ x, (n.openLists r desk).mixer.mixes.get x = if maskHas r.mask x = true then
        { n.mixer.mixes.get x with talks := (talkFate (r.talk desk) (n.talks x)).list.getD (n.talks x) }
        else n.mixer.mixes.get x)
      ∧ (n.openLists r desk).mixer.freeCrosspoints = n.mixer.freeCrosspoints := by
  unfold Node.openLists setFates
  obtain ⟨hget, hfree, -⟩ := foldl_updateMix
    (fun m x => { x with talks := (talkFate (r.talk desk) (n.talks m)).list.getD x.talks }) _ (nodup_maskMixes r.mask)
    (n.handTalkUsers (((maskMixes r.mask).map fun m => (m, talkFate (r.talk desk) (n.talks m))).flatMap
      fun f => f.2.moves r.source))
  simp only [Node.giveNotices_leaves, hget, hfree, mem_maskMixes, Node.handTalkUsers_leaves]
  exact ⟨fun x => rfl, trivial⟩

/-- TALK OPEN's commit on the mixes (R162, R163, R167). -/
theorem commitTalkOpen_mixer (n : Node) (r : TalkOpenRequest) (desk : Station) :
    (∀ x, (n.commitTalkOpen r desk).2.mixer.mixes.get x =
      if maskHas r.mask x = true then
        (talkFate (r.talk desk) (n.talks x)).applied (n.mixer.mixes.get x) n.loader.values.duckRamp
      else n.mixer.mixes.get x)
      ∧ (n.commitTalkOpen r desk).2.mixer.freeCrosspoints = n.mixer.freeCrosspoints := by
  have hn : (n.opened r desk).Nodup := (nodup_maskMixes r.mask).filter _
  have hl : (n.openLists r desk).loader = n.loader :=
    (Node.giveNotices_leaves ..).1.trans ((setFates_loader ..).trans (Node.handTalkUsers_leaves ..).1)
  obtain ⟨hget, hfree⟩ := openLists_mixer n r desk
  rw [commitTalkOpen_eq]
  refine ⟨fun x => ?_, (handSettings_eq _ _ hn).1.trans hfree⟩
  rw [Node.handSettings_get _ _ hn, hget, hl]
  by_cases hm : maskHas r.mask x = true
  · cases hf : (talkFate (r.talk desk) (n.talks x)).list with
    | none => simp [Node.opened, Fate.applied, hm, hf]; rfl
    | some l => simp [Node.opened, Fate.applied, mem_maskMixes, hm, hf, settle_eq_withTalks]
  · simp [Node.opened, mem_maskMixes, hm]

/-- TALK KEEP on the mixes (R164). -/
theorem talkKeep_mixer (n : Node) (mask : MixMask) (desk : Station) :
    (∀ x, (n.talkKeep mask desk).2.mixer.mixes.get x = if maskHas mask x = true then
        { n.mixer.mixes.get x with talks := (n.talks x).map fun t => if t.desk = desk then { t with deadline := 120 } else t }
        else n.mixer.mixes.get x)
      ∧ (n.talkKeep mask desk).2.mixer.freeCrosspoints = n.mixer.freeCrosspoints
      ∧ (n.talkKeep mask desk).2 = { n with mixer := (n.talkKeep mask desk).2.mixer } := by
  obtain ⟨hget, hrest⟩ := foldl_updateMix (fun _ x =>
    { x with talks := x.talks.map fun t => if t.desk = desk then { t with deadline := 120 } else t }) _
    (nodup_maskMixes mask) n
  simp only [mem_maskMixes] at hget
  exact ⟨hget, hrest⟩

/-- The mixes that lose talks. -/
def Node.losing (n : Node) (ms : List (Fin 24)) (gone : Talk → Bool) : List (Fin 24) :=
  ms.filter fun m => (n.talks m).any gone

/-- The talk-user moves of the talks that go. -/
def Node.lossMoves (n : Node) (ms : List (Fin 24)) (gone : Talk → Bool) : List (Key × Int) :=
  (n.losing ms gone).flatMap fun m => ((n.talks m).filter gone).map fun t => (t.source, (-1 : Int))

/-- Talks removed from several mixes: what becomes of the mixes, of the talk users, and that nothing else moves
(R165 to R167). -/
theorem removeTalks_eq (n : Node) (ms : List (Fin 24)) (hn : ms.Nodup) (gone : Talk → Bool) :
    (∀ x, (n.removeTalks ms gone).mixer.mixes.get x = if x ∈ ms ∧ (n.talks x).any gone = true then
        withTalks (n.mixer.mixes.get x) ((n.talks x).filter fun t => !gone t) n.loader.values.duckRamp
        else n.mixer.mixes.get x)
      ∧ (n.removeTalks ms gone).mixer.freeCrosspoints = n.mixer.freeCrosspoints
      ∧ n.removeTalks ms gone
        = { n.handTalkUsers (n.lossMoves ms gone) with mixer := (n.removeTalks ms gone).mixer } := by
  have hl : (n.losing ms gone).Nodup := hn.filter _
  obtain ⟨hget, hfree, heq⟩ := foldl_updateMix (fun _ x => { x with talks := x.talks.filter fun t => !gone t }) _ hl n
  have e : n.removeTalks ms gone = ({ n.handTalkUsers (n.lossMoves ms gone) with mixer :=
      ((n.losing ms gone).foldl (fun s m => s.updateMix m fun x => { x with talks := x.talks.filter fun t => !gone t })
        n).mixer } : Node).handSettings (n.losing ms gone) := by
    rw [← handTalkUsers_mixer, ← heq]
    rfl
  obtain ⟨hfree', heq'⟩ := handSettings_eq _ _ hl
  rw [e]
  refine ⟨fun x => ?_, hfree'.trans hfree, heq'⟩
  rw [Node.handSettings_get _ _ hl]
  simp only [Node.handTalkUsers_leaves, hget]
  by_cases h : x ∈ ms ∧ (n.talks x).any gone = true
  · simp only [Node.losing, List.mem_filter, h, and_self, if_true]
    exact settle_eq_withTalks _ _ _
  · simp only [Node.losing, List.mem_filter, h, if_false]

/-! ### The crosspoint store (R137) -/

/-- Slot numbers rise along a list. -/
def InSlotOrder (l : List Crosspoint) : Prop := (l.map fun c => c.slot.val).Pairwise (· < ·)

theorem crosspointsSound_iff (e : MixEngine) : CrosspointsSound e ↔
    e.freeCrosspoints + ∑ i, (e.mixes.get i).crosspoints.length = 1024 ∧ ∀ i, InSlotOrder (e.mixes.get i).crosspoints := by
  unfold CrosspointsSound crosspointsIn InSlotOrder
  rw [Table.sum_items]
  simp [Table.mem_items_iff]

/-- The store's law stands where every list and the free count are as they were. -/
theorem crosspointsSound_congr {a b : MixEngine} (h : CrosspointsSound a) (hf : b.freeCrosspoints = a.freeCrosspoints)
    (hg : ∀ i, (b.mixes.get i).crosspoints = (a.mixes.get i).crosspoints) : CrosspointsSound b := by
  rw [crosspointsSound_iff] at *
  simpa only [hf, hg] using h

theorem length_linkCrosspoint (c : Crosspoint) (l : List Crosspoint) : (linkCrosspoint c l).length = l.length + 1 := by
  induction l with
  | nil => rfl
  | cons d l ih =>
    unfold linkCrosspoint
    split
    · rfl
    · exact congrArg (· + 1) ih

theorem mem_linkCrosspoint {c d : Crosspoint} {l : List Crosspoint} (h : d ∈ linkCrosspoint c l) : d = c ∨ d ∈ l := by
  induction l with
  | nil => simpa [linkCrosspoint] using h
  | cons a l ih =>
    unfold linkCrosspoint at h
    split at h
    · simpa using h
    · rcases List.mem_cons.mp h with rfl | h
      · exact .inr (by simp)
      · exact (ih h).imp_right (List.mem_cons_of_mem a)

/-- A crosspoint of a slot that the list does not name keeps the order at its place. -/
theorem linkCrosspoint_inSlotOrder (c : Crosspoint) (l : List Crosspoint) (h : InSlotOrder l)
    (hc : ∀ d ∈ l, d.slot ≠ c.slot) : InSlotOrder (linkCrosspoint c l) := by
  unfold InSlotOrder at *
  rw [List.pairwise_map] at *
  induction l with
  | nil => simp [linkCrosspoint]
  | cons d l ih =>
    obtain ⟨hd, hl⟩ := List.pairwise_cons.mp h
    have hdc := hc d (by simp)
    unfold linkCrosspoint
    split
    · rename_i hlt
      refine List.pairwise_cons.mpr ⟨fun a ha => ?_, h⟩
      rcases List.mem_cons.mp ha with rfl | ha
      · exact hlt
      · exact lt_trans hlt (hd a ha)
    · rename_i hlt
      refine List.pairwise_cons.mpr ⟨fun a ha => ?_, ih hl fun a ha => hc a (List.mem_cons_of_mem d ha)⟩
      rcases mem_linkCrosspoint ha with rfl | ha
      · exact lt_of_le_of_ne (not_lt.mp hlt) fun e => hdc (Fin.ext e)
      · exact hd a ha

theorem slots_updateCrosspoint (l : List Crosspoint) (s : Fin 128) (f : Crosspoint → Crosspoint)
    (hf : ∀ c, (f c).slot = c.slot) :
    (updateCrosspoint l s f).map (fun c => c.slot.val) = l.map fun c => c.slot.val := by
  unfold updateCrosspoint
  rw [List.map_map]
  refine List.map_congr_left fun c _ => ?_
  dsimp only [Function.comp]
  split <;> simp [hf]

/-- A mix's list replaced, with the free count moved by as much as its length. -/
theorem setCrosspoints_sound {e : MixEngine} (h : CrosspointsSound e) (m : Fin 24) (l : List Crosspoint) (free : Nat)
    (hl : InSlotOrder l) (hc : free + l.length = e.freeCrosspoints + (e.mixes.get m).crosspoints.length) :
    CrosspointsSound (e.setCrosspoints m l free) := by
  unfold CrosspointsSound crosspointsIn at *
  obtain ⟨hsum, hord⟩ := h
  have hs := Table.sum_items_set e.mixes (fun x => x.crosspoints.length) m { e.mixes.get m with crosspoints := l }
  dsimp only at hs
  refine ⟨?_, fun x hx => ?_⟩
  · unfold MixEngine.setCrosspoints Table.update
    dsimp only
    omega
  obtain ⟨i, rfl⟩ := (Table.mem_items_iff _ _).mp hx
  by_cases hi : m = i
  · subst hi
    simpa [MixEngine.setCrosspoints, InSlotOrder] using hl
  · simpa [MixEngine.setCrosspoints, hi] using hord _ ((Table.mem_items_iff _ _).mpr ⟨i, rfl⟩)

theorem mixGain_sound (e : MixEngine) (r : MixGainRequest) (desk : Station) (h : CrosspointsSound e) :
    CrosspointsSound (e.mixGain r desk).2 := by
  have hord := ((crosspointsSound_iff e).mp h).2 r.mix
  unfold MixEngine.mixGain
  dsimp only
  split
  · exact h
  · split
    · rename_i hnone
      split
      · exact h
      · split
        · exact h
        · refine setCrosspoints_sound h _ _ _ (linkCrosspoint_inSlotOrder _ _ hord fun d hd => ?_) ?_
          · simpa using List.find?_eq_none.mp hnone d hd
          · rw [length_linkCrosspoint]
            omega
    · split
      · exact h
      · refine setCrosspoints_sound h _ _ _ ?_ ?_
        · unfold InSlotOrder
          rw [slots_updateCrosspoint _ _ _ (by exact fun _ => rfl)]
          exact hord
        · simp [updateCrosspoint]

theorem mixMaster_get (e : MixEngine) (m : Fin 24) (c : Coef) (l : Nat) (desk : Station) :
    (e.mixMaster m c l desk).2.freeCrosspoints = e.freeCrosspoints
      ∧ ∀ i, ((e.mixMaster m c l desk).2.mixes.get i).crosspoints = (e.mixes.get i).crosspoints
        ∧ ((e.mixMaster m c l desk).2.mixes.get i).talks = (e.mixes.get i).talks
        ∧ ((e.mixMaster m c l desk).2.mixes.get i).duck = (e.mixes.get i).duck := by
  unfold MixEngine.mixMaster
  dsimp only
  (repeat' split) <;> refine ⟨rfl, fun i => ?_⟩ <;> try exact ⟨rfl, rfl, rfl⟩
  by_cases hi : m = i
  · subst hi
    simp
  · simp [hi]

theorem mixGain_get (e : MixEngine) (r : MixGainRequest) (desk : Station) (i : Fin 24) :
    ((e.mixGain r desk).2.mixes.get i).talks = (e.mixes.get i).talks
      ∧ ((e.mixGain r desk).2.mixes.get i).duck = (e.mixes.get i).duck := by
  unfold MixEngine.mixGain MixEngine.setCrosspoints
  dsimp only
  (repeat' split) <;> try exact ⟨rfl, rfl⟩
  all_goals
    by_cases hi : r.mix = i
    · subst hi
      simp
    · simp [hi]

/-! ### The boundary's work on the mixes -/

/-- A mix behind a boundary: its ramps stepped, its crosspoints settled at 0 gone, its talks as they were. -/
theorem computeMixes_get (n : Node) (i : Fin 24) :
    (n.computeMixes.mixer.mixes.get i).crosspoints
        = (((n.mixer.mixes.get i).crosspoints.map fun c => { c with gain := c.gain.step }).filter
          fun c => !c.gain.settledAtZero)
      ∧ (n.computeMixes.mixer.mixes.get i).talks = (n.mixer.mixes.get i).talks
      ∧ (n.computeMixes.mixer.mixes.get i).duck = (n.mixer.mixes.get i).duck.step := by
  unfold Node.computeMixes MixEngine.stepRamps Mix.releaseFeed Mix.compute Mix.stepRamps
  dsimp only
  simp only [Table.get_map]
  split <;> exact ⟨rfl, rfl, rfl⟩

theorem computeMixes_crosspoints_le (n : Node) (i : Fin 24) :
    (n.computeMixes.mixer.mixes.get i).crosspoints.length ≤ (n.mixer.mixes.get i).crosspoints.length := by
  rw [(computeMixes_get n i).1]
  exact (List.length_filter_le _ _).trans (List.length_map _).le

theorem computeMixes_free (n : Node) : n.computeMixes.mixer.freeCrosspoints = n.mixer.freeCrosspoints +
    (∑ i, (n.mixer.mixes.get i).crosspoints.length - ∑ i, (n.computeMixes.mixer.mixes.get i).crosspoints.length) := by
  simp only [computeMixes_get]
  unfold Node.computeMixes MixEngine.stepRamps crosspointsIn
  dsimp only
  simp only [Table.sum_items, Table.get_map, Mix.stepRamps]

theorem computeMixes_sound (n : Node) (h : CrosspointsSound n.mixer) : CrosspointsSound n.computeMixes.mixer := by
  rw [crosspointsSound_iff] at *
  obtain ⟨hsum, hord⟩ := h
  have hle : ∑ i, (n.computeMixes.mixer.mixes.get i).crosspoints.length ≤ ∑ i, (n.mixer.mixes.get i).crosspoints.length :=
    Finset.sum_le_sum fun i _ => computeMixes_crosspoints_le n i
  refine ⟨by rw [computeMixes_free]; omega, fun i => ?_⟩
  rw [(computeMixes_get n i).1]
  have h := hord i
  unfold InSlotOrder at *
  rw [List.pairwise_map] at *
  exact List.Pairwise.filter _ (List.pairwise_map.mpr h)

/-! ### The talk lists and the duck (R150, R160) -/

/-- The law of one mix's talk list and duck. -/
def TalkLaw (x : Mix) : Prop :=
  DuckSound x.duck ∧ x.talks.length ≤ 4 ∧ (x.talks.map fun t => t.desk).Nodup ∧ x.talks.Pairwise Outranks
    ∧ (∀ t ∈ x.talks, t.dim < unity ∧ 1 ≤ t.priority ∧ t.priority ≤ 7) ∧ (x.talks = [] ↔ x.duck.target = unity)

theorem talksSound_iff (e : MixEngine) : TalksSound e ↔ ∀ i, TalkLaw (e.mixes.get i) := by
  unfold TalksSound TalkLaw
  simp [Table.mem_items_iff]

theorem TalkLaw.congr {x y : Mix} (h : TalkLaw x) (ht : y.talks = x.talks) (hd : y.duck = x.duck) : TalkLaw y := by
  unfold TalkLaw at *
  rw [ht, hd]
  exact h

theorem Ramp.step_target (r : Ramp) : r.step.target = r.target := by
  unfold Ramp.step
  (repeat' split) <;> rfl

theorem computeMixes_talks (n : Node) (h : TalksSound n.mixer) : TalksSound n.computeMixes.mixer := by
  rw [talksSound_iff] at *
  intro i
  obtain ⟨hduck, hrest⟩ := h i
  obtain ⟨-, ht, hd⟩ := computeMixes_get n i
  unfold TalkLaw
  rw [ht, hd, Ramp.step_target]
  exact ⟨DuckSound_step _ hduck, hrest⟩

theorem withTalks_duck_target (x : Mix) (l : List Talk) (d : Nat) :
    (withTalks x l d).duck.target = match l with | t :: _ => t.dim | [] => unity :=
  (congrArg (·.duck.target) (settle_eq_withTalks x l d)).symm.trans (Mix.settle_duck_target ..)

/-- A list in its law whose setting is taken puts the duck in its law. -/
theorem withTalks_law {x : Mix} {l : List Talk} (d : Nat) (hduck : DuckSound x.duck) (hlen : l.length ≤ 4)
    (hn : (l.map fun t => t.desk).Nodup) (ho : l.Pairwise Outranks)
    (hdim : ∀ t ∈ l, t.dim < unity ∧ 1 ≤ t.priority ∧ t.priority ≤ 7) : TalkLaw (withTalks x l d) := by
  refine ⟨?_, hlen, hn, ho, hdim, ?_⟩
  · cases l with
    | nil => exact DuckSound_setting x.duck unity d hduck (BitVec.le_refl _)
    | cons t l => exact DuckSound_setting x.duck t.dim d hduck (BitVec.le_of_lt (hdim t (by simp)).1)
  · rw [withTalks_duck_target]
    cases l with
    | nil => exact iff_of_true rfl rfl
    | cons t l => exact ⟨fun e => (nomatch e), fun e => absurd e (BitVec.ne_of_lt (hdim t (by simp)).1)⟩

/-- Talks that keep their desks, ranks and dims keep the law. -/
theorem TalkLaw.map {x : Mix} (h : TalkLaw x) (f : Talk → Talk)
    (hf : ∀ t, (f t).desk = t.desk ∧ (f t).priority = t.priority ∧ (f t).dim = t.dim) :
    TalkLaw { x with talks := x.talks.map f } := by
  obtain ⟨hduck, hlen, hn, ho, hdim, hiff⟩ := h
  refine ⟨hduck, by simpa using hlen, ?_, ?_, ?_, by simpa using hiff⟩
  · simpa [List.map_map, Function.comp_def, hf] using hn
  · rw [List.pairwise_map]
    exact ho.imp fun h => by simpa only [Outranks, hf] using h
  · simpa [hf] using hdim

/-- The talks that stay keep the law. -/
theorem withTalks_filter_law {x : Mix} (h : TalkLaw x) (p : Talk → Bool) (d : Nat) :
    TalkLaw (withTalks x (x.talks.filter p) d) := by
  obtain ⟨hduck, hlen, hn, ho, hdim, -⟩ := h
  exact withTalks_law d hduck ((List.length_filter_le _ _).trans hlen) (hn.sublist (List.filter_sublist.map _))
    (ho.filter _) fun t ht => hdim t (List.mem_filter.mp ht).1

/-- A talk of a new desk at its place keeps the law of a list with room. -/
theorem insertTalk_law {t : Talk} {l : List Talk} (hlen : l.length < 4) (hn : (l.map fun t => t.desk).Nodup)
    (ho : l.Pairwise Outranks) (hdim : ∀ t ∈ l, t.dim < unity ∧ 1 ≤ t.priority ∧ t.priority ≤ 7)
    (ht : t.dim < unity ∧ 1 ≤ t.priority ∧ t.priority ≤ 7) (hd : ∀ u ∈ l, u.desk ≠ t.desk) {x : Mix} (d : Nat)
    (hduck : DuckSound x.duck) : TalkLaw (withTalks x (insertTalk t l) d) := by
  have hp := insertTalk_perm t l
  refine withTalks_law d hduck (by rw [hp.length_eq]; exact hlen) ?_ (insertTalk_sorted t l ho hd) fun u hu => ?_
  · rw [(hp.map _).nodup_iff]
    exact List.nodup_cons.mpr ⟨fun h => by obtain ⟨u, hu, e⟩ := List.mem_map.mp h; exact hd u hu e, hn⟩
  · rcases List.mem_cons.mp (hp.mem_iff.mp hu) with rfl | hu
    · exact ht
    · exact hdim u hu

/-- Every fate of a talk keeps the law of its list (R162). -/
theorem applied_law {x : Mix} (h : TalkLaw x) (t : Talk) (ht : t.dim < unity ∧ 1 ≤ t.priority ∧ t.priority ≤ 7)
    (d : Nat) : TalkLaw ((talkFate t x.talks).applied x d) := by
  obtain ⟨hduck, hlen, hn, ho, hdim, hiff⟩ := h
  unfold talkFate
  split
  · rename_i old hold
    have hmem := List.mem_of_find?_eq_some hold
    have hdesk : old.desk = t.desk := by simpa using List.find?_some hold
    refine insertTalk_law (lt_of_lt_of_le ?_ hlen) (hn.sublist (List.filter_sublist.map _)) (ho.filter _)
      (fun u hu => hdim u (List.mem_filter.mp hu).1) ht (fun u hu => by simpa using (List.mem_filter.mp hu).2) d hduck
    exact List.length_filter_lt_length_iff_exists.mpr ⟨old, hmem, by simp [hdesk]⟩
  · rename_i hnone
    have hd : ∀ u ∈ x.talks, u.desk ≠ t.desk := fun u hu => by simpa using List.find?_eq_none.mp hnone u hu
    split
    · rename_i hl
      exact insertTalk_law hl hn ho hdim ht hd d hduck
    · split
      · rename_i last hlast
        split
        · have hsub := List.dropLast_sublist x.talks
          have hne : x.talks ≠ [] := fun e => by simp [e] at hlast
          exact insertTalk_law (by rw [List.length_dropLast]; have := List.length_pos_iff.mpr hne; omega)
            (hn.sublist (hsub.map _)) (ho.sublist hsub) (fun u hu => hdim u (hsub.subset hu)) ht
            (fun u hu => hd u (hsub.subset hu)) d hduck
        · exact ⟨hduck, hlen, hn, ho, hdim, hiff⟩
      · exact ⟨hduck, hlen, hn, ho, hdim, hiff⟩

/-- The talk of a request that R68 has clamped is in range (R160). -/
theorem talk_in_range {u : FrameUnit} {r : TalkOpenRequest} (h : readTalkOpen u = some r) (desk : Station) :
    (r.talk desk).dim < unity ∧ 1 ≤ (r.talk desk).priority ∧ (r.talk desk).priority ≤ 7 := by
  refine ⟨?_, ?_⟩
  · unfold TalkOpenRequest.talk
    dsimp only
    split
    · decide
    · rename_i hle
      have : unity = 1048576#24 := rfl
      rw [BitVec.lt_def] at *
      simp only [this, BitVec.toNat_ofNat] at *
      omega
  · obtain ⟨k, -, rfl⟩ := Option.map_eq_some_iff.mp h
    unfold TalkOpenRequest.talk
    dsimp only
    omega

theorem talkOpen_talks {n : Node} {u : FrameUnit} {r : TalkOpenRequest} (hr : readTalkOpen u = some r) (desk : Station)
    (h : TalksSound n.mixer) : TalksSound (n.talkOpen r desk).2.mixer := by
  unfold Node.talkOpen
  (repeat' split) <;> try exact h
  rw [talksSound_iff] at *
  intro i
  rw [(commitTalkOpen_mixer n r desk).1]
  split
  · exact applied_law (h i) _ (talk_in_range hr desk) _
  · exact h i

theorem removeTalks_talks (n : Node) (ms : List (Fin 24)) (hn : ms.Nodup) (gone : Talk → Bool) (h : TalksSound n.mixer) :
    TalksSound (n.removeTalks ms gone).mixer := by
  rw [talksSound_iff] at *
  intro i
  rw [(removeTalks_eq n ms hn gone).1]
  split
  · exact withTalks_filter_law (h i) _ _
  · exact h i

theorem talkKeep_talks (n : Node) (mask : MixMask) (desk : Station) (h : TalksSound n.mixer) :
    TalksSound (n.talkKeep mask desk).2.mixer := by
  rw [talksSound_iff] at *
  intro i
  rw [(talkKeep_mixer n mask desk).1]
  split
  · exact (h i).map _ fun t => by split <;> exact ⟨rfl, rfl, rfl⟩
  · exact h i

theorem countDeadlines_get (n : Node) (i : Fin 24) : n.countDeadlines.mixer.mixes.get i =
    { n.mixer.mixes.get i with talks := (n.talks i).map fun t => { t with deadline := t.deadline - 1 } } :=
  Table.get_map ..

theorem countMark_mixer (n : Node) : n.countMark.mixer = n.countDeadlines.mixer := by
  unfold Node.countMark
  simp [Node.countDeadlines]

theorem formAudio_mixer (n : Node) : ∃ m : Node, m.mixer = n.mixer ∧ n.formAudio.mixer = m.computeMixes.mixer := by
  unfold Node.formAudio
  exact ⟨n.localAudio.1.formSlots n.localAudio.2, by simp, by simp⟩

theorem finishLoad_get (n : Node) (flash : List Byte) (straps : BitVec 4) (i : Fin 24) :
    (n.finishLoad flash straps).mixer.mixes.get i =
      { n.mixer.mixes.get i with owner := (load flash straps).values.owners.get i } := by
  unfold Node.finishLoad Node.takeValues
  simp

theorem finishLoad_free (n : Node) (flash : List Byte) (straps : BitVec 4) :
    (n.finishLoad flash straps).mixer.freeCrosspoints = n.mixer.freeCrosspoints := by
  unfold Node.finishLoad Node.takeValues
  simp

/-! ### Every command -/

theorem powerOn_crosspoints (l : LoaderState) (e w : Bool) : CrosspointsSound (Node.powerOn l e w).mixer := by
  rw [crosspointsSound_iff]
  simp [Node.powerOn, MixEngine.initial, Mix.initial, InSlotOrder, Config.crosspoints]

theorem powerOn_talks (l : LoaderState) (e w : Bool) : TalksSound (Node.powerOn l e w).mixer := by
  rw [talksSound_iff]
  simp [Node.powerOn, MixEngine.initial, Mix.initial, TalkLaw, DuckSound, Ramp.settledAt]

theorem removeTalks_crosspoints (n : Node) (ms : List (Fin 24)) (hn : ms.Nodup) (gone : Talk → Bool)
    (h : CrosspointsSound n.mixer) : CrosspointsSound (n.removeTalks ms gone).mixer := by
  obtain ⟨hget, hfree, -⟩ := removeTalks_eq n ms hn gone
  exact crosspointsSound_congr h hfree fun i => by rw [hget]; split <;> rfl

theorem talkOpen_crosspoints (n : Node) (r : TalkOpenRequest) (desk : Station) (h : CrosspointsSound n.mixer) :
    CrosspointsSound (n.talkOpen r desk).2.mixer := by
  unfold Node.talkOpen
  (repeat' split) <;> try exact h
  obtain ⟨hget, hfree⟩ := commitTalkOpen_mixer n r desk
  refine crosspointsSound_congr h hfree fun i => ?_
  rw [hget]
  unfold Fate.applied
  (repeat' split) <;> rfl

theorem crosspoints_keeps : Keeps fun n => CrosspointsSound n.mixer where
  powerOn := powerOn_crosspoints
  finishLoad := fun n f x _ h => crosspointsSound_congr h (finishLoad_free n f x) fun i => by rw [finishLoad_get]
  task := fun n t _ h => by
    cases t with
    | talkExpiry =>
      simpa [Node.doTask, Node.expireTalks] using removeTalks_crosspoints n _ (List.nodup_finRange 24) _ h
    | mark =>
      rw [Node.doTask, countMark_mixer]
      exact crosspointsSound_congr h rfl fun i => by rw [countDeadlines_get]
    | audio =>
      obtain ⟨m, hm, e⟩ := formAudio_mixer n
      rw [Node.doTask, e]
      exact computeMixes_sound m (hm ▸ h)
    | holdExpiry p => exact h
    | _ => simpa [Node.doTask] using h
  mixGain := fun n r d h => mixGain_sound _ r d h
  mixMaster := fun n m c l d h =>
    crosspointsSound_congr h (mixMaster_get n.mixer m c l d).1 fun i => ((mixMaster_get n.mixer m c l d).2 i).1
  talkOpen := fun n _ r d _ _ h => talkOpen_crosspoints n r d h
  talkKeep := fun n m d h => by
    obtain ⟨hget, hfree, -⟩ := talkKeep_mixer n m d
    exact crosspointsSound_congr h hfree fun i => by rw [hget]; split <;> rfl
  talkClose := fun n m _ _ h => removeTalks_crosspoints n _ (nodup_maskMixes m) _ h

theorem talks_keeps : Keeps fun n => TalksSound n.mixer where
  powerOn := powerOn_talks
  finishLoad := fun n f x _ h => (talksSound_iff _).mpr fun i => by
    rw [finishLoad_get]
    exact ((talksSound_iff _).mp h i).congr rfl rfl
  task := fun n t _ h => by
    cases t with
    | talkExpiry => simpa [Node.doTask, Node.expireTalks] using removeTalks_talks n _ (List.nodup_finRange 24) _ h
    | mark =>
      rw [Node.doTask, countMark_mixer]
      refine (talksSound_iff _).mpr fun i => ?_
      rw [countDeadlines_get]
      exact ((talksSound_iff _).mp h i).map _ fun _ => ⟨rfl, rfl, rfl⟩
    | audio =>
      obtain ⟨m, hm, e⟩ := formAudio_mixer n
      rw [Node.doTask, e]
      exact computeMixes_talks m (hm ▸ h)
    | holdExpiry p => exact h
    | _ => simpa [Node.doTask] using h
  mixGain := fun n r d h => (talksSound_iff _).mpr fun i =>
    ((talksSound_iff _).mp h i).congr (mixGain_get n.mixer r d i).1 (mixGain_get n.mixer r d i).2
  mixMaster := fun n m c l d h => (talksSound_iff _).mpr fun i =>
    ((talksSound_iff _).mp h i).congr ((mixMaster_get n.mixer m c l d).2 i).2.1 ((mixMaster_get n.mixer m c l d).2 i).2.2
  talkOpen := fun n _ _ d hr _ h => talkOpen_talks hr d h
  talkKeep := fun n m d h => talkKeep_talks n m d h
  talkClose := fun n m _ _ h => removeTalks_talks n _ (nodup_maskMixes m) _ h

/-- Settles O60: the store's law and the talk lists' law are each kept by every operation. -/
theorem mixStoresKeepTheirLaw : Obligations.MixStoresKeepTheirLaw := by
  unfold Obligations.MixStoresKeepTheirLaw
  intro s t e
  exact ⟨step_keeps crosspoints_keeps e, step_keeps talks_keeps e⟩

end Sys2Proof.Machine
end
section
/-! PROOF. The tap table through the entries of its keys: new entries, talk users moved, and the counts of backs and talk
users (R87, R90, R101, R103). -/

namespace Sys2Proof.Safety

open Sys2Proof Sys2Proof.Machine

/-! ### New entries where there is room (R87, R95) -/

theorem Taps.create_frame (t : Taps) (k : Key) : t.create k =
    { t with entries := (t.create k).entries, free := (t.create k).free, chains := (t.create k).chains } := by
  unfold Taps.create
  split <;> rfl

/-- A table with a place for each of these new keys, and room in their chains (R95). -/
def RoomFor (t : Taps) (new : List Key) : Prop :=
  new.length ≤ t.free.length
    ∧ ∀ k ∈ new, (t.chains.get k.bucket).length + (new.filter fun j => j.bucket == k.bucket).length ≤ 8

/-- What a table is after each of these keys without an entry has been given one. -/
structure Ensured (t : Taps) (ks : List Key) (t' : Taps) : Prop where
  sound : TableSound t'
  free : t'.free.length + (t.missing ks).length = t.free.length
  entryOf : ∀ j, t'.entryOf j = if j ∈ ks ∧ t.entryOf j = none then some (TapEntry.fresh j) else t.entryOf j
  lookup : ∀ j, j ∉ ks ∨ (t.lookup j).isSome = true → t'.lookup j = t.lookup j
  frame : t' = { t with entries := t'.entries, free := t'.free, chains := t'.chains }

theorem Ensured.nil {t : Taps} (h : TableSound t) : Ensured t [] t := ⟨h, rfl, fun j => by simp, fun _ _ => rfl, rfl⟩

/-- A key with an entry needs no new one. -/
theorem Ensured.cons_present {t t' : Taps} {k : Key} {ks : List Key} (h : TableSound t) (hk : (t.lookup k).isSome = true)
    (e : Ensured t ks t') : Ensured t (k :: ks) t' where
  sound := e.sound
  free := by
    have : t.missing (k :: ks) = t.missing ks := by
      unfold Taps.missing
      rw [List.filter_cons_of_neg]
      simpa [Option.isSome_iff_ne_none] using hk
    rw [this]
    exact e.free
  entryOf := fun j => by
    rw [e.entryOf]
    by_cases hj : j = k
    · subst hj
      have : t.entryOf j ≠ none := fun hn => by simp [(h.entryOf_none j).mp hn] at hk
      simp [this]
    · simp [hj]
  lookup := fun j hj => by
    by_cases hs : (t.lookup j).isSome = true
    · exact e.lookup j (.inr hs)
    · exact e.lookup j (.inl fun hm => hj.elim (fun h' => h' (List.mem_cons_of_mem k hm)) hs)
  frame := e.frame

/-- The first of the keys is given an entry, and then the rest. -/
theorem Ensured.cons_new {t t' : Taps} {k : Key} {ks : List Key} (h : TableSound t) (hk : t.lookup k = none)
    (hn : k ∉ ks) {i : EntryNo} {rest : List EntryNo} (hf : t.free = i :: rest)
    (hc : (t.chains.get k.bucket).length < 8) (e : Ensured (t.create k) ks t') : Ensured t (k :: ks) t' := by
  obtain ⟨-, hl, hfree, hlo, hent, -, -⟩ := h.create k hf hk hc
  have hke : t.entryOf k = none := (h.entryOf_none k).mpr hk
  have hmiss : (t.create k).missing ks = t.missing ks :=
    List.filter_congr fun j hj => by rw [hlo j fun e => hn (e ▸ hj)]
  refine ⟨e.sound, ?_, fun j => ?_, fun j hj => ?_, ?_⟩
  · have h1 := e.free
    rw [hmiss, hfree] at h1
    have h2 : t.missing (k :: ks) = k :: t.missing ks := by
      unfold Taps.missing
      rw [List.filter_cons_of_pos (by simp [hk])]
    rw [h2, hf, List.length_cons, List.length_cons]
    omega
  · rw [e.entryOf, hent]
    by_cases hj : j = k
    · subst hj
      simp [hn, hke]
    · simp [hj]
  · have hjk : j ≠ k := fun e => hj.elim (fun h' => h' (by simp [e])) fun h' => by simp [e, hk] at h'
    rw [e.lookup j (hj.imp (fun h' hm => h' (List.mem_cons_of_mem k hm)) fun h' => by rw [hlo j hjk]; exact h'), hlo j hjk]
  · have h1 := e.frame
    rw [h1, Taps.create_frame]

/-- Keys without an entry are each given one, where there is room for them (R87, R95, R97, R103). -/
theorem TableSound.ensureAll (ks : List Key) (hn : ks.Nodup) {t : Taps} (h : TableSound t) (room : RoomFor t (t.missing ks)) :
    Ensured t ks (ks.foldl Taps.ensure t) := by
  induction ks generalizing t with
  | nil => exact .nil h
  | cons k ks ih =>
    obtain ⟨hk, hn⟩ := List.nodup_cons.mp hn
    rw [List.foldl_cons]
    cases hl : t.lookup k with
    | some e =>
      have hm : t.missing (k :: ks) = t.missing ks := by
        unfold Taps.missing
        rw [List.filter_cons_of_neg (by simp [hl])]
      rw [show t.ensure k = t by unfold Taps.ensure; rw [hl]; rfl]
      exact .cons_present h (by simp [hl]) (ih hn h (hm ▸ room))
    | none =>
      have hm : t.missing (k :: ks) = k :: t.missing ks := by
        unfold Taps.missing
        rw [List.filter_cons_of_pos (by simp [hl])]
      rw [hm] at room
      obtain ⟨hlen, hfit⟩ := room
      have hc : (t.chains.get k.bucket).length < 8 := by
        have := hfit k (by simp)
        rw [List.filter_cons_of_pos (by simp), List.length_cons] at this
        omega
      cases hf : t.free with
      | nil => simp [hf] at hlen
      | cons i rest =>
        obtain ⟨hs, -, hfree, hlo, -, hch, -⟩ := h.create k hf hl hc
        have hmiss : (t.create k).missing ks = t.missing ks :=
          List.filter_congr fun j hj => by rw [hlo j fun e => hk (e ▸ hj)]
        rw [show t.ensure k = t.create k by unfold Taps.ensure; rw [hl]; rfl]
        refine .cons_new h hl hk hf hc (ih hn hs ⟨?_, fun j hj => ?_⟩)
        · rw [hmiss, hfree]
          rw [hf] at hlen
          simpa using hlen
        · rw [hmiss] at hj ⊢
          have hj' := hfit j (List.mem_cons_of_mem k hj)
          rw [hch]
          by_cases hb : k.bucket = j.bucket
          · rw [List.filter_cons_of_pos (by simpa using hb), List.length_cons] at hj'
            rw [if_pos hb, List.length_append, List.length_singleton]
            omega
          · rw [List.filter_cons_of_neg (by simpa using hb)] at hj'
            rwa [if_neg hb]

/-- The room that R95 and R103 ask for, as the model judges it. -/
theorem roomFor_iff (t : Taps) (new : List Key) :
    RoomFor t new ↔ ¬t.free.length < new.length ∧ t.chainsHave new = true := by
  unfold RoomFor Taps.chainsHave Config.chainLimit
  simp

/-! ### Talk users moved (R103) -/

/-- An entry with its talk users moved. -/
def usersMoved (v : Int) (x : TapEntry) : TapEntry := { x with talkUsers := ((x.talkUsers : Int) + v).toNat }

theorem TableSound.moveTalkUsers {t : Taps} (h : TableSound t) (c : Key × Int) :
    KeepsLookups t (t.moveTalkUsers c) ∧ ∀ j, (t.moveTalkUsers c).entryOf j =
      if j = c.1 then (t.entryOf j).map (usersMoved c.2) else t.entryOf j :=
  h.updateKey c.1 (usersMoved c.2) fun _ => rfl

/-- The talk users of several keys moved, each once. -/
theorem TableSound.moveAll (changes : List (Key × Int)) (hn : (changes.map Prod.fst).Nodup) {t : Taps} (h : TableSound t) :
    KeepsLookups t (changes.foldl Taps.moveTalkUsers t)
      ∧ (∀ k v, (k, v) ∈ changes → (changes.foldl Taps.moveTalkUsers t).entryOf k = (t.entryOf k).map (usersMoved v))
      ∧ ∀ k, (∀ v, (k, v) ∉ changes) → (changes.foldl Taps.moveTalkUsers t).entryOf k = t.entryOf k := by
  induction changes generalizing t with
  | nil => exact ⟨.refl h, fun k v hm => absurd hm (by simp), fun _ _ => rfl⟩
  | cons c cs ih =>
    obtain ⟨hc, hn⟩ := List.nodup_cons.mp hn
    obtain ⟨hk, he⟩ := h.moveTalkUsers c
    obtain ⟨hks, hin, hout⟩ := ih hn hk.sound
    have hnot : ∀ v, (c.1, v) ∉ cs := fun v hm => hc (List.mem_map.mpr ⟨_, hm, rfl⟩)
    rw [List.foldl_cons]
    refine ⟨hk.trans hks, fun k v hm => ?_, fun k hm => ?_⟩
    · rcases List.mem_cons.mp hm with rfl | hm
      · rw [hout _ hnot, he, if_pos rfl]
      · rw [hin k v hm, he, if_neg fun e => hnot v (by rw [← e]; exact hm)]
    · rw [hout k fun v hv => hm v (List.mem_cons_of_mem c hv), he, if_neg fun e => hm c.2 (by simp [e])]

end Sys2Proof.Safety
end
section
/-! PROOF. The commit of a TAP SET (R97): what it makes of every key's entry and of every slot, and the laws it keeps. -/

namespace Sys2Proof.Safety

open Sys2Proof Sys2Proof.Machine

/-- A change of the entries behind a change of the table leaves the rest of the Tap Controller. -/
theorem KeepsLookups.frame_of {t a b : Taps} (hk : KeepsLookups a b)
    (hf : a = { t with entries := a.entries, free := a.free, chains := a.chains }) :
    b = { t with entries := b.entries, free := b.free, chains := b.chains } := by
  rw [hk.frame, hf]

/-! ### Step 2: the old slot and the old alternate -/

/-- An entry whose backs have fallen where the key is this alternate. -/
def droppedBack (a : Option Key) (j : Key) (x : TapEntry) : TapEntry :=
  if a = some j then { x with backs := x.backs - 1 } else x

/-- The alternate of a key's entry, as it stands. -/
def alternateOf (t : Taps) (k : Key) : Option Key := (t.entryOf k).bind TapEntry.alternate

/-- The slot of a key's entry, as it stands. -/
def slotOf (t : Taps) (k : Key) : Option (Fin 128) := (t.entryOf k).bind TapEntry.slot

/-- The tap table behind a drop of the backs of a key that may be none. -/
def Taps.dropBackOf (t : Taps) : Option Key → Taps
  | some k => t.dropBack k
  | none => t

theorem TableSound.dropBackOf {t : Taps} (h : TableSound t) (a : Option Key) :
    KeepsLookups t (Taps.dropBackOf t a) ∧ ∀ j, (Taps.dropBackOf t a).entryOf j = (t.entryOf j).map (droppedBack a j) := by
  cases a with
  | none => exact ⟨.refl h, fun j => by unfold droppedBack; simp [Taps.dropBackOf]⟩
  | some k =>
    refine ⟨(h.dropBack k).1, fun j => ?_⟩
    refine ((h.dropBack k).2 j).trans ?_
    unfold droppedBack
    by_cases hj : j = k
    · subst hj
      simp
    · simp [hj, Ne.symm hj]

theorem releaseOld_eq (n : Node) (r : TapSetRequest) (s : Fin 128) : n.releaseOld r s = { n with
    router := match slotOf n.taps r.key with
      | some old => if old = s then n.router else { n.router with bindings := n.router.bindings.set old .unbound }
      | none => n.router
    taps := Taps.dropBackOf n.taps (alternateOf n.taps r.key) } := by
  unfold Node.releaseOld slotOf alternateOf
  cases n.taps.entryOf r.key with
  | none => rfl
  | some x =>
    obtain ⟨key, slot, alternate, a, b, c, d, f, g, i, j, k, l, m, o, p⟩ := x
    cases alternate <;> cases slot <;> try rfl
    all_goals
      dsimp only [Option.bind_some]
      split <;> rfl

theorem releaseOld_bindings (n : Node) (r : TapSetRequest) (s o : Fin 128) : (n.releaseOld r s).router.bindings.get o =
    if slotOf n.taps r.key = some o ∧ o ≠ s then .unbound else n.router.bindings.get o := by
  rw [releaseOld_eq]
  cases slotOf n.taps r.key with
  | none => simp
  | some old =>
    by_cases h : old = s
    · subst h
      have : ¬(old = o ∧ ¬o = old) := fun ⟨a, b⟩ => b a.symm
      simp [this]
    · by_cases ho : old = o
      · subst ho
        simp [h]
      · simp [h, ho]

/-! ### Steps 3 and 4: the entries and the binding -/

/-- A key's entry as a TAP SET binds it. -/
def boundEntry (r : TapSetRequest) (s : Fin 128) (x : TapEntry) : TapEntry :=
  { x with slot := some s, alternate := r.alternate, autoReturn := r.autoReturn, onAlternate := false, returnHold := 0 }

/-- The entry of a key behind steps 3 and 4, from the one it had: a new one is made for the key and its alternate, the
key's is bound, and the alternate's backs rise. -/
def boundTo (r : TapSetRequest) (s : Fin 128) (E : Key → Option TapEntry) (j : Key) : Option TapEntry :=
  if j = r.key then some (boundEntry r s ((E j).getD (TapEntry.fresh j)))
  else if r.alternate = some j then
    some { (E j).getD (TapEntry.fresh j) with backs := ((E j).getD (TapEntry.fresh j)).backs + 1 }
  else E j

theorem mem_keys (r : TapSetRequest) (j : Key) : j ∈ r.keys ↔ j = r.key ∨ r.alternate = some j := by
  unfold TapSetRequest.keys
  cases r.alternate <;> simp [eq_comm]

theorem nodup_keys {r : TapSetRequest} (h : r.alternate ≠ some r.key) : r.keys.Nodup := by
  unfold TapSetRequest.keys
  cases ha : r.alternate with
  | none => simp
  | some a =>
    have : r.key ≠ a := fun e => h (by rw [ha, e])
    simpa using this

/-- What steps 3 and 4 make of the table and the bindings. -/
structure Bound (n : Node) (r : TapSetRequest) (s : Fin 128) (m : Node) (i : EntryNo) : Prop where
  sound : TableSound m.taps
  key : m.taps.lookup r.key = some i
  lookup : ∀ j, (n.taps.lookup j).isSome = true → m.taps.lookup j = n.taps.lookup j
  entryOf : ∀ j, m.taps.entryOf j = boundTo r s n.taps.entryOf j
  free : m.taps.free.length + (n.taps.missing r.keys).length = n.taps.free.length
  bindings : ∀ o, m.router.bindings.get o = if o = s then .tap i else n.router.bindings.get o
  frame : m = { n with
    taps := { n.taps with entries := m.taps.entries, free := m.taps.free, chains := m.taps.chains }
    router := { n.router with bindings := m.router.bindings } }

/-- The table behind step 4: the key's entry bound, and the alternate's backs raised. -/
def bindEntry (t : Taps) (r : TapSetRequest) (s : Fin 128) (e : EntryNo) : Taps :=
  match r.alternate with
  | some a => (t.updateEntry e (boundEntry r s)).addBack a
  | none => t.updateEntry e (boundEntry r s)

theorem TableSound.bindEntry {t : Taps} (h : TableSound t) {r : TapSetRequest} {s : Fin 128} {e : EntryNo}
    (hl : t.lookup r.key = some e) (hne : r.alternate ≠ some r.key) :
    KeepsLookups t (bindEntry t r s e)
      ∧ ∀ j, (Safety.bindEntry t r s e).entryOf j = if j = r.key then (t.entryOf j).map (boundEntry r s)
        else if r.alternate = some j then (t.entryOf j).map fun x => { x with backs := x.backs + 1 } else t.entryOf j := by
  have hk := h.updateEntry_keeps e (boundEntry r s) fun _ => rfl
  have he : ∀ j, (t.updateEntry e (boundEntry r s)).entryOf j =
      if j = r.key then (t.entryOf j).map (boundEntry r s) else t.entryOf j := fun j => by
    rw [(h.updateEntry e (boundEntry r s) fun _ => rfl).2.2]
    by_cases hj : j = r.key
    · rw [if_pos (hj ▸ hl), if_pos hj]
    · rw [if_neg fun h' => hj (h.lookup_inj h' hl), if_neg hj]
  unfold Safety.bindEntry
  cases ha : r.alternate with
  | none => exact ⟨hk, fun j => by simpa using he j⟩
  | some a =>
    have hak : a ≠ r.key := fun e => hne (by rw [ha, e])
    obtain ⟨hk', he'⟩ := hk.sound.addBack a
    refine ⟨hk.trans hk', fun j => ?_⟩
    rw [he', he]
    by_cases hj : j = a
    · subst hj
      simp [hak]
    · simp [hj, Ne.symm hj]

theorem bindKey_bound {n : Node} (h : TableSound n.taps) (r : TapSetRequest) (s : Fin 128) (hne : r.alternate ≠ some r.key)
    (room : RoomFor n.taps (n.taps.missing r.keys)) : ∃ i, Bound n r s (n.bindKey r s) i := by
  have e := h.ensureAll r.keys (nodup_keys hne) room
  have hkey : r.key ∈ r.keys := (mem_keys r _).mpr (.inl rfl)
  cases hl : (r.keys.foldl Taps.ensure n.taps).lookup r.key with
  | none =>
    have hn := (e.sound.entryOf_none _).mpr hl
    rw [e.entryOf] at hn
    split at hn
    · cases hn
    · rename_i hno
      exact absurd ⟨hkey, hn⟩ hno
  | some i =>
    obtain ⟨hk, he⟩ := e.sound.bindEntry (s := s) hl hne
    have heq : n.bindKey r s = { n with
        taps := bindEntry (r.keys.foldl Taps.ensure n.taps) r s i
        router := { n.router with bindings := n.router.bindings.set s (.tap i) } } := by
      unfold Node.bindKey
      dsimp only
      rw [Node.updateTaps_taps, hl]
      unfold Safety.bindEntry boundEntry
      cases r.alternate <;> rfl
    refine ⟨i, ?_⟩
    rw [heq]
    refine ⟨hk.sound, (hk.lookup _).trans hl, fun j hj => (hk.lookup j).trans (e.lookup j (.inr hj)), fun j => ?_, ?_, fun o => ?_, ?_⟩
    · refine (he j).trans ?_
      rw [e.entryOf]
      unfold boundTo
      by_cases hj : j = r.key
      · subst hj
        cases n.taps.entryOf r.key <;> simp [hkey]
      · by_cases ha : r.alternate = some j
        · have hm : j ∈ r.keys := (mem_keys r j).mpr (.inr ha)
          cases n.taps.entryOf j <;> simp [hj, ha, hm]
        · have hm : j ∉ r.keys := fun h' => ((mem_keys r j).mp h').elim hj ha
          simp [hj, ha, hm]
    · show (bindEntry _ r s i).free.length + _ = _
      rw [hk.free]
      exact e.free
    · by_cases ho : s = o
      · subst ho
        simp
      · simp [ho, Ne.symm ho]
    · exact congrArg (fun t : Taps => ({ n with taps := t, router := { n.router with
        bindings := n.router.bindings.set s (.tap i) } } : Node)) (hk.frame_of e.frame)

/-! ### Steps 2 to 4 together -/

/-- The entries behind the fall of the backs of a key's old alternate. -/
def fallenEntries (t : Taps) (k j : Key) : Option TapEntry := (t.entryOf j).map (droppedBack (alternateOf t k) j)

/-- What steps 2 to 4 make of a part whose slot is open to the key. -/
structure Rebound (n : Node) (r : TapSetRequest) (s : Fin 128) (m : Node) (i : EntryNo) : Prop where
  sound : TableSound m.taps
  key : m.taps.lookup r.key = some i
  lookup : ∀ j, (n.taps.lookup j).isSome = true → m.taps.lookup j = n.taps.lookup j
  entryOf : ∀ j, m.taps.entryOf j = boundTo r s (fallenEntries n.taps r.key) j
  free : m.taps.free.length + (n.taps.missing r.keys).length = n.taps.free.length
  bindings : ∀ o, m.router.bindings.get o =
    if o = s then .tap i else if slotOf n.taps r.key = some o then .unbound else n.router.bindings.get o
  frame : m = { n with
    taps := { n.taps with entries := m.taps.entries, free := m.taps.free, chains := m.taps.chains }
    router := { n.router with bindings := m.router.bindings } }

/-- Room is judged by lookups, chains and the free list alone. -/
theorem KeepsLookups.roomFor {t t' : Taps} (h : KeepsLookups t t') (ks : List Key) :
    t'.missing ks = t.missing ks ∧ (RoomFor t (t.missing ks) → RoomFor t' (t'.missing ks)) := by
  have hm : t'.missing ks = t.missing ks := List.filter_congr fun j _ => by rw [h.lookup]
  refine ⟨hm, fun hr => ?_⟩
  unfold RoomFor
  rw [hm, h.free, h.chains]
  exact hr

theorem rebound {n : Node} (h : TableSound n.taps) (r : TapSetRequest) (s : Fin 128) (hne : r.alternate ≠ some r.key)
    (room : RoomFor n.taps (n.taps.missing r.keys)) : ∃ i, Rebound n r s ((n.releaseOld r s).bindKey r s) i := by
  obtain ⟨hk, he⟩ := h.dropBackOf (alternateOf n.taps r.key)
  have ht : (n.releaseOld r s).taps = Taps.dropBackOf n.taps (alternateOf n.taps r.key) := by rw [releaseOld_eq]
  obtain ⟨hm, hroom⟩ := hk.roomFor r.keys
  have hs : TableSound (n.releaseOld r s).taps := ht ▸ hk.sound
  obtain ⟨i, b⟩ := bindKey_bound (s := s) hs r hne (by rw [ht]; exact hroom room)
  refine ⟨i, b.sound, b.key, fun j hj => ?_, fun j => ?_, ?_, fun o => ?_, ?_⟩
  · rw [b.lookup j (by rw [ht, hk.lookup]; exact hj), ht, hk.lookup]
  · rw [b.entryOf, ht]
    exact congrArg (boundTo r s · j) (funext he)
  · have hf := b.free
    rw [ht, hm, hk.free] at hf
    exact hf
  · rw [b.bindings, releaseOld_bindings]
    by_cases ho : o = s
    · rw [if_pos ho, if_pos ho]
    · rw [if_neg ho, if_neg ho]
      simp only [ho, ne_eq, not_false_eq_true, and_true]
  · have hf := b.frame
    generalize hx : (n.releaseOld r s).bindKey r s = m at *
    rw [hf, releaseOld_eq]
    have := hk.frame
    generalize Taps.dropBackOf n.taps (alternateOf n.taps r.key) = t at *
    rw [this]
    cases slotOf n.taps r.key with
    | none => rfl
    | some old =>
      by_cases ho : old = s
      · simp [ho]
      · simp [ho]

end Sys2Proof.Safety
end
section
/-! PROOF. Talk-user changes: the net moves of the keys (R163), what a change taken whole makes of every entry (R103), and
the laws it keeps. -/

namespace Sys2Proof.Safety

open Sys2Proof Sys2Proof.Machine

/-! ### Net moves (R163) -/

theorem nodup_eraseDups {α : Type} [BEq α] [LawfulBEq α] (l : List α) : l.eraseDups.Nodup := by
  generalize hn : l.length = n
  induction n using Nat.strongRecOn generalizing l with
  | ind n ih =>
    cases l with
    | nil => simp
    | cons a l =>
      rw [List.eraseDups_cons]
      refine List.nodup_cons.mpr ⟨by simp [List.mem_eraseDups], ih _ ?_ _ rfl⟩
      rw [← hn]
      exact Nat.lt_succ_of_le (List.length_filter_le _ l)

theorem netMove_cons (c : Key × Int) (l : List (Key × Int)) (k : Key) :
    netMove (c :: l) k = (if c.1 = k then c.2 else 0) + netMove l k := by
  unfold netMove
  by_cases h : c.1 = k
  · simp [h]
  · simp [h]

theorem netMove_of_not_mem {l : List (Key × Int)} {k : Key} (h : k ∉ l.map Prod.fst) : netMove l k = 0 := by
  unfold netMove
  rw [List.filter_eq_nil_iff.mpr fun c hc => by simpa using fun e : c.1 = k => h (e ▸ List.mem_map_of_mem hc)]
  rfl

/-- A change that names each key once moves it by the number it gives. -/
theorem netMove_of_mem {l : List (Key × Int)} (hn : (l.map Prod.fst).Nodup) {k : Key} {v : Int} (h : (k, v) ∈ l) :
    netMove l k = v := by
  induction l with
  | nil => exact absurd h (by simp)
  | cons c l ih =>
    obtain ⟨hc, hn⟩ := List.nodup_cons.mp hn
    rw [netMove_cons]
    rcases List.mem_cons.mp h with rfl | h
    · rw [if_pos rfl, netMove_of_not_mem hc, add_zero]
    · have hck : c.1 ≠ k := fun e => hc (List.mem_map.mpr ⟨_, h, e.symm⟩)
      rw [if_neg hck, ih hn h, zero_add]

theorem mem_sumMoves (moves : List (Key × Int)) (k : Key) (v : Int) :
    (k, v) ∈ sumMoves moves ↔ v = netMove moves k ∧ v ≠ 0 := by
  unfold sumMoves
  rw [List.mem_filter, List.mem_map]
  constructor
  · rintro ⟨⟨j, -, e⟩, hv⟩
    cases e
    exact ⟨rfl, by simpa using hv⟩
  · rintro ⟨rfl, hv⟩
    refine ⟨⟨k, ?_, rfl⟩, by simpa using hv⟩
    rw [List.mem_eraseDups]
    by_contra hk
    exact hv (netMove_of_not_mem hk)

theorem nodup_sumMoves (moves : List (Key × Int)) : ((sumMoves moves).map Prod.fst).Nodup := by
  refine ((nodup_eraseDups (moves.map Prod.fst)).sublist ?_)
  have h := (List.filter_sublist (p := fun c : Key × Int => c.2 != 0)
    (l := (moves.map Prod.fst).eraseDups.map fun k => (k, netMove moves k))).map Prod.fst
  rwa [List.map_map, show (Prod.fst ∘ fun k => (k, netMove moves k)) = id from rfl, List.map_id] at h

/-- What is handed to the Tap Controller is one change of the net moves (R163). -/
theorem handTalkUsers_usersMoved (n : Node) (moves : List (Key × Int)) : UsersMoved moves n (n.handTalkUsers moves) := by
  refine ⟨sumMoves moves, nodup_sumMoves moves, fun k v => mem_sumMoves moves k v, ?_⟩
  unfold Node.handTalkUsers
  dsimp only
  simp only [List.isEmpty_iff]

/-! ### A change taken whole (R103) -/

/-- The keys that a change raises. -/
def rises (changes : List (Key × Int)) : List Key := (changes.filter fun c => decide (0 < c.2)).map Prod.fst

/-- The keys that a change needs entries for. -/
def risesNew (t : Taps) (changes : List (Key × Int)) : List Key := t.missing (rises changes)

theorem changeUsers_tableFull {t : Taps} {changes : List (Key × Int)} (h : t.free.length < (risesNew t changes).length) :
    t.changeUsers changes = (.tableFull, t) := if_pos h

theorem changeUsers_chainFull {t : Taps} {changes : List (Key × Int)} (h : ¬t.free.length < (risesNew t changes).length)
    (hc : t.chainsHave (risesNew t changes) = false) : t.changeUsers changes = (.chainFull, t) := by
  unfold Taps.changeUsers
  exact (if_neg h).trans (if_pos (by simpa [risesNew, rises] using hc))

/-- The entries made and moved by a change, before the free checks. -/
def movedTaps (t : Taps) (changes : List (Key × Int)) : Taps :=
  changes.foldl Taps.moveTalkUsers ((risesNew t changes).foldl Taps.ensure t)

/-- The entries that a change lowers. -/
def fallen (t : Taps) (changes : List (Key × Int)) : List EntryNo :=
  (changes.filter fun c => decide (c.2 < 0)).filterMap fun c => (movedTaps t changes).lookup c.1

theorem changeUsers_done {t : Taps} {changes : List (Key × Int)} (h : RoomFor t (risesNew t changes)) :
    t.changeUsers changes = (.done, (movedTaps t changes).freeChecks (fallen t changes)) := by
  obtain ⟨hf, hc⟩ := (roomFor_iff t _).mp h
  unfold Taps.changeUsers
  exact (if_neg hf).trans (if_neg (by simpa [risesNew, rises] using hc))

/-- A key's entry moved by a number: a rise makes an entry where there is none. -/
def movedEntry (v : Int) (k : Key) (o : Option TapEntry) : Option TapEntry :=
  match o with
  | some x => some (usersMoved v x)
  | none => if 0 < v then some (usersMoved v (TapEntry.fresh k)) else none

theorem usersMoved_zero (x : TapEntry) : usersMoved 0 x = x := by
  unfold usersMoved
  rw [add_zero, Int.toNat_natCast]

theorem mem_rises {changes : List (Key × Int)} (hn : (changes.map Prod.fst).Nodup) (k : Key) :
    k ∈ rises changes ↔ 0 < netMove changes k := by
  unfold rises
  constructor
  · intro h
    obtain ⟨⟨j, v⟩, hc, rfl⟩ := List.mem_map.mp h
    obtain ⟨hc, hv⟩ := List.mem_filter.mp hc
    rw [netMove_of_mem hn hc]
    simpa using hv
  · intro h
    by_cases hk : k ∈ changes.map Prod.fst
    · obtain ⟨⟨j, v⟩, hc, rfl⟩ := List.mem_map.mp hk
      rw [netMove_of_mem hn hc] at h
      exact List.mem_map.mpr ⟨_, List.mem_filter.mpr ⟨hc, by simpa using h⟩, rfl⟩
    · rw [netMove_of_not_mem hk] at h
      exact absurd h (lt_irrefl 0)

/-- The table behind a change, before its free checks. -/
structure Moved (t : Taps) (changes : List (Key × Int)) : Prop where
  sound : TableSound (movedTaps t changes)
  entryOf : ∀ k, (movedTaps t changes).entryOf k = movedEntry (netMove changes k) k (t.entryOf k)
  lookup : ∀ k, (t.lookup k).isSome = true → (movedTaps t changes).lookup k = t.lookup k
  frame : movedTaps t changes = { t with
    entries := (movedTaps t changes).entries, free := (movedTaps t changes).free, chains := (movedTaps t changes).chains }

theorem TableSound.moved {t : Taps} (h : TableSound t) {changes : List (Key × Int)} (hn : (changes.map Prod.fst).Nodup)
    (room : RoomFor t (risesNew t changes)) : Moved t changes := by
  have hnew : ∀ k, k ∈ risesNew t changes ↔ 0 < netMove changes k ∧ t.lookup k = none := fun k => by
    unfold risesNew Taps.missing
    rw [List.mem_filter, mem_rises hn]
    simp
  have hnd : (risesNew t changes).Nodup :=
    ((hn.sublist (List.filter_sublist.map _)).filter _ : ((rises changes).filter _).Nodup)
  have hmiss : t.missing (risesNew t changes) = risesNew t changes := by
    unfold risesNew Taps.missing
    rw [List.filter_filter]
    simp
  have e := h.ensureAll (risesNew t changes) hnd (hmiss.symm ▸ room)
  obtain ⟨hk, hin, hout⟩ := e.sound.moveAll changes hn
  refine ⟨hk.sound, fun k => ?_, fun k hs => (hk.lookup k).trans (e.lookup k (.inr hs)), hk.frame_of e.frame⟩
  have hmoved : (movedTaps t changes).entryOf k
      = (((risesNew t changes).foldl Taps.ensure t).entryOf k).map (usersMoved (netMove changes k)) := by
    unfold movedTaps
    by_cases hm : k ∈ changes.map Prod.fst
    · obtain ⟨⟨j, v⟩, hc, rfl⟩ := List.mem_map.mp hm
      rw [netMove_of_mem hn hc]
      exact hin j v hc
    · rw [netMove_of_not_mem hm, hout k fun v hv => hm (List.mem_map.mpr ⟨_, hv, rfl⟩),
        show usersMoved 0 = id from funext usersMoved_zero, Option.map_id, id]
  rw [hmoved, e.entryOf]
  unfold movedEntry
  cases hx : t.entryOf k with
  | some x => simp
  | none =>
    have hl := (h.entryOf_none k).mp hx
    by_cases hp : 0 < netMove changes k
    · simp [hp, (hnew k).mpr ⟨hp, hl⟩]
    · simp [hp, mt (fun hm => ((hnew k).mp hm).1) hp]

/-- A change taken whole: each key's entry is moved, and goes when it has lost its last user and nothing else uses it. -/
theorem TableSound.changeUsers {t : Taps} (h : TableSound t) {changes : List (Key × Int)} (hn : (changes.map Prod.fst).Nodup)
    (room : RoomFor t (risesNew t changes)) :
    TableSound (t.changeUsers changes).2
      ∧ (∀ k, (t.changeUsers changes).2.entryOf k =
          (movedEntry (netMove changes k) k (t.entryOf k)).filter fun y => !(decide (netMove changes k < 0) && unused y))
      ∧ (t.changeUsers changes).2 = { t with
          entries := (t.changeUsers changes).2.entries, free := (t.changeUsers changes).2.free,
          chains := (t.changeUsers changes).2.chains } := by
  have m := h.moved hn room
  rw [changeUsers_done room]
  obtain ⟨hs, -, hor, hgone, hframe⟩ := m.sound.freeChecks (fallen t changes)
  refine ⟨hs, fun k => ?_, ?_⟩
  · have hmem : ∀ e x, (movedTaps t changes).entryOf k = some x → (movedTaps t changes).lookup k = some e →
        (e ∈ fallen t changes ↔ netMove changes k < 0) := fun e x _ hl => by
      unfold fallen
      rw [List.mem_filterMap]
      constructor
      · rintro ⟨⟨j, v⟩, hc, hj⟩
        obtain ⟨hc, hv⟩ := List.mem_filter.mp hc
        have := m.sound.lookup_inj hj hl
        dsimp only at this
        rw [← this, netMove_of_mem hn hc]
        simpa using hv
      · intro hv
        have hk : k ∈ changes.map Prod.fst := by
          by_contra hk
          rw [netMove_of_not_mem hk] at hv
          exact absurd hv (lt_irrefl 0)
        obtain ⟨⟨j, v⟩, hc, rfl⟩ := List.mem_map.mp hk
        rw [netMove_of_mem hn hc] at hv
        exact ⟨_, List.mem_filter.mpr ⟨hc, by simpa using hv⟩, hl⟩
    rw [← m.entryOf]
    cases hx : (movedTaps t changes).entryOf k with
    | none =>
      rcases hor k with ⟨he, -⟩ | ⟨he, -⟩
      · rw [he, hx]
        rfl
      · rw [he]
        rfl
    | some x =>
      obtain ⟨e, he, hek⟩ := (m.sound.entryOf_iff k x).mp hx
      have hl := (m.sound.lookup_iff k e).mpr ⟨x, he, hek⟩
      by_cases hc : netMove changes k < 0 ∧ unused x = true
      · rw [hgone k e x ((hmem e x hx hl).mpr hc.1) hl hx hc.2]
        simp [Option.filter, hc.1, hc.2]
      · rcases hor k with ⟨he', -⟩ | ⟨-, -, f, y, hf, hfl, hy, hu⟩
        · rw [he', hx]
          by_cases hv : netMove changes k < 0
          · have : unused x = false := by simpa [hv] using hc
            simp [Option.filter, this]
          · simp [Option.filter, hv]
        · rw [hx] at hy
          cases hy
          exact absurd ⟨(hmem f x hx hfl).mp hf, hu⟩ hc
  · have hf := m.frame
    generalize movedTaps t changes = a at *
    rw [hframe, hf]

end Sys2Proof.Safety
end
section
/-! PROOF. The law of talk users needs the law of the talk lists (R160): a list that holds two talks of one desk loses
both when the desk opens a talk again, and the source loses one user. -/

namespace Sys2Proof.Machine

open Sys2Proof Sys2Proof.Safety

theorem initial_entries (delay : Nat) (e : EntryNo) : (Taps.initial delay).entries.get e = none := Table.get_replicate ..

theorem initial_chains (delay : Nat) (b : Fin 64) : (Taps.initial delay).chains.get b = [] := Table.get_replicate ..

theorem initial_lookup (delay : Nat) (k : Key) : (Taps.initial delay).lookup k = none := by
  unfold Taps.lookup
  rw [initial_chains]
  rfl

theorem initial_free (delay : Nat) : (Taps.initial delay).free = List.finRange 256 := by
  unfold Taps.initial
  dsimp only

/-- The tap table before any entry is made keeps its law. -/
theorem initial_sound (delay : Nat) : TableSound (Taps.initial delay) := by
  unfold TableSound
  rw [initial_free]
  refine ⟨List.nodup_finRange 256, fun e => iff_of_true (List.mem_finRange e) (initial_entries delay e), fun b e => ?_,
    fun b => ?_, fun e f x y hx _ _ => ?_⟩
  · rw [initial_chains]
    refine iff_of_false (by simp) fun ⟨x, hx, _⟩ => ?_
    rw [initial_entries] at hx
    cases hx
  · rw [initial_chains]
    exact ⟨List.nodup_nil, Nat.zero_le _⟩
  · rw [initial_entries] at hx
    cases hx

namespace TwoTalks

/-- The source of both talks. -/
def source : Key := ⟨0, 0⟩

/-- The entry of the source, with its two users. -/
def entry : TapEntry := { TapEntry.fresh source with talkUsers := 2 }

/-- A table with that entry alone. -/
def taps : Taps := ((Taps.initial 12).create source).updateEntry 0 fun x => { x with talkUsers := 2 }

/-- A talk from the source, of the station's own desk. -/
def talk : Talk := { desk := 0, source := source, priority := 1, dim := 0#24, level := 0#24, deadline := 120 }

/-- A mix whose list holds the talk twice. -/
def mix : Mix := { Mix.initial with talks := [talk, talk] }

/-- The desk's TALK OPEN on that mix, from the same source. -/
def request : FrameUnit := unitOf [kindTalkOpen, 1#8, 1#8, 0#8, 0#8, 0#8, 1#8, 0#8, 0#8, 0#8, 1#8, 1#8]

/-- A working part with the two talks, and the TALK OPEN at the head of its queue. -/
def node : Node :=
  { Node.powerOn .finished false false with
    taps := taps
    mixer := { MixEngine.initial with mixes := MixEngine.initial.mixes.set 0 mix }
    messages := { Messages.initial with queue := [{ message := request, source := .port }] } }

/-- The state before the step. -/
def before : State := { node := node, agenda := [], pending := [.talkOpen] }

/-- The state behind the step. -/
def after : State := ({ before with pending := [] } : State).work fun n =>
  n.carryRequest kindTalkOpen readTalkOpen fun r desk m => (some (m.talkOpen r desk).1, (m.talkOpen r desk).2)

theorem step_before : step before = .next after := rfl

theorem created : TableSound ((Taps.initial 12).create source)
    ∧ ∀ j, ((Taps.initial 12).create source).entryOf j = if j = source then some (TapEntry.fresh source) else none := by
  have h0 := initial_sound 12
  obtain ⟨hs, -, -, -, he, -⟩ := h0.create source ((initial_free 12).trans (List.finRange_succ ..)) (initial_lookup 12 _)
    (by rw [initial_chains]; decide)
  refine ⟨hs, fun j => ?_⟩
  rw [he, (h0.entryOf_none j).mpr (initial_lookup 12 j)]

theorem updated : TableSound taps ∧ (∀ k, taps.lookup k = ((Taps.initial 12).create source).lookup k)
    ∧ ∀ k, taps.entryOf k = if ((Taps.initial 12).create source).lookup k = some 0 then
      (((Taps.initial 12).create source).entryOf k).map (fun x => { x with talkUsers := 2 })
      else ((Taps.initial 12).create source).entryOf k :=
  created.1.updateEntry 0 (fun x => { x with talkUsers := 2 }) fun _ => rfl

theorem sound : TableSound taps := updated.1

theorem entryOf (j : Key) : taps.entryOf j = if j = source then some entry else none := by
  have hl : ((Taps.initial 12).create source).lookup source = some 0 := by decide +kernel
  rw [updated.2.2, created.2]
  by_cases hj : j = source
  · subst hj
    rw [if_pos hl, if_pos rfl, if_pos rfl]
    rfl
  · rw [if_neg hj, if_neg hj]
    split <;> rfl

theorem entries (e : EntryNo) (x : TapEntry) (h : taps.entries.get e = some x) : x = entry := by
  have he := (sound.entryOf_iff x.key x).mpr ⟨e, h, rfl⟩
  rw [entryOf] at he
  split at he
  · exact (Option.some.inj he).symm
  · cases he

theorem bindings : BindingsAgree node := by
  refine fun s e => iff_of_false (fun h => ?_) fun ⟨x, hx, hs⟩ => ?_
  · have hu : node.router.bindings.get s = .unbound := by simp [node, Node.powerOn, Router.initial]
    rw [hu] at h
    cases h
  · rw [entries e x hx] at hs
    cases hs

theorem used : EntriesUsed taps := fun e x hx => by
  rw [entries e x hx]
  exact ⟨.inr (.inr (by decide)), fun _ => rfl⟩

theorem backs : BacksAgree taps := fun k => by
  have hnil : ((inUse taps).filter fun x => x.alternate == some k) = [] := by
    refine List.filter_eq_nil_iff.mpr fun x hx => ?_
    obtain ⟨o, ho, hox⟩ := List.mem_filterMap.mp hx
    obtain ⟨e, rfl⟩ := (Table.mem_items_iff _ _).mp ho
    rw [entries e x hox]
    exact Bool.false_ne_true
  rw [hnil, entryOf]
  by_cases hk : k = source
  · rw [if_pos hk]
    rfl
  · rw [if_neg hk]
    rfl

theorem users : TalkUsersAgree node := fun k => by
  have hitems : node.mixer.mixes.items = mix :: List.replicate 23 Mix.initial := rfl
  have hentry : node.taps.entryOf k = if k = source then some entry else none := entryOf k
  rw [hitems, hentry]
  have hrest : ((List.replicate 23 Mix.initial).flatMap fun x => x.talks.filter fun t => t.source == k) = [] := by
    simp [Mix.initial]
  rw [List.flatMap_cons, hrest]
  by_cases hk : k = source
  · subst hk
    rfl
  · have : ¬(talk.source == k) = true := by simpa [talk] using Ne.symm hk
    simp [mix, this, hk]

/-- Behind the step one talk is left, and the source still has two users. -/
theorem not_users : ¬TalkUsersAgree after.node := fun h =>
  absurd (h source) (by decide +kernel)

end TwoTalks

/-- Refutes O59: in a list with two talks of one desk, which R160 shuts out and the statement does not, a TALK OPEN of the
desk replaces both, and moves the talk users by one. -/
theorem not_tapTableKeepsItsLaw : ¬ Obligations.TapTableKeepsItsLaw := by
  unfold Obligations.TapTableKeepsItsLaw
  intro h
  have hlaws := h _ _ TwoTalks.step_before TwoTalks.sound TwoTalks.bindings (fun hr => by cases hr)
  exact TwoTalks.not_users (hlaws.2 TwoTalks.used TwoTalks.backs TwoTalks.users).2.2

end Sys2Proof.Machine
end
section
/-! PROOF. The talk lists at the stage side (Section 9.3): TALK KEEP, TALK CLOSE, TALK OPEN and the expiry of talks. -/

namespace Sys2Proof.Machine

open Sys2Proof Sys2Proof.Safety

/-! ### Notices (R82) -/

/-- The three bytes of a value give it back. -/
theorem join24_extract (v : Coef) : join24 (v.extractLsb' 16 8) (v.extractLsb' 8 8) (v.extractLsb' 0 8) = v := by
  unfold join24
  rw [BitVec.extractLsb'_append_extractLsb'_eq_extractLsb' (by rfl), BitVec.extractLsb'_append_extractLsb'_eq_extractLsb' (by rfl)]
  exact BitVec.extractLsb'_eq_self

/-- The station's own notice comes back at once as a talk report, without a slot (R82, R159). -/
theorem giveNotice_own (n : Node) (evicted : Bool) (mask : MixMask) :
    n.giveNotice { desk := n.station, evicted := evicted, mask := mask } =
      n.post (.talk none (some n.station) kindTalkOpen (if evicted then 12#8 else 13#8) mask 0#24) := by
  rw [Node.giveNotice, if_pos rfl]
  cases evicted <;> simp [Notice.result, Notice.outcome, resultUnit, Node.talkResult, Node.resultReport, firstMask,
    busyMask, isKeepMiss, byte_unitOf, FrameUnit.field24, isNoticeOutcome, Answer.code, bytes24, join24_extract,
    FrameUnit.sender, kindTalkOpen, kindTalkKeep]

theorem giveNotice_other (n : Node) (x : Notice) (h : x.desk ≠ n.station) :
    n.giveNotice x = { n with messages := withNotice n.messages x } := if_neg h

/-- The notice of a desk that has lost these mixes. -/
def noticeOf (evicted : Bool) (lost : Station → List (Fin 24)) (d : Station) : Notice :=
  { desk := d, evicted := evicted, mask := maskOf (lost d) }

/-- One desk's notice, if it has lost any. -/
def Node.noticeDesk (evicted : Bool) (lost : Station → List (Fin 24)) (n : Node) (d : Station) : Node :=
  if (lost d).isEmpty then n else n.giveNotice (noticeOf evicted lost d)

/-- The notices of several desks: the station's own is reported, and the others join the list in their order. -/
theorem foldl_noticeDesk (evicted : Bool) (lost : Station → List (Fin 24)) (ds : List Station) (hn : ds.Nodup) (n : Node) :
    ds.foldl (Node.noticeDesk evicted lost) n = { n with
      messages := ((ds.filter fun d => d != n.station && !(lost d).isEmpty).map (noticeOf evicted lost)).foldl withNotice
        n.messages
      reports := if n.station ∈ ds then (ownNotice n evicted (lost n.station)).foldl ReportQueue.post n.reports
        else n.reports } := by
  induction ds generalizing n with
  | nil => rfl
  | cons d ds ih =>
    obtain ⟨hd, hn⟩ := List.nodup_cons.mp hn
    rw [List.foldl_cons, ih hn]
    by_cases he : lost d = []
    · have hs : Node.noticeDesk evicted lost n d = n := if_pos (by simp [he])
      rw [hs]
      by_cases ho : n.station = d
      · subst ho
        simp [he, hd, ownNotice]
      · simp [he, ho]
    · have hs : Node.noticeDesk evicted lost n d = n.giveNotice (noticeOf evicted lost d) := if_neg (by simpa using he)
      rw [hs]
      by_cases ho : d = n.station
      · subst ho
        unfold noticeOf
        rw [giveNotice_own]
        unfold Node.station at *
        simp [he, hd, ownNotice, Node.post]
        rfl
      · rw [giveNotice_other _ _ ho]
        unfold Node.station at *
        simp [he, ho, Ne.symm ho, ownNotice]
        rfl

/-- The notices of one action (R163, R166). -/
theorem giveNotices_eq (n : Node) (evicted : Bool) (losses : List (Station × Fin 24)) (lost : Station → List (Fin 24))
    (hl : ∀ d, (losses.filter fun l => l.1 == d).map Prod.snd = lost d) :
    n.giveNotices evicted losses = { n with
      messages := (otherNotices n.station evicted lost).foldl withNotice n.messages
      reports := (ownNotice n evicted (lost n.station)).foldl ReportQueue.post n.reports } := by
  have h := foldl_noticeDesk evicted lost (List.finRange 16) (List.nodup_finRange 16) n
  rw [if_pos (List.mem_finRange _)] at h
  rw [← funext hl] at h ⊢
  exact h

theorem withNotice_frame (m : Messages) (x : Notice) :
    withNotice m x = { m with notices := (withNotice m x).notices, noticeDrop := (withNotice m x).noticeDrop } := by
  unfold withNotice
  dsimp only
  split
  · rfl
  · split <;> rfl

theorem foldl_withNotice_frame (l : List Notice) (m : Messages) :
    l.foldl withNotice m
      = { m with notices := (l.foldl withNotice m).notices, noticeDrop := (l.foldl withNotice m).noticeDrop } := by
  induction l generalizing m with
  | nil => rfl
  | cons x l ih =>
    rw [List.foldl_cons, ih, withNotice_frame m x]

/-- Notices of desks that have none join the list's tail while it has room. -/
theorem foldl_withNotice_fresh (l : List Notice) (m : Messages) (hn : ((m.notices ++ l).map fun x => x.desk).Nodup)
    (hlen : (m.notices ++ l).length ≤ 16) : (l.foldl withNotice m).notices = m.notices ++ l := by
  induction l generalizing m with
  | nil => simp
  | cons x l ih =>
    have hw : (withNotice m x).notices = m.notices ++ [x] := by
      have hnew : ¬(m.notices.any fun y => y.desk == x.desk && y.evicted == x.evicted) = true := by
        rw [List.any_eq_true]
        rintro ⟨y, hy, hs⟩
        have hd : y.desk = x.desk := by simpa using (Bool.and_eq_true_iff.mp hs).1
        rw [List.map_append, List.map_cons] at hn
        exact (List.nodup_append.mp hn).2.2 _ (List.mem_map_of_mem hy) _ List.mem_cons_self hd
      have hroom : m.notices.length < 16 := by
        rw [List.length_append, List.length_cons] at hlen
        omega
      unfold withNotice
      rw [if_neg hnew, if_pos hroom]
    rw [List.foldl_cons, ih, hw, List.append_assoc, List.singleton_append]
    · rwa [hw, List.append_assoc, List.singleton_append]
    · rwa [hw, List.append_assoc, List.singleton_append]

/-- With no notice waiting every other desk that lost talks gets its own (R163, R166). -/
theorem mem_otherNotices (own : Station) (evicted : Bool) (lost : Station → List (Fin 24)) (m : Messages)
    (h : m.notices = []) (d : Station) (hd : d ≠ own) (hl : lost d ≠ []) :
    noticeOf evicted lost d ∈ ((otherNotices own evicted lost).foldl withNotice m).notices := by
  have hds : ((otherNotices own evicted lost).map fun x => x.desk)
      = (List.finRange 16).filter fun d => d != own && !(lost d).isEmpty := by
    unfold otherNotices
    rw [List.map_map]
    exact List.map_id _
  rw [foldl_withNotice_fresh, h, List.nil_append]
  · exact List.mem_map.mpr ⟨d, by simp [hd, hl], rfl⟩
  · rw [h, List.nil_append, hds]
    exact (List.nodup_finRange 16).filter _
  · rw [h, List.nil_append, ← List.length_map (f := fun x : Notice => x.desk), hds]
    exact (List.length_filter_le _ _).trans (List.length_finRange).le

/-! ### TALK KEEP and TALK CLOSE (R164, R165) -/

/-- A request with unreadable fields is answered BAD FIELD, and reaches no owner (R68). -/
theorem carry_badField {α : Type} (c : Instr) (s : State) (e : QueueEntry) (k : Byte) (read : FrameUnit → Option α)
    (owner : α → Station → Node → Option Reply × Node)
    (hx : exec c s = .next (s.work fun n => n.carryRequest k read owner)) (h : HeadReady s.finish.node e)
    (hk : e.message.kind = k) (hr : read e.message = none) :
    Leaves c s (s.finish.node.complete e (some { outcome := .badField, detail := [] })) := by
  have := work_leaves c s _ hx h.1
  rw [Node.carryRequest, Node.carryOut, head_ready _ e _ h (by simp [hk])] at this
  simp only [hr] at this
  exact this

/-- Settles O47. -/
theorem talkKeepRenewsTheDeadlines : Obligations.TalkKeepRenewsTheDeadlines := by
  unfold Obligations.TalkKeepRenewsTheDeadlines
  intro s e n mask desk missing hr hk
  obtain ⟨hget, hfree, hframe⟩ := talkKeep_mixer n mask desk
  have hl := carry_leaves .talkKeep s e kindTalkKeep readMask (fun mask desk m => m.talkKeep mask desk) mask rfl hr hk rfl
  have hreply : (n.talkKeep mask desk).1
      = if missing = [] then none else some { outcome := .notFound, detail := bytes24 (maskOf missing) } := by
    unfold Node.talkKeep
    simp only [List.isEmpty_iff]
    rfl
  refine ⟨_, hreply ▸ hl, fun x => ?_, hfree, hframe⟩
  rw [hget]
  by_cases hm : maskHas mask x = true
  · simp [hm]
  · simp [hm, Node.talks]

/-- What gives nothing may be left out. -/
theorem flatMap_filter_of_nil {α β : Type} (p : α → Bool) (f : α → List β) (h : ∀ x, p x = false → f x = []) (l : List α) :
    (l.filter p).flatMap f = l.flatMap f := by
  induction l with
  | nil => rfl
  | cons a l ih =>
    cases hp : p a
    · rw [List.filter_cons_of_neg (by simp [hp]), List.flatMap_cons, h a hp, ih, List.nil_append]
    · rw [List.filter_cons_of_pos hp, List.flatMap_cons, List.flatMap_cons, ih]

/-- The moves of the talks lost, read list by list. -/
theorem lossMoves_eq (n : Node) (ms : List (Fin 24)) (gone : Talk → Bool) :
    n.lossMoves ms gone = ms.flatMap fun x => ((n.talks x).filter gone).map fun t => (t.source, (-1 : Int)) :=
  flatMap_filter_of_nil _ _ (fun x hx => by
    rw [List.filter_eq_nil_iff.mpr fun t ht hg => ?_, List.map_nil]
    rw [List.any_eq_false] at hx
    exact hx t ht hg) ms

theorem filter_eq_nil_iff_any {α : Type} (p : α → Bool) (l : List α) : l.filter p = [] ↔ l.any p = false := by
  rw [List.filter_eq_nil_iff, List.any_eq_false]

/-- What `removeTalks_eq` says, in the terms of the statements. -/
theorem removeTalks_made (n : Node) (ms : List (Fin 24)) (hn : ms.Nodup) (gone : Talk → Bool) :
    ∃ u : Node, UsersMoved (ms.flatMap fun x => ((n.talks x).filter gone).map fun t => (t.source, (-1 : Int))) n u
      ∧ n.removeTalks ms gone
        = { n with taps := u.taps, reports := u.reports, mixer := (n.removeTalks ms gone).mixer } := by
  obtain ⟨-, -, hframe⟩ := removeTalks_eq n ms hn gone
  rw [← lossMoves_eq]
  refine ⟨_, handTalkUsers_usersMoved n _, hframe.trans ?_⟩
  rw [handTalkUsers_eq]

theorem removeTalks_get (n : Node) (ms : List (Fin 24)) (hn : ms.Nodup) (gone : Talk → Bool) (x : Fin 24) :
    (n.removeTalks ms gone).mixer.mixes.get x = if x ∉ ms ∨ (n.talks x).filter gone = [] then n.mixer.mixes.get x
      else withTalks (n.mixer.mixes.get x) ((n.talks x).filter fun t => !gone t) n.loader.values.duckRamp := by
  rw [(removeTalks_eq n ms hn gone).1]
  simp only [filter_eq_nil_iff_any]
  by_cases hm : x ∈ ms
  · cases (n.talks x).any gone <;> simp [hm]
  · simp [hm]

/-- A change taken whole, in the terms of the statement (R103). -/
theorem talkUserChange_whole (n : Node) (changes : List (Key × Int)) (hn : (changes.map Prod.fst).Nodup)
    (h : TableSound n.taps) (room : RoomFor n.taps (risesNew n.taps changes)) :
    let m := (n.talkUserChange changes).2
    (n.talkUserChange changes).1 = .done
      ∧ (∀ k, m.taps.entryOf k = (movedEntry (netMove changes k) k (n.taps.entryOf k)).filter fun y =>
          !(decide (netMove changes k < 0) && unused y))
      ∧ m.reports = (if n.loader.values.lowFreeMark ≤ n.taps.free.length
            ∧ m.taps.free.length < n.loader.values.lowFreeMark then
          n.reports.post (.tableLow m.taps.free.length n.loader.values.lowFreeMark) else n.reports)
      ∧ m = { n with taps := m.taps, reports := m.reports } := by
  obtain ⟨-, hentry, -⟩ := h.changeUsers hn room
  rw [talkUserChange_eq]
  refine ⟨by rw [changeUsers_done room], ?_, ?_, ?_⟩
  · simpa using hentry
  · simp [judgeTableLow_reports]
  · rw [node_ext_iff]
    simp

/-- A key's entry behind its move and its free check. -/
theorem filter_movedEntry_some (v : Int) (k : Key) (x : TapEntry) :
    (movedEntry v k (some x)).filter (fun y => !(decide (v < 0) && unused y)) =
      let y : TapEntry := { x with talkUsers := ((x.talkUsers : Int) + v).toNat }
      if v < 0 ∧ y.slot = none ∧ y.backs = 0 ∧ y.talkUsers = 0 then none else some y := by
  have hu : unused (usersMoved v x) = true ↔ x.slot = none ∧ x.backs = 0 ∧ ((x.talkUsers : Int) + v).toNat = 0 := by
    simp [unused, usersMoved, and_assoc]
  simp only [movedEntry, Option.filter_some]
  by_cases h : v < 0 ∧ unused (usersMoved v x) = true
  · rw [if_neg (by simp [h]), if_pos ⟨h.1, hu.mp h.2⟩]
  · rw [if_pos (by simpa [imp_iff_not_or] using h), if_neg fun hc => h ⟨hc.1, hu.mpr hc.2⟩]
    rfl

theorem filter_movedEntry_none (v : Int) (k : Key) :
    (movedEntry v k none).filter (fun y => !(decide (v < 0) && unused y)) =
      if 0 < v then some { TapEntry.fresh k with talkUsers := v.toNat } else none := by
  by_cases h : 0 < v
  · have hv : ¬v < 0 := by omega
    simp [movedEntry, h, hv, usersMoved, TapEntry.fresh]
  · simp [movedEntry, h]

/-- Settles O48: what TALK CLOSE removes is `removeTalks_made`, and a change is the free checks of the moved table. -/
theorem talkCloseRemovesTheTalks : Obligations.TalkCloseRemovesTheTalks := by
  unfold Obligations.TalkCloseRemovesTheTalks
  refine ⟨fun s e => ?_, fun n changes hn h => ?_⟩
  · intro n mask desk gone moves hr hk
    have hl := carry_leaves .talkClose s e kindTalkClose readMask (fun mask desk m => (none, m.talkClose mask desk)) mask rfl
      hr hk rfl
    have hmask := nodup_maskMixes mask
    obtain ⟨u, hu, hframe⟩ := removeTalks_made n (maskMixes mask) hmask fun t => t.desk == desk
    have hgone : ∀ x, maskHas mask x = true → (n.talks x).filter (fun t => t.desk == desk) = gone x := fun x hx => by
      simp [gone, hx]
    have hno : ∀ x, maskHas mask x = false → gone x = [] := fun x hx => by simp [gone, hx]
    have hmoves : (maskMixes mask).flatMap (fun x => ((n.talks x).filter fun t => t.desk == desk).map
        fun t => (t.source, (-1 : Int))) = moves := by
      rw [List.flatMap_congr fun x hx => by rw [hgone x ((mem_maskMixes mask x).mp hx)]]
      exact flatMap_filter_of_nil _ _ (fun x hx => by rw [hno x hx, List.map_nil]) _
    have htaps := congrArg Node.taps hframe
    have hreports := congrArg Node.reports hframe
    refine ⟨n.talkClose mask desk, u, hl, fun x => ?_, (removeTalks_eq n _ hmask _).2.1, hmoves ▸ hu, htaps, hreports, ?_⟩
    · refine (removeTalks_get n _ hmask _ x).trans ?_
      simp only [mem_maskMixes]
      cases hx : maskHas mask x
      · rw [if_pos (.inl Bool.false_ne_true), if_pos (hno x hx)]
      · simp [hgone x hx]
        rfl
    · exact hframe.trans (by rw [← htaps, ← hreports]; rfl)
  · intro rises new fits
    have hnew : risesNew n.taps changes = new := rfl
    refine ⟨fun hf => ?_, fun hf hc => ?_, fun hf hc => ?_⟩
    · rw [talkUserChange_eq, changeUsers_tableFull hf]
      exact congrArg (Prod.mk _) (judgeTableLow_same n)
    · rw [talkUserChange_eq, changeUsers_chainFull (Nat.not_lt.mpr hf)]
      · exact congrArg (Prod.mk _) (judgeTableLow_same n)
      · exact Bool.eq_false_iff.mpr fun hh => hc ((roomFor_iff _ _).mpr ⟨Nat.not_lt.mpr hf, hh⟩).2
    · obtain ⟨hd, hentry, hrep, hframe⟩ := talkUserChange_whole n changes hn h ⟨hf, hc⟩
      refine ⟨hd, fun k v hk => ?_, fun k hk => ?_, hrep, hframe⟩
      · rw [hentry, netMove_of_mem hn hk]
        cases n.taps.entryOf k with
        | some x => exact filter_movedEntry_some v k x
        | none => exact filter_movedEntry_none v k
      · rw [hentry, netMove_of_not_mem fun hm => ?_]
        · cases n.taps.entryOf k <;> simp [movedEntry, usersMoved_zero]
        · obtain ⟨c, hc, rfl⟩ := List.mem_map.mp hm
          exact hk _ hc

/-! ### The expiry of talks (R166) -/

/-- The expired talks of a desk, mix by mix. -/
theorem expired_filter (n : Node) (d : Station) : (n.expired.filter fun l => l.1 == d).map Prod.snd =
    (List.finRange 24).flatMap fun x => ((n.talks x).filter fun t => t.deadline == 0 && t.desk == d).map fun _ => x := by
  unfold Node.expired
  rw [List.filter_flatMap, List.map_flatMap]
  refine List.flatMap_congr fun x _ => ?_
  rw [List.filter_map, List.filter_filter, List.map_map]
  exact congrArg (List.map _) (List.filter_congr fun t _ => Bool.and_comm _ _)

/-- Settles O36: the talks leave as `removeTalks_made` says, and the desks get their notices behind it. -/
theorem talkExpiryRemovesTalks : Obligations.TalkExpiryRemovesTalks := by
  unfold Obligations.TalkExpiryRemovesTalks
  intro s ts n gone lost moves hr ha hx
  have hdue : n.due .talkExpiry = true := by
    obtain ⟨x, t, ht, h0⟩ := hx
    have hmem : (t.desk, x) ∈ n.expired :=
      List.mem_flatMap.mpr ⟨x, List.mem_finRange x, List.mem_map.mpr ⟨t, List.mem_filter.mpr ⟨ht, by simp [h0]⟩, rfl⟩⟩
    have hne : n.expired.isEmpty = false := by
      cases he : n.expired with
      | nil => rw [he] at hmem; cases hmem
      | cons a l => rfl
    unfold Node.due
    rw [hr, Bool.true_and]
    exact congrArg not hne
  have hl := takeRow_takes .talkExpiry s .talkExpiry ts rfl ha hdue
  have hall := List.nodup_finRange 24
  obtain ⟨u, hu, hframe⟩ := removeTalks_made n (List.finRange 24) hall fun t => t.deadline == 0
  have hm : n.expireTalks = { n with
      messages := (otherNotices n.station false lost).foldl withNotice n.messages
      taps := u.taps
      mixer := (n.removeTalks (List.finRange 24) fun t => t.deadline == 0).mixer
      reports := (ownNotice n false (lost n.station)).foldl ReportQueue.post u.reports } := by
    unfold Node.expireTalks
    rw [giveNotices_eq _ false n.expired lost (expired_filter n), hframe]
    rfl
  have hmes := congrArg Node.messages hm
  have hmix := congrArg Node.mixer hm
  have htaps := congrArg Node.taps hm
  have hrep := congrArg Node.reports hm
  refine ⟨n.expireTalks, u, hl, fun x => ?_, ?_, hu, htaps, hrep, hmes, fun hno d hd hld => ?_, ?_, ?_⟩
  · rw [hmix, removeTalks_get n _ hall]
    simp [gone]
    rfl
  · rw [hmix]
    exact (removeTalks_eq n _ hall _).2.1
  · rw [hmes]
    exact mem_otherNotices n.station false lost n.messages hno d hd hld
  · rw [hm]
  · rw [hmes]
    exact foldl_withNotice_frame _ _

/-! ### TALK OPEN (R161 to R163) -/

/-- A key is read where its station byte names a station and its channel byte is in range (R187). -/
theorem messageKey_iff (u : FrameUnit) (i : Nat) (k : Key) :
    messageKey u i = some k ↔ Station.ofByte (u.byte i) = some k.station ∧ (u.byte (i + 1)).toNat = k.channel.val := by
  obtain ⟨st, ch⟩ := k
  unfold messageKey
  split
  · rename_i s hs
    rw [hs]
    split
    · simp [Fin.ext_iff]
    · rename_i h
      refine iff_of_false (by simp) fun ⟨_, hc⟩ => h (hc ▸ ch.isLt)
  · rename_i hs
    simp [hs]

theorem readTalkOpen_iff (u : FrameUnit) (r : TalkOpenRequest) : readTalkOpen u = some r ↔
    (Station.ofByte (u.byte 6) = some r.source.station ∧ (u.byte 7).toNat = r.source.channel.val
      ∧ r.mask = u.field24 8 ∧ r.priority = max 1 (min 7 (u.byte 11).toNat)
      ∧ r.dim.toNat = min 1048576 (u.field24 12).toNat ∧ r.level = u.field24 15) := by
  obtain ⟨source, mask, priority, dim, level⟩ := r
  have hdim : (if unity < u.field24 12 then unity else u.field24 12) = dim
      ↔ dim.toNat = min 1048576 (u.field24 12).toNat := by
    have hu : unity.toNat = 1048576 := rfl
    rw [← BitVec.toNat_inj]
    simp only [BitVec.lt_def, hu]
    split <;> omega
  unfold readTalkOpen
  rw [Option.map_eq_some_iff]
  constructor
  · rintro ⟨k, hk, he⟩
    obtain ⟨rfl, rfl, rfl, hd, rfl⟩ := TalkOpenRequest.mk.inj he
    obtain ⟨hs, hc⟩ := (messageKey_iff u 6 k).mp hk
    exact ⟨hs, hc, rfl, rfl, hdim.mp hd, rfl⟩
  · rintro ⟨hs, hc, rfl, rfl, hd, rfl⟩
    exact ⟨source, (messageKey_iff u 6 source).mpr ⟨hs, hc⟩, by rw [hdim.mpr hd]⟩

/-- What becomes of a talk on a list in its order (R162). -/
theorem talkFate_cases (t : Talk) (l : List Talk) (ho : l.Pairwise Outranks) (hn : (l.map fun u => u.desk).Nodup) :
    let placed (l' : List Talk) (others : List Talk) : Prop := l'.Perm (t :: others) ∧ l'.Pairwise Outranks
    (∀ old ∈ l, old.desk = t.desk →
        ∃ l', talkFate t l = .replace old.source l' ∧ placed l' (l.filter fun u => u.desk != t.desk))
      ∧ ((∀ u ∈ l, u.desk ≠ t.desk) → l.length < 4 → ∃ l', talkFate t l = .insert l' ∧ placed l' l)
      ∧ ∀ others last, l = others ++ [last] → l.length = 4 → (∀ u ∈ l, u.desk ≠ t.desk) →
        (Outranks t last → ∃ l', talkFate t l = .evict last l' ∧ placed l' others)
          ∧ (¬Outranks t last → talkFate t l = .busy) := by
  have hnone : (∀ u ∈ l, u.desk ≠ t.desk) → l.find? (fun u => u.desk == t.desk) = none := fun h => by
    simpa using h
  refine ⟨fun old hold hd => ?_, fun h hl => ?_, fun others last he hl h => ⟨fun hr => ?_, fun hr => ?_⟩⟩
  · have hfind : l.find? (fun u => u.desk == t.desk) = some old := by
      cases hf : l.find? (fun u => u.desk == t.desk) with
      | none => exact absurd (by simpa using hd) (List.find?_eq_none.mp hf old hold)
      | some v =>
        have hv : v.desk = t.desk := by simpa using List.find?_some hf
        rw [List.inj_on_of_nodup_map hn (List.mem_of_find?_eq_some hf) hold (hv.trans hd.symm)]
    unfold talkFate
    rw [hfind]
    exact ⟨_, rfl, insertTalk_perm _ _, insertTalk_sorted _ _ (ho.filter _) fun u hu => by
      simpa using (List.mem_filter.mp hu).2⟩
  · unfold talkFate
    rw [hnone h]
    exact ⟨_, if_pos hl, insertTalk_perm _ _, insertTalk_sorted _ _ ho h⟩
  · subst he
    have hfull : ¬(others ++ [last]).length < Config.talkPlaces := by rw [hl]; decide
    unfold talkFate
    rw [hnone h]
    simp only [if_neg hfull, List.getLast?_append, List.getLast?_singleton, Option.some_or, if_pos ((outranks_iff _ _).mpr hr),
      List.dropLast_concat]
    exact ⟨_, rfl, insertTalk_perm _ _, insertTalk_sorted _ _ (List.pairwise_append.mp ho).1 fun u hu =>
      h u (List.mem_append_left _ hu)⟩
  · subst he
    have hfull : ¬(others ++ [last]).length < Config.talkPlaces := by rw [hl]; decide
    unfold talkFate
    rw [hnone h]
    simp only [if_neg hfull, List.getLast?_append, List.getLast?_singleton, Option.some_or,
      if_neg (mt (outranks_iff t last).mp hr)]

theorem sourceQuestion_cases (t : Taps) (k : Key) :
    (∀ i, t.lookup k = some i → t.sourceQuestion k = .present i)
      ∧ (t.lookup k = none → t.free.length = 0 → t.sourceQuestion k = .tableFull)
      ∧ (t.lookup k = none → t.free.length ≠ 0 → t.sourceQuestion k =
          if (t.chains.get k.bucket).length < 8 then .room else .chainFull) := by
  unfold Taps.sourceQuestion
  refine ⟨fun i h => by rw [h], fun h hf => ?_, fun h hf => ?_⟩
  · rw [h]
    exact if_pos hf
  · rw [h]
    exact if_neg hf

/-- The mixes on which a desk is the one evicted. -/
theorem filterMap_filter_fst {α β : Type} [DecidableEq β] (g : α → Option β) (d : β) (l : List α) :
    ((l.filterMap fun x => (g x).map fun e => (e, x)).filter fun c => c.1 == d).map Prod.snd
      = l.filter fun x => g x == some d := by
  induction l with
  | nil => rfl
  | cons a l ih =>
    rw [List.filter_cons, ← ih]
    cases ha : g a with
    | none => simp [ha]
    | some e =>
      by_cases he : e = d
      · simp [ha, he]
      · simp [ha, he]

/-- The mixes on which a TALK OPEN evicts a talk of this desk. -/
def Node.evicts (n : Node) (r : TalkOpenRequest) (desk d : Station) : List (Fin 24) :=
  (maskMixes r.mask).filter fun x => (talkFate (r.talk desk) (n.talks x)).evicted == some d

/-- The talk-user moves of a TALK OPEN. -/
def Node.openMoves (n : Node) (r : TalkOpenRequest) (desk : Station) : List (Key × Int) :=
  (maskMixes r.mask).flatMap fun x => (talkFate (r.talk desk) (n.talks x)).moves r.source

/-- TALK OPEN's commit beyond the mixes: one talk-user change, and the notices behind it (R163). -/
theorem commitTalkOpen_frame (n : Node) (r : TalkOpenRequest) (desk : Station) :
    (n.commitTalkOpen r desk).2 = { n with
      messages := (otherNotices n.station true (n.evicts r desk)).foldl withNotice n.messages
      taps := (n.handTalkUsers (n.openMoves r desk)).taps
      mixer := (n.commitTalkOpen r desk).2.mixer
      reports := (ownNotice n true (n.evicts r desk n.station)).foldl ReportQueue.post
        (n.handTalkUsers (n.openMoves r desk)).reports } := by
  have hlost : ∀ d, ((((maskMixes r.mask).map fun m => (m, talkFate (r.talk desk) (n.talks m))).filterMap
      fun f => f.2.evicted.map fun d => (d, f.1)).filter fun l => l.1 == d).map Prod.snd = n.evicts r desk d := fun d => by
    rw [List.filterMap_map]
    exact filterMap_filter_fst (fun x => (talkFate (r.talk desk) (n.talks x)).evicted) d _
  have hmoves : (((maskMixes r.mask).map fun m => (m, talkFate (r.talk desk) (n.talks m))).flatMap
      fun f => f.2.moves r.source) = n.openMoves r desk := List.flatMap_map ..
  have hset := fun m : Node => (foldl_updateMix
    (fun m x => { x with talks := (talkFate (r.talk desk) (n.talks m)).list.getD x.talks }) _ (nodup_maskMixes r.mask) m).2.2
  have hop : (n.opened r desk).Nodup := (nodup_maskMixes r.mask).filter _
  rw [commitTalkOpen_eq, (handSettings_eq _ _ hop).2]
  dsimp only
  generalize ((n.openLists r desk).handSettings (n.opened r desk)).mixer = x
  unfold Node.openLists
  rw [giveNotices_eq _ true _ _ hlost, hmoves]
  unfold setFates
  rw [hset, handTalkUsers_eq]
  rfl

theorem commitTalkOpen_reply (n : Node) (r : TalkOpenRequest) (desk : Station) :
    (n.commitTalkOpen r desk).1 =
      { outcome := if n.opened r desk = [] then .mixBusy else .done,
        detail := bytes24 (maskOf (n.opened r desk)) ++ bytes24 (maskOf
          ((maskMixes r.mask).filter fun x => (talkFate (r.talk desk) (n.talks x)).list.isNone)) } := by
  unfold Node.commitTalkOpen Node.opened talkOpenReply
  simp [List.filter_map, Function.comp_def]

/-- Settles O46. -/
theorem talkOpenChangesTheLists : Obligations.TalkOpenChangesTheLists := by
  unfold Obligations.TalkOpenChangesTheLists
  refine ⟨fun s e hr hk hn => ?_, readTalkOpen_iff, fun r desk => ?_, fun t l ho hn _ => ?_, sourceQuestion_cases,
    fun s e r => ?_⟩
  · exact carry_badField .talkOpen s e kindTalkOpen readTalkOpen (fun r desk m => (some (m.talkOpen r desk).1,
      (m.talkOpen r desk).2)) rfl hr hk hn
  · refine ⟨(r.talk desk).dim, ?_, rfl⟩
    unfold TalkOpenRequest.talk
    simp only [BitVec.lt_def]
    split
    · simp_all
      omega
    · simp_all
  · exact talkFate_cases t l ho hn
  · intro n desk fate opened busy evicted moves hr hk hread
    have hl := carry_leaves .talkOpen s e kindTalkOpen readTalkOpen (fun r desk m => (some (m.talkOpen r desk).1,
      (m.talkOpen r desk).2)) r rfl hr hk hread
    have answered : ∀ a, n.talkOpen r desk = a → Leaves .talkOpen s (a.2.complete e (some a.1)) := fun a ha => ha ▸ hl
    refine ⟨fun hd => answered _ (if_pos hd), fun hd hm => answered _ ((if_neg (not_not.mpr hd)).trans (if_pos hm)),
      fun hd hm hq => ?_, fun hd hm hq => ?_, fun hd hm ht hc => ?_⟩
    · exact answered (talkOpenReply .tableFull 0#24 0#24, n)
        ((if_neg (not_not.mpr hd)).trans ((if_neg hm).trans (by rw [hq])))
    · exact answered (talkOpenReply .chainFull 0#24 0#24, n)
        ((if_neg (not_not.mpr hd)).trans ((if_neg hm).trans (by rw [hq])))
    · have hcommit : n.talkOpen r desk = n.commitTalkOpen r desk := by
        refine (if_neg (not_not.mpr hd)).trans ((if_neg hm).trans ?_)
        split
        · exact absurd ‹_› ht
        · exact absurd ‹_› hc
        · rfl
      have hframe := commitTalkOpen_frame n r desk
      have hmes := congrArg Node.messages hframe
      have htaps := congrArg Node.taps hframe
      have hrep := congrArg Node.reports hframe
      obtain ⟨hget, hfree⟩ := commitTalkOpen_mixer n r desk
      refine ⟨(n.commitTalkOpen r desk).2, n.handTalkUsers (n.openMoves r desk), ?_, fun x => ?_, hfree,
        handTalkUsers_usersMoved n _, htaps, hrep, hmes, fun hno d hd hl => ?_, ?_, ?_⟩
      · exact commitTalkOpen_reply n r desk ▸ answered _ hcommit
      · rw [hget]
        by_cases hx : maskHas r.mask x = true
        · cases hf : (fate x).list with
          | none => simp [opened, mem_maskMixes, hx, hf, Fate.applied, fate] 
          | some l => simp [opened, mem_maskMixes, hx, hf, Fate.applied, fate]
        · simp [opened, mem_maskMixes, hx]
      · rw [hmes]
        exact mem_otherNotices n.station true (n.evicts r desk) n.messages hno d hd hl
      · rw [hmes]
        exact foldl_withNotice_frame _ _
      · rw [hmes, htaps, hrep]
        exact hframe

end Sys2Proof.Machine
end
section
/-! PROOF. TAP SET carried out (R92 to R97): its checks in order, and the commit. -/

namespace Sys2Proof.Safety

open Sys2Proof Sys2Proof.Machine

/-! ### Step 1 of the commit: the slot is taken -/

/-- The three things that step 1 can do. -/
theorem theft_cases (n : Node) (r : TapSetRequest) (s : Fin 128) :
    (n.theft r s = n ∧ n.theftTouches r s = [] ∧ ∀ e, n.router.bindings.get s = .tap e → n.taps.lookup r.key = some e)
      ∨ (n.theft r s = n.unbindSlot s ∧ n.theftTouches r s = [] ∧ ∃ c, n.router.bindings.get s = .localChannel c)
      ∨ ∃ e, n.router.bindings.get s = .tap e ∧ n.taps.lookup r.key ≠ some e ∧ n.theft r s = n.releaseEntry e
        ∧ n.theftTouches r s = n.taps.releaseTouches e := by
  unfold Node.theft Node.theftTouches
  cases hb : n.router.bindings.get s with
  | unbound => exact .inl ⟨rfl, rfl, fun e he => nomatch he⟩
  | localChannel c => exact .inr (.inl ⟨rfl, rfl, c, rfl⟩)
  | tap e =>
    by_cases hl : n.taps.lookup r.key = some e
    · exact .inl ⟨if_pos hl, if_pos hl, fun f hf => by cases hf; exact hl⟩
    · exact .inr (.inr ⟨e, rfl, hl, if_neg hl, if_neg hl⟩)

/-- The entry that holds the slot now is one of this key, or names this key as its alternate. -/
def Robs (n : Node) (s : Fin 128) (k : Key) : Prop :=
  ∃ j x, n.router.bindings.get s = .tap j ∧ n.taps.entries.get j = some x ∧ (x.key = k ∨ x.alternate = some k)

/-- What step 1 leaves: the key's own entry but for its backs, the entry that loses the slot released, every other entry
and slot as it was. -/
structure Stolen (n : Node) (r : TapSetRequest) (s : Fin 128) (m : Node) : Prop where
  keeps : KeepsLookups n.taps m.taps
  own : ∀ x, n.taps.entryOf r.key = some x → ∃ b, m.taps.entryOf r.key = some { x with backs := b }
  robbed : ∀ j x, n.router.bindings.get s = .tap j → n.taps.entries.get j = some x → x.key ≠ r.key →
    ∃ b, m.taps.entryOf x.key = some { x.released with backs := b }
  others : ∀ k, ¬Robs n s k → m.taps.entryOf k = n.taps.entryOf k
  touches : ∀ k e, e ∈ n.theftTouches r s → n.taps.lookup k = some e → Robs n s k
  bindings : ∀ o, o ≠ s → m.router.bindings.get o = n.router.bindings.get o
  frame : m = { n with
    taps := { n.taps with entries := m.taps.entries }
    router := { n.router with bindings := m.router.bindings } }

/-- Where no other entry holds the slot, step 1 leaves the table. -/
theorem Stolen.of_taps {n m : Node} {r : TapSetRequest} {s : Fin 128} (h : TableSound n.taps) (ht : m.taps = n.taps)
    (ho : ∀ e, n.router.bindings.get s = .tap e → n.taps.lookup r.key = some e) (hno : n.theftTouches r s = [])
    (hb : ∀ o, o ≠ s → m.router.bindings.get o = n.router.bindings.get o)
    (hf : m = { n with taps := m.taps, router := { n.router with bindings := m.router.bindings } }) : Stolen n r s m where
  keeps := by rw [ht]; exact .refl h
  own := fun x hx => ⟨x.backs, by rw [ht, hx]⟩
  robbed := fun j x hj hx hk => by
    obtain ⟨y, hy, hyk, -⟩ := h.entryOf_of_lookup (ho j hj)
    rw [hx] at hy
    cases hy
    exact absurd hyk hk
  others := fun k _ => by rw [ht]
  touches := fun k e he => by
    rw [hno] at he
    cases he
  bindings := hb
  frame := hf.trans (by rw [ht])

theorem Stolen.of_release {n : Node} {r : TapSetRequest} {s : Fin 128} (h : TableSound n.taps) (hag : BindingsAgree n)
    {i : EntryNo} (hb : n.router.bindings.get s = .tap i) (hl : n.taps.lookup r.key ≠ some i)
    (ht : n.theftTouches r s = n.taps.releaseTouches i) : Stolen n r s (n.releaseEntry i) := by
  obtain ⟨x, hx, hxs⟩ := (hag s i).mp hb
  obtain ⟨hk, hent, hr, hf⟩ := h.releaseEntry n i x hx
  have hxk : x.key ≠ r.key := fun e => hl ((h.lookup_iff _ _).mpr ⟨x, hx, e⟩)
  refine ⟨hk, fun y hy => ?_, fun j z hj hz hzk => ?_, fun k hk' => ?_, fun k e he hlk => ?_, fun o ho => ?_, ?_⟩
  · rw [hent, if_neg (Ne.symm hxk), hy]
    by_cases ha : x.alternate = some r.key
    · exact ⟨y.backs - 1, by rw [if_pos ha]; rfl⟩
    · exact ⟨y.backs, by rw [if_neg ha]⟩
  · rw [hb] at hj
    cases hj
    rw [hx] at hz
    cases hz
    rw [hent, if_pos rfl, (h.entryOf_iff _ _).mpr ⟨i, hx, rfl⟩]
    exact ⟨_, rfl⟩
  · rw [hent, if_neg fun e => hk' ⟨i, x, hb, hx, .inl e.symm⟩, if_neg fun e => hk' ⟨i, x, hb, hx, .inr e⟩]
  · refine ⟨i, x, hb, hx, ?_⟩
    rw [ht, Taps.releaseTouches, hx] at he
    rcases List.mem_cons.mp he with rfl | he
    · obtain ⟨y, hy, hyk⟩ := (h.lookup_iff _ _).mp hlk
      rw [hx] at hy
      cases hy
      exact .inl hyk
    · cases ha : x.alternate with
      | none => rw [ha] at he; cases he
      | some a =>
        rw [ha] at he
        have hla : n.taps.lookup a = some e := by simpa using he
        exact .inr (by rw [h.lookup_inj hla hlk])
  · rw [hr, if_neg]
    rw [hxs]
    exact fun e => ho (Option.some.inj e).symm
  · have hkf := hk.frame
    generalize n.releaseEntry i = m at *
    rw [hf, hkf]

theorem theft_stolen {n : Node} (h : TableSound n.taps) (hag : BindingsAgree n) (r : TapSetRequest) (s : Fin 128) :
    Stolen n r s (n.theft r s) := by
  rcases theft_cases n r s with ⟨e, ht, ho⟩ | ⟨e, ht, c, hc⟩ | ⟨i, hb, hl, e, ht⟩
  · rw [e]
    exact .of_taps h rfl ho ht (fun _ _ => rfl) rfl
  · rw [e]
    refine .of_taps h rfl (fun e he => ?_) ht (fun o ho => ?_) rfl
    · rw [hc] at he
      cases he
    · simp [Node.unbindSlot, Ne.symm ho]
  · rw [e]
    exact .of_release h hag hb hl ht

/-! ### The whole commit -/

/-- The part behind a commit, before TABLE LOW is judged. -/
def committed (n : Node) (r : TapSetRequest) (s : Fin 128) : Node :=
  (((n.theft r s).releaseOld r s).bindKey r s).updateTaps
    (·.freeChecks (n.theftTouches r s ++ (n.theft r s).oldTouches r))

/-- Step 1 leaves what the key's own entry holds beside its backs. -/
theorem Stolen.ownField {n m : Node} {r : TapSetRequest} {s : Fin 128} (st : Stolen n r s m) (h : TableSound n.taps)
    {α : Type} (f : TapEntry → Option α) (hf : ∀ x b, f { x with backs := b } = f x) :
    (m.taps.entryOf r.key).bind f = (n.taps.entryOf r.key).bind f := by
  cases hx : n.taps.entryOf r.key with
  | some x =>
    obtain ⟨b, hb⟩ := st.own x hx
    rw [hb]
    exact hf x b
  | none =>
    rw [(st.keeps.sound.entryOf_none _).mpr ((st.keeps.lookup _).trans ((h.entryOf_none _).mp hx))]

/-- The key's entry behind step 2, as step 4 binds it. -/
theorem Stolen.bound {n m : Node} {r : TapSetRequest} {s : Fin 128} (st : Stolen n r s m) (h : TableSound n.taps) :
    ∃ b, boundTo r s (fallenEntries m.taps r.key) r.key
      = some { boundEntry r s ((n.taps.entryOf r.key).getD (TapEntry.fresh r.key)) with backs := b } := by
  unfold boundTo fallenEntries
  rw [if_pos rfl]
  cases hx : n.taps.entryOf r.key with
  | some x =>
    obtain ⟨b, hb⟩ := st.own x hx
    rw [hb]
    unfold droppedBack
    dsimp only [Option.map_some, Option.getD_some]
    split
    · exact ⟨_, rfl⟩
    · exact ⟨b, rfl⟩
  | none =>
    rw [(st.keeps.sound.entryOf_none _).mpr ((st.keeps.lookup _).trans ((h.entryOf_none _).mp hx))]
    exact ⟨0, rfl⟩

theorem mem_oldTouches {n : Node} {r : TapSetRequest} {e : EntryNo} (h : e ∈ n.oldTouches r) :
    ∃ a, alternateOf n.taps r.key = some a ∧ n.taps.lookup a = some e := by
  unfold Node.oldTouches at h
  unfold alternateOf
  cases hx : n.taps.entryOf r.key with
  | none =>
    rw [hx] at h
    cases h
  | some x =>
    rw [hx] at h
    exact Option.bind_eq_some_iff.mp (Option.mem_toList.mp h)

/-- What a commit makes (R97): `i` is the entry of the key. -/
structure Committed (n : Node) (r : TapSetRequest) (s : Fin 128) (m : Node) (i : EntryNo) : Prop where
  sound : TableSound m.taps
  key : m.taps.lookup r.key = some i
  entry : ∃ b, m.taps.entryOf r.key
    = some { boundEntry r s ((n.taps.entryOf r.key).getD (TapEntry.fresh r.key)) with backs := b }
  bindings : ∀ o, m.router.bindings.get o =
    if o = s then .tap i else if slotOf n.taps r.key = some o then .unbound else n.router.bindings.get o
  alternate : ∀ a, r.alternate = some a → ∃ z, m.taps.entryOf a = some z ∧ 1 ≤ z.backs
  robbed : ∀ j x, n.router.bindings.get s = .tap j → n.taps.entries.get j = some x → x.key ≠ r.key →
    m.taps.entryOf x.key = none ∨ ∃ b, m.taps.entryOf x.key = some { x.released with backs := b }
  others : ∀ k, k ≠ r.key → r.alternate ≠ some k → alternateOf n.taps r.key ≠ some k → ¬Robs n s k →
    m.taps.entryOf k = n.taps.entryOf k
  frame : m = { n with
    taps := { n.taps with entries := m.taps.entries, free := m.taps.free, chains := m.taps.chains }
    router := { n.router with bindings := m.router.bindings } }

theorem committed_made {n : Node} (h : TableSound n.taps) (hag : BindingsAgree n) (r : TapSetRequest) (s : Fin 128)
    (hne : r.alternate ≠ some r.key) (room : RoomFor n.taps (n.taps.missing r.keys)) :
    (∃ i, Committed n r s (committed n r s) i)
      ∧ (((n.theft r s).releaseOld r s).bindKey r s).taps.free.length + (n.taps.missing r.keys).length
        = n.taps.free.length := by
  have st := theft_stolen h hag r s
  obtain ⟨hm, hroom⟩ := st.keeps.roomFor r.keys
  obtain ⟨i, b⟩ := rebound (s := s) st.keeps.sound r hne (hroom room)
  have hslot : slotOf (n.theft r s).taps r.key = slotOf n.taps r.key := st.ownField h TapEntry.slot fun _ _ => rfl
  have hold : alternateOf (n.theft r s).taps r.key = alternateOf n.taps r.key :=
    st.ownField h TapEntry.alternate fun _ _ => rfl
  obtain ⟨y, hy⟩ := st.bound h
  obtain ⟨hs, -, hor, -, hframe⟩ := b.sound.freeChecks (n.theftTouches r s ++ (n.theft r s).oldTouches r)
  have htaps : (committed n r s).taps = (((n.theft r s).releaseOld r s).bindKey r s).taps.freeChecks
      (n.theftTouches r s ++ (n.theft r s).oldTouches r) := rfl
  have hstay : ∀ k x, (((n.theft r s).releaseOld r s).bindKey r s).taps.entryOf k = some x → unused x = false →
      (committed n r s).taps.entryOf k = some x
        ∧ (committed n r s).taps.lookup k = (((n.theft r s).releaseOld r s).bindKey r s).taps.lookup k := fun k x hx hu => by
    rw [htaps]
    rcases hor k with ⟨he, hl⟩ | ⟨-, -, e, y, -, -, hy, hyu⟩
    · exact ⟨he.trans hx, hl⟩
    · rw [hx] at hy
      cases hy
      rw [hu] at hyu
      cases hyu
  refine ⟨⟨i, hs, ?_, ?_, ?_, fun a ha => ?_, fun j x hj hx hk => ?_, fun k hk ha hal hro => ?_, ?_⟩, ?_⟩
  · exact (hstay _ _ ((b.entryOf _).trans hy) rfl).2.trans b.key
  · exact ⟨y, (hstay _ _ ((b.entryOf _).trans hy) rfl).1⟩
  · intro o
    refine (b.bindings o).trans ?_
    rw [hslot]
    by_cases ho : o = s
    · rw [if_pos ho, if_pos ho]
    · rw [st.bindings o ho]
  · have hak : a ≠ r.key := fun e => hne (by rw [ha, e])
    have hent := b.entryOf a
    rw [boundTo, if_neg hak, if_pos ha] at hent
    exact ⟨_, (hstay _ _ hent (by simp [unused])).1, Nat.succ_le_succ (Nat.zero_le _)⟩
  · obtain ⟨c, hc⟩ := st.robbed j x hj hx hk
    have hent : ∃ d, (((n.theft r s).releaseOld r s).bindKey r s).taps.entryOf x.key
        = some { x.released with backs := d } := by
      rw [b.entryOf, boundTo, if_neg hk, fallenEntries, hc]
      unfold droppedBack
      dsimp only [Option.map_some, Option.getD_some]
      split <;> split <;> exact ⟨_, rfl⟩
    rw [htaps]
    rcases hor x.key with ⟨he, -⟩ | ⟨he, -⟩
    · exact .inr (by rw [he]; exact hent)
    · exact .inl he
  · have hent : (((n.theft r s).releaseOld r s).bindKey r s).taps.entryOf k = n.taps.entryOf k := by
      rw [b.entryOf, boundTo, if_neg hk, if_neg ha, fallenEntries, st.others k hro]
      cases n.taps.entryOf k with
      | none => rfl
      | some x => exact congrArg some (if_neg (by rw [hold]; exact hal))
    rw [htaps]
    rcases hor k with ⟨he, -⟩ | ⟨-, -, e, x, he, hl, hx, -⟩
    · exact he.trans hent
    · rw [hent] at hx
      obtain ⟨f, hf, hfk⟩ := (h.entryOf_iff _ _).mp hx
      have hlk := (h.lookup_iff k f).mpr ⟨x, hf, hfk⟩
      have hln : (n.theft r s).taps.lookup k = some f := (st.keeps.lookup k).trans hlk
      rw [b.lookup k (by rw [hln]; rfl), hln] at hl
      cases hl
      rcases List.mem_append.mp he with he | he
      · exact absurd (st.touches k _ he hlk) hro
      · refine absurd ?_ hal
        rw [← hold]
        obtain ⟨a, ha, hla⟩ := mem_oldTouches he
        rw [ha, st.keeps.sound.lookup_inj hla hln]
  · have h1 := b.frame
    have h2 := st.frame
    unfold committed Node.updateTaps
    generalize (((n.theft r s).releaseOld r s).bindKey r s) = m4 at *
    generalize n.theft r s = m1 at *
    dsimp only
    generalize m4.taps.freeChecks (n.theftTouches r s ++ m1.oldTouches r) = t at *
    rw [hframe, h1, h2]
  · rw [← hm, ← st.keeps.free]
    exact b.free

theorem Committed.frame_of {n m : Node} {r : TapSetRequest} {s : Fin 128} {i : EntryNo} (c : Committed n r s m i) :
    m = { n with taps := m.taps, router := m.router } := by
  have htaps := congrArg Node.taps c.frame
  have hrouter := congrArg Node.router c.frame
  dsimp only at htaps hrouter
  rw [htaps, hrouter]
  exact c.frame

/-- The answer to a commit names the entries that the free checks have freed (R97, R188). -/
theorem commitTapSet_eq (n : Node) (r : TapSetRequest) (s : Fin 128)
    (hfree : (((n.theft r s).releaseOld r s).bindKey r s).taps.free.length + (n.taps.missing r.keys).length
      = n.taps.free.length) :
    n.commitTapSet r s = (
      { outcome := .done,
        detail := entryBytesOrNone ((committed n r s).taps.lookup r.key)
          ++ entryBytesOrNone (r.alternate.bind (committed n r s).taps.lookup) ++ countBytes (committed n r s).taps.free.length
          ++ [byteOf ((committed n r s).taps.free.length + (n.taps.missing r.keys).length - n.taps.free.length)] },
      (committed n r s).judgeTableLow n.taps.free.length) := by
  have hcount : (committed n r s).taps.free.length - (((n.theft r s).releaseOld r s).bindKey r s).taps.free.length
      = (committed n r s).taps.free.length + (n.taps.missing r.keys).length - n.taps.free.length := by omega
  rw [← hcount]
  unfold Node.commitTapSet tapSetReply
  simp only [List.append_nil]
  rfl

/-! ### The checks (R92 to R96) -/

/-- A request that the first check refuses (R92). -/
def BadRequest (n : Node) (r : TapSetRequest) : Prop :=
  r.slot = none ∨ r.alternate = some r.key ∨ r.key.station = n.station
    ∨ ∃ a, r.alternate = some a ∧ a.station = n.station

theorem badField_iff (n : Node) (r : TapSetRequest) : r.badField n.station = true ↔ BadRequest n r := by
  unfold TapSetRequest.badField BadRequest
  cases r.alternate <;> simp [or_assoc]

/-- The binding that an entry has and a request asks for is the same. -/
def SameBinding (r : TapSetRequest) (x : TapEntry) : Prop :=
  x.slot = r.slot ∧ x.alternate = r.alternate ∧ x.autoReturn = r.autoReturn

theorem tapSet_bad {n : Node} {r : TapSetRequest} (h : BadRequest n r) :
    n.tapSet r = (tapSetReply .badField r n.taps 0 [], n) := if_pos ((badField_iff n r).mpr h)

theorem entryOf_lookup {t : Taps} {k : Key} {x : TapEntry} (h : t.entryOf k = some x) :
    ∃ e, t.lookup k = some e ∧ t.entries.get e = some x := by
  unfold Taps.entryOf at h
  cases hl : t.lookup k with
  | none => simp [hl] at h
  | some e => exact ⟨e, rfl, by simpa [hl] using h⟩

theorem tapSet_already {n : Node} {r : TapSetRequest} {x : TapEntry} (hb : ¬BadRequest n r)
    (hx : n.taps.entryOf r.key = some x) (hs : SameBinding r x) :
    n.tapSet r = (tapSetReply .already r n.taps 0 [], n) := by
  obtain ⟨e, hl, -⟩ := entryOf_lookup hx
  obtain ⟨hslot, ha, hr⟩ := hs
  obtain ⟨s, hrs⟩ := Option.ne_none_iff_exists'.mp fun e => hb (.inl e)
  unfold Node.tapSet
  rw [if_neg (mt (badField_iff n r).mp hb), hl, hx, hrs]
  dsimp only
  rw [hslot, hrs]
  exact if_pos ⟨rfl, ha, hr⟩

theorem tapSet_conflict {n : Node} {r : TapSetRequest} {x : TapEntry} {e : EntryNo} (hb : ¬BadRequest n r)
    (hl : n.taps.lookup r.key = some e) (hx : n.taps.entries.get e = some x) (hsome : x.slot.isSome = true)
    (hs : ¬SameBinding r x) (hu : r.update = false) :
    n.tapSet r = (tapSetReply .conflict r n.taps 0 (slotByteOrNone x.slot :: keyBytesOrNone x.alternate),
      { n with taps := { n.taps with
          entries := n.taps.entries.set e (some { x with conflict := true }),
          conflictCount := n.taps.conflictCount.inc } }) := by
  have hent : n.taps.entryOf r.key = some x := by
    unfold Taps.entryOf
    rw [hl]
    exact hx
  obtain ⟨s, hrs⟩ := Option.ne_none_iff_exists'.mp fun e => hb (.inl e)
  obtain ⟨old, hold⟩ := Option.isSome_iff_exists.mp hsome
  have hne : ¬(old = s ∧ x.alternate = r.alternate ∧ x.autoReturn = r.autoReturn) := fun ⟨h1, h2, h3⟩ =>
    hs ⟨by rw [hold, hrs, h1], h2, h3⟩
  unfold Node.tapSet
  rw [if_neg (mt (badField_iff n r).mp hb), hl, hent, hrs]
  dsimp only
  rw [hold]
  dsimp only
  rw [if_neg hne, if_neg (by simp [hu])]
  unfold Node.updateTaps Taps.updateEntry Table.update
  dsimp only
  rw [hx, ← hold]
  rfl

/-- A request that no check of the key's own entry refuses comes to the check of the room. -/
theorem tapSet_passes {n : Node} {r : TapSetRequest} {s : Fin 128} (hb : ¬BadRequest n r) (hrs : r.slot = some s)
    (hp : ∀ x, n.taps.entryOf r.key = some x → x.slot.isSome = true → ¬SameBinding r x ∧ r.update = true) :
    n.tapSet r = n.roomCheck r s := by
  unfold Node.tapSet
  rw [if_neg (mt (badField_iff n r).mp hb), hrs]
  cases hl : n.taps.lookup r.key with
  | none => rfl
  | some e =>
    cases hx : n.taps.entryOf r.key with
    | none => rfl
    | some x =>
      dsimp only
      cases hold : x.slot with
      | none => rfl
      | some old =>
        obtain ⟨hs, hu⟩ := hp x hx (by rw [hold]; rfl)
        have hne : ¬(old = s ∧ x.alternate = r.alternate ∧ x.autoReturn = r.autoReturn) := fun ⟨h1, h2, h3⟩ =>
          hs ⟨by rw [hold, hrs, h1], h2, h3⟩
        exact (if_neg hne).trans (if_pos hu)

theorem roomCheck_cases (n : Node) (r : TapSetRequest) (s : Fin 128) :
    (n.taps.free.length < (n.taps.missing r.keys).length →
        n.roomCheck r s = (tapSetReply .tableFull r n.taps 0 [], n))
      ∧ ((n.taps.missing r.keys).length ≤ n.taps.free.length → ¬RoomFor n.taps (n.taps.missing r.keys) →
        n.roomCheck r s = (tapSetReply .chainFull r n.taps 0 [], n))
      ∧ (RoomFor n.taps (n.taps.missing r.keys) → n.roomCheck r s = n.slotCheck r s) := by
  unfold Node.roomCheck
  refine ⟨fun h => if_pos h, fun h hr => ?_, fun hr => ?_⟩
  · exact (if_neg (Nat.not_lt.mpr h)).trans (if_neg fun hc => hr ((roomFor_iff _ _).mpr ⟨Nat.not_lt.mpr h, hc⟩))
  · obtain ⟨hf, hc⟩ := (roomFor_iff _ _).mp hr
    exact (if_neg hf).trans (if_pos hc)

/-- The slot may be taken (R96). -/
def SlotFree (n : Node) (r : TapSetRequest) (s : Fin 128) : Prop :=
  n.router.bindings.get s = .unbound ∨ r.take = true
    ∨ ∃ i, n.router.bindings.get s = .tap i ∧ n.taps.lookup r.key = some i

theorem slotCheck_cases (n : Node) (r : TapSetRequest) (s : Fin 128) :
    (SlotFree n r s → n.slotCheck r s = n.commitTapSet r s)
      ∧ (¬SlotFree n r s →
        n.slotCheck r s = (tapSetReply .slotBusy r n.taps 0 (bindingBytes n.taps (n.router.bindings.get s)), n)) := by
  unfold Node.slotCheck SlotFree
  cases n.router.bindings.get s with
  | unbound => simp
  | localChannel c => cases ht : r.take <;> simp
  | tap i =>
    by_cases hc : n.taps.lookup r.key = some i ∨ r.take = true
    · simp only [if_pos hc]
      refine ⟨fun _ => trivial, fun h => absurd ?_ h⟩
      exact hc.elim (fun h => .inr (.inr ⟨i, rfl, h⟩)) fun h => .inr (.inl h)
    · simp only [if_neg hc]
      refine ⟨fun h => absurd ?_ hc, fun _ => trivial⟩
      rcases h with h | h | ⟨j, hj, hl⟩
      · cases h
      · exact .inr h
      · cases hj
        exact .inl hl

/-! ### A key's first binding, in a slot that is free -/

theorem set_set {n : Nat} {α : Type} (t : Table n α) (i : Fin n) (a b : α) : (t.set i a).set i b = t.set i b := by
  unfold Table.set
  simp

/-- What is put at a list's tail is found there, if nothing but it is found among the rest. -/
theorem find_append_new {α : Type} [DecidableEq α] {p q : α → Bool} {i : α} (hi : q i = true) (hq : ∀ e, e ≠ i → q e = p e)
    {l : List α} (h : l.find? p = none) : (l ++ [i]).find? q = some i := by
  induction l with
  | nil => simp [hi]
  | cons a l ih =>
    have ha : p a = false := by simpa using List.find?_eq_none.mp h a List.mem_cons_self
    have hl : l.find? p = none := List.find?_eq_none.mpr fun e he => List.find?_eq_none.mp h e (List.mem_cons_of_mem a he)
    rw [List.cons_append, List.find?_cons]
    by_cases hai : a = i
    · simp [hai, hi]
    · rw [hq a hai, ha]
      exact ih hl

/-- A part with a table and a router of its own, with TABLE LOW judged (R89). -/
theorem judgeTableLow_made (n : Node) (t : Taps) (ro : Router) (before : Nat) :
    let m := ({ n with taps := t, router := ro } : Node).judgeTableLow before
    m.taps = t ∧ m.router = ro
      ∧ m.reports = (if n.loader.values.lowFreeMark ≤ before ∧ t.free.length < n.loader.values.lowFreeMark then
          n.reports.post (.tableLow t.free.length n.loader.values.lowFreeMark) else n.reports)
      ∧ m = { n with taps := m.taps, router := m.router, reports := m.reports } := by
  refine ⟨by simp, by simp, judgeTableLow_reports _ _, ?_⟩
  rw [node_ext_iff]
  simp

/-- The commit for a key without an entry and a slot that is unbound (R97). -/
theorem commitTapSet_new {n : Node} {r : TapSetRequest} {slot : Fin 128} {i : EntryNo} {rest : List EntryNo}
    (ha : r.alternate = none) (hl : n.taps.lookup r.key = none) (hf : n.taps.free = i :: rest)
    (hb : n.router.bindings.get slot = .unbound) : ∃ d, n.commitTapSet r slot = ({ outcome := .done, detail := d },
      ({ n with
        taps := { n.taps with
          entries := n.taps.entries.set i (some
            { TapEntry.fresh r.key with slot := some slot, autoReturn := r.autoReturn }),
          free := rest, chains := n.taps.chains.update r.key.bucket (· ++ [i]) }
        router := { n.router with bindings := n.router.bindings.set slot (.tap i) } } : Node).judgeTableLow
          n.taps.free.length) := by
  have hent : n.taps.entryOf r.key = none := by
    unfold Taps.entryOf
    rw [hl]
    rfl
  have htheft : n.theft r slot = n := by
    unfold Node.theft
    rw [hb]
  have hold : n.releaseOld r slot = n := by
    unfold Node.releaseOld
    rw [hent]
  have htouch : n.theftTouches r slot ++ n.oldTouches r = [] := by
    unfold Node.theftTouches Node.oldTouches
    rw [hb, hent]
    rfl
  have hcreate : r.keys.foldl Taps.ensure n.taps = { n.taps with
      entries := n.taps.entries.set i (some (TapEntry.fresh r.key)), free := rest,
      chains := n.taps.chains.update r.key.bucket (· ++ [i]) } := by
    unfold TapSetRequest.keys
    rw [ha]
    show n.taps.ensure r.key = _
    unfold Taps.ensure Taps.create
    rw [hl, hf]
    rfl
  have hfound : (r.keys.foldl Taps.ensure n.taps).lookup r.key = some i := by
    rw [hcreate]
    unfold Taps.lookup at hl ⊢
    dsimp only
    rw [Table.get_update_same]
    exact find_append_new (by simp [Taps.holds, TapEntry.fresh]) (fun e he => by simp [Taps.holds, Ne.symm he]) hl
  have hbind : n.bindKey r slot = { n with
      taps := { n.taps with
        entries := n.taps.entries.set i (some
          { TapEntry.fresh r.key with slot := some slot, autoReturn := r.autoReturn }),
        free := rest, chains := n.taps.chains.update r.key.bucket (· ++ [i]) }
      router := { n.router with bindings := n.router.bindings.set slot (.tap i) } } := by
    unfold Node.bindKey
    dsimp only
    rw [Node.updateTaps_taps, hfound]
    dsimp only
    unfold Node.bindSlot Node.updateRouter Node.updateTaps
    dsimp only
    rw [ha, hcreate]
    unfold Taps.updateEntry Table.update
    dsimp only
    rw [Table.get_set_same, set_set]
    rfl
  unfold Node.commitTapSet
  simp only [htheft, hold, hbind, htouch]
  exact ⟨_, rfl⟩

/-- Where a slot is free a request that has passed the checks before is committed (R96, R97). -/
theorem tapSet_commits {n : Node} {r : TapSetRequest} {s : Fin 128} (hb : ¬BadRequest n r) (hrs : r.slot = some s)
    (hp : ∀ x, n.taps.entryOf r.key = some x → x.slot.isSome = true → ¬SameBinding r x ∧ r.update = true)
    (room : RoomFor n.taps (n.taps.missing r.keys)) (hs : SlotFree n r s) : n.tapSet r = n.commitTapSet r s :=
  (tapSet_passes hb hrs hp).trans (((roomCheck_cases n r s).2.2 room).trans ((slotCheck_cases n r s).1 hs))

end Sys2Proof.Safety

namespace Sys2Proof.Machine

open Sys2Proof Sys2Proof.Safety

/-- Settles O40: the checks one after the other, and the commit as `committed_made` says. -/
theorem tapSetBindsOrChangesNothing : Obligations.TapSetBindsOrChangesNothing := by
  unfold Obligations.TapSetBindsOrChangesNothing
  have answered : ∀ (s : State) (e : QueueEntry) (r : TapSetRequest), HeadReady s.finish.node e →
      e.message.kind = kindTapSet → readTapSet e.message = some r → ∀ a, s.finish.node.tapSet r = a →
      Leaves .tapSet s (a.2.complete e (some a.1)) := fun s e r hr hk hread a ha =>
    ha ▸ carry_leaves .tapSet s e kindTapSet readTapSet (fun r _ m => (some (m.tapSet r).1, (m.tapSet r).2)) r rfl hr hk hread
  refine ⟨?_, ?_, ?_⟩
  · intro s e r slot i rest n hr hk hread hown hslot ha hl hf hc hb
    have hbad : ¬BadRequest n r := by
      unfold BadRequest
      simp [hslot, ha, hown]
    have hmiss : n.taps.missing r.keys = [r.key] := by
      unfold Taps.missing TapSetRequest.keys
      simp [ha, hl]
    have hroom : RoomFor n.taps (n.taps.missing r.keys) := by
      rw [hmiss]
      refine ⟨by simp [hf], fun k hk => ?_⟩
      obtain rfl : k = r.key := by simpa using hk
      simp
      omega
    have hent : n.taps.entryOf r.key = none := by
      unfold Taps.entryOf
      rw [hl]
      rfl
    obtain ⟨d, hd⟩ := commitTapSet_new ha hl hf hb
    have hset := tapSet_commits hbad hslot (fun x hx => by rw [hent] at hx; cases hx) hroom (.inl hb)
    obtain ⟨htaps, hrouter, hrep, hframe⟩ := judgeTableLow_made n { n.taps with
      entries := n.taps.entries.set i (some { TapEntry.fresh r.key with slot := some slot, autoReturn := r.autoReturn }),
      free := rest, chains := n.taps.chains.update r.key.bucket (· ++ [i]) }
      { n.router with bindings := n.router.bindings.set slot (.tap i) } n.taps.free.length
    have hleaves := answered s e r hr hk hread _ (hset.trans hd)
    refine ⟨_, d, hleaves, ?_, ?_, ?_, ?_⟩
    · exact htaps
    · exact hrouter
    · rw [hrep, hf]
      have hiff : (n.loader.values.lowFreeMark ≤ (i :: rest).length ∧ rest.length < n.loader.values.lowFreeMark)
          ↔ rest.length + 1 = n.loader.values.lowFreeMark := by
        rw [List.length_cons]
        omega
      simp only [hiff]
    · exact hframe
  · intro s e n hr hk hread
    exact carry_badField .tapSet s e kindTapSet readTapSet (fun r _ m => (some (m.tapSet r).1, (m.tapSet r).2)) rfl hr hk hread
  · intro s e r n hr hk hread detail unchanged bad same passes new room fits
    have same_of : ∀ a more, n.tapSet r = (tapSetReply a r n.taps 0 more, n) → unchanged a more := fun a more h =>
      answered s e r hr hk hread _ h
    refine ⟨fun hb => ?_, fun x hb hx hsome => ⟨fun hs => ?_, fun hs hu => ?_⟩, fun hp hro => ?_, fun hp hro hf => ?_,
      fun slot hslot hp hro hf => ?_⟩
    · exact same_of _ _ (tapSet_bad hb)
    · exact same_of _ _ (tapSet_already hb hx hs)
    · obtain ⟨i, hl, hi⟩ := entryOf_lookup hx
      exact ⟨i, hl, answered s e r hr hk hread _ (tapSet_conflict hb hl hi hsome hs hu)⟩
    · obtain ⟨s', hs'⟩ := Option.ne_none_iff_exists'.mp fun e => hp.1 (.inl e)
      exact same_of _ _ ((tapSet_passes hp.1 hs' hp.2).trans ((roomCheck_cases n r s').1 (Nat.lt_of_not_le hro)))
    · obtain ⟨s', hs'⟩ := Option.ne_none_iff_exists'.mp fun e => hp.1 (.inl e)
      exact same_of _ _ ((tapSet_passes hp.1 hs' hp.2).trans ((roomCheck_cases n r s').2.1 hro fun h => hf h.2))
    · intro bound free
      have hroom : RoomFor n.taps (n.taps.missing r.keys) := ⟨hro, hf⟩
      have hne : r.alternate ≠ some r.key := fun e => hp.1 (.inr (.inl e))
      refine ⟨fun hs => ?_, fun hs ht hag => ?_⟩
      · refine same_of .slotBusy _ ((tapSet_passes hp.1 hslot hp.2).trans (((roomCheck_cases n r slot).2.2 hroom).trans
          ((slotCheck_cases n r slot).2 hs)))
      · obtain ⟨⟨i, c⟩, hfree⟩ := committed_made ht hag r slot hne hroom
        have hleaves := answered s e r hr hk hread _ (tapSet_commits hp.1 hslot hp.2 hroom hs)
        obtain ⟨m, hm⟩ : ∃ m, (committed n r slot).judgeTableLow n.taps.free.length = m := ⟨_, rfl⟩
        obtain ⟨htaps, hrouter, hrep, hframe⟩ := judgeTableLow_made n (committed n r slot).taps (committed n r slot).router
          n.taps.free.length
        rw [← c.frame_of, hm] at htaps hrouter hrep hframe
        rw [commitTapSet_eq n r slot hfree, hm, ← htaps] at hleaves
        obtain ⟨b, hb⟩ := c.entry
        obtain ⟨i', hi', hy⟩ := entryOf_lookup hb
        rw [c.key] at hi'
        cases hi'
        refine ⟨m, i, _, hleaves, ⟨htaps ▸ c.key, htaps ▸ hy, rfl⟩, ?_, fun o ho => ?_, fun a ha => ?_,
          fun j x hj hx hk => ?_, fun k hk ha hold hrob => ?_, ?_, ?_, ?_, hframe⟩
        · rw [hrouter, c.bindings, if_pos rfl]
        · rw [hrouter, c.bindings, if_neg ho]
          exact if_congr Option.bind_eq_some_iff rfl rfl
        · rw [htaps]
          exact c.alternate a ha
        · rw [htaps]
          refine (c.robbed j x hj hx hk).imp_right fun ⟨b, hz⟩ => ⟨_, hz, rfl, rfl, rfl, rfl⟩
        · rw [htaps]
          refine c.others k hk ha (fun e => ?_) fun ⟨j, x, hj, hx, hor⟩ => ?_
          · obtain ⟨x, hx, hxa⟩ := Option.bind_eq_some_iff.mp e
            exact hold x hx hxa
          · obtain ⟨h1, h2⟩ := hrob j x hj hx
            exact hor.elim h1 h2
        · rw [htaps]
          exact congrArg Node.taps c.frame
        · rw [hrouter]
          exact congrArg Node.router c.frame
        · rw [htaps]
          exact hrep

end Sys2Proof.Machine
end
section
/-! PROOF. TAP DROP and the walk of TAP CLEAR (R98 to R100). -/

namespace Sys2Proof.Safety

open Sys2Proof Sys2Proof.Machine

theorem TableSound.key_of_lookup {t : Taps} (h : TableSound t) {k : Key} {i : EntryNo} {x : TapEntry}
    (hl : t.lookup k = some i) (hx : t.entries.get i = some x) : x.key = k := by
  obtain ⟨y, hy, hyk⟩ := (h.lookup_iff k i).mp hl
  rw [hx] at hy
  cases hy
  exact hyk

/-- What a free check of an entry takes: the entry itself, if nothing uses it. -/
def taken (e : EntryNo) (x : TapEntry) : List EntryNo := if unused x then [e] else []

/-- A free check, read from the fields of the table. -/
structure Checked (t : Taps) (e : EntryNo) (x : TapEntry) (t' : Taps) : Prop where
  sound : TableSound t'
  entries : ∀ i, t'.entries.get i = if i = e ∧ unused x = true then none else t.entries.get i
  free : t'.free = t.free ++ taken e x
  chains : ∀ b, t'.chains.get b = (t.chains.get b).filter fun o => !(taken e x).contains o
  lookup : ∀ k, t'.lookup k = if k = x.key ∧ unused x = true then none else t.lookup k
  frame : t' = { t with entries := t'.entries, free := t'.free, chains := t'.chains }

theorem TableSound.checked {t : Taps} (h : TableSound t) {e : EntryNo} {x : TapEntry} (hx : t.entries.get e = some x) :
    Checked t e x (t.freeCheck e) := by
  have hcheck : t.freeCheck e = if unused x then t.freeEntry e else t := by
    unfold Taps.freeCheck
    rw [hx]
    rfl
  cases hu : unused x
  · have ht : t.freeCheck e = t := by rw [hcheck, hu]; rfl
    have hn : taken e x = [] := by rw [taken, hu]; rfl
    rw [ht]
    exact ⟨h, fun i => by simp [hu], by simp [hn], fun b => by simp [hn], fun k => by simp [hu], rfl⟩
  · have ht : t.freeCheck e = t.freeEntry e := by rw [hcheck, hu]; rfl
    have hn : taken e x = [e] := by rw [taken, hu]; rfl
    obtain ⟨hs, hfree, hl, -, hent, hch⟩ := h.freeEntry hx
    rw [ht]
    refine ⟨hs, fun i => ?_, by rw [hfree, hn], fun b => ?_, fun k => ?_, Taps.freeEntry_frame t e⟩
    · rw [hent]
      simp [hu, eq_comm]
    · rw [hch, hn]
      have hfilter : (t.chains.get b).filter (fun o => !([e].contains o)) = (t.chains.get b).filter (· != e) :=
        List.filter_congr fun o _ => by rw [Bool.eq_iff_iff]; simp
      rw [hfilter]
      by_cases hb : x.key.bucket = b
      · rw [if_pos hb]
      · rw [if_neg hb, List.filter_eq_self.mpr]
        intro o ho
        obtain ⟨y, hy, hyb⟩ := (h.2.2.1 b o).mp ho
        have : o ≠ e := fun he => by
          rw [he, hx] at hy
          cases hy
          exact hb hyb
        simpa using this
    · rw [hl]
      simp [hu]

/-- A release of an entry's slot and alternate, read from the fields of the table. -/
theorem releaseEntry_get {n : Node} {i j : EntryNo} {x y : TapEntry} {a : Key}
    (hx : n.taps.entries.get i = some x) (ha : x.alternate = some a) (hl : n.taps.lookup a = some j) (hij : i ≠ j)
    (hy : n.taps.entries.get j = some y) :
    (n.releaseEntry i).taps.entries.get i = some x.released
      ∧ (n.releaseEntry i).taps.entries.get j = some { y with backs := y.backs - 1 }
      ∧ ∀ o, o ≠ i → o ≠ j → (n.releaseEntry i).taps.entries.get o = n.taps.entries.get o := by
  rw [releaseEntry_eq n i x hx, ha]
  dsimp only
  unfold Taps.dropBack Taps.updateEntry
  rw [hl]
  dsimp only
  refine ⟨?_, ?_, fun o hoi hoj => ?_⟩
  · simp [hx, Ne.symm hij]
  · simp [hy, hij]
  · simp [Ne.symm hoi, Ne.symm hoj]

/-- A table that has not lost free entries posts no TABLE LOW (R89). -/
theorem judgeTableLow_grown {n : Node} {before : Nat} (h : before ≤ n.taps.free.length) : n.judgeTableLow before = n := by
  unfold Node.judgeTableLow
  exact if_neg (by omega)

/-- The part behind a release of an entry and the free checks that it calls for (R90). -/
def dropped (n : Node) (e : EntryNo) : Node := (n.releaseEntry e).updateTaps (·.freeChecks (n.taps.releaseTouches e))

theorem dropped_free {n : Node} (h : TableSound n.taps) {i : EntryNo} {x : TapEntry} (hx : n.taps.entries.get i = some x) :
    n.taps.free.length ≤ (dropped n i).taps.free.length := by
  obtain ⟨hk, -⟩ := h.releaseEntry n i x hx
  rw [← hk.free]
  exact (hk.sound.freeChecks _).2.1

theorem tapDrop_missing {n : Node} {k : Key} (hl : n.taps.lookup k = none) :
    n.tapDrop k = ({ outcome := .notFound, detail := [0#8] ++ countBytes n.taps.free.length ++ [0#8] }, n) := by
  unfold Node.tapDrop
  rw [hl]

/-- A TAP DROP of an entry that is there (R98). -/
theorem tapDrop_found {n : Node} (h : TableSound n.taps) {k : Key} {i : EntryNo} {x : TapEntry}
    (hl : n.taps.lookup k = some i) (hx : n.taps.entries.get i = some x) :
    n.tapDrop k = (
      { outcome := .done,
        detail := [byteOf ((dropped n i).taps.free.length - n.taps.free.length)] ++ countBytes (dropped n i).taps.free.length
          ++ [if ((dropped n i).taps.lookup k).isSome then 1#8 else 0#8] }, dropped n i) := by
  have hj : (dropped n i).judgeTableLow n.taps.free.length = dropped n i := judgeTableLow_grown (dropped_free h hx)
  unfold Node.tapDrop
  rw [hl]
  exact congrArg (Prod.mk _) hj

/-- An entry and its alternate's, released and checked in that order (R98, R101). -/
theorem dropped_pair {n : Node} (h : TableSound n.taps) {i j : EntryNo} {x y : TapEntry} {a : Key}
    (hx : n.taps.entries.get i = some x) (ha : x.alternate = some a) (hl : n.taps.lookup a = some j) (hak : a ≠ x.key)
    (hy : n.taps.entries.get j = some y) :
    ∃ u, Checked (n.releaseEntry i).taps i x.released u
      ∧ Checked u j { y with backs := y.backs - 1 } (dropped n i).taps := by
  have hij : i ≠ j := fun e => by
    subst e
    exact hak (h.key_of_lookup hl hx).symm
  obtain ⟨hi, hj, -⟩ := releaseEntry_get hx ha hl hij hy
  obtain ⟨hk, -⟩ := h.releaseEntry n i x hx
  have c := hk.sound.checked hi
  have c' := c.sound.checked (e := j) (x := { y with backs := y.backs - 1 }) (by
    rw [c.entries, if_neg fun e => hij e.1.symm]
    exact hj)
  have htouch : n.taps.releaseTouches i = [i, j] := by
    unfold Taps.releaseTouches
    rw [hx]
    simp [ha, hl]
  refine ⟨_, c, ?_⟩
  unfold dropped
  rw [htouch]
  exact c'

theorem dropped_frame {n : Node} (h : TableSound n.taps) {i : EntryNo} {x : TapEntry} (hx : n.taps.entries.get i = some x) :
    (dropped n i).taps = { n.taps with
        entries := (dropped n i).taps.entries, free := (dropped n i).taps.free, chains := (dropped n i).taps.chains }
      ∧ (dropped n i).router = (match x.slot with
          | some slot => { n.router with bindings := n.router.bindings.set slot .unbound }
          | none => n.router)
      ∧ dropped n i = { n with taps := (dropped n i).taps, router := (dropped n i).router } := by
  obtain ⟨hk, -⟩ := h.releaseEntry n i x hx
  obtain ⟨-, -, -, -, hf⟩ := hk.sound.freeChecks (n.taps.releaseTouches i)
  have hd : (dropped n i).taps = (n.releaseEntry i).taps.freeChecks (n.taps.releaseTouches i) := rfl
  refine ⟨?_, ?_, ?_⟩
  · rw [hd]
    generalize (n.releaseEntry i).taps.freeChecks (n.taps.releaseTouches i) = t at *
    rw [hf, hk.frame]
  · unfold dropped
    rw [releaseEntry_eq n i x hx]
    rfl
  · unfold dropped
    rw [releaseEntry_eq n i x hx]
    rfl

/-- An entry without an alternate, released and checked. -/
theorem dropped_alone {n : Node} {i : EntryNo} {x : TapEntry} (hx : n.taps.entries.get i = some x) (ha : x.alternate = none) :
    dropped n i = { n with
      taps := ({ n.taps with entries := n.taps.entries.set i (some x.released) } : Taps).freeCheck i
      router := match x.slot with
        | some q => { n.router with bindings := n.router.bindings.set q .unbound }
        | none => n.router } := by
  have htouch : n.taps.releaseTouches i = [i] := by
    unfold Taps.releaseTouches
    rw [hx]
    simp [ha]
  unfold dropped
  rw [htouch, releaseEntry_eq n i x hx, ha]
  unfold Taps.updateEntry Table.update
  dsimp only
  rw [hx]
  rfl

theorem dropped_alone_lookup {n : Node} (h : TableSound n.taps) {i : EntryNo} {x : TapEntry}
    (hx : n.taps.entries.get i = some x) (ha : x.alternate = none) :
    (dropped n i).taps.lookup x.key = if unused x.released then none else some i := by
  have hget : (n.releaseEntry i).taps.entries.get i = some x.released := by
    rw [releaseEntry_eq n i x hx, ha]
    unfold Taps.updateEntry
    simp [hx]
  have htouch : n.taps.releaseTouches i = [i] := by
    unfold Taps.releaseTouches
    rw [hx]
    simp [ha]
  obtain ⟨hk, -⟩ := h.releaseEntry n i x hx
  have hl := (hk.sound.checked hget).lookup x.key
  have hd : (dropped n i).taps = (n.releaseEntry i).taps.freeCheck i := by
    unfold dropped
    rw [htouch]
    rfl
  rw [hd, hl, hk.lookup, (h.lookup_iff _ _).mpr ⟨x, hx, rfl⟩]
  exact if_congr (and_iff_right rfl) rfl rfl

theorem freeCheck_set {t : Taps} {i : EntryNo} {x : TapEntry} :
    ({ t with entries := t.entries.set i (some x) } : Taps).freeCheck i = if unused x then
      { t with entries := t.entries.set i none, free := t.free ++ [i],
               chains := t.chains.update x.key.bucket (·.filter (· != i)) }
      else { t with entries := t.entries.set i (some x) } := by
  unfold Taps.freeCheck Taps.freeEntry
  simp only [Table.get_set_same, set_set]
  rfl

end Sys2Proof.Safety

namespace Sys2Proof.Machine

open Sys2Proof Sys2Proof.Safety

/-- Settles O41. -/
theorem tapDropFreesOrMisses : Obligations.TapDropFreesOrMisses := by
  unfold Obligations.TapDropFreesOrMisses
  intro s e n hr hk ht
  refine ⟨fun hread => carry_badField .tapDrop s e kindTapDrop (messageKey · 6)
    (fun k _ m => (some (m.tapDrop k).1, (m.tapDrop k).2)) rfl hr hk hread, fun k hread => ?_⟩
  have answered : ∀ a, n.tapDrop k = a → Leaves .tapDrop s (a.2.complete e (some a.1)) := fun a ha =>
    ha ▸ carry_leaves .tapDrop s e kindTapDrop (messageKey · 6) (fun k _ m => (some (m.tapDrop k).1, (m.tapDrop k).2)) k rfl
      hr hk hread
  refine ⟨fun hl => answered _ (tapDrop_missing hl), fun i x slot hl hx hslot ha hb hu => ?_, fun i x hl hx ha hu => ?_,
    fun i x a j y hl hx ha hak hla hy => ?_⟩
  · have hkey : x.key = k := ht.key_of_lookup hl hx
    have hdrop := dropped_alone hx ha
    have hunused : unused x.released = true := by simp [unused, TapEntry.released, hb, hu]
    rw [freeCheck_set, if_pos hunused, hslot] at hdrop
    have hleaves := answered _ (tapDrop_found ht hl hx)
    have hlook := dropped_alone_lookup ht hx ha
    rw [hkey, if_pos hunused] at hlook
    have hfree : (dropped n i).taps.free.length = n.taps.free.length + 1 := by
      rw [hdrop]
      exact List.length_append
    rw [hlook, hfree, Nat.add_sub_cancel_left] at hleaves
    refine ⟨dropped n i, hleaves, ?_, ?_, ?_⟩
    · rw [hdrop, ← hkey]
      rfl
    · rw [hdrop]
    · rw [hdrop]
  · have hdrop := dropped_alone hx ha
    have hkey : x.key = k := ht.key_of_lookup hl hx
    have hused : ¬unused x.released = true := by
      simp [unused, TapEntry.released]
      omega
    rw [freeCheck_set, if_neg hused] at hdrop
    have hleaves := answered _ (tapDrop_found ht hl hx)
    have hlook := dropped_alone_lookup ht hx ha
    rw [hkey, if_neg hused] at hlook
    have hfree : (dropped n i).taps.free.length = n.taps.free.length := by rw [hdrop]
    rw [hlook, hfree, Nat.sub_self, hdrop] at hleaves
    exact hleaves
  · intro gone both freed
    have hkey : x.key = k := ht.key_of_lookup hl hx
    have hij : i ≠ j := fun e => by
      subst e
      exact hak ((ht.key_of_lookup hla hx).symm.trans hkey)
    obtain ⟨hgi, hgj, hgo⟩ := releaseEntry_get hx ha hla hij hy
    obtain ⟨hk', -⟩ := ht.releaseEntry n i x hx
    obtain ⟨u, c, c'⟩ := dropped_pair ht hx ha hla (hkey ▸ hak) hy
    obtain ⟨htaps, hrouter, hframe⟩ := dropped_frame ht hx
    have hgone : unused x.released = gone := rfl
    have hboth : unused { y with backs := y.backs - 1 } = both := by
      rw [Bool.eq_iff_iff]
      simp [unused, both, Nat.sub_eq_zero_iff_le]
    have hfreed : taken i x.released ++ taken j { y with backs := y.backs - 1 } = freed := by
      unfold taken
      rw [hgone, hboth]
    clear_value freed gone both
    have hfree : (dropped n i).taps.free = n.taps.free ++ freed := by
      rw [c'.free, c.free, hk'.free, List.append_assoc, hfreed]
    have hlook : ((dropped n i).taps.lookup k).isSome = !gone := by
      have hyk : y.key = a := ht.key_of_lookup hla hy
      rw [c'.lookup, if_neg fun e => hak (hyk.symm.trans e.1.symm), c.lookup, hk'.lookup, hl, hgone]
      cases gone <;> simp [TapEntry.released, hkey]
    have hleaves := answered _ (tapDrop_found ht hl hx)
    rw [hlook, hfree, List.length_append, Nat.add_sub_cancel_left] at hleaves
    refine ⟨dropped n i, ?_, ?_, ?_, fun o hoi hoj => ?_, hfree, fun b => ?_, htaps, hrouter, hframe⟩
    · cases gone <;> exact hleaves
    · rw [c'.entries, if_neg fun e => hij e.1, c.entries, hgi, hgone]
      cases gone <;> simp [TapEntry.released]
    · rw [c'.entries, c.entries, if_neg (c := j = i ∧ _) fun e => hij e.1.symm, hgj, hboth]
      cases both <;> simp
    · rw [c'.entries, c.entries, hgo o hoi hoj]
      simp [hoi, hoj]
    · rw [c'.chains, c.chains, hk'.chains, List.filter_filter, ← hfreed]
      exact List.filter_congr fun o _ => by simp [Bool.and_comm]

end Sys2Proof.Machine

namespace Sys2Proof.Safety

open Sys2Proof Sys2Proof.Machine

/-! ### The walk of TAP CLEAR (R99) -/

/-- The entry holds the slot. -/
def HoldsSlot (t : Taps) (e : EntryNo) (s : Fin 128) : Prop := ∃ x, t.entries.get e = some x ∧ x.slot = some s

/-- What changes of entries by release and free check keep: no entry is made or takes another key, and an entry that is a
talk source without a slot loses backs alone. -/
structure Loses (t t' : Taps) : Prop where
  keys : ∀ e x, t'.entries.get e = some x → ∃ y, t.entries.get e = some y ∧ y.key = x.key
  talk : ∀ e x, t.entries.get e = some x → x.slot = none → x.talkUsers ≠ 0 →
    ∃ b, t'.entries.get e = some { x with backs := b }
  free : t.free.length ≤ t'.free.length
  frame : t' = { t with entries := t'.entries, free := t'.free, chains := t'.chains }

theorem Loses.refl (t : Taps) : Loses t t := ⟨fun _ x h => ⟨x, h, rfl⟩, fun _ x h _ _ => ⟨x.backs, h⟩, le_refl _, rfl⟩

theorem Loses.trans {a b c : Taps} (h : Loses a b) (k : Loses b c) : Loses a c where
  keys := fun e x hx => by
    obtain ⟨y, hy, hyx⟩ := k.keys e x hx
    obtain ⟨z, hz, hzy⟩ := h.keys e y hy
    exact ⟨z, hz, hzy.trans hyx⟩
  talk := fun e x hx hs ht => by
    obtain ⟨b, hb⟩ := h.talk e x hx hs ht
    exact k.talk e { x with backs := b } hb hs ht
  free := h.free.trans k.free
  frame := k.frame.trans (by rw [h.frame])

theorem Checked.loses {t t' : Taps} {e : EntryNo} {x : TapEntry} (c : Checked t e x t') (hx : t.entries.get e = some x) :
    Loses t t' where
  keys := fun f y hy => by
    rw [c.entries] at hy
    split at hy
    · cases hy
    · exact ⟨y, hy, rfl⟩
  talk := fun f y hy _ ht => by
    refine ⟨y.backs, (c.entries f).trans ?_⟩
    rw [if_neg, hy]
    rintro ⟨rfl, hu⟩
    rw [hx] at hy
    cases hy
    simp [unused, ht] at hu
  free := by
    rw [c.free, List.length_append]
    exact Nat.le_add_right _ _
  frame := c.frame

theorem Checked.holdsSlot {t t' : Taps} {e : EntryNo} {x : TapEntry} (c : Checked t e x t')
    (hx : t.entries.get e = some x) (f : EntryNo) (s : Fin 128) : HoldsSlot t' f s ↔ HoldsSlot t f s := by
  unfold HoldsSlot
  rw [c.entries]
  split
  · rename_i h
    obtain ⟨rfl, hu⟩ := h
    refine iff_of_false (by simp) fun ⟨y, hy, hs⟩ => ?_
    rw [hx] at hy
    cases hy
    simp [unused, hs] at hu
  · rfl

/-- Free checks take no slot from an entry. -/
theorem freeChecks_loses (es : List EntryNo) {t : Taps} (h : TableSound t) :
    Loses t (t.freeChecks es) ∧ ∀ f s, HoldsSlot (t.freeChecks es) f s ↔ HoldsSlot t f s := by
  induction es generalizing t with
  | nil => exact ⟨.refl t, fun _ _ => Iff.rfl⟩
  | cons e es ih =>
    have hstep : TableSound (t.freeCheck e) ∧ Loses t (t.freeCheck e)
        ∧ ∀ f s, HoldsSlot (t.freeCheck e) f s ↔ HoldsSlot t f s := by
      cases hx : t.entries.get e with
      | none =>
        have : t.freeCheck e = t := by
          unfold Taps.freeCheck
          rw [hx]
        rw [this]
        exact ⟨h, .refl t, fun _ _ => Iff.rfl⟩
      | some x =>
        have c := h.checked hx
        exact ⟨c.sound, c.loses hx, c.holdsSlot hx⟩
    obtain ⟨hs, hl, hh⟩ := hstep
    obtain ⟨hl', hh'⟩ := ih hs
    exact ⟨hl.trans hl', fun f s => (hh' f s).trans (hh f s)⟩

theorem dropBack_entries (t : Taps) (k : Key) (f : EntryNo) :
    ∃ b : Nat → Nat, (t.dropBack k).entries.get f = (t.entries.get f).map fun y => { y with backs := b y.backs } := by
  unfold Taps.dropBack Taps.updateEntry
  cases t.lookup k with
  | none => exact ⟨id, by simp⟩
  | some e =>
    by_cases he : e = f
    · subst he
      exact ⟨(· - 1), by simp⟩
    · exact ⟨id, by simp [he]⟩

/-- What a release makes of every entry. -/
theorem releaseEntry_entries {n : Node} {i : EntryNo} {x : TapEntry} (hx : n.taps.entries.get i = some x) (f : EntryNo) :
    ∃ b : Nat → Nat, (n.releaseEntry i).taps.entries.get f = (n.taps.entries.get f).map fun y =>
      { (if f = i then y.released else y) with backs := b y.backs } := by
  have hdrop : ∃ b : Nat → Nat, (Taps.dropBackOf n.taps x.alternate).entries.get f
      = (n.taps.entries.get f).map fun y => { y with backs := b y.backs } := by
    cases x.alternate with
    | none => exact ⟨id, by simp [Taps.dropBackOf]⟩
    | some k => exact dropBack_entries n.taps k f
  obtain ⟨b, hb⟩ := hdrop
  refine ⟨b, ?_⟩
  have htaps : (n.releaseEntry i).taps = (Taps.dropBackOf n.taps x.alternate).updateEntry i TapEntry.released := by
    rw [releaseEntry_eq n i x hx]
    rfl
  rw [htaps]
  unfold Taps.updateEntry
  dsimp only
  by_cases hf : f = i
  · subst hf
    rw [Table.get_update_same, hb, Option.map_map]
    simp only [if_true]
    rfl
  · rw [Table.get_update_other _ _ _ _ (Ne.symm hf), hb]
    simp only [if_neg hf]

theorem releaseEntry_loses {n : Node} (h : TableSound n.taps) {i : EntryNo} {x : TapEntry}
    (hx : n.taps.entries.get i = some x) (hslot : x.slot.isSome = true) :
    Loses n.taps (n.releaseEntry i).taps
      ∧ ∀ f s, HoldsSlot (n.releaseEntry i).taps f s ↔ HoldsSlot n.taps f s ∧ f ≠ i := by
  obtain ⟨hk, -⟩ := h.releaseEntry n i x hx
  refine ⟨⟨fun f y hy => ?_, fun f y hy hs ht => ?_, by rw [hk.free], hk.frame.trans (by rw [hk.free, hk.chains])⟩,
    fun f s => ?_⟩
  · obtain ⟨b, hb⟩ := releaseEntry_entries hx f
    rw [hb] at hy
    obtain ⟨z, hz, rfl⟩ := Option.map_eq_some_iff.mp hy
    exact ⟨z, hz, by split <;> rfl⟩
  · obtain ⟨b, hb⟩ := releaseEntry_entries hx f
    have hf : f ≠ i := fun e => by
      rw [e, hx] at hy
      cases hy
      simp [hs] at hslot
    refine ⟨b y.backs, ?_⟩
    rw [hb, hy]
    simp only [if_neg hf]
    rfl
  · obtain ⟨b, hb⟩ := releaseEntry_entries hx f
    unfold HoldsSlot
    rw [hb]
    by_cases hf : f = i
    · subst hf
      simp [TapEntry.released]
    · simp [hf]

/-- What a walk over some entries makes (R99). -/
structure WalkedOver (n : Node) (es : List EntryNo) (m : Node) : Prop where
  sound : TableSound m.taps
  agree : BindingsAgree m
  bindings : ∀ i, m.router.bindings.get i = match n.router.bindings.get i with
    | .tap e => if e ∈ es then .unbound else .tap e
    | other => other
  loses : Loses n.taps m.taps
  frame : m = { n with taps := m.taps, router := { n.router with bindings := m.router.bindings } }

theorem WalkedOver.nil {n : Node} (h : TableSound n.taps) (hag : BindingsAgree n) : WalkedOver n [] n where
  sound := h
  agree := hag
  bindings := fun i => by cases n.router.bindings.get i <;> simp
  loses := .refl _
  frame := rfl

theorem WalkedOver.cons {n m o : Node} {e : EntryNo} {es : List EntryNo} (h : WalkedOver n [e] m) (k : WalkedOver m es o) :
    WalkedOver n (e :: es) o where
  sound := k.sound
  agree := k.agree
  bindings := fun i => by
    rw [k.bindings, h.bindings]
    cases n.router.bindings.get i with
    | unbound => rfl
    | localChannel c => rfl
    | tap f =>
      by_cases hf : f = e
      · simp [hf]
      · simp [hf]
  loses := h.loses.trans k.loses
  frame := k.frame.trans (by rw [h.frame])

theorem walkEntry_walked {n : Node} (h : TableSound n.taps) (hag : BindingsAgree n) (e : EntryNo) :
    WalkedOver n [e] (n.walkEntry e) := by
  by_cases hh : ∃ s, HoldsSlot n.taps e s
  · obtain ⟨s, x, hx, hs⟩ := hh
    have hw : n.walkEntry e = dropped n e := by
      unfold Node.walkEntry
      rw [hx]
      exact if_pos (by rw [hs]; rfl)
    obtain ⟨hk, -, hb, hf⟩ := h.releaseEntry n e x hx
    obtain ⟨hl, hh⟩ := releaseEntry_loses h hx (by rw [hs]; rfl)
    obtain ⟨hl', hh'⟩ := freeChecks_loses (n.taps.releaseTouches e) hk.sound
    have hslots : ∀ f s, HoldsSlot (dropped n e).taps f s ↔ HoldsSlot n.taps f s ∧ f ≠ e := fun f s =>
      (hh' f s).trans (hh f s)
    rw [hw]
    have hbind : ∀ i, (dropped n e).router.bindings.get i = if x.slot = some i then .unbound else n.router.bindings.get i := hb
    refine ⟨(hk.sound.freeChecks _).1, fun i f => ?_, fun i => ?_, hl.trans hl', ?_⟩
    · rw [hbind]
      refine Iff.trans ?_ (hslots f i).symm
      by_cases hi : x.slot = some i
      · rw [if_pos hi]
        refine iff_of_false (fun hf => nomatch hf) fun ⟨hf, hne⟩ => ?_
        have he := (hag i e).mpr ⟨x, hx, hi⟩
        have hf' := (hag i f).mpr hf
        rw [he] at hf'
        cases hf'
        exact hne rfl
      · rw [if_neg hi]
        refine (hag i f).trans ⟨fun hf => ⟨hf, fun e' => hi ?_⟩, fun hf => hf.1⟩
        obtain ⟨y, hy, hys⟩ := hf
        rw [e', hx] at hy
        cases hy
        exact hys
    · rw [hbind]
      by_cases hi : x.slot = some i
      · rw [if_pos hi, (hag i e).mpr ⟨x, hx, hi⟩]
        simp
      · rw [if_neg hi]
        cases hbi : n.router.bindings.get i with
        | unbound => rfl
        | localChannel c => rfl
        | tap f =>
          have hf : f ≠ e := fun he => by
            obtain ⟨y, hy, hys⟩ := (hag i f).mp hbi
            rw [he, hx] at hy
            cases hy
            exact hi hys
          simp [hf]
    · unfold dropped Node.updateTaps
      rw [hf]
  · have hw : n.walkEntry e = n := by
      unfold Node.walkEntry
      cases hx : n.taps.entries.get e with
      | none => rfl
      | some x =>
        cases hs : x.slot with
        | none =>
          dsimp only
          rw [hs]
          rfl
        | some s => exact absurd ⟨s, x, hx, hs⟩ hh
    rw [hw]
    refine ⟨h, hag, fun i => ?_, .refl _, rfl⟩
    cases hbi : n.router.bindings.get i with
    | unbound => rfl
    | localChannel c => rfl
    | tap f =>
      have hf : f ≠ e := fun he => hh ⟨i, he ▸ (hag i f).mp hbi⟩
      simp [hf]

theorem walk_walked (es : List EntryNo) {n : Node} (h : TableSound n.taps) (hag : BindingsAgree n) :
    WalkedOver n es (es.foldl Node.walkEntry n) := by
  induction es generalizing n with
  | nil => exact .nil h hag
  | cons e es ih =>
    have w := walkEntry_walked h hag e
    exact w.cons (ih w.sound w.agree)

end Sys2Proof.Safety

namespace Sys2Proof.Machine

open Sys2Proof Sys2Proof.Safety

/-- Settles O42. -/
theorem tapClearStartsTheWalk : Obligations.TapClearStartsTheWalk := by
  unfold Obligations.TapClearStartsTheWalk
  refine ⟨fun s e => ?_, fun n b freed hw ht hag => ?_⟩
  · intro n hr hk
    have hl := work_leaves .tapClear s (fun n => n.carryOut (· == kindTapClear) fun _ m => m.startWalk) rfl hr.1
    rw [Node.carryOut, head_ready _ e _ hr (by simp [hk])] at hl
    exact hl
  · intro m
    have w := walk_walked (n.taps.chains.get b) ht hag
    generalize hn1 : (n.taps.chains.get b).foldl Node.walkEntry n = n1 at w
    have hm : m = { n1 with taps := { n1.taps with
        walk := some ⟨b.val + 1, freed + (n1.taps.free.length - n.taps.free.length)⟩ } } := by
      show n.walkStep = _
      unfold Node.walkStep
      rw [hw]
      dsimp only
      rw [dif_pos b.isLt, hn1]
      rfl
    have hmem : ∀ e x, n.taps.entries.get e = some x → (e ∈ n.taps.chains.get b ↔ x.key.bucket = b) := fun e x hx => by
      rw [ht.2.2.1 b e]
      exact ⟨fun ⟨y, hy, hyb⟩ => by rw [hx] at hy; cases hy; exact hyb, fun hb => ⟨x, hx, hb⟩⟩
    rw [hm]
    refine ⟨rfl, w.loses.free, fun e x hx hb => ?_, fun i => ?_, w.loses.talk, ?_⟩
    · by_contra hs
      obtain ⟨s, hs⟩ := Option.ne_none_iff_exists'.mp hs
      have hbound := (w.agree s e).mpr ⟨x, hx, hs⟩
      obtain ⟨y, hy, hyx⟩ := w.loses.keys e x hx
      have hin : e ∈ n.taps.chains.get b := (hmem e y hy).mpr (hyx ▸ hb)
      rw [w.bindings] at hbound
      cases hbi : n.router.bindings.get s with
      | unbound => rw [hbi] at hbound; cases hbound
      | localChannel c => rw [hbi] at hbound; cases hbound
      | tap f =>
        rw [hbi] at hbound
        dsimp only at hbound
        split at hbound
        · cases hbound
        · cases hbound
          contradiction
    · refine (w.bindings i).trans ?_
      cases hbi : n.router.bindings.get i with
      | unbound => rfl
      | localChannel c => rfl
      | tap e =>
        obtain ⟨x, hx, -⟩ := (hag i e).mp hbi
        dsimp only
        rw [hx]
        exact if_congr (hmem e x hx) rfl rfl
    · have hf := w.frame
      dsimp only
      rw [hf]

end Sys2Proof.Machine

namespace Sys2Proof.Safety

end Sys2Proof.Safety
end
section
/-! PROOF. The queue of commands, the event in progress, and the reset state. -/

namespace Sys2Proof.Machine

open Sys2Proof Sys2Proof.Safety

/-! ### The queue of commands -/

/-- Settles O1. -/
theorem stepRunsTheFrontCommand : Obligations.StepRunsTheFrontCommand := by
  unfold Obligations.StepRunsTheFrontCommand
  refine ⟨fun c s rest h => ?_, fun s h => ?_⟩
  · unfold step
    rw [h]
  · unfold step
    rw [h]

@[simp] theorem State.takeRow_pending (s : State) (t : Task) : (s.takeRow t).pending = s.pending := by
  unfold State.takeRow
  split
  · split
    · exact State.runOn_pending ..
    · rfl
  · rfl

@[simp] theorem State.takeBeacon_pending (s : State) (side : Side) (bytes : SixBytes) :
    (s.takeBeacon side bytes).pending = s.pending := by
  unfold State.takeBeacon
  split
  · rfl
  · exact State.runOn_pending ..

/-- Settles O2: a command acts, or takes a row, and neither touches the queue. -/
theorem commandsAnswerAndKeepTheQueue : Obligations.CommandsAnswerAndKeepTheQueue := by
  unfold Obligations.CommandsAnswerAndKeepTheQueue
  intro c s
  cases c with
  | powerOn resetHeld => exact ⟨_, rfl, rfl⟩
  | resetLineAsserted => exact ⟨_, rfl, rfl⟩
  | beaconReceived side beacon =>
    refine ⟨_, rfl, ?_⟩
    split
    · exact State.takeBeacon_pending ..
    · rfl
  | frameReceived side head body =>
    refine ⟨_, rfl, ?_⟩
    split
    · exact State.runOn_pending ..
    · rfl
  | boundary lanes pins =>
    refine ⟨_, rfl, ?_⟩
    split
    · exact State.runOn_pending ..
    · rfl
  | _ => exact ⟨_, rfl, by simp⟩

/-- Settles O3: up to the first due row the tasks are carried out as they come. -/
theorem pausedEventEndsAsUnpaused : Obligations.PausedEventEndsAsUnpaused := by
  unfold Obligations.PausedEventEndsAsUnpaused
  intro ts s
  induction ts generalizing s with
  | nil => rfl
  | cons t ts ih =>
    unfold State.runOn
    split
    · rfl
    · exact ih _

/-! ### The reset state -/

/-- Settles O4. -/
theorem resetLeavesTheStartingValues : Obligations.ResetLeavesTheStartingValues := by
  unfold Obligations.ResetLeavesTheStartingValues
  intro n
  refine ⟨⟨rfl, rfl⟩, fun side => ?_, ⟨rfl, rfl, rfl, rfl⟩, rfl, ⟨fun p => Table.get_replicate .., rfl⟩,
    ⟨fun i => Table.get_replicate .., fun p => Table.get_replicate .., rfl⟩,
    ⟨initial_entries 12, initial_free 12, initial_chains 12, rfl, rfl, rfl, rfl, rfl⟩,
    ⟨fun i => Table.get_replicate .., rfl, rfl, rfl⟩, ⟨rfl, fun m => Table.get_replicate ..⟩,
    ⟨fun k => Table.get_replicate .., rfl⟩, ⟨rfl, rfl, rfl, rfl⟩, rfl, rfl, rfl⟩
  cases side <;> exact ⟨rfl, rfl, rfl, rfl, rfl, rfl, rfl, rfl⟩

/-- Settles O5. -/
theorem powerAndResetLineHoldTheStart : Obligations.PowerAndResetLineHoldTheStart := by
  unfold Obligations.PowerAndResetLineHoldTheStart
  refine ⟨fun held s => ⟨_, rfl, rfl, rfl⟩, fun s => ⟨_, rfl, rfl, rfl, rfl⟩, fun s h => ?_, fun s h => ?_⟩
  · exact ⟨_, act_leaves .resetLineReleased s Node.releaseReset rfl, by rw [Node.releaseReset, if_pos h]; rfl,
      by rw [Node.releaseReset, if_pos h]; rfl⟩
  · have hl := act_leaves .resetLineReleased s Node.releaseReset rfl
    rwa [Node.releaseReset, if_neg h] at hl

/-- Settles O54. -/
theorem resetMeetsTheInvariants : Obligations.ResetMeetsTheInvariants := by
  unfold Obligations.ResetMeetsTheInvariants
  intro n
  have hno : ∀ k, n.taps.entryOf k = none := fun k => ((initial_sound 12).entryOf_none k).mpr (initial_lookup 12 k)
  have hempty : inUse n.taps = [] := List.filterMap_eq_nil_iff.mpr fun x hx => List.eq_of_mem_replicate hx
  have hsilent : (n.mixer.mixes.items.flatMap fun x => x.talks) = [] := List.flatMap_eq_nil_iff.mpr fun x hx => by
    rw [List.eq_of_mem_replicate hx]
    rfl
  refine ⟨⟨nofun, nofun⟩, fun side => ?_, Nat.zero_le _, ⟨nofun, fun _ => rfl⟩, ⟨Nat.zero_le _, rfl⟩,
    ⟨Nat.zero_le _, Nat.zero_le _, by decide, fun _ => rfl⟩, ?_, initial_sound 12, fun s e => ?_,
    fun _ => initial_entries 12, fun e x hx => ?_, fun k => ?_, fun k => ?_, powerOn_crosspoints .., powerOn_talks .reading false false⟩
  · cases side <;> exact ⟨Nat.zero_le _, Nat.zero_le _⟩
  · unfold DelaySound DelayClamped
    decide
  · refine iff_of_false (fun h => ?_) fun ⟨x, hx, _⟩ => ?_
    · have hu : n.router.bindings.get s = .unbound := Table.get_replicate ..
      rw [hu] at h
      cases h
    · have hx' : (Taps.initial 12).entries.get e = some x := hx
      rw [initial_entries] at hx'
      cases hx'
  · have hx' : (Taps.initial 12).entries.get e = some x := hx
    rw [initial_entries] at hx'
    cases hx'
  · rw [hno, hempty]
    rfl
  · rw [hno]
    have hk : (n.mixer.mixes.items.flatMap fun x => x.talks.filter fun t => t.source == k) = [] := by
      rw [← List.filter_flatMap, hsilent]
      rfl
    rw [hk]
    rfl

end Sys2Proof.Machine
end
section
/-! PROOF. Requests that a single block answers: UNKNOWN KIND, MIX GAIN, MIX MASTER, OUT SET and the end of a walk; the reply
grants; and the rows of starvation and HOLD records. -/

namespace Sys2Proof.Machine

open Sys2Proof Sys2Proof.Safety

/-! ### Requests (R68) -/

/-- Settles O39. -/
theorem unknownKindIsBadField : Obligations.UnknownKindIsBadField := by
  unfold Obligations.UnknownKindIsBadField
  intro s e n hr hk
  have hl := work_leaves .unknownKind s (fun n => n.carryOut isUnknownKind fun e m => m.complete e (some badField)) rfl hr.1
  rwa [Node.carryOut, head_ready _ e _ hr hk] at hl

/-- A mix admits a sender that owns it, and every sender where it has no owner (R138). -/
theorem admits_iff (x : Mix) (d : Station) : x.admits d = true ↔ x.owner = none ∨ x.owner = some d := by
  unfold Mix.admits
  cases x.owner <;> simp

theorem not_admits {x : Mix} {o d : Station} (h : x.owner = some o) (ho : o ≠ d) : x.admits d = false := by
  unfold Mix.admits
  rw [h]
  simpa using ho

/-- MIX GAIN for a mix that is another station's. -/
theorem mixGain_locked {e : MixEngine} {r : MixGainRequest} {o d : Station} (h : (e.mixes.get r.mix).owner = some o)
    (ho : o ≠ d) : e.mixGain r d = ({ outcome := .locked, detail := [o.byte] }, e) := by
  unfold MixEngine.mixGain
  simp only [not_admits h ho, h]
  rfl

/-- MIX GAIN for a crosspoint that is there. -/
theorem mixGain_present {e : MixEngine} {r : MixGainRequest} {d : Station} {c : Crosspoint}
    (h : (e.mixes.get r.mix).admits d = true) (hc : findCrosspoint (e.mixes.get r.mix).crosspoints r.slot = some c) :
    e.mixGain r d = if c.gain.target = r.target then
        ({ outcome := .already,
           detail := mixGainDetail (e.mixes.get r.mix).crosspoints.length e.freeCrosspoints c.gain.value r.target }, e)
      else ({ outcome := .done,
              detail := mixGainDetail (e.mixes.get r.mix).crosspoints.length e.freeCrosspoints c.gain.value r.target },
            e.setCrosspoints r.mix (updateCrosspoint (e.mixes.get r.mix).crosspoints r.slot fun d =>
              { d with gain := d.gain.retarget r.target r.ramp }) e.freeCrosspoints) := by
  unfold MixEngine.mixGain
  simp only [h, hc, Bool.not_true, Bool.false_eq_true, if_false]
  split
  · rename_i ht
    rw [ht]
  · rfl

/-- MIX GAIN for a crosspoint that is not there. -/
theorem mixGain_new {e : MixEngine} {r : MixGainRequest} {d : Station} (h : (e.mixes.get r.mix).admits d = true)
    (hc : findCrosspoint (e.mixes.get r.mix).crosspoints r.slot = none) :
    e.mixGain r d = if r.target = 0#24 then
        ({ outcome := .already,
           detail := mixGainDetail (e.mixes.get r.mix).crosspoints.length e.freeCrosspoints 0#24 0#24 }, e)
      else if e.freeCrosspoints = 0 then
        ({ outcome := .storeFull,
           detail := mixGainDetail (e.mixes.get r.mix).crosspoints.length e.freeCrosspoints 0#24 0#24 }, e)
      else ({ outcome := .done,
              detail := mixGainDetail ((e.mixes.get r.mix).crosspoints.length + 1) (e.freeCrosspoints - 1) 0#24 r.target },
            e.setCrosspoints r.mix (linkCrosspoint
              { slot := r.slot, gain := (Ramp.settledAt 0#24).retarget r.target r.ramp } (e.mixes.get r.mix).crosspoints)
              (e.freeCrosspoints - 1)) := by
  unfold MixEngine.mixGain
  simp only [h, hc, Bool.not_true, Bool.false_eq_true, if_false]

/-- Settles O43. -/
theorem mixGainIsAnsweredByRule : Obligations.MixGainIsAnsweredByRule := by
  unfold Obligations.MixGainIsAnsweredByRule
  refine ⟨fun s e hr hk hread => carry_badField .mixGain s e kindMixGain readMixGain
    (fun r desk m => m.fromMixer (m.mixer.mixGain r desk)) rfl hr hk hread, fun s e r => ?_⟩
  intro n x free phase detail with' hr hk hread
  have answered : ∀ a, n.mixer.mixGain r (n.requester e) = a →
      Leaves .mixGain s (({ n with mixer := a.2 } : Node).complete e (some a.1)) := fun a ha =>
    ha ▸ carry_leaves .mixGain s e kindMixGain readMixGain (fun r desk m => m.fromMixer (m.mixer.mixGain r desk)) r rfl hr hk
      hread
  refine ⟨fun o ho hne => answered ({ outcome := .locked, detail := [o.byte] }, n.mixer) (mixGain_locked ho hne), fun ho => ?_⟩
  have hadmits := (admits_iff x (n.requester e)).mpr ho
  refine ⟨fun c hc ht => ?_, fun c hc ht => ?_, fun hc ht => ?_, fun hc ht hf => ?_, fun hc ht hf => ?_⟩
  · have hl := answered _ ((mixGain_present hadmits hc).trans (if_pos ht))
    exact hl
  · have hl := answered _ ((mixGain_present hadmits hc).trans (if_neg ht))
    exact hl
  · have hl := answered _ ((mixGain_new hadmits hc).trans (if_pos ht))
    exact hl
  · have hl := answered _ ((mixGain_new hadmits hc).trans ((if_neg ht).trans (if_pos hf)))
    have hf' : n.mixer.freeCrosspoints = 0 := hf
    rw [hf'] at hl
    exact hl
  · have hl := answered _ ((mixGain_new hadmits hc).trans ((if_neg ht).trans (if_neg hf)))
    exact hl

/-- Settles O44. -/
theorem mixMasterIsAnsweredByRule : Obligations.MixMasterIsAnsweredByRule := by
  unfold Obligations.MixMasterIsAnsweredByRule
  refine ⟨fun s e hr hk hread => carry_badField .mixMaster s e kindMixMaster readMixMaster
    (fun r desk m => m.fromMixer (m.mixer.mixMaster r.1 r.2.1 r.2.2 desk)) rfl hr hk hread, fun s e mix target ramp => ?_⟩
  intro n x detail hr hk hread
  have answered : ∀ a, n.mixer.mixMaster mix target ramp (n.requester e) = a →
      Leaves .mixMaster s (({ n with mixer := a.2 } : Node).complete e (some a.1)) := fun a ha =>
    ha ▸ carry_leaves .mixMaster s e kindMixMaster readMixMaster
      (fun r desk m => m.fromMixer (m.mixer.mixMaster r.1 r.2.1 r.2.2 desk)) (mix, target, ramp) rfl hr hk hread
  refine ⟨fun o ho hne => answered ({ outcome := .locked, detail := [o.byte] }, n.mixer) ?_, fun ho ht =>
    answered ({ outcome := .already, detail := detail }, n.mixer) ?_, fun ho ht => answered ({ outcome := .done, detail := detail },
      { n.mixer with mixes := n.mixer.mixes.set mix { x with master := x.master.retarget target ramp } }) ?_⟩
  · unfold MixEngine.mixMaster
    have hx : x = n.mixer.mixes.get mix := rfl
    simp only [← hx, not_admits ho hne, ho]
    rfl
  · have hadmits := (admits_iff x (n.requester e)).mpr ho
    unfold MixEngine.mixMaster
    have hx : x = n.mixer.mixes.get mix := rfl
    simp only [← hx, hadmits, Bool.not_true, Bool.false_eq_true, if_false]
    exact if_pos ht
  · have hadmits := (admits_iff x (n.requester e)).mpr ho
    unfold MixEngine.mixMaster
    have hx : x = n.mixer.mixes.get mix := rfl
    simp only [← hx, hadmits, Bool.not_true, Bool.false_eq_true, if_false]
    exact if_neg ht

/-- Settles O45. -/
theorem outSetChangesTheMap : Obligations.OutSetChangesTheMap := by
  unfold Obligations.OutSetChangesTheMap
  refine ⟨fun s e hr hk hread => carry_badField .outSet s e kindOutSet readOutSet
    (fun r _ m => (some (m.outSet r.1 r.2).1, (m.outSet r.1 r.2).2)) rfl hr hk hread, fun s e o x => ?_⟩
  intro n hr hk hread
  have answered : ∀ a, n.outSet o x = a → Leaves .outSet s (a.2.complete e (some a.1)) := fun a ha =>
    ha ▸ carry_leaves .outSet s e kindOutSet readOutSet (fun r _ m => (some (m.outSet r.1 r.2).1, (m.outSet r.1 r.2).2))
      (o, x) rfl hr hk hread
  exact ⟨fun hp => answered _ (if_pos hp), fun hp => answered (badField, n) (if_neg (by simp [hp]))⟩

/-! ### Rows -/

/-- Settles O32. -/
theorem tapClearCompleteAnswers : Obligations.TapClearCompleteAnswers := by
  unfold Obligations.TapClearCompleteAnswers
  intro s ts freed e q n hr ha hw hq
  have hdue : n.due .walkComplete = true := by
    unfold Node.due Node.rowStands
    rw [hr, hw]
    rfl
  have hl := takeRow_takes .tapClearComplete s .walkComplete ts rfl ha hdue
  have hwalk : n.doTask .walkComplete = ({ n with
      taps := { n.taps with walk := none }
      messages := { n.messages with carrying := .idle } } : Node).complete e
        (some { outcome := .done, detail := countBytes freed ++ countBytes n.taps.inUse.length }) := by
    show n.completeWalk = _
    unfold Node.completeWalk
    rw [hw, hq]
    rfl
  exact hwalk ▸ hl

/-- Settles O27. -/
theorem starvationEntersWaiting : Obligations.StarvationEntersWaiting := by
  unfold Obligations.StarvationEntersWaiting
  intro s ts n hr ha hs hor
  have hruns : n.starvationRuns = true := by
    unfold Node.starvationRuns
    rcases hor with h | ⟨h, hf⟩
    · simp [h]
    · simp [h, hf]
  have hdue : n.due .starvation = true := by
    unfold Node.due Node.rowStands
    rw [hr, hruns, hs]
    rfl
  have hl := takeRow_takes .starvation s .starvation ts rfl ha hdue
  have hstarve : n.doTask .starvation = { n with
      cadence := { n.cadence with
        node := .waiting, backOff := if n.loader.values.originEligible then some (n.station.number * 8) else none },
      engine := { n.engine with layoutDue := n.engine.layoutDue || n.cadence.node == .starting },
      reports := n.reports.post (.nodeState .waiting n.cadence.followed n.cadence.roundLength) } := by
    show n.enterWaiting = _
    unfold Node.enterWaiting Node.setNodeState Node.newBackOff Node.postNodeState
    cases hc : n.cadence.node == .starting
    · simp
      rfl
    · simp
      rfl
  exact hstarve ▸ hl

/-- Settles O34. -/
theorem holdRecordExpires : Obligations.HoldRecordExpires := by
  unfold Obligations.HoldRecordExpires
  refine ⟨fun s ts p => ?_, fun n p flag => ⟨fun hp => ⟨if_pos hp, ?_⟩, fun hp => ⟨if_neg hp, ?_⟩⟩⟩
  · intro n hr ha hp
    have hdue : n.due (.holdExpiry p) = true := by
      unfold Node.due Node.rowStands
      dsimp only
      rw [hr, hp]
      rfl
    have hl := takeRow_takes (.holdRecordExpiry p) s (.holdExpiry p) ts rfl ha hdue
    have hset : n.messages.peers.update p (fun h => { h with hold := false }) = n.messages.peers.set p ⟨false, 128⟩ := by
      unfold Table.update
      rw [hp]
    exact hset ▸ hl
  · unfold Node.countPeers
    rw [Table.get_ofFn, if_pos hp]
  · unfold Node.countPeers
    rw [Table.get_ofFn, if_neg hp]
    rfl

end Sys2Proof.Machine
end
section
/-! PROOF. The Local Message Port (Section 10): transfers, and what is shifted out. -/

namespace Sys2Proof.Machine

open Sys2Proof Sys2Proof.Safety

/-! ### Bits shifted out (R170) -/

theorem length_bytes (r : Report) (k : Nat) : (r.bytes k).length = 27 := by
  unfold Report.bytes
  simp [Table.size]

theorem length_emptyMarker (p : Byte) : (emptyMarker p).length = 27 := by
  unfold emptyMarker
  simp [Table.size]

/-! ### Transfers (R170 to R175) -/

/-- Settles O8. -/
theorem operationByteShowsTheHeldStatus : Obligations.OperationByteShowsTheHeldStatus := by
  unfold Obligations.OperationByteShowsTheHeldStatus
  refine ⟨fun s => ?_, fun s op bits r => ?_⟩
  · intro n hr hi
    have hl := work_leaves .transferBegins s Node.beginTransfer rfl hr
    have hb : n.beginTransfer = { n with port := { n.port with
        transfer := .counting 0 none none, reply := [], shiftedOut := [] } } := by
      unfold Node.beginTransfer
      rw [hi]
      rfl
    exact hb ▸ hl
  · intro n hr hc
    have hl := work_leaves (.operationByteComplete op) s (fun n => n.completeOperation op) rfl hr
    have hb : n.completeOperation op = { n with port := { n.port with
        transfer := .counting 8 (some op) (if op = opTakeReport then n.reports.items.head? else none),
        held := .nothing, reply := n.bytesOut op, shiftedOut := bitsOf [n.port.held.byte] } } := by
      unfold Node.completeOperation
      rw [hc]
      rfl
    have hmarker : op = 2#8 → n.reports.items = [] → n.bytesOut op = emptyMarker n.reports.postNumber := fun h hi => by
      unfold Node.bytesOut
      rw [hi]
      exact if_pos h
    have hreport : ∀ x rest, op = 2#8 → n.reports.items = x :: rest → n.bytesOut op = x.bytes rest.length :=
      fun x rest h hi => by
        unfold Node.bytesOut
        rw [hi]
        exact if_pos h
    refine ⟨n.completeOperation op, hl, ?_⟩
    rw [hb]
    refine ⟨rfl, rfl, rfl, rfl, rfl, fun h count => ?_, fun x rest => hreport x rest, hmarker, fun h => ?_⟩
    · rw [show n.bytesOut op = [] from if_neg h]
      exact bitsShifted_nil count
    · have hlen : (n.bytesOut op).length = 27 := by
        cases hi : n.reports.items with
        | nil => rw [hmarker h hi, length_emptyMarker]
        | cons x rest => rw [hreport x rest h hi, length_bytes]
      have hall := bitsShifted_whole (n.bytesOut op)
      rw [hlen] at hall
      exact ⟨hall, hlen⟩

/-- Settles O10. -/
theorem takeReportRemovesTheChosen : Obligations.TakeReportRemovesTheChosen := by
  unfold Obligations.TakeReportRemovesTheChosen
  intro s n hr hop port
  have hl := work_leaves .takeReport s (fun n => n.wholeTransfer opTakeReport Node.removeReport) rfl hr
  have hw : n.wholeTransfer opTakeReport Node.removeReport = n.removeReport.endTransfer 224 := if_pos hop
  rw [show s.finish.node.wholeTransfer opTakeReport Node.removeReport = _ from hw] at hl
  refine ⟨fun r hc => ?_, fun hc => ?_⟩
  · have hrem : n.removeReport = { n with reports := n.reports.take } := by
      unfold Node.removeReport
      rw [hc]
    rw [hrem] at hl
    exact hl
  · have hrem : n.removeReport = n := by
      unfold Node.removeReport
      rw [hc]
    rw [hrem] at hl
    exact hl

/-- The whole length that each operation fixes (R170). -/
theorem wholeBits_iff (o : Byte) (bits : Nat) :
    wholeBits o = some bits ↔ (o = 1#8 ∧ bits = 200) ∨ (o = 2#8 ∧ bits = 224) ∨ (o = 3#8 ∧ bits = 8) := by
  unfold wholeBits opSend opTakeReport opRestartRing Config.sendBits Config.takeReportBits Config.restartRingBits
  by_cases h1 : o = 1#8
  · subst h1
    simp [eq_comm]
  · by_cases h2 : o = 2#8
    · subst h2
      simp [eq_comm]
    · by_cases h3 : o = 3#8
      · subst h3
        simp [eq_comm]
      · simp [h1, h2, h3]

/-- Settles O11. -/
theorem ignoredTransferCountsFraming : Obligations.IgnoredTransferCountsFraming := by
  unfold Obligations.IgnoredTransferCountsFraming
  intro s bits b op r n hr ht hbits
  have hl := work_leaves (.transferIgnored bits) s (fun n => n.ignoreTransfer bits) rfl hr
  have hnot : n.port.notWhole bits = true := by
    unfold Port.notWhole
    rw [ht]
    cases op with
    | none => simpa using hbits
    | some o =>
      obtain ⟨h8, hno⟩ := hbits
      have hw : wholeBits o ≠ some bits := fun h => hno ((wholeBits_iff o bits).mp h)
      simp [h8, hw]
  have hi : n.ignoreTransfer bits
      = (n.updatePort fun p => { p with framing := p.framing.inc }).endTransfer bits := if_pos hnot
  rw [show s.finish.node.ignoreTransfer bits = _ from hi] at hl
  have hshift : (if bits < 8 then bitsShifted [n.port.held.byte] bits else n.port.shiftedOut ++ bitsShifted n.port.reply (bits - 8))
      = if op = none then bitsShifted [n.port.held.byte] bits else n.port.shiftedOut ++ bitsShifted n.port.reply (bits - 8) := by
    cases op with
    | none => exact (if_pos hbits).trans (if_pos rfl).symm
    | some o => exact (if_neg (by have := hbits.1; omega)).trans (if_neg (nofun)).symm
  rw [← hshift]
  exact hl

/-- A unit as it is sent holds its first six bytes, and of its own bytes the bits that its kind assigns (R186). -/
theorem byte_assignedUnit (u : FrameUnit) (i : Nat) : (assignedUnit u).byte i =
    if i < 6 then u.byte i else u.byte i &&& assignedBits u.kind (u.byte 6) i := by
  by_cases hi : i < 24
  · have h := Table.getD_eq_get (assignedUnit u) ⟨i, hi⟩ 0#8
    have h' : u.byte i = u.get ⟨i, hi⟩ := Table.getD_eq_get u ⟨i, hi⟩ 0#8
    rw [h']
    refine h.trans ?_
    unfold assignedUnit
    rw [Table.get_ofFn]
  · rw [byte_past _ _ (by omega), byte_past _ _ (by omega)]
    simp

/-- Of an unknown kind every bit counts as assigned (assumption 24). -/
theorem assignedBits_unknown {k : Byte} (h : isUnknownKind k = true) (subject : Byte) (i : Nat) :
    assignedBits k subject i = 255#8 := by
  simp only [isUnknownKind, requestKinds, List.contains_cons, List.contains_nil, Bool.or_false, Bool.not_or, Bool.and_eq_true,
    Bool.not_eq_true', beq_eq_false_iff_ne] at h
  obtain ⟨⟨h1, h2, h3, h4, h5, h6, h7, h8, h9, h10⟩, -⟩ := h
  unfold assignedBits
  simp only [h1, h2, h3, h4, h5, h6, h7, h8, h9, h10, or_self, if_false]

/-- Settles O9. -/
theorem wholeSendIsJudgedInOrder : Obligations.WholeSendIsJudgedInOrder := by
  unfold Obligations.WholeSendIsJudgedInOrder
  intro s u n hr hop answered
  have hl := work_leaves (.send u) s (fun n => n.wholeTransfer opSend fun m => m.judgeSend u) rfl hr
  have hw : n.wholeTransfer opSend (fun m => m.judgeSend u) = (n.judgeSend u).endTransfer 200 := if_pos hop
  have ended : ∀ m, n.judgeSend u = m → Leaves (.send u) s (m.endTransfer 200) := fun m hm => by
    rw [← hm, ← hw]
    exact hl
  let joined (src : Source) : Messages :=
    withQueue n.messages (n.messages.queue ++ [{ message := u.placed n.station 255#8, source := src }])
  have hself : ∀ src, n.selfAddress u src
      = if n.messages.queue.length < 16 then some { n with messages := joined src } else none := fun src => by
    unfold Node.selfAddress
    rw [Messages.enqueue_eq]
    split <;> rfl
  refine ⟨fun hk => ended (n.hold .malformed) (if_pos hk), fun hk hd hq => ?_, fun hk hd hq => ?_, fun i hk hd hi => ?_, fun hk hd hi => ?_,
    ?_, ?_, ?_, fun hk i hi => ?_, fun hk => ?_, fun hk => ?_⟩
  · refine ended (n.hold .queueFull) ((if_neg (by simp [hk])).trans ((if_pos hd).trans ?_))
    rw [hself, if_neg (by omega)]
  · refine ended (({ n with messages := joined .port } : Node).hold (.accepted none))
      ((if_neg (by simp [hk])).trans ((if_pos hd).trans ?_))
    rw [hself, if_pos hq]
  · refine ended ((n.placeMessage i (assignedUnit u)).hold (.accepted (some i)))
      ((if_neg (by simp [hk])).trans ((if_neg hd).trans ?_))
    rw [hi]
  · refine ended (n.hold .slotsFull) ((if_neg (by simp [hk])).trans ((if_neg hd).trans ?_))
    rw [hi]
  · exact byte_assignedUnit u 0
  · exact byte_assignedUnit u 3
  · exact byte_assignedUnit u 2
  · rw [byte_assignedUnit, if_neg (by omega), hk]
    have h0 : assignedBits kindTapDrop (u.byte 6) i = 0#8 := if_neg (by omega)
    rw [h0, BitVec.and_zero]
  · rw [byte_assignedUnit, hk]
    rfl
  · refine Table.ext_get fun i => ?_
    unfold assignedUnit
    rw [Table.get_ofFn, assignedBits_unknown hk, show (255#8 : Byte) = BitVec.allOnes 8 from rfl, BitVec.and_allOnes, ite_self]

end Sys2Proof.Machine
end
section
/-! PROOF. The reply grants (R80 to R83). -/

namespace Sys2Proof.Machine

open Sys2Proof Sys2Proof.Safety

/-- A grant goes to the receive side where it claims and holds the turn, or claims alone. -/
theorem grantReply_receive {n : Node} {i : Fin 8} (hi : n.messages.freeSlot replySlots = some i)
    (hc : n.messages.receiveClaims = true) (ht : n.messages.notices = [] ∨ n.messages.turn = .receive) :
    n.grantReply = (n.grantReceive i).setTurn .notice := by
  unfold Node.grantReply
  rw [hi]
  dsimp only
  rw [hc]
  rcases ht with h | h
  · rw [h]
    cases n.messages.turn <;> rfl
  · rw [h]
    cases n.messages.notices <;> rfl

/-- A grant goes to the notice side where a notice waits and the receive side has no claim or not the turn. -/
theorem grantReply_notice {n : Node} {i : Fin 8} {x : Notice} {rest : List Notice}
    (hi : n.messages.freeSlot replySlots = some i) (hn : n.messages.notices = x :: rest)
    (ht : n.messages.receiveClaims = false ∨ n.messages.turn = .notice) :
    n.grantReply = (n.grantNotice i).setTurn .receive := by
  unfold Node.grantReply
  rw [hi]
  dsimp only
  rw [hn]
  rcases ht with h | h
  · rw [h]
    cases n.messages.turn <;> rfl
  · rw [h]
    cases n.messages.receiveClaims <;> rfl

/-- With no FREE reply slot, or no claim, nothing is granted. -/
theorem grantReply_none {n : Node}
    (h : n.messages.freeSlot replySlots = none ∨ (n.messages.receiveClaims = false ∧ n.messages.notices = [])) :
    n.grantReply = n := by
  unfold Node.grantReply
  rcases h with h | ⟨hc, hn⟩
  · rw [h]
  · split
    · rfl
    · rw [hc, hn]
      cases n.messages.turn <;> rfl

/-- A request without an answer and without a RESERVED slot leaves the head (R80). -/
theorem complete_none {n : Node} {e : QueueEntry} (hg : n.messages.granted = none) :
    n.complete e none = { n with messages := withQueue n.messages n.messages.queue.tail } := by
  have hr : n.messages.releaseGrant = n.messages := by
    unfold Messages.releaseGrant
    rw [hg]
  show ({ n with messages := n.messages.releaseGrant.dequeue } : Node) = _
  rw [hr]
  rfl

/-- Settles O37. -/
theorem replySlotIsGrantedByTurn : Obligations.ReplySlotIsGrantedByTurn := by
  unfold Obligations.ReplySlotIsGrantedByTurn
  intro s i n receive part hr
  have granted : ∀ m, n.grantReply = m → Leaves .replySlotGrant s m := fun m hm =>
    hm ▸ work_leaves .replySlotGrant s Node.grantReply rfl hr
  refine ⟨fun hi hrec ht => ?_, fun x rest hi hn ht => ?_, fun p e q hi hc hp hq ht => ?_, fun e q hi hc hq hg ht => ?_,
    fun h => granted n (grantReply_none h)⟩
  · obtain ⟨e, hq, hc, hneed, hg⟩ := hrec
    obtain ⟨q, hq⟩ := List.head?_eq_some_iff.mp hq
    have hclaims : n.messages.receiveClaims = true := by
      unfold Messages.receiveClaims
      rw [hc, hq]
      simp [hneed, hg]
    have hgr : n.grantReceive i
        = n.updateMessages fun m => { m with slots := m.slots.set i .reserved, granted := some i } := by
      unfold Node.grantReceive
      rw [hc]
    have hl := granted _ (grantReply_receive hi hclaims ht)
    rw [hgr] at hl
    exact hl
  · have hgr : n.grantNotice i = (n.placeMessage i (x.result n.station (byteOf i.val))).updateMessages fun m =>
        { m with notices := rest } := by
      unfold Node.grantNotice
      rw [hn]
    have hl := granted _ (grantReply_notice hi hn ht)
    rw [hgr] at hl
    exact hl
  · have hclaims : n.messages.receiveClaims = true := by
      unfold Messages.receiveClaims
      rw [hc, hq]
    have hgr : n.grantReceive i = (n.placePart i e .station p.val).updateMessages fun m =>
        { m with carrying := .station (p + 1) } := by
      unfold Node.grantReceive
      rw [hc, hq]
      exact if_pos hp
    have hl := granted _ (grantReply_receive hi hclaims ht)
    rw [hgr] at hl
    exact hl
  · have hclaims : n.messages.receiveClaims = true := by
      unfold Messages.receiveClaims
      rw [hc, hq]
    have hgr : n.grantReceive i = ((n.placePart i e .station 3).updateMessages fun m =>
        { m with carrying := .idle }).complete e none := by
      unfold Node.grantReceive
      rw [hc, hq]
      rfl
    have hl := granted _ (grantReply_receive hi hclaims ht)
    rw [hgr, complete_none (by exact hg)] at hl
    have htail : q = n.messages.queue.tail := by rw [hq]; rfl
    rw [htail]
    exact hl

end Sys2Proof.Machine
end
section
/-! PROOF. The Mix Engine's work at a boundary: ramps, sums and clamps (R143, R144, R146 to R150). -/

namespace Sys2Proof.Machine

open Sys2Proof Sys2Proof.Safety

/-! ### Clamps (R150) -/

theorem toInt_clampSample (s : Int) : (clampSample s).toInt = max (-8388608) (min 8388607 s) := by
  unfold clampSample
  split
  · have h : (8388607#24 : Sample).toInt = 8388607 := by decide
    rw [h]
    omega
  · split
    · have h : (8388608#24 : Sample).toInt = -8388608 := by decide
      rw [h]
      omega
    · rw [BitVec.toInt_ofInt, Int.bmod_eq_of_le (by norm_num; omega) (by norm_num; omega)]
      omega

/-- A frame has a clamped sample when one of its sums lies outside the sample range. -/
theorem any_isClamped (t : Table 8 Int) :
    t.items.any isClamped = true ↔ ∃ i, 8388607 < t.get i ∨ t.get i < -8388608 := by
  rw [List.any_eq_true]
  constructor
  · rintro ⟨x, hx, hc⟩
    obtain ⟨i, rfl⟩ := (Table.mem_items_iff _ _).mp hx
    exact ⟨i, by simpa [isClamped] using hc⟩
  · rintro ⟨i, hi⟩
    exact ⟨t.get i, (Table.mem_items_iff _ _).mpr ⟨i, rfl⟩, by simpa [isClamped] using hi⟩

/-- A mix's output and clip count behind its computation. -/
theorem compute_output (x : Mix) (slots : Table 128 AudioFrame) (talk : AudioFrame) (i : Fin 8) :
    ((x.compute slots talk).output.get i).toInt = max (-8388608) (min 8388607 ((x.sums slots talk).get i)) := by
  unfold Mix.compute
  rw [Table.get_map, toInt_clampSample]

theorem compute_clip (x : Mix) (slots : Table 128 AudioFrame) (talk : AudioFrame) :
    (x.compute slots talk).clip = if ∃ i, 8388607 < (x.sums slots talk).get i ∨ (x.sums slots talk).get i < -8388608 then
      x.clip.inc else x.clip := by
  unfold Mix.compute
  exact if_congr (any_isClamped _) rfl rfl

/-- Settles O53. -/
theorem mixSamplesAreClamped : Obligations.MixSamplesAreClamped := by
  unfold Obligations.MixSamplesAreClamped
  intro x slots talk y
  refine ⟨compute_output x slots talk, fun h => (compute_clip x slots talk).trans (if_pos h),
    fun h => (compute_clip x slots talk).trans (if_neg ?_), rfl⟩
  rintro ⟨i, hi⟩
  have := h i
  omega

/-! ### Ramps (R143) -/

/-- A part of a distance is at most the distance. -/
theorem mul_div_le_of_le {d step length : Nat} (h : step ≤ length) : d * step / length ≤ d := by
  refine Nat.div_le_of_le_mul ?_
  rw [Nat.mul_comm]
  exact Nat.mul_le_mul_right _ h

/-- A rising ramp's value. -/
theorem rampValue_rising {start target : Coef} {step length : Nat} (h : step ≤ length)
    (hle : start.toNat ≤ target.toNat) :
    (rampValue start target step length).toNat = start.toNat + (target.toNat - start.toNat) * step / length := by
  have ht := target.isLt
  have e : ((target.toNat : Int) - (start.toNat : Int)) * (step : Int)
      = (((target.toNat - start.toNat) * step : Nat) : Int) := by
    push_cast [Nat.cast_sub hle]
    ring
  have b := mul_div_le_of_le (d := target.toNat - start.toNat) h
  unfold rampValue
  rw [e, ← Int.ofNat_tdiv, ← Int.natCast_add, BitVec.ofInt_natCast, BitVec.toNat_ofNat, Nat.mod_eq_of_lt (by omega)]

/-- A falling ramp's value. -/
theorem rampValue_falling {start target : Coef} {step length : Nat} (h : step ≤ length)
    (hle : target.toNat ≤ start.toNat) :
    (rampValue start target step length).toNat = start.toNat - (start.toNat - target.toNat) * step / length := by
  have hs := start.isLt
  have e : ((target.toNat : Int) - (start.toNat : Int)) * (step : Int)
      = -(((start.toNat - target.toNat) * step : Nat) : Int) := by
    push_cast [Nat.cast_sub hle]
    ring
  have b := mul_div_le_of_le (d := start.toNat - target.toNat) h
  unfold rampValue
  rw [e, Int.neg_tdiv, ← Int.ofNat_tdiv, ← sub_eq_add_neg, ← Nat.cast_sub (by omega), BitVec.ofInt_natCast,
    BitVec.toNat_ofNat, Nat.mod_eq_of_lt ((Nat.sub_le _ _).trans_lt hs)]

/-- A ramp's value lies between its start and its target. -/
theorem rampValue_between {start target : Coef} {step length : Nat} (h : step ≤ length) :
    min start.toNat target.toNat ≤ (rampValue start target step length).toNat
      ∧ (rampValue start target step length).toNat ≤ max start.toNat target.toNat := by
  rcases Nat.le_total start.toNat target.toNat with hle | hle
  · rw [rampValue_rising h hle]
    have := mul_div_le_of_le (d := target.toNat - start.toNat) h
    generalize (target.toNat - start.toNat) * step / length = q at *
    omega
  · rw [rampValue_falling h hle]
    have := mul_div_le_of_le (d := start.toNat - target.toNat) h
    generalize (start.toNat - target.toNat) * step / length = q at *
    omega

theorem step_of_ramping {r : Ramp} {start : Coef} {length k : Nat} (h : r.phase = .ramping start length k) :
    r.step = if length ≤ k + 1 then { r with value := r.target, phase := .settled }
      else { r with value := rampValue start r.target (k + 1) length, phase := .ramping start length (k + 1) } := by
  unfold Ramp.step
  rw [h]

/-! ### The mixes at a boundary (R144, R146 to R149) -/

theorem roundShift_eq (v : Int) : roundShift v = (v + 524288) / 1048576 := by
  unfold roundShift
  rw [Int.shiftRight_eq_div_pow]
  rfl

/-- A mix behind the boundary's computation. -/
theorem computeMixes_mix (n : Node) (i : Fin 24) : n.computeMixes.mixer.mixes.get i =
    (((n.mixer.mixes.get i).stepRamps).compute n.router.frames (n.talkAudio (n.mixer.mixes.get i))).releaseFeed := by
  unfold Node.computeMixes MixEngine.stepRamps
  simp only [Table.get_map]
  rfl

theorem releaseFeed_eq (x : Mix) : x.releaseFeed =
    { x with feed := if x.talkLevel.target = 0#24 ∧ x.talkLevel.value = 0#24 then none else x.feed } := by
  unfold Mix.releaseFeed
  split <;> rfl

/-- Settles O52. -/
theorem rampStepsTowardItsTarget : Obligations.RampStepsTowardItsTarget := by
  unfold Obligations.RampStepsTowardItsTarget
  refine ⟨fun r => ⟨fun h => ?_, fun h => ?_⟩, fun r start length k hp => ⟨fun h => ?_, fun h => ?_⟩, fun n i => ?_⟩
  · unfold Ramp.step
    rw [h]
  · unfold Ramp.step
    rw [h]
  · rw [step_of_ramping hp, if_pos h]
  · rw [step_of_ramping hp, if_neg (by omega)]
    have hk : k + 1 ≤ length := by omega
    refine ⟨rfl, rfl, ?_, ?_, fun h' => rampValue_rising hk h', fun h' => rampValue_falling hk h'⟩
    · exact rampValue_between hk |>.1
    · exact rampValue_between hk |>.2
  · intro x kept level talk rounded sum y
    have hround : ∀ v, roundShift v = rounded v := roundShift_eq
    have hy : y = { x.stepRamps.compute n.router.frames talk with
        feed := if level.target = 0#24 ∧ level.value = 0#24 then none else x.feed } :=
      (computeMixes_mix n i).trans (releaseFeed_eq _)
    have hsum : ∀ j, (x.stepRamps.sums n.router.frames talk).get j = sum j := fun j => by
      unfold Mix.sums Mix.sum product
      rw [Table.get_ofFn]
      simp only [hround]
      rfl
    refine ⟨fun j => ?_, ?_, ?_, rfl⟩
    · rw [hy, ← hsum]
      exact compute_output ..
    · rw [hy]
      refine (compute_clip ..).trans ?_
      simp only [hsum]
      rfl
    · rw [hy]
      rfl

end Sys2Proof.Machine
end
section
/-! PROOF. The links and the fold state (Section 3). -/

namespace Sys2Proof.Machine

open Sys2Proof Sys2Proof.Safety

/-! ### Changes of the fold state (R53 to R57, R61) -/

/-- What a change of the fold state makes. -/
theorem changeFold_made (n : Node) (new : FoldState) (side : Side) (early : Bool) :
    n.changeFold new side early = { n with
      link := { n.link with fold := new, foldChange := n.link.foldChange.inc }
      cadence := if new = .isolated then
        { n.cadence with node := .alone, returnQueue := [], backOff := none, starvation := 0 } else n.cadence
      engine := if new = .isolated ∧ n.cadence.node = .starting then { n.engine with layoutDue := true } else n.engine
      reports := (.fold new n.link.fold (some side) early
          :: if new = .isolated then [ReportBody.nodeState .alone n.cadence.followed n.cadence.roundLength] else []).foldl
        ReportQueue.post n.reports } := by
  unfold Node.changeFold
  by_cases h : new = .isolated
  · simp only [h, true_and]
    unfold Node.enterAlone Node.setNodeState Node.postNodeState
    by_cases hs : n.cadence.node = .starting
    · simp [hs, Node.post]
    · simp [hs, Node.post]
  · simp only [h, false_and, if_false]
    rfl

/-- A loss changes the fold state where R53 and R54 say so. -/
theorem foldOnLoss_eq (n : Node) (side : Side) :
    n.foldOnLoss side = if foldAfterLoss n.link.fold side (n.side side.opposite).link = n.link.fold then n
      else n.changeFold (foldAfterLoss n.link.fold side (n.side side.opposite).link) side false := by
  unfold Node.foldOnLoss foldAfterLoss
  cases hf : n.link.fold <;> cases side <;> try rfl
  · by_cases h : n.link.east.link = .up <;> simp [Node.side, LinkFold.side, Side.opposite, h]
  · by_cases h : n.link.west.link = .up <;> simp [Node.side, LinkFold.side, Side.opposite, h]

/-- A side that has left UP, as its rules and the fold rules leave the part (R50, R53, R54). -/
theorem goDown_wentDown {n : Node} {side : Side} (cause : LinkCause) (h : (n.side side).link ≠ .down) :
    WentDown side cause n (n.goDown side cause) := by
  obtain ⟨m, hm⟩ : ∃ m : Node, (n.updateSide side fun x =>
      { x with link := .down, holdOff := none, linkDown := x.linkDown.inc }).postLink side cause = m := ⟨_, rfl⟩
  have hd : n.goDown side cause = if (n.side side).link = .up then m.foldOnLoss side else m := by
    unfold Node.goDown
    rw [if_neg h, hm]
  have hother : (m.side side.opposite) = n.side side.opposite := by
    subst hm
    cases side <;> rfl
  have hside : m.side side = { n.side side with link := .down, holdOff := none, linkDown := (n.side side).linkDown.inc } := by
    subst hm
    cases side <;> rfl
  obtain ⟨hfold, hchange, hquiet, hearly⟩ : m.link.fold = n.link.fold ∧ m.link.foldChange = n.link.foldChange ∧ m.link.quiet = n.link.quiet
      ∧ m.link.earlyUnfold = n.link.earlyUnfold := by
    subst hm
    cases side <;> exact ⟨rfl, rfl, rfl, rfl⟩
  have hrep : m.reports = n.reports.post (linkReport side .down cause (n.side side).latest) := by
    subst hm
    cases side <;> rfl
  have hcad : m.cadence = n.cadence := by rw [← hm]; rfl
  have heng : m.engine = n.engine := by rw [← hm]; rfl
  have hframe : m = { n with link := m.link, reports := m.reports } := by rw [← hm]; rfl
  obtain ⟨F, hF⟩ : ∃ F, (if (n.side side).link = .up then foldAfterLoss n.link.fold side (n.side side.opposite).link
      else n.link.fold) = F := ⟨_, rfl⟩
  have hgo : n.goDown side cause = if F = n.link.fold then m else m.changeFold F side false := by
    rw [hd, foldOnLoss_eq, hfold, hother, ← hF]
    by_cases hup : (n.side side).link = .up
    · simp only [if_pos hup]
    · simp only [if_neg hup, if_true]
  unfold WentDown
  simp only [hF]
  by_cases hsame : F = n.link.fold
  · have hgo : n.goDown side cause = m := by rw [hgo, if_pos hsame]
    rw [hgo, hcad]
    refine ⟨hside, hother, hquiet, hearly, hfold.trans hsame.symm, by rw [if_pos hsame, hchange], ?_, ?_, ?_, ?_⟩
    · simp [hsame]
    · simp [hsame, Posted, hrep]
    · rw [hframe]
    · simp [hsame, heng]
  · have hgo : n.goDown side cause = m.changeFold F side false := by rw [hgo, if_neg hsame]
    rw [hgo, changeFold_made]
    refine ⟨hside, hother, hquiet, hearly, rfl, by rw [if_neg hsame, hchange], ?_, ?_, ?_, ?_⟩
    · simp [hsame, hcad]
    · by_cases hi : F = .isolated
      · subst hi
        simp [hsame, Posted, hrep, hfold, hcad]
      · simp [hsame, Posted, hrep, hi, hfold]
    · rw [hframe]
    · simp [hsame, heng, hcad]

/-- PROVING entered by a side. -/
theorem startProving_made (n : Node) (side : Side) (cause : LinkCause) :
    n.startProving side cause = { n with
      link := n.link.setSide side { n.side side with link := .proving, holdOff := some (n.loader.values.linkHoldOff * 250) }
      reports := n.reports.post (linkReport side .proving cause (n.side side).latest) } := by
  cases side <;> rfl

/-! ### Lock and the link events -/

/-- Settles O13. -/
theorem lockGainedStartsProving : Obligations.LockGainedStartsProving := by
  unfold Obligations.LockGainedStartsProving
  intro s side n cleared
  have hact : Leaves (.receiverLockGained side) s (n.lockGained side) := act_leaves _ s (fun n => n.lockGained side) rfl
  refine ⟨fun hr hl hd => ?_, fun hr hl hd => ?_, fun hr hl => ?_, fun hl => ?_⟩
  · have h : n.lockGained side = (n.updateSide side fun x => { x.cleared with lock := true }).startProving side .lockGained := by
      unfold Node.lockGained Node.gainLock
      simp [hl, hr, hd]
    have hp : n.lockGained side = { n with
        link := n.link.setSide side { cleared with link := .proving, holdOff := some (n.loader.values.linkHoldOff * 250) }
        reports := n.reports.post (.link side .proving .lockGained none) } := by
      rw [h]
      cases side <;> rfl
    rw [hp] at hact
    exact hact
  · have h : n.lockGained side = n.updateSide side fun x => { x.cleared with lock := true } := by
      unfold Node.lockGained Node.gainLock
      simp [hl, hr, hd]
    rw [h] at hact
    exact hact
  · have h : n.lockGained side = n.updateSide side fun x => { x with lock := true } := by
      unfold Node.lockGained
      simp [hl, hr]
    rw [h] at hact
    exact hact
  · have h : n.lockGained side = n := by
      unfold Node.lockGained
      simp [hl]
    rw [h] at hact
    exact hact

/-- Settles O14. -/
theorem lockLostTakesTheLinkDown : Obligations.LockLostTakesTheLinkDown := by
  unfold Obligations.LockLostTakesTheLinkDown
  intro s side n cleared hr hl
  have hact : Leaves (.receiverLockLost side) s (n.lockLost side) := act_leaves _ s (fun n => n.lockLost side) rfl
  have h : n.lockLost side = cleared.goDown side .lockLost := by
    unfold Node.lockLost Node.loseLock
    simp only [hl, hr, if_true]
    rfl
  have hs : (cleared.side side).link = (n.side side).link := by cases side <;> rfl
  rw [h] at hact
  refine ⟨fun hd => ⟨_, hact, goDown_wentDown .lockLost (hs ▸ hd)⟩, fun hd => ?_⟩
  have hgo : cleared.goDown side .lockLost = cleared := by
    unfold Node.goDown
    rw [if_pos (hs.trans hd)]
  rw [hgo] at hact
  exact hact

/-- Settles O15. -/
theorem badRunAndSilenceTakeTheLinkDown : Obligations.BadRunAndSilenceTakeTheLinkDown := by
  unfold Obligations.BadRunAndSilenceTakeTheLinkDown
  intro s side ts hr hd
  refine ⟨fun ha hb => ⟨_, takeRow_takes (.badRun side) s (.badRun side) ts rfl ha ?_, goDown_wentDown .badRun hd⟩,
    fun ha hb => ⟨_, takeRow_takes (.silence side) s (.silence side) ts rfl ha ?_, goDown_wentDown .silence hd⟩⟩
  · unfold Node.due Node.rowStands
    simp [hr, hb, hd, Config.badRunLimit]
  · unfold Node.due Node.rowStands
    simp [hr, hb, hd, Config.silenceLimit]

/-- A change of the fold state to another than ISOLATED leaves the cadence as it is. -/
theorem changeFold_kept {n : Node} {new : FoldState} (side : Side) (early : Bool) (h : new ≠ .isolated) :
    n.changeFold new side early = { n with
      link := { n.link with fold := new, foldChange := n.link.foldChange.inc }
      reports := n.reports.post (.fold new n.link.fold (some side) early) } := by
  unfold Node.changeFold
  rw [if_neg h]
  rfl

/-- WAITING entered from another state than STARTING. -/
theorem enterWaiting_made {n : Node} (h : n.cadence.node ≠ .starting) :
    n.enterWaiting = { n with
      cadence := { n.cadence with
        node := .waiting, backOff := if n.loader.values.originEligible then some (n.station.number * 8) else none }
      reports := n.reports.post (.nodeState .waiting n.cadence.followed n.cadence.roundLength) } := by
  have hs : (n.cadence.node == .starting) = false := beq_false_of_ne h
  unfold Node.enterWaiting Node.setNodeState Node.postNodeState
  simp only [hs, Bool.false_and]
  rfl

/-- An ALONE station that is no longer cut off waits (R39); any other stays as it is. -/
theorem linkIsUp_made (n : Node) :
    n.linkIsUp = if n.cadence.node = .alone then
      { n with
        cadence := { n.cadence with
          node := .waiting
          followed := if n.cadence.followed = some n.station then none else n.cadence.followed
          lastSequence := if n.cadence.followed = some n.station then none else n.cadence.lastSequence
          backOff := if n.loader.values.originEligible then some (n.station.number * 8) else none }
        reports := n.reports.post (.nodeState .waiting
          (if n.cadence.followed = some n.station then none else n.cadence.followed) n.cadence.roundLength) }
      else n := by
  unfold Node.linkIsUp
  by_cases ha : n.cadence.node = .alone
  · have hs : n.cadence.node ≠ .starting := by rw [ha]; decide
    by_cases hf : n.cadence.followed = some n.station
    · simp only [ha, if_true, hf]
      exact enterWaiting_made (n := n.updateCadence fun c => { c with followed := none, lastSequence := none }) hs
    · simp only [ha, if_true, hf, if_false]
      exact enterWaiting_made hs
  · simp only [ha, if_false]

/-- A link that comes UP leaves no station cut off (R55 to R57). -/
theorem foldAfterUp_ne_isolated (fold : FoldState) (side : Side) (proven : Bool) :
    foldAfterUp fold side proven ≠ .isolated := by
  cases fold <;> cases side <;> cases proven <;> decide

/-- A link that has come UP changes the fold state where R55 to R57 say so. -/
theorem foldOnUp_eq {n : Node} {side : Side} {proven : Bool} (hup : (n.side side).link = .up)
    (hp : (match (n.side side).latest with | some b => b.proven | none => false) = proven) :
    n.foldOnUp side = if foldAfterUp n.link.fold side proven = n.link.fold then n
      else if n.link.fold = .isolated then (n.changeFold (foldAfterUp n.link.fold side proven) side false).linkIsUp
      else n.changeFold (foldAfterUp n.link.fold side proven) side false := by
  have hres : (n.side side).restored = proven := by
    unfold SideState.restored
    rw [← hp, hup]
    cases (n.side side).latest <;> rfl
  unfold Node.foldOnUp Node.tryUnfold foldAfterUp
  cases hf : n.link.fold <;> cases side <;> try rfl
  · have hr : n.link.east.restored = proven := hres
    cases proven <;> simp [hr]
  · have hr : n.link.west.restored = proven := hres
    cases proven <;> simp [hr]

/-- Settles O16: the link report, then the fold, then the waking of an ALONE station. -/
theorem linkProvenMakesTheLinkUp : Obligations.LinkProvenMakesTheLinkUp := by
  unfold Obligations.LinkProvenMakesTheLinkUp
  intro s side ts n hr ha hl ho proven fold woken
  have hdue : n.due (.linkProven side) = true := by
    unfold Node.due Node.rowStands
    simp [hr, hl, ho]
  refine ⟨_, takeRow_takes (.linkProven side) s (.linkProven side) ts rfl ha hdue, ?_⟩
  obtain ⟨m, hm⟩ : ∃ m : Node,
    (n.updateSide side fun x => { x with link := .up, holdOff := none }).postLink side .proven = m := ⟨_, rfl⟩
  have hside : m.side side = { n.side side with link := .up, holdOff := none } := by
    subst hm
    cases side <;> rfl
  have hother : m.side side.opposite = n.side side.opposite := by
    subst hm
    cases side <;> rfl
  obtain ⟨hfold, hchange, hquiet, hearly⟩ : m.link.fold = n.link.fold ∧ m.link.foldChange = n.link.foldChange
      ∧ m.link.quiet = n.link.quiet ∧ m.link.earlyUnfold = n.link.earlyUnfold := by
    subst hm
    cases side <;> exact ⟨rfl, rfl, rfl, rfl⟩
  have hrep : m.reports = n.reports.post (linkReport side .up .proven (n.side side).latest) := by
    subst hm
    cases side <;> rfl
  have hcad : m.cadence = n.cadence := by rw [← hm]; rfl
  have hload : m.loader = n.loader := by rw [← hm]; rfl
  have hframe : m = { n with link := m.link, reports := m.reports } := by rw [← hm]; rfl
  have hup : s.node.doTask (.linkProven side) = m.foldOnUp side := by rw [← hm]; rfl
  have hm' := foldOnUp_eq (n := m) (side := side) (proven := proven) (by rw [hside]) (by rw [hside] <;> rfl)
  rw [hfold] at hm'
  rw [hup, hm']
  have hne : fold ≠ .isolated := foldAfterUp_ne_isolated _ _ _
  have hwake : ¬ (n.link.fold = .isolated ∧ n.cadence.node = .alone) → woken = false := fun h => decide_eq_false h
  by_cases hsame : fold = n.link.fold
  · have hw : woken = false := hwake fun h => hne (hsame.trans h.1)
    rw [if_pos hsame]
    refine ⟨hside, hother, hfold.trans hsame.symm, by rw [if_pos hsame, hchange], hquiet, hearly, ?_, ?_, ?_⟩
    · rw [hw, hcad]
      rfl
    · rw [hw, if_pos hsame]
      exact hrep
    · rw [hcad]
      exact hframe
  · rw [if_neg hsame]
    by_cases hiso : n.link.fold = .isolated
    · rw [if_pos hiso, changeFold_kept side false hne, linkIsUp_made]
      by_cases hal : n.cadence.node = .alone
      · have hw : woken = true := decide_eq_true ⟨hiso, hal⟩
        rw [if_pos (hcad ▸ hal)]
        refine ⟨hside, hother, rfl, by rw [if_neg hsame, hchange], hquiet, hearly, ?_, ?_, ?_⟩
        · simp only [hw, if_true, hcad, hload]
          rfl
        · simp only [hw, if_true, if_neg hsame, hrep, hfold, hcad]
          rfl
        · rw [hframe]
      · have hw : woken = false := hwake fun h => hal h.2
        rw [if_neg (hcad ▸ hal)]
        refine ⟨hside, hother, rfl, by rw [if_neg hsame, hchange], hquiet, hearly, ?_, ?_, ?_⟩
        · rw [hw]
          exact hcad
        · rw [hw, if_neg hsame, hrep, hfold]
          rfl
        · rw [hcad, hframe]
    · have hw : woken = false := hwake fun h => hiso h.1
      rw [if_neg hiso, changeFold_kept side false hne]
      refine ⟨hside, hother, rfl, by rw [if_neg hsame, hchange], hquiet, hearly, ?_, ?_, ?_⟩
      · rw [hw]
        exact hcad
      · rw [hw, if_neg hsame, hrep, hfold]
        rfl
      · rw [hcad, hframe]

/-! ### Beacons -/

/-- A good beacon reaches its side. -/
theorem beaconReceived_leaves {s : State} {side : Side} {bytes : SixBytes} {b : Beacon} (hr : s.finish.node.running = true)
    (hl : (s.finish.node.side side).lock = true) (hb : readBeacon side bytes = some b) :
    Leaves (.beaconReceived side bytes) s (s.finish.node.takeBeacon side b) := by
  show execBeaconReceived side bytes s = _
  unfold execBeaconReceived State.takeBeacon Node.receives
  simp only [hr, hl, hb, Bool.and_self, if_true]
  rfl

/-- An unfold is met only where R56 or R57 says so. -/
theorem tryUnfold_eq {n : Node} {side : Side} {b : Beacon} (h : (n.side side).latest = some b) :
    n.tryUnfold side = if (n.side side).link = .up ∧ b.proven = true
        ∧ (n.link.fold = .foldedEast ∧ side = .east ∨ n.link.fold = .foldedWest ∧ side = .west)
      then n.changeFold .whole side false else n := by
  have hres : (n.side side).restored = ((n.side side).link == .up && b.proven) := by
    unfold SideState.restored
    rw [h]
  unfold Node.tryUnfold
  cases hf : n.link.fold <;> cases side <;> try simp
  · have hr : n.link.east.restored = ((n.side .east).link == .up && b.proven) := hres
    simp [hr]
  · have hr : n.link.west.restored = ((n.side .west).link == .up && b.proven) := hres
    simp [hr]

/-- A bad item's evidence waits behind BAD_RUN where it brings the count to 4, and is done with elsewhere (R44, R50). -/
theorem runOn_badEvidence {n : Node} (s : State) (side : Side) (ts : List Task) (hr : n.running = true) :
    State.runOn (n.evidenceTasks side false ++ ts) { s with node := n.takeEvidence side false }
      = if (n.side side).badRun + 1 = 4 ∧ (n.side side).link ≠ .down then
          { s with node := n.takeEvidence side false, agenda := .badRun side :: ts }
        else State.runOn ts { s with node := n.takeEvidence side false } := by
  obtain ⟨taken, ht⟩ : ∃ taken, n.takeEvidence side false = taken := ⟨_, rfl⟩
  have hside : taken.side side = (n.side side).badItem n.fullHoldOff := by
    rw [← ht]
    exact LinkFold.side_setSide ..
  have hdue : taken.due (.badRun side)
      = decide (min ((n.side side).badRun + 1) 4 = 4 ∧ (n.side side).link ≠ .down) := by
    have hrun : taken.running = true := by rw [← ht]; exact hr
    show (taken.running && ((taken.side side).badRun == 4 && (taken.side side).link != .down)) = _
    rw [hrun, hside, Bool.true_and, Bool.decide_and, decide_not]
    rfl
  have hbad : n.reachesBadRun side false = decide ((n.side side).badRun + 1 = 4) := rfl
  rw [ht]
  unfold Node.evidenceTasks
  by_cases hfour : (n.side side).badRun + 1 = 4
  · rw [hbad, if_pos (decide_eq_true hfour), List.singleton_append]
    by_cases hd : (n.side side).link = .down
    · have hno : taken.due (.badRun side) = false := by
        rw [hdue]
        exact decide_eq_false fun h => h.2 hd
      have hperform : taken.perform (.badRun side) = taken := by
        unfold Node.perform
        rw [hno]
        rfl
      rw [if_neg fun h => h.2 hd]
      simp only [State.runOn, hno, hperform, Bool.and_false, if_false, Bool.false_eq_true]
    · have hyes : taken.due (.badRun side) = true := by
        rw [hdue]
        exact decide_eq_true ⟨by omega, hd⟩
      rw [if_pos ⟨hfour, hd⟩]
      simp only [State.runOn, hyes]
      rfl
  · rw [hbad, if_neg (by simpa using hfour), if_neg fun h => hfour h.1, List.nil_append]

/-- Settles O17. -/
theorem beaconReceivedIsEvidence : Obligations.BeaconReceivedIsEvidence := by
  unfold Obligations.BeaconReceivedIsEvidence
  intro s side bytes n hr hl
  constructor
  · intro b hb x seen arms unfolds
    have hact : Leaves (.beaconReceived side bytes) s (n.takeBeacon side b) := beaconReceived_leaves hr hl hb
    have hseen : (n.updateSide side fun y => { y.goodItem with latest := some b }) = seen := rfl
    have hside : seen.side side = x := by
      show (n.link.setSide side x).side side = x
      simp
    have hlink : (seen.side side).link = (n.side side).link := by rw [hside]
    have hfold : seen.link.fold = n.link.fold := by
      show (n.link.setSide side x).fold = n.link.fold
      cases side <;> rfl
    have htake : n.takeBeacon side b = if (n.side side).link = .down then
        if b.hears && n.link.quiet.isNone then seen.reArm side else seen
      else if b.hears then seen.tryUnfold side else seen.goDown side .farEnd := by
      unfold Node.takeBeacon
      rw [hseen]
    have hunfold := tryUnfold_eq (n := seen) (side := side) (b := b) (by rw [hside])
    rw [hlink, hfold] at hunfold
    refine ⟨?_, fun hd hh => ?_, ?_, fun ha hun hor => ?_⟩
    · rintro ⟨hd, hh, hq⟩
      have hrearm : n.takeBeacon side b = seen.startProving side .reArmed := by
        rw [htake, if_pos hd, if_pos (by rw [hh, hq]; rfl)]
        unfold Node.reArm
        rw [if_pos ⟨hlink.trans hd, by rw [hside]; exact hl⟩]
      rw [hrearm, startProving_made, hside] at hact
      have hset : seen.link.setSide side = n.link.setSide side := by
        cases side <;> rfl
      rw [hset] at hact
      exact hact
    · refine ⟨_, hact, ?_⟩
      rw [htake, if_neg hd, if_neg (by rw [hh]; decide)]
      exact goDown_wentDown .farEnd (hlink ▸ hd)
    · rintro ⟨hu, hh, hp, hf⟩
      have hwhole : n.takeBeacon side b = seen.changeFold .whole side false := by
        rw [htake, if_neg (by rw [hu]; decide), if_pos hh, hunfold, if_pos ⟨hu, hp, hf⟩]
      rw [hwhole, changeFold_kept side false (by decide), hfold] at hact
      have hchange : seen.link.foldChange = n.link.foldChange := by
        show (n.link.setSide side x).foldChange = _
        cases side <;> rfl
      rw [hchange] at hact
      exact hact
    · have hseen' : n.takeBeacon side b = seen := by
        rw [htake]
        by_cases hd : (n.side side).link = .down
        · have hq : ¬ (b.hears && n.link.quiet.isNone) = true := by
            simp only [Bool.and_eq_true, Option.isNone_iff_eq_none]
            exact fun h => ha ⟨hd, h.1, h.2⟩
          rw [if_pos hd, if_neg hq]
        · have hh : b.hears = true := hor.resolve_left hd
          rw [if_neg hd, if_pos hh, hunfold, if_neg fun h => hun ⟨h.1, hh, h.2.1, h.2.2⟩]
      rw [hseen'] at hact
      exact hact
  · intro hb
    have hreceives : n.receives side = true := by
      unfold Node.receives
      rw [show n.running = true from hr, show (n.side side).lock = true from hl]
      rfl
    have hexec : exec (.beaconReceived side bytes) s
        = .next (State.runOn (n.evidenceTasks side false ++ []) { s.finish with node := n.takeEvidence side false }) := by
      show execBeaconReceived side bytes s = _
      unfold execBeaconReceived State.takeBeacon
      simp only [hb]
      rw [List.append_nil]
      exact congrArg Host.Outcome.next (if_pos hreceives)
    rw [hexec, runOn_badEvidence _ _ _ hr]
    split <;> rfl

/-- Settles O18. -/
theorem beaconSentOnceABoundary : Obligations.BeaconSentOnceABoundary := by
  unfold Obligations.BeaconSentOnceABoundary
  intro s side n x hr
  have hl : Leaves (.beaconSent side) s (n.sendBeacon side) := work_leaves _ s (fun n => n.sendBeacon side) rfl hr
  refine ⟨fun hd hq => ?_, fun hno => ?_⟩
  · have hsend : n.sendBeacon side = { n with link := n.link.setSide side { x with
          beaconDue := false,
          sent := x.sent ++ [.beacon (makeBeacon n.station side
            (x.lock && x.heard && decide (x.badRun < 4) && decide (x.silence < 16)) (x.link == .up) n.link.fold)] } } := by
      have hgo : ((n.side side).beaconDue && n.link.quiet.isNone) = true := by
        rw [hq]
        exact (Bool.and_true _).trans hd
      unfold Node.sendBeacon
      rw [if_pos hgo]
      unfold Node.transmit
      rw [if_neg (by rw [show (n.updateSide side _).link.quiet = n.link.quiet by cases side <;> rfl, hq]; decide)]
      cases side <;> rfl
    rw [hsend] at hl
    exact hl
  · have hgo : ((n.side side).beaconDue && n.link.quiet.isNone) = false := by
      rcases hno with h | h
      · exact (congrArg (· && _) h).trans (Bool.false_and _)
      · cases hq : n.link.quiet with
        | none => exact absurd hq h
        | some _ => simp
    have hstay : n.sendBeacon side = n := by
      unfold Node.sendBeacon
      rw [if_neg (by rw [hgo]; decide)]
    rw [hstay] at hl
    exact hl

/-- Whether a side starts to prove at the end of the quiet period. -/
def SideState.armsAgain (x : SideState) : Bool :=
  x.link == .down && x.lock && (match x.latest with | some b => b.hears | none => false)

/-- A side that hears at the end of the quiet period starts to prove (R64). -/
theorem reArmIfHeard_made (n : Node) (side : Side) :
    n.reArmIfHeard side = if (n.side side).armsAgain then n.startProving side .reArmed else n := by
  unfold Node.reArmIfHeard SideState.armsAgain Node.reArm
  cases hb : (n.side side).latest with
  | none => simp
  | some b => cases hh : b.hears <;> simp [hh]

/-- Settles O19. -/
theorem quietPeriodEndReArms : Obligations.QuietPeriodEndReArms := by
  unfold Obligations.QuietPeriodEndReArms
  intro s ts n arms armed reported hr ha hq
  have hdue : n.due .quietEnd = true := by
    unfold Node.due Node.rowStands
    rw [hr, hq]
    rfl
  have hmade : n.endQuiet = { n with
      link := { n.link with quiet := none, east := armed .east, west := armed .west }
      reports := (reported .east ++ reported .west).foldl ReportQueue.post n.reports } := by
    have heast : ({ n with link := { n.link with quiet := none } } : Node).reArmIfHeard .east = { n with
        link := { n.link with quiet := none, east := armed .east }
        reports := (reported .east).foldl ReportQueue.post n.reports } := by
      rw [reArmIfHeard_made, startProving_made]
      show (if arms .east = true then _ else _) = _
      cases h : arms .east
      · simp only [armed, reported, h]
        rfl
      · simp only [armed, reported, h]
        rfl
    unfold Node.endQuiet
    rw [heast, List.foldl_append, reArmIfHeard_made, startProving_made]
    show (if arms .west = true then _ else _) = _
    cases h : arms .west
    · simp only [armed, reported, h]
      rfl
    · simp only [armed, reported, h]
      rfl
  refine ⟨_, takeRow_takes .quietPeriodEnd s .quietEnd ts rfl ha hdue, ?_⟩
  rw [show s.node.doTask .quietEnd = n.endQuiet from rfl, hmade]
  exact ⟨fun side => by cases side <;> rfl, rfl, rfl, rfl⟩

/-- A frame with a good head is good evidence, and is sorted at once. -/
theorem frameReceived_leaves {s : State} {side : Side} {head : SixBytes} {body : List FrameUnit}
    (hr : s.finish.node.running = true) (hl : (s.finish.node.side side).lock = true) (hg : headGood head = true) :
    Leaves (.frameReceived side head body) s
      ((s.finish.node.updateSide side SideState.goodItem).sortFrame side { head := head, body := body }) := by
  have hrun : (s.finish.node.updateSide side SideState.goodItem).running = true := hr
  show execFrameReceived side head body s = _
  unfold execFrameReceived State.takeFrame Node.receives Node.evidenceTasks Node.reachesBadRun
  simp only [hr, hl, hg, Bool.and_self, if_true]
  show Host.Outcome.next { s.finish with
    node := (s.finish.node.updateSide side SideState.goodItem).perform (.takeFrame side head body), agenda := [] } = _
  unfold Node.perform Node.due
  rw [hrun]
  rfl

/-- Settles O20. -/
theorem misdirectedFrameIsDiscarded : Obligations.MisdirectedFrameIsDiscarded := by
  unfold Obligations.MisdirectedFrameIsDiscarded
  intro s side head body n hr hl hg hs
  have hact := frameReceived_leaves (body := body) hr hl hg
  unfold Node.sortFrame at hact
  cases side
  · simp only [hg, hs, if_true] at hact
    exact hact
  · simp only [hg, hs, if_true] at hact
    exact hact

end Sys2Proof.Machine
end
section
/-! PROOF. Frames taken off the fibres: heads, frames off the primary path, and admission (Sections 1.4, 1.5, 2.3). -/

namespace Sys2Proof.Machine

open Sys2Proof Sys2Proof.Safety

/-! ### Heads -/

/-- `h` carries the origin, sequence, round length and REBUILT of another head, with these direction fields. -/
def HeadSays (h : SixBytes) (origin sequence round : Byte) (rebuilt secondary : Bool) (hops : Nat) : Prop :=
  headOrigin h = origin ∧ headSequence h = sequence ∧ headRound h = round ∧ headRebuilt h = rebuilt
    ∧ headSecondary h = secondary ∧ headHops h = hops

/-- A head reads back as it was made. -/
theorem makeHead_says (origin sequence round : Byte) (rebuilt secondary : Bool) {hops : Nat} (h : hops < 16) :
    HeadSays (makeHead origin sequence round rebuilt secondary hops) origin sequence round rebuilt secondary hops := by
  obtain ⟨hrebuilt, hsecondary, hhops⟩ := headFlags_facts rebuilt secondary hops h
  exact ⟨rfl, rfl, rfl, hrebuilt, hsecondary, hhops⟩

/-- A made head is good by its origin and its direction fields. -/
theorem headGood_makeHead (origin sequence round : Byte) (rebuilt secondary : Bool) {hops : Nat} (h : hops < 16) :
    headGood (makeHead origin sequence round rebuilt secondary hops)
      = ((Station.ofByte origin).isSome && (secondary || hops == 0)) := by
  obtain ⟨ho, -, -, -, hs, hh⟩ := makeHead_says origin sequence round rebuilt secondary h
  have hcheck : sixCheckGood (makeHead origin sequence round rebuilt secondary hops) = true := sixCheckGood_withCheck ..
  unfold headGood
  rw [hcheck, ho, hs, hh, Bool.true_and]

/-- A good head redirected is good, and says the same but for its direction fields. -/
theorem redirectHead_says {h : SixBytes} (good : headGood h = true) (secondary : Bool) :
    headGood (redirectHead h secondary 0) = true
      ∧ HeadSays (redirectHead h secondary 0) (headOrigin h) (headSequence h) (headRound h) (headRebuilt h) secondary 0 := by
  unfold redirectHead
  by_cases hsame : headSecondary h = secondary ∧ headHops h = 0
  · rw [if_pos hsame]
    exact ⟨good, rfl, rfl, rfl, rfl, hsame.1, hsame.2⟩
  · have ho : (Station.ofByte (headOrigin h)).isSome = true := by
      unfold headGood at good
      simp only [Bool.and_eq_true] at good
      exact good.1.2
    rw [if_neg hsame]
    refine ⟨?_, makeHead_says _ _ _ _ _ (by decide)⟩
    rw [headGood_makeHead _ _ _ _ _ (by decide), ho]
    simp

/-- A good head with SECONDARY clear goes out as it came. -/
theorem redirectHead_primary {h : SixBytes} (good : headGood h = true) (hs : headSecondary h = false) :
    redirectHead h false 0 = h := by
  have hh : headHops h = 0 := by
    unfold headGood at good
    simpa [hs] using (Bool.and_eq_true_iff.mp good).2
  unfold redirectHead
  rw [if_pos ⟨hs, hh⟩]

/-- Settles O24. -/
theorem beaconsAndHeadsReadBackAsMade : Obligations.BeaconsAndHeadsReadBackAsMade := by
  unfold Obligations.BeaconsAndHeadsReadBackAsMade
  refine ⟨fun side sender hears proven fold => ?_, fun origin sequence round rebuilt secondary hops hh => ?_,
    fun n head body hg hs hq => ⟨fun hf => ?_, fun hf => ?_, fun hf => ?_⟩⟩
  · have hcheck : ∀ t : Side, sixCheckGood (makeBeacon sender t hears proven fold) = true := fun t => sixCheckGood_withCheck ..
    have hsender : ∀ t : Side, Station.ofByte ((makeBeacon sender t hears proven fold).getD 0 0#8) = some sender :=
      fun t => Station.ofByte_byte sender
    have hfold : ∀ t : Side, FoldState.ofCode ((makeBeacon sender t hears proven fold).getD 3 0#8) = some fold :=
      fun t => by cases fold <;> rfl
    have hside : ∀ t : Side, (makeBeacon sender t hears proven fold).getD 1 0#8 = t.code := fun t => rfl
    have hflags : ∀ t : Side, (makeBeacon sender t hears proven fold).getD 2 0#8 = topFlags hears proven := fun t => rfl
    have htop : (topFlags hears proven).getLsbD 7 = hears ∧ (topFlags hears proven).getLsbD 6 = proven := by
      cases hears <;> cases proven <;> decide
    have hcode : side.code ≠ side.opposite.code := by
      cases side <;> decide
    unfold readBeacon
    simp only [hcheck, hsender, hfold, hside, hflags, htop, if_neg hcode, if_true, and_self]
  · obtain ⟨h1, h2, h3, h4, h5, h6⟩ := makeHead_says origin.byte sequence round rebuilt secondary hh
    refine ⟨h1, h2, h3, h4, h5, h6, ?_⟩
    rw [headGood_makeHead _ _ _ _ _ hh, Station.ofByte_byte]
    rfl
  · unfold Node.forward
    rw [hf]
    rfl
  · have hr := redirectHead_primary hg hs
    have hout : n.link.fold.output = some .east := by
      rcases hf with hf | hf <;> rw [hf] <;> rfl
    have hturn : (n.link.fold == .foldedEast) = false := by
      rcases hf with hf | hf <;> rw [hf] <;> rfl
    unfold Node.forward Node.transmit
    rw [hout, hturn, hr, hq]
    rfl
  · obtain ⟨hgood, ho, hseq, hround, hreb, hsec, hhops⟩ := redirectHead_says hg true
    refine ⟨redirectHead head true 0, ?_, hgood, hsec, hhops, ho, hseq, hround, hreb⟩
    unfold Node.forward Node.transmit
    rw [hf, hq]
    rfl

/-! ### Frames off the primary path (R19 to R21) -/

/-- Settles O21. -/
theorem secondaryFrameIsPassedThrough : Obligations.SecondaryFrameIsPassedThrough := by
  unfold Obligations.SecondaryFrameIsPassedThrough
  intro s head body n heard hr hl hg hs
  have hact : Leaves (.frameReceived .east head body) s (({ n with link := heard } : Node).eastFrame ⟨head, body⟩) := by
    have h := frameReceived_leaves (side := .east) (body := body) hr hl hg
    unfold Node.sortFrame at h
    simp only [hg, hs, if_true] at h
    exact h
  unfold Node.eastFrame at hact
  have hfold : heard.fold = n.link.fold := rfl
  have ho : (Station.ofByte (headOrigin head)).isSome = true := by
    unfold headGood at hg
    simp only [Bool.and_eq_true] at hg
    exact hg.1.2
  refine ⟨fun hf hh => ?_, fun hf hq hh => ?_, fun hf => ?_, fun hf => ?_⟩
  · simp only [hfold, hf] at hact
    unfold Node.passThrough at hact
    rw [if_pos hh] at hact
    exact hact
  · obtain ⟨h1, h2, h3, h4, h5, h6⟩ := makeHead_says (headOrigin head) (headSequence head) (headRound head)
      (headRebuilt head) true (hops := headHops head + 1) (by omega)
    refine ⟨_, ?_, ?_, h6, h5, h1, h2, h3, h4⟩
    · simp only [hfold, hf] at hact
      unfold Node.passThrough Node.transmit at hact
      rw [if_neg (show ¬ 14 ≤ headHops head by omega)] at hact
      have hquiet : heard.quiet = none := hq
      simp only [hquiet] at hact
      exact hact
    · rw [headGood_makeHead _ _ _ _ _ (by omega), ho]
      rfl
  · obtain ⟨hgood, h1, h2, h3, h4, h5, h6⟩ := redirectHead_says hg false
    simp only [hfold, hf] at hact
    exact ⟨_, hact, hgood, h6, h5, h1, h2, h3, h4⟩
  · have hstay : Leaves (.frameReceived .east head body) s { n with link := heard } := by
      rcases hf with hf | hf
      · simp only [hfold, hf] at hact
        exact hact
      · simp only [hfold, hf] at hact
        exact hact
    exact hstay

/-! ### Admission (R29 to R36) -/

/-- A sequence near the local count (R28). -/
theorem nearCount_iff (a b : Byte) : nearCount a b = true ↔ a - b = 255#8 ∨ a - b = 0#8 ∨ a - b = 1#8 := by
  unfold nearCount
  simp only [Bool.or_eq_true, beq_iff_eq, or_assoc]

/-- A sequence newer than the last of the followed origin (R31). -/
def Cadence.Newer (c : Cadence) (sequence : Byte) : Prop :=
  ∀ l, c.lastSequence = some l → 1 ≤ (sequence - l).toNat ∧ (sequence - l).toNat ≤ 127

/-- A newer frame of the followed origin moves the cadence (R31, R32). -/
theorem repeatTest_newer {n : Node} {h : SixBytes} (hn : n.cadence.Newer (headSequence h)) :
    n.repeatTest h = (.pass, n.updateCadence (·.passNewer (headSequence h) (headRound h) (headRebuilt h))) := by
  unfold Node.repeatTest
  cases hl : n.cadence.lastSequence with
  | none => rfl
  | some l =>
    have hlater : isLater (headSequence h) l = true := decide_eq_true (hn l hl)
    simp only [hlater, if_true]

/-- An older frame of the followed origin is stale (R31). -/
theorem repeatTest_older {n : Node} {h : SixBytes} (hn : ¬n.cadence.Newer (headSequence h)) :
    n.repeatTest h = (.discard, n.countStale) := by
  unfold Node.repeatTest
  cases hl : n.cadence.lastSequence with
  | none => exact absurd (fun l h => absurd (hl.symm.trans h) (by simp)) hn
  | some l =>
    have hlater : isLater (headSequence h) l = false := by
      refine decide_eq_false fun hd => hn fun l' hl' => ?_
      obtain rfl : l = l' := Option.some.inj (hl.symm.trans hl')
      exact hd
    simp only [hlater, if_false, Bool.false_eq_true]

/-- What a newer frame leaves in the cadence. -/
theorem passNewer_made (c : Cadence) (sequence round : Byte) (rebuilt : Bool) :
    c.passNewer sequence round rebuilt = { c with
      lastSequence := some sequence
      starvation := if rebuilt then c.starvation else 0
      roundLength := if rebuilt then c.roundLength else round
      localCount := if rebuilt = true ∨ nearCount sequence c.localCount = true then c.localCount else sequence
      slip := if rebuilt = true ∨ nearCount sequence c.localCount = true then c.slip else c.slip.inc } := by
  unfold Cadence.passNewer
  cases rebuilt
  · cases nearCount sequence c.localCount <;> rfl
  · simp

/-- The node states and origins in which a frame starts a new following (R30). -/
def StartsFollowing (n : Node) (o : Station) : Prop :=
  n.cadence.node = .starting ∨ n.cadence.node = .waiting
    ∨ (n.cadence.node = .following ∧ ∀ g, n.cadence.followed = some g → o < g)
    ∨ ((n.cadence.node = .claiming ∨ n.cadence.node = .origin) ∧ o < n.station)

theorem StartsFollowing.followed_lt {n : Node} {o g : Station} (h : StartsFollowing n o)
    (hn : n.cadence.node = .following) (hg : n.cadence.followed = some g) : o < g := by
  unfold StartsFollowing at h
  rw [hn] at h
  simp only [reduceCtorEq, false_or, or_self, false_and, or_false, true_and] at h
  exact h g hg

theorem StartsFollowing.lt_station {n : Node} {o : Station} (h : StartsFollowing n o)
    (hn : n.cadence.node = .claiming ∨ n.cadence.node = .origin) : o < n.station := by
  unfold StartsFollowing at h
  rcases hn with hn | hn <;>
  · rw [hn] at h
    simpa using h

/-- A frame of another origin without REBUILT starts a following where R30 says so. -/
theorem answerAdmission_starts {n : Node} {f : Frame} {o : Station} (ho : Station.ofByte (headOrigin f.head) = some o)
    (hr : headRebuilt f.head = false) (hs : o ≠ n.station) (h : StartsFollowing n o) :
    n.answerAdmission f = (.pass, n.startFollowing o f.head) := by
  have hown : (o == n.station) = false := beq_false_of_ne hs
  unfold Node.answerAdmission
  rcases h with h | h | ⟨h, hg⟩ | ⟨h | h, hlt⟩
  · simp only [ho, hr, h, hown, Bool.false_eq_true, if_false]
  · simp only [ho, hr, h, hown, Bool.false_eq_true, if_false]
  · simp only [ho, hr, h, hown, Bool.false_eq_true, if_false]
    cases hf : n.cadence.followed with
    | none => rfl
    | some g =>
      have hlt := hg g hf
      simp only [if_neg (ne_of_lt hlt), if_pos hlt]
  · simp only [ho, hr, h, hown, Bool.false_eq_true, if_false, if_pos hlt]
  · simp only [ho, hr, h, hown, Bool.false_eq_true, if_false, if_pos hlt]

/-- A frame of the followed origin is put to the repeat test (R31). -/
theorem answerAdmission_repeats {n : Node} {f : Frame} {o : Station} (ho : Station.ofByte (headOrigin f.head) = some o)
    (hn : n.cadence.node = .following) (hf : n.cadence.followed = some o) (hs : headRebuilt f.head = true ∨ o ≠ n.station) :
    n.answerAdmission f = n.repeatTest f.head := by
  unfold Node.answerAdmission
  cases hr : headRebuilt f.head
  · have hown : (o == n.station) = false := beq_false_of_ne (hs.resolve_left (by rw [hr]; decide))
    simp only [ho, hr, hn, hf, hown, Bool.false_eq_true, if_false, if_true]
  · simp only [ho, hr, hn, hf, if_true]

/-- The own frame returns to an origin (R36). -/
theorem answerAdmission_returns {n : Node} {f : Frame} (ho : Station.ofByte (headOrigin f.head) = some n.station)
    (hn : n.cadence.node = .origin) :
    n.answerAdmission f = (.taken, n.updateCadence fun x => (x.measure f.head).joinReturns f) := by
  unfold Node.answerAdmission
  cases hr : headRebuilt f.head <;> simp [ho, hr, hn]

/-- The own frame proves a claim (R35). -/
theorem answerAdmission_proves {n : Node} {f : Frame} (ho : Station.ofByte (headOrigin f.head) = some n.station)
    (hn : n.cadence.node = .claiming) (hr : headRebuilt f.head = false) :
    n.answerAdmission f = (.taken, n.proveClaim f) := by
  unfold Node.answerAdmission
  simp [ho, hr, hn]

/-- A rebuilt frame that no following and no origin knows is stale (R29). -/
theorem answerAdmission_rebuilt {n : Node} {f : Frame} {o : Station} (ho : Station.ofByte (headOrigin f.head) = some o)
    (hr : headRebuilt f.head = true) (hf : ¬(n.cadence.node = .following ∧ n.cadence.followed = some o))
    (hs : ¬(n.cadence.node = .origin ∧ o = n.station)) : n.answerAdmission f = (.discard, n.countStale) := by
  unfold Node.answerAdmission
  cases hn : n.cadence.node
  case following =>
    have hne : n.cadence.followed ≠ some o := fun h => hf ⟨hn, h⟩
    simp [ho, hr, hn, hne]
  case origin =>
    have hne : o ≠ n.station := fun h => hs ⟨hn, h⟩
    simp [ho, hr, hn, hne]
  all_goals simp [ho, hr, hn]

/-- The own frame is stale for a station that neither claims nor is the origin (R29). -/
theorem answerAdmission_own {n : Node} {f : Frame} (ho : Station.ofByte (headOrigin f.head) = some n.station)
    (hr : headRebuilt f.head = false)
    (hn : n.cadence.node = .starting ∨ n.cadence.node = .waiting ∨ n.cadence.node = .following) :
    n.answerAdmission f = (.discard, n.countStale) := by
  unfold Node.answerAdmission
  rcases hn with hn | hn | hn <;> simp [ho, hr, hn]

/-- The node states and origins to which a frame's origin is too high (R29). -/
def TooHigh (n : Node) (o : Station) : Prop :=
  (n.cadence.node = .following ∧ ∃ g, n.cadence.followed = some g ∧ g < o)
    ∨ (n.cadence.node = .claiming ∨ n.cadence.node = .origin) ∧ n.station < o

/-- A frame of a higher origin is discarded (R29). -/
theorem answerAdmission_higher {n : Node} {f : Frame} {o : Station} (ho : Station.ofByte (headOrigin f.head) = some o)
    (hr : headRebuilt f.head = false) (hs : o ≠ n.station) (h : TooHigh n o) :
    n.answerAdmission f = (.discard, n.countHigher) := by
  have hown : (o == n.station) = false := beq_false_of_ne hs
  unfold Node.answerAdmission
  rcases h with ⟨hn, g, hg, hlt⟩ | ⟨hn | hn, hlt⟩
  · simp only [ho, hr, hn, hg, hown, Bool.false_eq_true, if_false, if_neg (ne_of_gt hlt), if_neg (not_lt_of_gt hlt)]
  · simp only [ho, hr, hn, hown, Bool.false_eq_true, if_false, if_neg (not_lt_of_gt hlt)]
  · simp only [ho, hr, hn, hown, Bool.false_eq_true, if_false, if_neg (not_lt_of_gt hlt)]

/-- An ALONE station discards every frame without REBUILT and counts none (assumption 16). -/
theorem answerAdmission_alone {n : Node} {f : Frame} {o : Station} (ho : Station.ofByte (headOrigin f.head) = some o)
    (hr : headRebuilt f.head = false) (hn : n.cadence.node = .alone) : n.answerAdmission f = (.discard, n) := by
  unfold Node.answerAdmission
  simp [ho, hr, hn]

/-- An origin that is neither new nor too high to a station that is not cut off is the one it follows. -/
theorem following_of_neither {n : Node} {o : Station} (hs : o ≠ n.station) (hst : ¬StartsFollowing n o) (hhi : ¬TooHigh n o)
    (hal : n.cadence.node ≠ .alone) : n.cadence.node = .following ∧ n.cadence.followed = some o := by
  unfold StartsFollowing at hst
  unfold TooHigh at hhi
  push Not at hst hhi
  obtain ⟨hstart, hwait, hfollow, hyield⟩ := hst
  by_cases hn : n.cadence.node = .following
  · obtain ⟨g, hg, hle⟩ := hfollow hn
    have hge : ¬ g < o := not_lt_of_ge (hhi.1 hn g hg)
    exact ⟨hn, hg.trans (congrArg some (le_antisymm hle (not_lt.mp hge)))⟩
  · have hclaim : n.cadence.node = .claiming ∨ n.cadence.node = .origin := by
      cases hc : n.cadence.node
      case claiming => exact .inl rfl
      case origin => exact .inr rfl
      all_goals simp_all
    exact absurd (le_antisymm (hhi.2 hclaim) (hyield hclaim)) hs

/-- Table 2-2: what admission can answer to a frame of a station's origin, and when. -/
theorem answerAdmission_cases {n : Node} {f : Frame} {o : Station} (ho : Station.ofByte (headOrigin f.head) = some o) :
    (headRebuilt f.head = false ∧ StartsFollowing n o ∧ n.answerAdmission f = (.pass, n.startFollowing o f.head))
      ∨ (n.cadence.node = .following ∧ n.cadence.followed = some o ∧ n.cadence.Newer (headSequence f.head)
        ∧ n.answerAdmission f
          = (.pass, n.updateCadence (·.passNewer (headSequence f.head) (headRound f.head) (headRebuilt f.head))))
      ∨ (n.cadence.node = .origin ∧ o = n.station
        ∧ n.answerAdmission f = (.taken, n.updateCadence fun x => (x.measure f.head).joinReturns f))
      ∨ (n.cadence.node = .claiming ∧ o = n.station ∧ headRebuilt f.head = false
        ∧ n.answerAdmission f = (.taken, n.proveClaim f))
      ∨ n.answerAdmission f = (.discard, n.countStale)
      ∨ n.answerAdmission f = (.discard, n.countHigher)
      ∨ (n.cadence.node = .alone ∧ n.answerAdmission f = (.discard, n)) := by
  have hrepeat : n.cadence.node = .following → n.cadence.followed = some o → (headRebuilt f.head = true ∨ o ≠ n.station) →
      (n.cadence.Newer (headSequence f.head) ∧ n.answerAdmission f
        = (.pass, n.updateCadence (·.passNewer (headSequence f.head) (headRound f.head) (headRebuilt f.head))))
        ∨ n.answerAdmission f = (.discard, n.countStale) := fun hn hf hs => by
    rw [answerAdmission_repeats ho hn hf hs]
    by_cases hnew : n.cadence.Newer (headSequence f.head)
    · exact .inl ⟨hnew, repeatTest_newer hnew⟩
    · exact .inr (repeatTest_older hnew)
  cases hr : headRebuilt f.head
  · by_cases hs : o = n.station
    · rw [hs] at ho
      cases hn : n.cadence.node
      case claiming => exact .inr (.inr (.inr (.inl ⟨rfl, hs, rfl, answerAdmission_proves ho hn hr⟩)))
      case origin => exact .inr (.inr (.inl ⟨rfl, hs, answerAdmission_returns ho hn⟩))
      case alone => exact .inr (.inr (.inr (.inr (.inr (.inr ⟨rfl, answerAdmission_alone ho hr hn⟩)))))
      all_goals exact .inr (.inr (.inr (.inr (.inl (answerAdmission_own ho hr (by simp [hn]))))))
    · by_cases hst : StartsFollowing n o
      · exact .inl ⟨rfl, hst, answerAdmission_starts ho hr hs hst⟩
      · by_cases hhi : TooHigh n o
        · exact .inr (.inr (.inr (.inr (.inr (.inl (answerAdmission_higher ho hr hs hhi))))))
        · by_cases hal : n.cadence.node = .alone
          · exact .inr (.inr (.inr (.inr (.inr (.inr ⟨hal, answerAdmission_alone ho hr hal⟩)))))
          · have hn := following_of_neither hs hst hhi hal
            have hp := hrepeat hn.1 hn.2 (.inr hs)
            rw [hr] at hp
            rcases hp with ⟨hnew, h⟩ | h
            · exact .inr (.inl ⟨hn.1, hn.2, hnew, h⟩)
            · exact .inr (.inr (.inr (.inr (.inl h))))
  · by_cases hb : n.cadence.node = .following ∧ n.cadence.followed = some o
    · have hp := hrepeat hb.1 hb.2 (.inl hr)
      rw [hr] at hp
      rcases hp with ⟨hnew, h⟩ | h
      · exact .inr (.inl ⟨hb.1, hb.2, hnew, h⟩)
      · exact .inr (.inr (.inr (.inr (.inl h))))
    · by_cases hc : n.cadence.node = .origin ∧ o = n.station
      · exact .inr (.inr (.inl ⟨hc.1, hc.2, answerAdmission_returns (hc.2 ▸ ho) hc.1⟩))
      · exact .inr (.inr (.inr (.inr (.inl (answerAdmission_rebuilt ho hr hb hc)))))

/-- The measure of a round and the return queue, as an origin leaves them (R36). -/
theorem joinReturns_made (c : Cadence) (f : Frame) :
    (c.measure f.head).joinReturns f = { c with
      roundLength := if headRebuilt f.head then c.roundLength else c.localCount - headSequence f.head
      returnQueue := if c.returnQueue.length < 4 then c.returnQueue ++ [f] else c.returnQueue
      returnDiscard := if c.returnQueue.length < 4 then c.returnDiscard else c.returnDiscard.inc } := by
  unfold Cadence.measure Cadence.joinReturns
  have hlen : Config.returnPlaces = 4 := rfl
  by_cases hq : c.returnQueue.length < 4
  · cases headRebuilt f.head <;> simp [hq, hlen]
  · cases headRebuilt f.head <;> simp [hq, hlen]

/-- A proven claim, with its report (R35). -/
theorem proveClaim_made {n : Node} {f : Frame} (hn : n.cadence.node = .claiming) (hr : headRebuilt f.head = false) :
    n.proveClaim f = { n with
      cadence := { n.cadence with
        node := .origin, roundLength := n.cadence.localCount - headSequence f.head, returnQueue := [f] }
      reports := n.reports.post (.nodeState .origin n.cadence.followed (n.cadence.localCount - headSequence f.head)) } := by
  have hs : (n.cadence.node == .starting) = false := by rw [hn]; rfl
  unfold Node.proveClaim Node.setNodeState Node.postNodeState Cadence.measure
  simp only [hs, hr, Bool.false_and]
  rfl

/-- Settles O23, by the answers of Table 2-2. -/
theorem admissionKeepsTheOriginLaw : Obligations.AdmissionKeepsTheOriginLaw := by
  unfold Obligations.AdmissionKeepsTheOriginLaw
  intro n f o ho c sequence rebuilt newer near stale higher
  have hcases := answerAdmission_cases (n := n) ho
  have hnear : nearCount sequence c.localCount = true ↔ near := nearCount_iff _ _
  refine ⟨fun hp => ?_, fun hd => ?_, fun ht => ?_, fun hn hf hs => ⟨fun hnew => ?_, fun hold => ?_⟩, fun hn hs => ?_,
    fun hn hs hr => ?_, fun hr hf hs => answerAdmission_rebuilt ho hr hf hs, fun hr hs hn => ?_,
    fun hr hs hhi => answerAdmission_higher ho hr hs hhi⟩
  · have hpass : n.primaryPass f = (n.answerAdmission f).2.passFrame f := by
      unfold Node.primaryPass
      simp only [hp]
    rcases hcases with ⟨hr, hst, ha⟩ | ⟨hn, hf, hnew, ha⟩ | ⟨_, _, ha⟩ | ⟨_, _, _, ha⟩ | ha | ha | ⟨_, ha⟩
    · rw [hpass, ha]
      refine ⟨rfl, rfl, fun g hn hg => ?_, fun hn => ?_, fun h => absurd (hr.symm.trans h) (by decide), rfl⟩
      · exact (hst.followed_lt hn hg).le
      · exact hst.lt_station hn
    · rw [hpass, ha]
      have hkept : (c.passNewer sequence (headRound f.head) rebuilt).node = c.node
          ∧ (c.passNewer sequence (headRound f.head) rebuilt).followed = c.followed := by
        rw [passNewer_made]
        exact ⟨rfl, rfl⟩
      refine ⟨hkept.1.trans hn, hkept.2.trans hf, fun g _ hg => (Option.some.inj (hf.symm.trans hg)).le, fun h => ?_, fun h => ⟨hf, ?_⟩, rfl⟩
      · rcases h with h | h <;> exact absurd (hn.symm.trans h) (by decide)
      · have hr : headRebuilt f.head = true := h
        show c.passNewer _ _ _ = _
        unfold Cadence.passNewer
        rw [hr]
        rfl
    all_goals exact nomatch hp.symm.trans (congrArg Prod.fst ha)
  · have hpass : n.primaryPass f = (n.answerAdmission f).2 := by
      unfold Node.primaryPass
      simp only [hd]
    refine ⟨?_, hpass⟩
    rcases hcases with ⟨hr, hst, ha⟩ | ⟨hn, hf, hnew, ha⟩ | ⟨_, _, ha⟩ | ⟨_, _, _, ha⟩ | ha | ha | ⟨hn, ha⟩
    · exact nomatch hd.symm.trans (congrArg Prod.fst ha)
    · exact nomatch hd.symm.trans (congrArg Prod.fst ha)
    · exact nomatch hd.symm.trans (congrArg Prod.fst ha)
    · exact nomatch hd.symm.trans (congrArg Prod.fst ha)
    · exact .inl (congrArg Prod.snd ha)
    · exact .inr (.inl (congrArg Prod.snd ha))
    · exact .inr (.inr ⟨hn, congrArg Prod.snd ha⟩)
  · have hpass : n.primaryPass f = (n.answerAdmission f).2 := by
      unfold Node.primaryPass
      simp only [ht]
    rcases hcases with ⟨hr, hst, ha⟩ | ⟨hn, hf, hnew, ha⟩ | ⟨hn, hs, ha⟩ | ⟨hn, hs, hr, ha⟩ | ha | ha | ⟨hn, ha⟩
    · exact nomatch ht.symm.trans (congrArg Prod.fst ha)
    · exact nomatch ht.symm.trans (congrArg Prod.fst ha)
    · rw [hpass, ha]
      refine ⟨hs, .inr hn, ?_, fun hr => ?_, rfl⟩
      · show ((c.measure f.head).joinReturns f).node = _
        rw [joinReturns_made]
        exact hn
      · have hr : headRebuilt f.head = false := hr
        show ((c.measure f.head).joinReturns f).roundLength = _
        rw [joinReturns_made]
        exact if_neg (by rw [hr]; decide)
    · rw [hpass, ha, proveClaim_made hn hr]
      exact ⟨hs, .inl hn, rfl, fun _ => rfl, rfl⟩
    all_goals exact nomatch ht.symm.trans (congrArg Prod.fst ha)
  · rw [answerAdmission_repeats ho hn hf (.inr hs), repeatTest_newer hnew]
    refine congrArg (Prod.mk Admission.pass) ?_
    show ({ n with cadence := c.passNewer sequence (headRound f.head) rebuilt } : Node) = _
    rw [passNewer_made]
    simp only [hnear]
  · rw [answerAdmission_repeats ho hn hf (.inr hs)]
    exact repeatTest_older hold
  · rw [answerAdmission_returns (hs ▸ ho) hn, ← joinReturns_made]
    rfl
  · rw [answerAdmission_proves (hs ▸ ho) hn hr, proveClaim_made hn hr]
  · exact answerAdmission_own (hs ▸ ho) hr hn

/-- The cadence of a new following, steps 1 to 7 of R30. -/
theorem follow_made (c : Cadence) (o : Station) (sequence round : Byte) :
    c.follow o sequence round = { c with
      node := .following, followed := some o, lastSequence := some sequence, localCount := sequence,
      roundLength := round, starvation := 0, backOff := none,
      returnQueue := if c.node = .origin then [] else c.returnQueue,
      slip := if c.node ≠ .starting ∧ ¬(sequence - c.localCount = 255#8 ∨ sequence - c.localCount = 0#8
        ∨ sequence - c.localCount = 1#8) then c.slip.inc else c.slip,
      yields := if c.node = .claiming ∨ c.node = .origin then c.yields.inc else c.yields } := by
  unfold Cadence.follow
  simp only [← nearCount_iff]
  cases nearCount sequence c.localCount <;> cases c.node <;> rfl

/-- What a new following makes (R30). -/
theorem startFollowing_made (n : Node) (o : Station) (h : SixBytes) :
    n.startFollowing o h = { n with
      cadence := n.cadence.follow o (headSequence h) (headRound h)
      engine := { n.engine with layoutDue := n.engine.layoutDue || n.cadence.node == .starting }
      reports := n.reports.post (.nodeState .following (some o) (headRound h)) } := by
  unfold Node.startFollowing Node.setNodeState Node.postNodeState
  cases hs : n.cadence.node == .starting
  · simp only [Bool.or_false]
    rfl
  · simp only [Bool.or_true]
    rfl

/-- A good primary frame off the West receiver. -/
theorem westFrame_leaves {s : State} {head : SixBytes} {body : List FrameUnit} (hr : s.finish.node.running = true)
    (hl : s.finish.node.link.west.lock = true) (hg : headGood head = true) (hs : headSecondary head = false) :
    Leaves (.frameReceived .west head body) s
      ((s.finish.node.updateSide .west SideState.goodItem).westFrame { head := head, body := body }) := by
  have h := frameReceived_leaves (side := .west) (body := body) hr hl hg
  unfold Node.sortFrame at h
  simp only [hg, hs, if_true] at h
  exact h

/-- A frame acceptable for an early unfold (R58). -/
theorem acceptable_iff {n : Node} {h : SixBytes} {o : Station} (ho : Station.ofByte (headOrigin h) = some o) :
    n.acceptable h = true ↔ headRebuilt h = false ∧ o ≠ n.station ∧ ∀ g, n.cadence.followed = some g → o ≤ g := by
  unfold Node.acceptable
  rw [ho]
  cases hf : n.cadence.followed <;> simp [and_assoc]

/-- Settles O22. -/
theorem validFrameStartsAFollowing : Obligations.ValidFrameStartsAFollowing := by
  unfold Obligations.ValidFrameStartsAFollowing
  constructor
  · intro s head body o n hr hl hg hs hreb ho hne hfold hst near started
    have hact := westFrame_leaves (body := body) hr hl hg hs
    obtain ⟨seen, hseen⟩ : ∃ seen, n.updateSide .west SideState.goodItem = seen := ⟨_, rfl⟩
    have hstarts : StartsFollowing seen o := by
      rw [← hseen]
      rcases hst with h | h | ⟨h, g, hg, hlt⟩ | h
      · exact .inl h
      · exact .inr (.inl h)
      · exact .inr (.inr (.inl ⟨h, fun g' hg' => Option.some.inj (hg.symm.trans hg') ▸ hlt⟩))
      · exact .inr (.inr (.inr h))
    have hstarted : seen.startFollowing o head = started := by
      rw [startFollowing_made, follow_made, ← hseen]
      rfl
    have hwest : seen.westFrame ⟨head, body⟩ = started.passFrame ⟨head, body⟩ := by
      have hpass : seen.westFrame ⟨head, body⟩ = seen.primaryPass ⟨head, body⟩ := by
        have hf : seen.link.fold = n.link.fold := by rw [← hseen]; rfl
        unfold Node.westFrame
        rw [hf]
        rcases hfold with h | h <;> rw [h]
      have hseenst : seen.station = n.station := by rw [← hseen]; rfl
      rw [hpass]
      unfold Node.primaryPass
      simp only [answerAdmission_starts (n := seen) (f := ⟨head, body⟩) ho hreb (hseenst ▸ hne) hstarts]
      rw [hstarted]
    rw [hseen, hwest] at hact
    obtain ⟨hloader, hcadence, hrouter, hmixer, hport⟩ := Node.passFrame_leaves started ⟨head, body⟩
    obtain ⟨more, hmore⟩ := (passFrame_follow (QueuesFollow.refl started) ⟨head, body⟩).1
    refine ⟨_, hact, rfl, hcadence, ⟨more, hmore⟩, ?_⟩
    rw [node_ext_iff]
    exact ⟨hloader, rfl, rfl, rfl, rfl, rfl, hrouter, hmixer, rfl, rfl, hport⟩
  · intro s head body o n hr hl hg hs ho hfold heard acceptable
    have hact := westFrame_leaves (body := body) hr hl hg hs
    obtain ⟨seen, hseen⟩ : ∃ seen, n.updateSide .west SideState.goodItem = seen := ⟨_, rfl⟩
    have hmade : seen = { n with link := heard } := hseen.symm
    have hfold' : seen.link.fold = .foldedWest := by rw [hmade]; exact hfold
    have hacc : ((seen.side .west).link = .up ∧ seen.acceptable head = true) ↔ acceptable := by
      rw [hmade]
      exact and_congr_right fun _ => acceptable_iff ho
    rw [hseen] at hact
    unfold Node.westFrame at hact
    rw [hfold'] at hact
    refine ⟨fun h => ?_, fun h => ?_⟩
    · simp only [if_pos (hacc.mpr h)] at hact
      have hunfold : seen.earlyUnfold = { n with
          link := { heard with fold := .whole, foldChange := n.link.foldChange.inc, earlyUnfold := n.link.earlyUnfold.inc }
          reports := n.reports.post (.fold .whole .foldedWest (some .west) true) } := by
        unfold Node.earlyUnfold
        rw [changeFold_kept .west true (by decide), hmade, ← hfold]
      rw [hunfold] at hact
      exact hact
    · simp only [if_neg fun hc => h (hacc.mp hc)] at hact
      rw [hmade] at hact
      exact hact

end Sys2Proof.Machine
end
section
/-! PROOF. The presentation delay, fallback and return, and the millisecond mark (Sections 2.2, 6). -/

namespace Sys2Proof.Machine

open Sys2Proof Sys2Proof.Safety

/-! ### The presentation delay (Sections 6.2, 6.3) -/

/-- A change of an entry in use, as a store of the entry. -/
theorem updateEntry_of_get {t : Taps} {e : EntryNo} {x : TapEntry} (h : t.entries.get e = some x) (f : TapEntry → TapEntry) :
    t.updateEntry e f = { t with entries := t.entries.set e (some (f x)) } := by
  unfold Taps.updateEntry Table.update
  rw [h]
  rfl

/-- The end of a window whose largest age allows a lower delay, and of any other (R112). -/
theorem endWindow_made (n : Node) :
    n.endWindow = { n with
      taps := { n.taps with
        pEff := (match n.taps.largestAge with
          | some a => if n.loader.values.delay < n.taps.pEff ∧ a + 1 < n.taps.pEff
              then some (max n.loader.values.delay (a + 1)) else none
          | none => none).getD n.taps.pEff
        windowCount := 0, largestAge := none }
      reports := match (match n.taps.largestAge with
          | some a => if n.loader.values.delay < n.taps.pEff ∧ a + 1 < n.taps.pEff
              then some (max n.loader.values.delay (a + 1)) else none
          | none => none) with
        | some new => n.reports.post (.delayChanged new n.taps.pEff .lower)
        | none => n.reports } := by
  unfold Node.endWindow
  cases ha : n.taps.largestAge with
  | none => rfl
  | some a =>
    by_cases hl : n.loader.values.delay < n.taps.pEff ∧ a + 1 < n.taps.pEff
    · simp only [if_pos hl]
      rfl
    · simp only [if_neg hl]
      rfl

/-- Settles O29. -/
theorem windowEndLowersTheDelay : Obligations.WindowEndLowersTheDelay := by
  unfold Obligations.WindowEndLowersTheDelay
  refine ⟨fun s ts => ?_, fun t w count index k samples => ?_, fun n => ⟨fun hr => ?_, fun r hr => ?_⟩⟩
  · intro n hr ha hw p lowered
    have hdue : n.due .windowEnd = true := by
      unfold Node.due Node.rowStands
      rw [hr, hw]
      rfl
    have hl := takeRow_takes .windowEnd s .windowEnd ts rfl ha hdue
    have hmade : s.node.doTask .windowEnd = n.endWindow := rfl
    rw [hmade, endWindow_made] at hl
    exact hl
  · intro age
    unfold Taps.arrive
    refine ⟨fun hk => by rw [hk], fun e x hk hx => ⟨fun hge => ?_, fun hlt => ?_⟩⟩
    · have hge : w.frames ≤ (count - index).toNat := hge
      rw [hk]
      simp only [if_pos hge, updateEntry_of_get hx]
    · have hlt : (count - index).toNat < w.frames := hlt
      rw [hk]
      simp only [if_neg (Nat.not_le.mpr hlt), updateEntry_of_get hx]
      have hmax : ∀ (o : Option Nat) (a : Nat), maxOrNone o a = some (max (o.getD 0) a) := fun o a => by
        cases o <;> simp [maxOrNone]
      simp only [hmax, TapEntry.store, decide_eq_true_eq]
      rfl
  · unfold Node.settleRaise
    rw [hr]
  · intro candidate
    unfold Node.settleRaise
    rw [hr]
    refine ⟨fun h => ?_, fun h => ?_⟩
    · have h : ¬ n.taps.pEff < min (n.frames - 1) r := Nat.not_lt.mpr h
      simp only [if_neg h]
      rfl
    · have h : n.taps.pEff < min (n.frames - 1) r := h
      simp only [if_pos h]
      rfl

/-! ### Fallback and return (Section 6.5) -/

/-- A return of a primary to NORMAL (R120, R121). -/
theorem returnPrimary_made {n : Node} {e : EntryNo} {x : TapEntry} {slot : Fin 128} {a : Key} (cause : ReturnCause)
    (hx : n.taps.entries.get e = some x) (hs : x.slot = some slot) (ha : x.alternate = some a) :
    n.returnPrimary e cause = { n with
      taps := { n.taps with entries := n.taps.entries.set e (some { x with onAlternate := false, returnHold := 0 }) }
      reports := n.reports.post (.returned e x.key slot a cause) } := by
  have hp : x.primary = some (slot, a) := by
    unfold TapEntry.primary
    rw [hs, ha]
  unfold Node.returnPrimary
  rw [hx]
  simp only [hp, Node.updateTaps, updateEntry_of_get hx]
  rfl

/-- A fallback of a primary (R119). -/
theorem fallBack_made {n : Node} {e : EntryNo} {x : TapEntry} {slot : Fin 128} {a : Key}
    (hx : n.taps.entries.get e = some x) (hs : x.slot = some slot) (ha : x.alternate = some a) :
    n.fallBack e = { n with
      taps := { n.taps with entries := n.taps.entries.set e (some { x with onAlternate := true, returnHold := 0 }) }
      reports := n.reports.post (.fallback e x.key slot a) } := by
  have hp : x.primary = some (slot, a) := by
    unfold TapEntry.primary
    rw [hs, ha]
  unfold Node.fallBack
  rw [hx]
  simp only [hp, Node.updateTaps, updateEntry_of_get hx]
  rfl

/-- Settles O31. -/
theorem returnHoldCompleteReturns : Obligations.ReturnHoldCompleteReturns := by
  unfold Obligations.ReturnHoldCompleteReturns
  constructor
  · intro s ts e x slot a n hr ha hx hs hal hon hauto hhold
    have hdue : n.due (.returnHold e) = true := by
      have hp : x.primary = some (slot, a) := by
        unfold TapEntry.primary
        rw [hs, hal]
      have hcomplete : n.holdComplete e = true := by
        unfold Node.holdComplete
        rw [hx]
        simp [hp, hon, hauto, hhold]
      unfold Node.due
      rw [hr]
      exact hcomplete
    have hl := takeRow_takes (.returnHoldComplete e) s (.returnHold e) ts rfl ha hdue
    have hmade : s.node.doTask (.returnHold e) = n.returnPrimary e .hold := rfl
    rw [hmade, returnPrimary_made .hold hx hs hal] at hl
    exact hl
  · intro n e x hx f k falls returns
    refine ⟨fun slot a hs ha => ?_, fun hno => ?_⟩
    · have hp : x.primary = some (slot, a) := by
        unfold TapEntry.primary
        rw [hs, ha]
      have hdecide : n.decideFallback e = if x.onAlternate = true then
            if f ≤ k a ∧ n.taps.readPresent x.key = true then n.returnPrimary e .alternateFailed else n
          else if f ≤ x.conceal ∧ n.taps.readPresent a = true then n.fallBack e else n := by
        unfold Node.decideFallback
        rw [hx]
        simp only [hp]
        rfl
      rw [hdecide]
      refine ⟨fun h => ?_, fun h => ?_, fun h h' => ?_⟩
      · rw [if_neg (by rw [h.1]; decide), if_pos h.2]
        exact fallBack_made hx hs ha
      · rw [if_pos h.1, if_pos h.2]
        exact returnPrimary_made .alternateFailed hx hs ha
      · by_cases hon : x.onAlternate = true
        · rw [if_pos hon, if_neg fun hc => h' ⟨hon, hc⟩]
        · rw [if_neg hon, if_neg fun hc => h ⟨Bool.eq_false_iff.mpr hon, hc⟩]
    · have hp : x.primary = none := by
        unfold TapEntry.primary
        rcases hno with h | h <;> rw [h]
        cases x.slot <;> rfl
      unfold Node.decideFallback
      rw [hx]
      simp only [hp]

/-! ### The millisecond mark (R27) -/

/-- An event that waits for no own queue stays (R157). -/
theorem handOwnEvent_stays {n : Node} {k : Fin 4} (h : (n.talk.keys.get k).event = none ∨ n.keyIsOwn k = false) :
    n.handOwnEvent k = n := by
  unfold Node.handOwnEvent
  cases he : (n.talk.keys.get k).event with
  | none => rfl
  | some ev =>
    have ho : n.keyIsOwn k = false := h.resolve_left (by rw [he]; exact nofun)
    simp only [ho, Bool.false_eq_true, if_false]

/-- Steps that each leave a state as it is leave it so together. -/
theorem foldl_fixed_of_mem {α β : Type} {f : α → β → α} {a : α} {l : List β} (h : ∀ b ∈ l, f a b = a) :
    l.foldl f a = a := by
  induction l with
  | nil => rfl
  | cons b l ih =>
    rw [List.foldl_cons, h b List.mem_cons_self]
    exact ih fun c hc => h c (List.mem_cons_of_mem _ hc)

/-- Settles O30. -/
theorem millisecondMarkCounts : Obligations.MillisecondMarkCounts := by
  unfold Obligations.MillisecondMarkCounts
  constructor
  · intro s ts n hold key counted hr ha hm
    have hdue : n.due .mark = true := by
      unfold Node.due Node.rowStands
      rw [hr, hm, Bool.true_and]
      exact beq_self_eq_true _
    have hcount : n.countMark = n.talk.pendingOrder.foldl Node.handOwnEvent counted := by
      unfold Node.countMark Node.countDeadlines Node.retryOwnEvents
      refine congrArg (List.foldl Node.handOwnEvent · n.talk.pendingOrder) ?_
      rw [node_ext_iff]
      refine ⟨rfl, rfl, rfl, rfl, rfl, ?_, rfl, rfl, ?_, rfl, rfl⟩
      · show n.taps.countHolds = _
        unfold Taps.countHolds
        refine congrArg (fun f => { n.taps with entries := n.taps.entries.map (Option.map f) }) (funext fun x => ?_)
        have hprimary : x.primary.isSome = (x.slot.isSome && x.alternate.isSome) := by
          unfold TapEntry.primary
          cases x.slot <;> cases x.alternate <;> rfl
        simp only [hprimary, Bool.and_eq_true, and_assoc]
        split <;> rfl
      · have hkey : ∀ k, (n.talk.keys.get k).atMark (n.talk.pins.get k) = key (n.talk.keys.get k) (n.talk.pins.get k) :=
          fun k => by
            unfold KeyState.atMark
            simp only [Bool.and_eq_true, decide_eq_true_eq]
            rfl
        simp only [hkey]
        rfl
    have hl := takeRow_takes .millisecondMark s .mark ts rfl ha hdue
    have hdo : s.node.doTask .mark = n.countMark := rfl
    rw [hdo, hcount] at hl
    refine ⟨hl, fun hnone => ?_⟩
    have hstay : n.talk.pendingOrder.foldl Node.handOwnEvent counted = counted := by
      have hsame : ∀ k, (counted.talk.keys.get k).event = (n.talk.keys.get k).event := fun k => by
        show ((Table.ofFn fun k => key (n.talk.keys.get k) (n.talk.pins.get k)).get k).event = _
        rw [Table.get_ofFn]
      refine foldl_fixed_of_mem fun k hk => handOwnEvent_stays ?_
      rw [hsame]
      exact hnone k hk
    rw [hstay] at hl
    exact hl
  · intro n k ev he ho
    have h := n.handOwnEvent_eq k ev he ho
    refine ⟨fun hq => ?_, fun hq => ?_⟩
    · rw [h, if_neg (Nat.not_lt.mpr hq)]
    · rw [h, if_pos hq]
      rfl

end Sys2Proof.Machine
end
section
/-! PROOF. Send slots, talk keys and their messages (Sections 4.3, 9.2). -/

namespace Sys2Proof.Machine

open Sys2Proof Sys2Proof.Safety

/-! ### What the leaving of an event does to the keys (R156, R157) -/

/-- A key whose event has left it. -/
def KeyState.left (x : KeyState) : KeyState := { x with event := none, serial := x.serial + 1 }

theorem eventLeaves_keys (n : Node) (k j : Fin 4) :
    (n.eventLeaves k).talk.keys.get j = if k = j then (n.talk.keys.get j).left else n.talk.keys.get j := by
  by_cases h : k = j
  · subst h
    simp [Node.eventLeaves, Node.updateKey, KeyState.left]
  · simp [Node.eventLeaves, Node.updateKey, h]

theorem handOwnEvent_keys (n : Node) (k j : Fin 4) :
    (n.handOwnEvent k).talk.keys.get j = n.talk.keys.get j
      ∨ k = j ∧ (n.handOwnEvent k).talk.keys.get j = (n.talk.keys.get j).left := by
  unfold Node.handOwnEvent
  split
  · split
    · split
      · rename_i n1 hs
        have ht : n1.talk = n.talk := by
          unfold Node.selfAddress at hs
          obtain ⟨m, -, rfl⟩ := Option.map_eq_some_iff.mp hs
          rfl
        rw [eventLeaves_keys, ht]
        by_cases h : k = j
        · exact .inr ⟨h, if_pos h⟩
        · exact .inl (if_neg h)
      · exact .inl rfl
    · exact .inl rfl
  · exact .inl rfl

/-- One placing takes at most the event of a key that stands in the pending order, and takes that key out of it. -/
theorem placeOneTalk_keys (n : Node) (j : Fin 4) :
    n.placeOneTalk.talk.keys.get j = n.talk.keys.get j
      ∨ j ∈ n.talk.pendingOrder ∧ j ∉ n.placeOneTalk.talk.pendingOrder
        ∧ n.placeOneTalk.talk.keys.get j = (n.talk.keys.get j).left := by
  unfold Node.placeOneTalk
  split
  · rename_i i k hi hk
    split
    · rename_i ev he
      rw [eventLeaves_keys]
      by_cases h : k = j
      · refine .inr ⟨h ▸ List.mem_of_find?_eq_some hk, ?_, if_pos h⟩
        subst h
        simp [Node.eventLeaves]
      · exact .inl (if_neg h)
    · exact .inl rfl
  · exact .inl rfl

/-- The placing of pending events takes a key's event at most once. -/
theorem placeTalk_keys (n : Node) (j : Fin 4) :
    n.placeTalk.talk.keys.get j = n.talk.keys.get j ∨ n.placeTalk.talk.keys.get j = (n.talk.keys.get j).left := by
  unfold Node.placeTalk
  rcases placeOneTalk_keys n j with h | ⟨-, hout, h⟩
  · rcases placeOneTalk_keys n.placeOneTalk j with h' | ⟨-, -, h'⟩
    · exact .inl (h'.trans h)
    · exact .inr (by rw [h', h])
  · rcases placeOneTalk_keys n.placeOneTalk j with h' | ⟨hin, -, -⟩
    · exact .inr (h'.trans h)
    · exact absurd hin hout

/-- An event made for a key stands there, or has left at once. -/
theorem makeEvent_keys {n : Node} {k : Fin 4} {ev : TalkEvent}
    (h : ¬(ev = .keep ∧ (n.talk.keys.get k).event = some .openTalk)) :
    (n.makeEvent k ev).talk.keys.get k = { n.talk.keys.get k with event := some ev }
      ∨ (n.makeEvent k ev).talk.keys.get k = (n.talk.keys.get k).left := by
  have hset : (n.setEvent k ev).talk.keys.get k = { n.talk.keys.get k with event := some ev } := by
    unfold Node.setEvent
    split <;> simp [Node.updateKey]
  have hleft : ({ n.talk.keys.get k with event := some ev } : KeyState).left = (n.talk.keys.get k).left := rfl
  unfold Node.makeEvent
  rw [if_neg h]
  dsimp only
  split
  · rcases handOwnEvent_keys (n.setEvent k ev) k k with h' | ⟨-, h'⟩
    · exact .inl (h'.trans hset)
    · exact .inr (by rw [h', hset, hleft])
  · rcases placeTalk_keys (n.setEvent k ev) k with h' | h'
    · exact .inl (h'.trans hset)
    · exact .inr (by rw [h', hset, hleft])

/-- An event that is made moves the talk and the messages alone. -/
theorem makeEvent_frame (n : Node) (k : Fin 4) (ev : TalkEvent) :
    n.makeEvent k ev = { n with messages := (n.makeEvent k ev).messages, talk := (n.makeEvent k ev).talk } := by
  rw [node_ext_iff]
  simp

/-- Settles O35. -/
theorem talkKeysMakeEvents : Obligations.TalkKeysMakeEvents := by
  unfold Obligations.TalkKeysMakeEvents
  intro s ts k n x left with' pressed released hr
  have hget : ∀ y : KeyState, (with' y).talk.keys.get k = y := fun y => Table.get_set_same ..
  have hopen : ∀ m : Node, ¬(TalkEvent.openTalk = .keep ∧ (m.talk.keys.get k).event = some .openTalk) :=
    fun _ h => nomatch h.1
  have hclose : ∀ m : Node, ¬(TalkEvent.close = .keep ∧ (m.talk.keys.get k).event = some .openTalk) :=
    fun _ h => nomatch h.1
  refine ⟨fun ha hd hp => ?_, fun ha hd hp => ?_, fun ha hk => ?_, rfl, rfl, rfl⟩
  · have hdue : n.due (.keyPressed k) = true := by
      have hstands : n.rowStands (.keyPressed k) = (x.debounce == 5 && !x.pressed) := rfl
      unfold Node.due
      rw [hr, hstands, hd, hp]
      rfl
    refine ⟨_, takeRow_takes (.talkKeyPressed k) s (.keyPressed k) ts rfl ha hdue, ?_⟩
    have hdo : s.node.doTask (.keyPressed k) = if (n.keyImage k).bound then pressed.makeEvent k .openTalk
      else with' { x with pressed := true, debounce := 0 } := rfl
    rw [hdo]
    cases hb : (n.keyImage k).bound
    · simp only [Bool.false_eq_true, if_false, hget]
      exact ⟨trivial, trivial, rfl, fun h => absurd h (by decide), fun _ => trivial⟩
    · simp only [if_true]
      have hframe := makeEvent_frame pressed k .openTalk
      have hmade := Node.makeEvent_made pressed k .openTalk
      rcases makeEvent_keys (hopen pressed) with h | h
      · rw [hget] at h
        rw [h]
        exact ⟨rfl, rfl, hframe, fun _ => ⟨hmade, rfl, .inl rfl⟩, fun h => absurd h (by decide)⟩
      · rw [hget] at h
        refine ⟨by rw [h]; rfl, by rw [h]; rfl, hframe, fun _ => ⟨hmade, by rw [h]; rfl, .inr ?_⟩, fun h => absurd h (by decide)⟩
        exact ⟨by rw [h]; rfl, by rw [h]; rfl⟩
  · have hdue : n.due (.keyReleased k) = true := by
      have hstands : n.rowStands (.keyReleased k) = (x.debounce == 5 && x.pressed) := rfl
      unfold Node.due
      rw [hr, hstands, hd, hp]
      rfl
    refine ⟨_, takeRow_takes (.talkKeyReleased k) s (.keyReleased k) ts rfl ha hdue, ?_⟩
    have hdo : s.node.doTask (.keyReleased k) = if (n.keyImage k).bound then released.makeEvent k .close
      else released := rfl
    rw [hdo]
    cases hb : (n.keyImage k).bound
    · simp only [Bool.false_eq_true, if_false]
      rw [hget]
      exact ⟨rfl, rfl, rfl, rfl, fun h => absurd h (by decide), fun _ => trivial⟩
    · simp only [if_true]
      have hframe := makeEvent_frame released k .close
      have hmade := Node.makeEvent_made released k .close
      rcases makeEvent_keys (hclose released) with h | h
      · rw [hget] at h
        rw [h]
        exact ⟨rfl, rfl, rfl, hframe, fun _ => ⟨hmade, .inl rfl⟩, fun h => absurd h (by decide)⟩
      · rw [hget] at h
        refine ⟨by rw [h]; rfl, by rw [h]; rfl, by rw [h]; rfl, hframe, fun _ => ⟨hmade, .inr ?_⟩, fun h => absurd h (by decide)⟩
        exact ⟨by rw [h]; rfl, by rw [h]; rfl⟩
  · have hdue : n.due (.keepExpiry k) = true := by
      have hstands : n.rowStands (.keepExpiry k) = (x.keep == some 0) := rfl
      unfold Node.due
      rw [hr, hstands, hk]
      rfl
    obtain ⟨counted, hc⟩ : ∃ counted, with' { x with keep := some 40 } = counted := ⟨_, rfl⟩
    have hx : counted.talk.keys.get k = { x with keep := some 40 } := by rw [← hc, hget]
    refine ⟨_, takeRow_takes (.keepCountExpiry k) s (.keepExpiry k) ts rfl ha hdue, ?_⟩
    have hdo : s.node.doTask (.keepExpiry k) = counted.makeEvent k .keep := by rw [← hc]; rfl
    rw [hdo, hc]
    have hmade := Node.makeEvent_made counted k .keep
    have hframe : counted.makeEvent k .keep
        = { n with messages := (counted.makeEvent k .keep).messages, talk := (counted.makeEvent k .keep).talk } := by
      have h := makeEvent_frame counted k .keep
      rw [← hc] at h ⊢
      exact h
    by_cases he : x.event = some .openTalk
    · have hstay : counted.makeEvent k .keep = counted := by
        unfold Node.makeEvent
        rw [if_pos ⟨rfl, by rw [hx]; exact he⟩]
      rw [hstay] at hframe hmade ⊢
      rw [hx]
      exact ⟨rfl, rfl, hframe, hmade, fun h => absurd he h, fun _ => ⟨by rw [← hc], he⟩⟩
    · have hnot : ¬(TalkEvent.keep = .keep ∧ (counted.talk.keys.get k).event = some .openTalk) := by
        rw [hx]
        exact fun h => he h.2
      rcases makeEvent_keys hnot with h | h
      · rw [hx] at h
        rw [h]
        exact ⟨rfl, rfl, hframe, hmade, fun _ => .inl rfl, fun h => absurd h he⟩
      · rw [hx] at h
        refine ⟨by rw [h]; rfl, by rw [h]; rfl, hframe, hmade, fun _ => .inr ⟨?_, ?_⟩, fun h => absurd h he⟩
        · rw [h]
          rfl
        · rw [h]
          rfl

/-! ### Send slots (R71 to R74) -/

/-- A ready slot as it goes IN FLIGHT (R72). -/
def SendSlot.launched (roundLength : Byte) : SendSlot → SendSlot
  | .ready u => .inFlight u (2 * roundLength.toNat + 16)
  | x => x

/-- A slot that holds a message to be given. -/
def SendSlot.isReady : SendSlot → Bool
  | .ready _ => true
  | _ => false

/-- One slot launched. -/
theorem launch_made (roundLength : Byte) (m : Messages) (i : Fin 8) :
    m.launch roundLength i = { m with
      slots := m.slots.set i ((m.slots.get i).launched roundLength)
      readyOrder := m.readyOrder.filter fun j => !(j == i && (m.slots.get i).isReady) } := by
  have hstay : m.slots.set i (m.slots.get i) = m.slots := Table.set_get_self ..
  unfold Messages.launch
  cases hs : m.slots.get i with
  | ready u => simp [SendSlot.launched, SendSlot.isReady, bne]
  | free =>
    rw [hs] at hstay
    simp [SendSlot.launched, SendSlot.isReady, hstay]
  | reserved =>
    rw [hs] at hstay
    simp [SendSlot.launched, SendSlot.isReady, hstay]
  | inFlight u c =>
    rw [hs] at hstay
    simp [SendSlot.launched, SendSlot.isReady, hstay]

/-- Slots launched one after the other. -/
theorem foldl_launch (roundLength : Byte) (l : List (Fin 8)) (m : Messages) :
    let r := l.foldl (Messages.launch roundLength) m
    (∀ i, r.slots.get i = if i ∈ l then (m.slots.get i).launched roundLength else m.slots.get i)
      ∧ r.readyOrder = m.readyOrder.filter (fun i => !(l.contains i && (m.slots.get i).isReady))
      ∧ r = { m with slots := r.slots, readyOrder := r.readyOrder } := by
  induction l generalizing m with
  | nil => simp
  | cons a l ih =>
    obtain ⟨hslots, horder, hrest⟩ := ih (m.launch roundLength a)
    have hmade := launch_made roundLength m a
    have htwice : ∀ x : SendSlot, (x.launched roundLength).launched roundLength = x.launched roundLength := fun x => by
      cases x <;> rfl
    have hdone : ∀ x : SendSlot, (x.launched roundLength).isReady = false := fun x => by
      cases x <;> rfl
    have hget : ∀ i, (m.launch roundLength a).slots.get i
        = if i = a then (m.slots.get i).launched roundLength else m.slots.get i := fun i => by
      rw [hmade]
      by_cases h : i = a
      · subst h
        simp
      · simp [h, Ne.symm h]
    simp only [List.foldl_cons]
    refine ⟨fun i => ?_, ?_, ?_⟩
    · rw [hslots, hget]
      by_cases hi : i = a
      · by_cases hl : i ∈ l <;> simp [hi, htwice]
      · simp [hi]
    · rw [horder, hmade, List.filter_filter]
      refine List.filter_congr fun i _ => ?_
      by_cases hi : i = a
      · subst hi
        cases m.slots.get i <;> simp [SendSlot.isReady, SendSlot.launched]
      · have hslot : (m.slots.set a ((m.slots.get a).launched roundLength)).get i = m.slots.get i :=
          Table.get_set_other _ _ _ _ (Ne.symm hi)
        simp [hi, hslot]
    · rw [hrest, hmade]

/-- Behind the placing of pending events nothing moves where no key's event leaves through a slot. -/
theorem placeTalk_none {n : Node} (h : (n.talk.pendingOrder.filter fun j => !n.keyIsOwn j) = []) : n.placeTalk = n := by
  unfold Node.placeTalk
  rw [Node.placeOneTalk_none n (.inr h), Node.placeOneTalk_none n (.inr h)]

/-- With one FREE talk slot, the first key of the order that leaves through a slot takes it. -/
theorem placeTalk_one {n : Node} {i : Fin 8} {j : Fin 4} {rest : List (Fin 4)} {ev : TalkEvent}
    (hf : (talkSlots.filter fun a => n.messages.slots.get a == .free) = [i])
    (hw : (n.talk.pendingOrder.filter fun j => !n.keyIsOwn j) = j :: rest) (he : (n.talk.keys.get j).event = some ev) :
    n.placeTalk = leftThroughSlot n i j ev := by
  have hone : n.placeOneTalk = leftThroughSlot n i j ev :=
    Node.placeOneTalk_eq n i j ev ((Messages.freeSlot_eq _ _).trans (congrArg List.head? hf)) (congrArg List.head? hw) he
  unfold Node.placeTalk
  rw [hone]
  exact Node.placeOneTalk_none _ (.inl ((Messages.freeSlot_eq _ _).trans
    (congrArg List.head? (leftThroughSlot_free n i j ev [] hf))))

/-- The talk slots come in a pair. -/
def otherTalkSlot (i : Fin 8) : Fin 8 := if i = 4 then 5 else 4

/-- A settled talk slot is FREE alone where the other talk slot is taken. -/
theorem freeTalkSlots_eq {m : Messages} {i : Fin 8} (h4 : 4 ≤ i.val) (h6 : i.val < 6) (hi : m.slots.get i = .free)
    (ho : m.slots.get (otherTalkSlot i) ≠ .free) : (talkSlots.filter fun a => m.slots.get a == .free) = [i] := by
  have hcases : i = 4 ∨ i = 5 := by omega
  unfold talkSlots
  rcases hcases with rfl | rfl
  · have ho : m.slots.get 5 ≠ .free := ho
    simp [hi, ho]
  · have ho : m.slots.get 4 ≠ .free := ho
    simp [hi, ho]

/-- While a talk slot is taken, the other is FREE alone or none is. -/
theorem freeTalkSlots_taken {m : Messages} {i : Fin 8} (h4 : 4 ≤ i.val) (h6 : i.val < 6) (hi : m.slots.get i ≠ .free) :
    (talkSlots.filter fun a => m.slots.get a == .free)
      = if m.slots.get (otherTalkSlot i) = .free then [otherTalkSlot i] else [] := by
  have hcases : i = 4 ∨ i = 5 := by omega
  unfold talkSlots
  rcases hcases with rfl | rfl
  · have ho : otherTalkSlot 4 = 5 := rfl
    rw [ho]
    by_cases h : m.slots.get 5 = .free <;> simp [hi, h]
  · have ho : otherTalkSlot 5 = 4 := rfl
    rw [ho]
    by_cases h : m.slots.get 4 = .free <;> simp [hi, h]

/-- A slot freed. -/
def Node.freed (n : Node) (i : Fin 8) : Node := n.updateMessages (·.freeUp i)

/-- An event that joins the pending order. -/
def Node.withEvent (n : Node) (k : Fin 4) (ev : TalkEvent) : Node :=
  { n with talk := { n.talk with
    keys := n.talk.keys.set k { n.talk.keys.get k with event := some ev }
    pendingOrder := n.talk.pendingOrder ++ [k] } }

/-- An event that leaves through a slot leaves no trace of its wait. -/
theorem leftThroughSlot_withEvent (n : Node) (i : Fin 8) (k : Fin 4) (ev : TalkEvent) :
    leftThroughSlot (n.withEvent k ev) i k ev = leftThroughSlot n i k ev := by
  have hkeys : (n.withEvent k ev).talk.keys.get k = { n.talk.keys.get k with event := some ev } := Table.get_set_same ..
  unfold leftThroughSlot Node.talkMessage
  rw [hkeys]
  simp [Node.withEvent, set_set, Node.station, Node.keyImage]

/-- An event that leaves into the own queue leaves no trace of its wait. -/
theorem leftToOwnQueue_withEvent (n : Node) (k : Fin 4) (ev : TalkEvent) :
    leftToOwnQueue (n.withEvent k ev) k ev = leftToOwnQueue n k ev := by
  have hkeys : (n.withEvent k ev).talk.keys.get k = { n.talk.keys.get k with event := some ev } := Table.get_set_same ..
  unfold leftToOwnQueue Node.talkMessage
  rw [hkeys]
  simp [Node.withEvent, set_set, Node.station, Node.keyImage]

/-- A slot freed behind an event that left through another is as one freed before it. -/
theorem freed_leftThroughSlot (n : Node) (k : Fin 4) (ev : TalkEvent) {i a : Fin 8} (h : i ≠ a) :
    (leftThroughSlot n a k ev).freed i = leftThroughSlot (n.freed i) a k ev := by
  have hset : ∀ x y : SendSlot, (n.messages.slots.set a x).set i y = (n.messages.slots.set i y).set a x := fun x y => by
    have hval : a.val ≠ i.val := fun e => h (Fin.ext e.symm)
    simp [Table.set, List.set_comm _ _ hval]
  have horder : ([a].filter (· != i)) = [a] := by simp [Ne.symm h]
  unfold leftThroughSlot Node.freed Node.updateMessages Messages.freeUp
  simp only [hset, List.filter_append, horder]
  rfl

/-- The Message Controller's state has moved in its slots and its receive queue alone. -/
def OnlyQueues (a b : Messages) : Prop :=
  b = { a with slots := b.slots, readyOrder := b.readyOrder, queue := b.queue, hold := b.hold }

theorem OnlyQueues.trans {a b c : Messages} (h : OnlyQueues a b) (h' : OnlyQueues b c) : OnlyQueues a c := by
  unfold OnlyQueues at *
  rw [h', h]

theorem placeOneTalk_messages (n : Node) : OnlyQueues n.messages n.placeOneTalk.messages := by
  unfold Node.placeOneTalk
  split
  · split <;> rfl
  · rfl

theorem placeTalk_messages (n : Node) : OnlyQueues n.messages n.placeTalk.messages :=
  (placeOneTalk_messages n).trans (placeOneTalk_messages n.placeOneTalk)

theorem handOwnEvent_messages (n : Node) (k : Fin 4) : OnlyQueues n.messages (n.handOwnEvent k).messages := by
  cases he : (n.talk.keys.get k).event with
  | none =>
    rw [handOwnEvent_stays (.inl he)]
    rfl
  | some ev =>
    cases ho : n.keyIsOwn k
    · rw [handOwnEvent_stays (.inr ho)]
      rfl
    · rw [n.handOwnEvent_eq k ev he ho]
      split <;> rfl

theorem makeEvent_messages (n : Node) (k : Fin 4) (ev : TalkEvent) :
    OnlyQueues n.messages (n.makeEvent k ev).messages := by
  have hset : (n.setEvent k ev).messages = n.messages := by simp
  unfold Node.makeEvent
  split
  · rfl
  · dsimp only
    split
    · exact hset ▸ handOwnEvent_messages (n.setEvent k ev) k
    · exact hset ▸ placeTalk_messages (n.setEvent k ev)

theorem talkSettled_messages (n : Node) (kind tag : Byte) (d : Delivery) :
    OnlyQueues n.messages (n.talkSettled kind tag d).messages := by
  unfold Node.talkSettled Node.reopen
  dsimp only
  split
  · split
    · exact makeEvent_messages _ _ _
    · rfl
  · rfl

/-- A talk slot settled moves no count of the Message Controller. -/
theorem settleSlot_messages {n : Node} {i : Fin 8} {u : FrameUnit} (d : Delivery) (h4 : 4 ≤ i.val) (h6 : i.val < 6)
    (hu : (n.messages.slots.get i).message = some u) : OnlyQueues n.messages (n.settleSlot i d).messages := by
  rw [n.settleSlot_talk i u d h4 h6 hu]
  have hfree : ∀ m : Messages, OnlyQueues m (m.freeUp i) := fun _ => rfl
  exact ((talkSettled_messages n u.kind u.tag d).trans (hfree _)).trans (placeTalk_messages _)

/-- A port slot settled: it is FREE, and its delivery is reported. -/
theorem settleSlot_port {n : Node} {i : Fin 8} {u : FrameUnit} (d : Delivery) (h4 : i.val < 4)
    (hu : (n.messages.slots.get i).message = some u) :
    n.settleSlot i d = { n with
      messages := { n.messages with
        slots := n.messages.slots.set i .free, readyOrder := n.messages.readyOrder.filter (· != i) }
      reports := n.reports.post (.delivery i u.kind u.tag u.destination d) } := by
  unfold Node.settleSlot
  rw [hu]
  simp only [if_pos h4]
  rfl

/-- A reply slot settled: it is FREE, and an answer that was not seen or is lost is counted. -/
theorem settleSlot_reply {n : Node} {i : Fin 8} {u : FrameUnit} (d : Delivery) (h6 : 6 ≤ i.val)
    (hu : (n.messages.slots.get i).message = some u) :
    n.settleSlot i d = { n with messages := { n.messages with
      slots := n.messages.slots.set i .free, readyOrder := n.messages.readyOrder.filter (· != i),
      replyUndelivered := if d = .notSeen ∨ d = .lost then n.messages.replyUndelivered.inc
        else n.messages.replyUndelivered } } := by
  unfold Node.settleSlot
  rw [hu]
  simp only [if_neg (show ¬ i.val < 4 by omega), if_neg (show ¬ i.val < 6 by omega)]
  by_cases h : d = .notSeen ∨ d = .lost
  · rw [if_pos h, if_pos h]
    rfl
  · rw [if_neg h, if_neg h]
    rfl

/-- A talk slot's delivery as the Talkback Controller takes it (R158). -/
theorem talkSettled_made (n : Node) (u : FrameUnit) (d : Delivery) {reported : Node}
    (h : reported = { n with
      reports := if u.kind = kindTalkOpen ∧ (d = .refused ∨ d = .notSeen ∨ d = .lost)
        then n.reports.post (.talk (some (keyOfTag u.tag)) none u.kind (128#8 + d.code) 0#24 0#24) else n.reports }) :
    n.talkSettled u.kind u.tag d
      = if (u.kind = kindTalkOpen ∧ (d = .refused ∨ d = .notSeen ∨ d = .lost))
          ∧ (n.talk.keys.get (keyOfTag u.tag)).pressed = true ∧ (n.talk.keys.get (keyOfTag u.tag)).event = none then
        reported.makeEvent (keyOfTag u.tag) .openTalk else reported := by
  have hcond : (u.kind == kindTalkOpen && (d == .refused || d == .notSeen || d == .lost)) = true
      ↔ u.kind = kindTalkOpen ∧ (d = .refused ∨ d = .notSeen ∨ d = .lost) := by
    simp [or_assoc]
  have hheld : ((n.talk.keys.get (keyOfTag u.tag)).pressed && (n.talk.keys.get (keyOfTag u.tag)).event.isNone) = true
      ↔ (n.talk.keys.get (keyOfTag u.tag)).pressed = true ∧ (n.talk.keys.get (keyOfTag u.tag)).event = none := by
    simp
  unfold Node.talkSettled
  dsimp only
  by_cases hf : u.kind = kindTalkOpen ∧ (d = .refused ∨ d = .notSeen ∨ d = .lost)
  · rw [if_pos hf] at h
    rw [if_pos (hcond.mpr hf), h]
    unfold Node.reopen
    by_cases ha : (n.talk.keys.get (keyOfTag u.tag)).pressed = true ∧ (n.talk.keys.get (keyOfTag u.tag)).event = none
    · exact (if_pos (hheld.mpr ha)).trans (if_pos ⟨hf, ha⟩).symm
    · exact (if_neg fun hc => ha (hheld.mp hc)).trans (if_neg fun hc => ha hc.2).symm
  · rw [if_neg hf] at h
    rw [if_neg fun hc => hf (hcond.mp hc), if_neg fun hc => hf hc.1, h]

/-- An event made behind a report of the Talkback Controller, where no key held one (R156, R157). -/
theorem makeOpen_cases {n : Node} {k : Fin 4} (he : (n.talk.keys.get k).event = none) :
    (n.keyIsOwn k = true → n.makeEvent k .openTalk
        = if n.messages.queue.length < 16 then leftToOwnQueue n k .openTalk else n.withEvent k .openTalk)
      ∧ (n.keyIsOwn k = false →
        ((talkSlots.filter fun i => n.messages.slots.get i == .free) = [] →
            n.makeEvent k .openTalk = n.withEvent k .openTalk)
          ∧ ∀ i, (talkSlots.filter fun i => n.messages.slots.get i == .free) = [i] →
            (n.talk.pendingOrder.filter fun j => !n.keyIsOwn j) = [] →
            n.makeEvent k .openTalk = leftThroughSlot n i k .openTalk) := by
  have h := n.makeEvent_made k .openTalk
  unfold EventMade at h
  have hmade : ({ n with talk := { n.talk with
      keys := n.talk.keys.set k { n.talk.keys.get k with event := some .openTalk },
      pendingOrder := n.talk.pendingOrder ++ [k] } } : Node) = n.withEvent k .openTalk := rfl
  simp only [if_pos he, hmade, reduceCtorEq, false_and, if_false] at h
  refine ⟨fun ho => ?_, fun ho => ?_⟩
  · rw [if_pos ho] at h
    rw [h, leftToOwnQueue_withEvent]
  · rw [if_neg (by rw [ho]; decide)] at h
    refine ⟨fun hf => h.1 (.inl hf), fun i hf hw => ?_⟩
    have hwait : ((n.withEvent k .openTalk).talk.pendingOrder.filter fun j => !n.keyIsOwn j) = [k] := by
      show ((n.talk.pendingOrder ++ [k]).filter fun j => !n.keyIsOwn j) = [k]
      rw [List.filter_append, hw]
      simp [ho]
    have hev : ((n.withEvent k .openTalk).talk.keys.get k).event = some .openTalk := by
      simp [Node.withEvent]
    rw [(h.2 i k [] [] .openTalk hf hwait hev).1 (.inl rfl), leftThroughSlot_withEvent]

/-- Settles O33. -/
theorem slotLostIsSettled : Obligations.SlotLostIsSettled := by
  unfold Obligations.SlotLostIsSettled
  refine ⟨fun s ts i u => ?_, fun n i u d h4 h6 hu => ?_, fun n u => ?_, fun n most => ?_⟩
  · intro n hr ha hi freed
    have hdue : n.due (.slotLost i) = true := by
      have hstands : n.rowStands (.slotLost i) = (n.messages.slots.get i).lost := rfl
      unfold Node.due
      rw [hr, hstands, hi]
      rfl
    have hl := takeRow_takes (.slotLost i) s (.slotLost i) ts rfl ha hdue
    have hdo : s.node.doTask (.slotLost i) = n.loseSlot i := rfl
    have hmessage : ((n.updateMessages fun m => { m with lostSlot := m.lostSlot.inc }).messages.slots.get i).message = some u := by
      show (n.messages.slots.get i).message = some u
      rw [hi]
      rfl
    rw [hdo] at hl
    unfold Node.loseSlot at hl
    refine ⟨fun h4 => ?_, fun h6 => ?_, fun h4 h6 => ⟨_, hl, ?_, rfl, ?_⟩⟩
    · rw [settleSlot_port .lost h4 hmessage] at hl
      exact hl
    · rw [settleSlot_reply .lost h6 hmessage] at hl
      exact hl
    · rw [settleSlot_messages .lost h4 h6 hmessage]
      rfl
    · rw [node_ext_iff]
      simp
  · intro k failed again left other pending made waiting m
    obtain ⟨reported, hrep⟩ : ∃ r : Node, { left with messages := n.messages } = r := ⟨_, rfl⟩
    have hleft : left = reported.freed i := by rw [← hrep]; rfl
    have hpending : pending = (reported.withEvent k .openTalk).freed i := by rw [← hrep]; rfl
    have htalk : reported.talk = n.talk := by rw [← hrep]
    have hmessages : reported.messages = n.messages := by rw [← hrep]
    have hown : ∀ j, reported.keyIsOwn j = n.keyIsOwn j := fun j => by rw [← hrep]; rfl
    have hsettled : n.talkSettled u.kind u.tag d = if again then reported.makeEvent k .openTalk else reported :=
      talkSettled_made n u d hrep.symm
    have hm : m = ((n.talkSettled u.kind u.tag d).freed i).placeTalk := n.settleSlot_talk i u d h4 h6 hu
    have htaken : n.messages.slots.get i ≠ .free := fun h => by rw [h] at hu; exact nomatch hu
    have hfree : (talkSlots.filter fun a => reported.messages.slots.get a == .free)
        = if n.messages.slots.get other = .free then [other] else [] := by
      rw [hmessages]
      exact freeTalkSlots_taken h4 h6 htaken
    have hmade : ¬(again ∧ n.keyIsOwn k = false ∧ n.messages.slots.get other = .free) →
        (n.talkSettled u.kind u.tag d).freed i = made := fun hno => by
      rw [hsettled]
      by_cases ha : again
      · obtain ⟨hopenOwn, hopenOther⟩ := makeOpen_cases (n := reported) (k := k) (by rw [htalk]; exact ha.2.2)
        have hmadeAgain : made = if n.keyIsOwn k = true ∧ n.messages.queue.length < 16 then leftToOwnQueue left k .openTalk
            else pending := if_pos ha
        rw [if_pos ha, hmadeAgain]
        by_cases ho : n.keyIsOwn k = true
        · rw [hopenOwn ((hown k).trans ho), hmessages]
          by_cases hq : n.messages.queue.length < 16
          · rw [if_pos hq, if_pos ⟨ho, hq⟩, hleft]
            rfl
          · rw [if_neg hq, if_neg fun h => hq h.2, hpending]
        · have ho' : n.keyIsOwn k = false := Bool.eq_false_iff.mpr ho
          have hbusy : n.messages.slots.get other ≠ .free := fun h => hno ⟨ha, ho', h⟩
          rw [(hopenOther ((hown k).trans ho')).1 (by rw [hfree, if_neg hbusy]), if_neg fun h => ho h.1, hpending]
      · rw [if_neg ha, ← hleft]
        exact (if_neg ha).symm
    have hreports : m.reports = left.reports := by
      have hplace : m.reports = (n.talkSettled u.kind u.tag d).reports := by
        rw [hm]
        simp [Node.freed]
      rw [hplace, hsettled, ← hrep]
      split <;> simp
    have hthree : (¬again ∧ made = left) ∨ (again ∧ n.keyIsOwn k = true ∧ made = leftToOwnQueue left k .openTalk)
        ∨ (again ∧ made = pending) := by
      by_cases ha : again
      · by_cases ho : n.keyIsOwn k = true ∧ n.messages.queue.length < 16
        · exact .inr (.inl ⟨ha, ho.1, (if_pos ha).trans (if_pos ho)⟩)
        · exact .inr (.inr ⟨ha, (if_pos ha).trans (if_neg ho)⟩)
      · exact .inl ⟨ha, if_neg ha⟩
    have hslots : made.messages.slots = n.messages.slots.set i .free := by
      rcases hthree with ⟨-, h⟩ | ⟨-, -, h⟩ | ⟨-, h⟩ <;> rw [h] <;> rfl
    have hwait : (made.talk.pendingOrder.filter fun j => !made.keyIsOwn j)
        = waiting ++ if again ∧ n.keyIsOwn k = false then [k] else [] := by
      rcases hthree with ⟨ha, h⟩ | ⟨ha, ho, h⟩ | ⟨ha, h⟩ <;> rw [h]
      · rw [if_neg fun hc => ha hc.1, List.append_nil]
        rfl
      · rw [if_neg fun hc => absurd (ho.symm.trans hc.2) (by decide), List.append_nil]
        show ((n.talk.pendingOrder.filter (· != k)).filter fun j => !n.keyIsOwn j) = waiting
        rw [List.filter_filter]
        refine List.filter_congr fun j _ => ?_
        by_cases hj : j = k
        · simp [hj, ho]
        · simp [hj]
      · show ((n.talk.pendingOrder ++ [k]).filter fun j => !n.keyIsOwn j) = _
        rw [List.filter_append]
        by_cases ho : n.keyIsOwn k = true
        · rw [if_neg fun hc => absurd (ho.symm.trans hc.2) (by decide), List.filter_cons_of_neg (by simp [ho])]
          rfl
        · rw [if_pos ⟨ha, Bool.eq_false_iff.mpr ho⟩, List.filter_cons_of_pos (by simp [ho])]
          rfl
    have hkeys : ∀ j, (n.talk.keys.get j).event ≠ none → made.talk.keys.get j = n.talk.keys.get j := fun j hj => by
      rcases hthree with ⟨-, h⟩ | ⟨ha, -, h⟩ | ⟨ha, h⟩ <;> rw [h]
      · exact Table.get_set_other _ _ _ _ fun hk => hj (hk ▸ ha.2.2)
      · exact Table.get_set_other _ _ _ _ fun hk => hj (hk ▸ ha.2.2)
    have hne : i ≠ other := by
      show i ≠ otherTalkSlot i
      unfold otherTalkSlot
      split <;> omega
    have hone : n.messages.slots.get other ≠ .free →
        (talkSlots.filter fun a => made.messages.slots.get a == .free) = [i] := fun hbusy => by
      refine freeTalkSlots_eq h4 h6 (by rw [hslots]; exact Table.get_set_same ..) ?_
      rw [hslots]
      exact fun h => hbusy ((Table.get_set_other _ _ _ _ hne).symm.trans h)
    refine ⟨?_, fun hw ⟨ha, ho⟩ => ?_, fun hw hno => ?_, fun j rest ev hw he hbusy => ?_⟩
    · rw [hreports]
      show (if failed then _ else _) = _
      by_cases hf : failed
      · simp only [if_pos hf]
        rfl
      · simp only [if_neg hf]
        rfl
    · by_cases hbusy : n.messages.slots.get other = .free
      · have hwaits : (reported.talk.pendingOrder.filter fun j => !reported.keyIsOwn j) = [] := by
          rw [htalk]
          simp only [hown]
          exact hw
        have hopen : reported.makeEvent k .openTalk = leftThroughSlot reported other k .openTalk :=
          ((makeOpen_cases (by rw [htalk]; exact ha.2.2)).2 ((hown k).trans ho)).2 other (by rw [hfree, if_pos hbusy]) hwaits
        rw [hm, hsettled, if_pos ha, hopen, if_pos hbusy, freed_leftThroughSlot _ _ _ hne, ← hleft]
        refine placeTalk_none ?_
        show ((n.talk.pendingOrder.filter (· != k)).filter fun j => !n.keyIsOwn j) = []
        rw [List.filter_comm]
        exact (congrArg (List.filter (· != k)) hw).trans rfl
      · have hpend : made = pending := (if_pos ha).trans (if_neg fun h => absurd (ho.symm.trans h.1) (by decide))
        have hleaves : made.placeTalk = leftThroughSlot made i k .openTalk := by
          refine placeTalk_one (rest := []) (hone hbusy) ?_ ?_
          · rw [hwait, hw, if_pos ⟨ha, ho⟩]
            rfl
          · rw [hpend]
            exact congrArg KeyState.event (Table.get_set_same ..)
        have hwith : pending = left.withEvent k .openTalk := rfl
        rw [hm, hmade fun h => hbusy h.2.2, if_neg hbusy, hleaves, hpend, hwith, leftThroughSlot_withEvent]
    · rw [hm, hmade fun h => hno ⟨h.1, h.2.1⟩]
      refine placeTalk_none ?_
      rw [hwait, hw, if_neg hno]
      rfl
    · rw [hm, hmade fun h => hbusy h.2.2]
      refine placeTalk_one (rest := rest ++ if again ∧ n.keyIsOwn k = false then [k] else []) (hone hbusy) ?_ ?_
      · rw [hwait, hw]
        rfl
      · rw [hkeys j (by rw [he]; exact nofun)]
        exact he
  · intro marks
    have hmarks : markDelivery u = marks := by
      unfold markDelivery
      simp only [marks]
      cases u.taken <;> cases u.refused <;> rfl
    refine ⟨fun i v c hslot hflight hkind htag => ?_, fun hno => ?_⟩
    · have hmessage : (n.messages.slots.get i).message = some v := by
        rw [hflight]
        rfl
      have hnat : u.slot.toNat = i.val := by
        rw [hslot]
        show (byteOf i.val).toNat = i.val
        unfold byteOf
        rw [BitVec.toNat_ofNat]
        omega
      have hmatch : n.messages.matching u = some i := by
        have hi : (⟨u.slot.toNat, by omega⟩ : Fin 8) = i := Fin.ext hnat
        unfold Messages.matching
        rw [dif_pos (by omega), hi, hflight]
        simp only [hkind, htag, and_self, if_true]
      have hreturn : n.unitReturns u = n.settleSlot i marks := by
        unfold Node.unitReturns
        rw [hmatch, ← hmarks]
      refine ⟨hreturn, fun h4 => ?_, fun h6 => ?_⟩
      · rw [hreturn, settleSlot_port marks h4 hmessage]
      · have hlost : marks ≠ .lost := by
          rw [← hmarks]
          unfold markDelivery
          cases u.taken <;> cases u.refused <;> decide
        rw [hreturn, settleSlot_reply marks h6 hmessage]
        simp only [hlost, or_false]
    · have hmatch : n.messages.matching u = none := by
        unfold Messages.matching
        split
        · rename_i h
          split
          · rename_i v c hflight
            refine if_neg (hno ⟨u.slot.toNat, h⟩ v c ?_ hflight)
            unfold byteOf
            simp
          · rfl
        · rfl
      unfold Node.unitReturns
      rw [hmatch]
      rfl
  · intro goes order given m
    have hgoes : ∀ i, n.messages.mayGo i = goes i := fun i => by
      unfold Messages.mayGo Messages.peerHolds
      simp only [goes]
      cases n.messages.slots.get i with
      | ready u =>
        cases hd : Station.ofByte u.destination <;> simp only [hd]
        rfl
      | free => rfl
      | reserved => rfl
      | inFlight u c => rfl
    have hkinds : ∀ i : Fin 8, replySlots.contains i = decide (6 ≤ i.val)
        ∧ talkSlots.contains i = (decide (4 ≤ i.val) && decide (i.val < 6)) ∧ portSlots.contains i = decide (i.val < 4) := by
      decide
    have hgiven : n.messages.givingOrder.take most = given := by
      unfold Messages.givingOrder
      simp only [given, order, List.filter_filter, hgoes, fun i => (hkinds i).1, fun i => (hkinds i).2.1,
        fun i => (hkinds i).2.2]
    have hready : ∀ i ∈ given, (n.messages.slots.get i).isReady = true := fun i hi => by
      have hin : i ∈ order := by
        have h := List.mem_of_mem_take hi
        simp only [List.mem_append, List.mem_filter] at h
        tauto
      have hg : goes i = true := (List.mem_filter.mp hin).2
      rw [← hgoes] at hg
      unfold Messages.mayGo at hg
      unfold SendSlot.isReady
      cases hs : n.messages.slots.get i <;> simp_all
    obtain ⟨hslots, horder, hrest⟩ := foldl_launch n.cadence.roundLength given n.messages
    have hm : m.messages = given.foldl (Messages.launch n.cadence.roundLength) n.messages := by
      rw [← hgiven]
      rfl
    rw [← hm] at hslots horder hrest
    refine ⟨?_, fun i hi u hu => ?_, fun i hi => ?_, ?_, ?_⟩
    · rw [← hgiven]
      rfl
    · rw [hslots, if_pos hi, hu]
      rfl
    · rw [hslots, if_neg hi]
    · rw [horder]
      refine List.filter_congr fun i _ => ?_
      by_cases hi : i ∈ given
      · rw [hready i hi, Bool.and_true]
      · simp [hi]
    · have hnode : m = { n with messages := m.messages } := rfl
      rw [hnode, hrest]

end Sys2Proof.Machine
end
section
/-! PROOF. Answers, RESULTs and offered message units (Sections 1.4, 4.5, 9.2). -/

namespace Sys2Proof.Machine

open Sys2Proof Sys2Proof.Safety

/-! ### A request completes (R80, R81) -/

/-- A request answered: it leaves the head, and HOLD is judged. -/
theorem complete_answered {n m : Node} {e : QueueEntry} {r : Reply} (hm : n.answer e r = m) (hg : m.messages.granted = none) :
    n.complete e (some r) = { m with messages := withQueue m.messages m.messages.queue.tail } := by
  have hrelease : m.messages.releaseGrant = m.messages := by
    unfold Messages.releaseGrant
    rw [hg]
  have hcomplete : n.complete e (some r) = (n.answer e r).updateMessages fun m => m.releaseGrant.dequeue := rfl
  rw [hcomplete, hm]
  show { m with messages := m.messages.releaseGrant.dequeue } = _
  rw [hrelease, Messages.dequeue_eq]

/-! ### RESULTs at the desk (R159) -/

/-- A RESULT's tag belongs to a key. -/
theorem keyOfTag_eq {tag : Byte} {k : Fin 4} (h : tag.toNat % 4 = k.val) : keyOfTag tag = k := Fin.ext h

/-- No talk slot holds an OPEN of the key. -/
theorem openInSlot_eq_false_iff (n : Node) (k : Fin 4) :
    n.openInSlot k = false ↔ ∀ i ∈ talkSlots, ∀ v, (n.messages.slots.get i).message = some v →
      ¬(v.kind = 32#8 ∧ v.tag.toNat % 4 = k.val) := by
  unfold Node.openInSlot
  rw [List.any_eq_false]
  refine forall₂_congr fun i _ => ?_
  have hkind : kindTalkOpen = 32#8 := rfl
  cases hm : (n.messages.slots.get i).message with
  | none => simp
  | some v =>
    have hkey : keyOfTag v.tag = k ↔ v.tag.toNat % 4 = k.val := Fin.ext_iff
    simp [hkind, hkey]

/-- A RESULT that the Talkback Controller is given (R159). -/
theorem talkResult_made {n : Node} {u : FrameUnit} {k : Fin 4} (hk : u.tag.toNat % 4 = k.val) :
    n.talkResult u = if (u.byte 6 = 33#8 ∧ u.byte 8 = 8#8) ∧ (n.keyImage k).bound = true ∧ n.openInSlot k = false
        ∧ (n.talk.keys.get k).pressed = true ∧ (n.talk.keys.get k).event = none then
      (n.post (n.resultReport u)).makeEvent k .openTalk else n.post (n.resultReport u) := by
  obtain rfl := keyOfTag_eq hk
  have hasks : (isKeepMiss u && (n.keyImage (keyOfTag u.tag)).bound && !n.openInSlot (keyOfTag u.tag)) = true
      ↔ (u.byte 6 = 33#8 ∧ u.byte 8 = 8#8) ∧ (n.keyImage (keyOfTag u.tag)).bound = true
        ∧ n.openInSlot (keyOfTag u.tag) = false := by
    unfold isKeepMiss
    simp only [Bool.and_eq_true, beq_iff_eq, Bool.not_eq_true', and_assoc]
    exact Iff.rfl
  have hheld : ((n.talk.keys.get (keyOfTag u.tag)).pressed && (n.talk.keys.get (keyOfTag u.tag)).event.isNone) = true
      ↔ (n.talk.keys.get (keyOfTag u.tag)).pressed = true ∧ (n.talk.keys.get (keyOfTag u.tag)).event = none := by
    simp
  have hmade : n.talkResult u = if (isKeepMiss u && (n.keyImage (keyOfTag u.tag)).bound && !n.openInSlot (keyOfTag u.tag)) = true
      then (n.post (n.resultReport u)).reopen (keyOfTag u.tag) else n.post (n.resultReport u) := rfl
  have hreopen : (n.post (n.resultReport u)).reopen (keyOfTag u.tag)
      = if ((n.talk.keys.get (keyOfTag u.tag)).pressed && (n.talk.keys.get (keyOfTag u.tag)).event.isNone) = true
        then (n.post (n.resultReport u)).makeEvent (keyOfTag u.tag) .openTalk else n.post (n.resultReport u) := rfl
  rw [hmade, hreopen]
  simp only [hasks, hheld, ← ite_and, and_assoc]

/-- A RESULT moves no count of the Message Controller. -/
theorem talkResult_messages (n : Node) (u : FrameUnit) : OnlyQueues n.messages (n.talkResult u).messages := by
  rw [talkResult_made (k := keyOfTag u.tag) rfl]
  split
  · exact makeEvent_messages _ _ _
  · rfl

/-! ### Offered units (R14, R77) -/

theorem topFlags_facts (a b : Bool) : (topFlags a b).getLsbD 7 = a ∧ (topFlags a b).getLsbD 6 = b := by
  cases a <;> cases b <;> decide

theorem byte_mark_other (u : FrameUnit) (taken refused : Bool) {i : Nat} (h : i ≠ 5) :
    (u.mark taken refused).byte i = u.byte i := by
  unfold FrameUnit.mark FrameUnit.setByte FrameUnit.byte Table.getD Table.set
  simp [List.getD_eq_getElem?_getD, Ne.symm h]

theorem byte_mark (u : FrameUnit) (taken refused : Bool) :
    (u.mark taken refused).byte 5 = u.byte 5 ||| topFlags taken refused := by
  unfold FrameUnit.mark FrameUnit.setByte FrameUnit.byte
  exact (Table.getD_eq_get _ (5 : Fin 24) _).trans (Table.get_set_same ..)

/-- A unit is addressed to this station: by its number, as ALL, or by a group of which it is a member (R66). -/
theorem isAddressed_iff (n : Node) (u : FrameUnit) :
    n.isAddressed u = true ↔ (∃ p, Station.ofByte u.sender = some p ∧ p ≠ n.station)
      ∧ (u.destination = n.station.byte ∨ u.destination = 255#8
          ∨ ∃ g : Fin 8, u.destination = byteOf (65 + g.val) ∧ n.loader.values.groups.get g = true) := by
  have hgroup : ((65 ≤ u.destination.toNat ∧ u.destination.toNat ≤ 72)
        ∧ n.loader.values.groups.getD (u.destination.toNat - 65) false = true)
      ↔ ∃ g : Fin 8, u.destination = byteOf (65 + g.val) ∧ n.loader.values.groups.get g = true := by
    constructor
    · rintro ⟨hd, hg⟩
      obtain ⟨g, hg'⟩ : ∃ g : Fin 8, g.val = u.destination.toNat - 65 := ⟨⟨u.destination.toNat - 65, by omega⟩, rfl⟩
      refine ⟨g, ?_, ?_⟩
      · unfold byteOf
        rw [hg', show 65 + (u.destination.toNat - 65) = u.destination.toNat by omega, BitVec.ofNat_toNat]
        simp
      · rw [← hg', Table.getD_eq_get] at hg
        exact hg
    · rintro ⟨g, hd, hg⟩
      have hnat : u.destination.toNat = 65 + g.val := by
        rw [hd]
        unfold byteOf
        rw [BitVec.toNat_ofNat]
        omega
      rw [hnat, show 65 + g.val - 65 = g.val by omega, Table.getD_eq_get]
      exact ⟨by omega, hg⟩
  unfold Node.isAddressed Node.isDestination
  cases hs : Station.ofByte u.sender with
  | none => simp
  | some p => simp [← hgroup, or_assoc]

/-- Settles O38. -/
theorem resultGoesToItsSource : Obligations.ResultGoesToItsSource := by
  unfold Obligations.ResultGoesToItsSource
  intro judged
  refine ⟨fun n e r => ?_, fun n e => ?_, fun n u k hk => ?_, fun n u => ?_⟩
  · intro u
    refine ⟨fun s slot g hs hg => ?_, fun s slot hs hg => ?_, fun hs hg => ?_, fun hs hg => ?_⟩
    · have ha : n.answer e r = { n with messages := { n.messages with
          slots := n.messages.slots.set g (.ready
            ((resultUnit n.station s.byte u.tag (byteOf g.val) u.kind slot r.outcome r.detail).placed n.station
              (byteOf g.val))),
          readyOrder := n.messages.readyOrder ++ [g], granted := none } } := by
        unfold Node.answer
        rw [hs, hg]
        rfl
      exact complete_answered ha rfl
    · have ha : n.answer e r = { n with
          reports := n.reports.post (.result (resultUnit n.station s.byte u.tag 255#8 u.kind slot r.outcome r.detail)) } := by
        unfold Node.answer
        rw [hs]
        rfl
      exact complete_answered ha hg
    · have ha : n.answer e r = { n with
          reports := n.reports.post
            (.result (resultUnit n.station n.station.byte u.tag 255#8 u.kind 255#8 r.outcome r.detail)) } := by
        unfold Node.answer
        rw [hs]
        rfl
      exact complete_answered ha hg
    · have ha : n.answer e r = n.talkResult
          (resultUnit n.station n.station.byte u.tag 255#8 u.kind 255#8 r.outcome r.detail) := by
        unfold Node.answer
        rw [hs]
      refine ⟨_, complete_answered ha ?_, rfl⟩
      rw [talkResult_messages]
      exact hg
  · refine ⟨complete_none, fun g hg => ?_⟩
    have hrelease : n.messages.releaseGrant = { n.messages with slots := n.messages.slots.set g .free, granted := none } := by
      unfold Messages.releaseGrant
      rw [hg]
    show ({ n with messages := n.messages.releaseGrant.dequeue } : Node) = _
    rw [hrelease, Messages.dequeue_eq]
  · intro notice miss key reported opens
    have hnotice : isNoticeOutcome (u.byte 8) = true ↔ notice := by
      unfold isNoticeOutcome
      simp only [Bool.or_eq_true, beq_iff_eq]
      exact Iff.rfl
    have hmiss : isKeepMiss u = true ↔ miss := by
      unfold isKeepMiss
      simp only [Bool.and_eq_true, beq_iff_eq]
      exact Iff.rfl
    have hreport : n.post (n.resultReport u) = reported
        (if notice then none else key) (firstMask u) (busyMask u) := by
      have hkey : keyOfTag u.tag = k := keyOfTag_eq hk
      have hnamed : (if !isNoticeOutcome (u.byte 8) && (n.keyImage k).bound then some k else none)
          = if notice then none else key := by
        by_cases hn : notice
        · rw [hnotice.mpr hn, if_pos hn]
          rfl
        · rw [Bool.eq_false_iff.mpr fun h => hn (hnotice.mp h), if_neg hn]
          rfl
      unfold Node.resultReport
      simp only [hkey, hnamed]
      rfl
    have hmade := talkResult_made (n := n) hk
    have hfirst : notice ∨ u.byte 6 = 32#8 ∨ miss → firstMask u = u.field24 9 := fun h =>
      if_pos (h.imp hnotice.mpr (Or.imp_right hmiss.mpr))
    have hbusy : ¬(u.byte 6 = 32#8 ∧ ¬notice) → busyMask u = 0#24 := fun h =>
      if_neg fun hc => h ⟨hc.1, fun hn => by rw [hnotice.mpr hn] at hc; exact nomatch hc.2⟩
    have hnot : miss → ¬notice := fun hm hn => by
      rcases hn with h | h <;> exact absurd (hm.2.symm.trans h) (by decide)
    refine ⟨fun hn => ?_, fun hn h6 => ?_, fun hm => ⟨fun ho => ?_, fun ho => ?_⟩, fun hn h6 hm => ?_⟩
    · have hm : ¬miss := fun hm => hnot hm hn
      rw [hmade, if_neg fun h => hm h.1, hreport, if_pos hn, hfirst (.inl hn), hbusy fun h => h.2 hn]
    · have hm : ¬miss := fun hm => absurd (hm.1.symm.trans h6) (by decide)
      have hb : busyMask u = u.field24 12 := if_pos ⟨h6, Bool.eq_false_iff.mpr fun h => hn (hnotice.mp h)⟩
      rw [hmade, if_neg fun h => hm h.1, hreport, if_neg hn, hfirst (.inr (.inl h6)), hb]
    · have hn := hnot hm
      have hr : n.post (n.resultReport u) = reported key (u.field24 9) 0#24 := by
        rw [hreport, if_neg hn, hfirst (.inr (.inr hm)), hbusy fun h => absurd (hm.1.symm.trans h.1) (by decide)]
      obtain ⟨hbound, hpressed, hevent, hslots⟩ := ho
      rw [hmade, if_pos ⟨hm, hbound, (openInSlot_eq_false_iff n k).mpr hslots, hpressed, hevent⟩, hr]
      exact Node.makeEvent_made _ k .openTalk
    · have hn := hnot hm
      rw [hmade, if_neg fun h => ho ⟨h.2.1, h.2.2.2.1, h.2.2.2.2, (openInSlot_eq_false_iff n k).mp h.2.2.1⟩, hreport,
        if_neg hn, hfirst (.inr (.inr hm)), hbusy fun h => absurd (hm.1.symm.trans h.1) (by decide)]
    · have hf : firstMask u = 0#24 := if_neg fun h => by
        rcases h with h | h | h
        · exact hn (hnotice.mp h)
        · exact h6 h
        · exact hm (hmiss.mp h)
      rw [hmade, if_neg fun h => hm h.1, hreport, if_neg hn, hf, hbusy fun h => h6 h.1]
  · intro talk addressed
    have haddressed : n.isAddressed u = true ↔ addressed := isAddressed_iff n u
    have htalk : isTalkResult u = true ↔ talk := by
      unfold isTalkResult isNoticeOutcome
      simp only [Bool.or_eq_true, beq_iff_eq, or_assoc]
      exact Iff.rfl
    have hoffer : addressed → n.offerUnit u = (u.mark (n.offer u).1 (!(n.offer u).1), (n.offer u).2) := fun h => by
      unfold Node.offerUnit
      rw [if_pos (haddressed.mpr h)]
    refine ⟨fun h => ?_, fun h hk hd => ?_, fun h hk hd => ?_, fun h hk hd => ⟨fun ht => ?_, fun ht => ?_⟩,
      fun h hk => ⟨fun hq => ?_, fun p hp hq => ?_⟩, fun taken refused => ⟨⟨?_, ?_⟩, fun i hi => byte_mark_other u taken refused hi⟩⟩
    · unfold Node.offerUnit
      rw [if_neg fun hc => h (haddressed.mp hc)]
    · have ho : n.offer u = (false, { n with messages := { n.messages with badMessage := n.messages.badMessage.inc } }) := by
        unfold Node.offer
        rw [if_pos hk, if_neg hd]
        rfl
      rw [hoffer h, ho]
      rfl
    · have ho : n.offer u = (true, { n with reports := n.reports.post (.statusReport u) }) := by
        unfold Node.offer Node.routeAnswer
        rw [if_pos (by rw [hk]; decide), if_pos hd, if_pos hk]
        rfl
      rw [hoffer h, ho]
      rfl
    · have ho : n.offer u = (true, n.talkResult u) := by
        unfold Node.offer Node.routeAnswer
        rw [if_pos (by rw [hk]; decide), if_pos hd, if_neg (by rw [hk]; decide), if_pos (htalk.mpr ht)]
      rw [hoffer h, ho]
      rfl
    · have ho : n.offer u = (true, { n with reports := n.reports.post (.result u) }) := by
        unfold Node.offer Node.routeAnswer
        rw [if_pos (by rw [hk]; decide), if_pos hd, if_neg (by rw [hk]; decide), if_neg fun hc => ht (htalk.mp hc)]
        rfl
      rw [hoffer h, ho]
      rfl
    · have ⟨⟨p, hp, _⟩, _⟩ := h
      have ho : n.offer u
          = (false, { n with messages := { n.messages with queueRefusal := n.messages.queueRefusal.inc } }) := by
        unfold Node.offer
        rw [if_neg (by rw [hk]; decide), hp]
        simp only [Messages.enqueue_eq, if_neg (Nat.not_lt.mpr hq)]
        rfl
      rw [hoffer h, ho]
      rfl
    · have ho : n.offer u = (true, { n with
          messages := withQueue n.messages (n.messages.queue ++ [{ message := u, source := .ring p u.slot }]) }) := by
        unfold Node.offer
        rw [if_neg (by rw [hk]; decide), hp]
        simp only [Messages.enqueue_eq, if_pos hq]
      rw [hoffer h, ho]
      rfl
    · unfold FrameUnit.taken
      rw [byte_mark, BitVec.getLsbD_or, (topFlags_facts taken refused).1]
    · unfold FrameUnit.refused
      rw [byte_mark, BitVec.getLsbD_or, (topFlags_facts taken refused).2]

end Sys2Proof.Machine
end
section
/-! PROOF. The start of the blocks behind a load, and the ring restart (Sections 3.5, 4.6, 11.6). -/

namespace Sys2Proof.Machine

open Sys2Proof Sys2Proof.Safety

/-! ### LOAD_FINISHED (R185) -/

/-- A side as it begins to work (R45, R47, R48). -/
def SideState.started (x : SideState) (holdOff : Nat) : SideState :=
  if x.lock && x.link == .down then
    { x with badRun := 0, silence := 0, heard := false, latest := none, beaconDue := true, link := .proving
             holdOff := some (holdOff * 250) }
  else if x.lock then { x with badRun := 0, silence := 0, heard := false, latest := none, beaconDue := true }
  else { x with beaconDue := true }

/-- A side begins to work, with a link report where its receiver holds lock in DOWN. -/
theorem startSide_made (n : Node) (side : Side) :
    n.startSide side = { n with
      link := n.link.setSide side ((n.side side).started n.loader.values.linkHoldOff)
      reports := (if (n.side side).lock && (n.side side).link == .down
        then [ReportBody.link side .proving .lockGained none] else []).foldl ReportQueue.post n.reports } := by
  obtain ⟨loader, ⟨east, west, fold, foldChange, earlyUnfold, quiet⟩, cadence, engine, messages, taps, router, mixer, talk,
    reports, port⟩ := n
  cases side
  · obtain ⟨lock, link, holdOff, badRun, silence, heard, latest, badEvidence, linkDown, beaconDue, sent⟩ := east
    cases lock <;> cases link <;> rfl
  · obtain ⟨lock, link, holdOff, badRun, silence, heard, latest, badEvidence, linkDown, beaconDue, sent⟩ := west
    cases lock <;> cases link <;> rfl

/-- Settles O6. -/
theorem loadFinishedStartsTheBlocks : Obligations.LoadFinishedStartsTheBlocks := by
  unfold Obligations.LoadFinishedStartsTheBlocks
  intro flash straps s n l cleared proves started reported hr
  have hl := act_leaves (.loadFinished flash straps) s
    (fun n => if n.loader.state = .reading then n.finishLoad flash straps else n) rfl
  rw [if_pos hr] at hl
  refine ⟨_, hl, ?_⟩
  unfold Node.finishLoad
  dsimp only
  rw [startSide_made, startSide_made]
  refine ⟨rfl, rfl, rfl, rfl, rfl, rfl, fun x => ?_, ?_, ?_, rfl⟩
  · exact Table.get_ofFn ..
  · exact (List.foldl_append (f := ReportQueue.post)).symm
  · rfl

/-! ### The links, the cadence and the taps at a ring restart (R42, R64, R124) -/

/-- The link reports of a side that a ring restart takes DOWN. -/
def SideState.restartReports (x : SideState) (side : Side) : List ReportBody :=
  if x.link = .down then [] else [.link side .down .restart (x.latest.map fun b => (b.sender, b.fold))]

/-- A side at a ring restart. -/
def SideState.restarted (x : SideState) : SideState :=
  { x with link := .down, holdOff := none, badRun := 0, silence := 0, heard := false, latest := none }

theorem restartSide_made (n : Node) (side : Side) :
    n.restartSide side = { n with
      link := n.link.setSide side (n.side side).restarted
      reports := ((n.side side).restartReports side).foldl ReportQueue.post n.reports } := by
  obtain ⟨loader, ⟨east, west, fold, foldChange, earlyUnfold, quiet⟩, cadence, engine, messages, taps, router, mixer, talk,
    reports, port⟩ := n
  cases side
  · obtain ⟨lock, link, holdOff, badRun, silence, heard, latest, badEvidence, linkDown, beaconDue, sent⟩ := east
    cases link <;> rfl
  · obtain ⟨lock, link, holdOff, badRun, silence, heard, latest, badEvidence, linkDown, beaconDue, sent⟩ := west
    cases link <;> rfl

theorem restartLinks_made (n : Node) :
    n.restartLinks = { n with
      link := { n.link with
        east := n.link.east.restarted, west := n.link.west.restarted, fold := .isolated, quiet := some 24 }
      reports := (n.link.east.restartReports .east ++ n.link.west.restartReports .west
        ++ if n.link.fold = .isolated then [] else [ReportBody.fold .isolated n.link.fold none false]).foldl
          ReportQueue.post n.reports } := by
  unfold Node.restartLinks
  dsimp only
  rw [restartSide_made, restartSide_made, List.foldl_append, List.foldl_append]
  by_cases hf : n.link.fold = .isolated
  · rw [if_pos hf, if_pos hf]
    exact hf ▸ rfl
  · rw [if_neg hf, if_neg hf]
    rfl

theorem restartTaps_made (n : Node) :
    n.restartTaps = { n with
      taps := { n.taps with
        entries := n.taps.entries.map (Option.map TapEntry.restart)
        pEff := n.loader.values.delay, raise := none, windowCount := 0, largestAge := none }
      reports := (if n.taps.pEff = n.loader.values.delay then []
        else [ReportBody.delayChanged n.loader.values.delay n.taps.pEff .restart]).foldl ReportQueue.post n.reports } := by
  unfold Node.restartTaps
  dsimp only
  by_cases hp : n.taps.pEff = n.loader.values.delay
  · rw [if_pos hp, if_pos hp, ← hp]
    rfl
  · rw [if_neg hp, if_neg hp]
    rfl

/-! ### The slots settled at a ring restart (R85) -/

/-- The delivery report of a port slot that is settled LOST. -/
def Messages.lostReport (m : Messages) (i : Fin 8) : Option ReportBody :=
  (m.slots.get i).message.map fun u => .delivery i u.kind u.tag u.destination .lost

/-- Port slots that hold messages, settled LOST one after the other. -/
theorem settlePorts_made {l : List (Fin 8)} (hn : l.Nodup) {n : Node}
    (hl : ∀ i ∈ l, i.val < 4 ∧ (n.messages.slots.get i).message.isSome = true) :
    let r := l.foldl (fun (x : Node) i => x.settleSlot i .lost) n
    (∀ j, r.messages.slots.get j = if j ∈ l then .free else n.messages.slots.get j)
      ∧ r.messages.readyOrder = n.messages.readyOrder.filter (fun j => !l.contains j)
      ∧ r.reports = (l.filterMap n.messages.lostReport).foldl ReportQueue.post n.reports
      ∧ r = { n with
          messages := { n.messages with slots := r.messages.slots, readyOrder := r.messages.readyOrder }
          reports := r.reports } := by
  induction l generalizing n with
  | nil => simp
  | cons i l ih =>
    obtain ⟨hi, hl'⟩ := List.nodup_cons.mp hn
    obtain ⟨h4, hsome⟩ := hl i List.mem_cons_self
    obtain ⟨u, hu⟩ := Option.isSome_iff_exists.mp hsome
    have hmade := settleSlot_port .lost h4 hu
    have hother : ∀ j, j ≠ i → (n.settleSlot i .lost).messages.slots.get j = n.messages.slots.get j := fun j hj => by
      rw [hmade]
      exact Table.get_set_other _ _ _ _ (Ne.symm hj)
    have hne : ∀ j ∈ l, j ≠ i := fun j hj h => hi (h ▸ hj)
    obtain ⟨hslots, horder, hreports, hrest⟩ := ih hl' (n := n.settleSlot i .lost) fun j hj => by
      rw [hother j (hne j hj)]
      exact hl j (List.mem_cons_of_mem _ hj)
    have hlost : l.filterMap (n.settleSlot i .lost).messages.lostReport = l.filterMap n.messages.lostReport :=
      List.filterMap_congr fun j hj => by
        unfold Messages.lostReport
        rw [hother j (hne j hj)]
    have hhead : n.messages.lostReport i = some (.delivery i u.kind u.tag u.destination .lost) := by
      unfold Messages.lostReport
      rw [hu]
      rfl
    simp only [List.foldl_cons]
    refine ⟨fun j => ?_, ?_, ?_, ?_⟩
    · rw [hslots]
      by_cases hj : j = i
      · subst hj
        rw [if_neg hi, if_pos List.mem_cons_self, hmade]
        exact Table.get_set_same ..
      · rw [hother j hj]
        simp [hj]
    · rw [horder, hmade, List.filter_filter]
      refine List.filter_congr fun j _ => ?_
      by_cases hj : j = i <;> simp [hj, hi]
    · rw [hreports, hlost, List.filterMap_cons_some hhead, hmade]
      rfl
    · rw [hrest, hmade]

/-- Only FREE talk slots have been filled. -/
def TalkFilled (a b : Messages) : Prop :=
  ∀ i, (a.slots.get i ≠ .free ∨ i ∉ talkSlots) → b.slots.get i = a.slots.get i

theorem TalkFilled.trans {a b c : Messages} (h : TalkFilled a b) (h' : TalkFilled b c) : TalkFilled a c := fun i hi =>
  (h' i (hi.imp_left fun hf => by rwa [h i hi])).trans (h i hi)

theorem placeOneTalk_filled (n : Node) : TalkFilled n.messages n.placeOneTalk.messages := by
  unfold Node.placeOneTalk
  split
  · rename_i i k hi hk
    split
    · intro j hj
      have hfree : n.messages.slots.get i = .free := by
        have h := List.find?_some hi
        simpa using h
      have hmem : i ∈ talkSlots := List.mem_of_find?_eq_some hi
      have hne : i ≠ j := fun h => hj.elim (fun hf => hf (h ▸ hfree)) fun ht => ht (h ▸ hmem)
      exact Table.get_set_other _ _ _ _ hne
    · exact fun _ _ => rfl
  · exact fun _ _ => rfl

theorem placeTalk_filled (n : Node) : TalkFilled n.messages n.placeTalk.messages :=
  (placeOneTalk_filled n).trans (placeOneTalk_filled n.placeOneTalk)

theorem handOwnEvent_slots (n : Node) (k : Fin 4) : (n.handOwnEvent k).messages.slots = n.messages.slots := by
  cases he : (n.talk.keys.get k).event with
  | none => rw [handOwnEvent_stays (.inl he)]
  | some ev =>
    cases ho : n.keyIsOwn k
    · rw [handOwnEvent_stays (.inr ho)]
    · rw [n.handOwnEvent_eq k ev he ho]
      split <;> rfl

theorem makeEvent_filled (n : Node) (k : Fin 4) (ev : TalkEvent) : TalkFilled n.messages (n.makeEvent k ev).messages := by
  have hset : (n.setEvent k ev).messages = n.messages := by simp
  unfold Node.makeEvent
  split
  · exact fun _ _ => rfl
  · dsimp only
    split
    · exact fun i _ => by rw [handOwnEvent_slots, hset]
    · exact hset ▸ placeTalk_filled (n.setEvent k ev)

theorem talkSettled_filled (n : Node) (kind tag : Byte) (d : Delivery) :
    TalkFilled n.messages (n.talkSettled kind tag d).messages := by
  unfold Node.talkSettled Node.reopen
  dsimp only
  split
  · split
    · exact makeEvent_filled (n.post _) _ _
    · exact fun _ _ => rfl
  · exact fun _ _ => rfl

/-- A talk slot settled leaves each other slot that is taken, or that is no talk slot. -/
theorem settleSlot_other {n : Node} {i j : Fin 8} (d : Delivery) (h4 : 4 ≤ i.val) (h6 : i.val < 6) (hne : j ≠ i)
    (hj : n.messages.slots.get j ≠ .free ∨ j ∉ talkSlots) :
    (n.settleSlot i d).messages.slots.get j = n.messages.slots.get j := by
  cases hu : (n.messages.slots.get i).message with
  | none =>
    unfold Node.settleSlot
    rw [hu]
  | some u =>
    have hsettled := talkSettled_filled n u.kind u.tag d j hj
    have hfreed : ((n.talkSettled u.kind u.tag d).freed i).messages.slots.get j = n.messages.slots.get j :=
      (Table.get_set_other _ _ _ _ (Ne.symm hne)).trans hsettled
    rw [n.settleSlot_talk i u d h4 h6 hu]
    exact (placeTalk_filled ((n.talkSettled u.kind u.tag d).freed i) j (hj.imp_left fun hf => by rwa [hfreed])).trans hfreed

theorem talkSlot_bounds : ∀ i ∈ talkSlots, 4 ≤ i.val ∧ i.val < 6 := by decide

/-- Two parts whose talk slots, keys and receive queues are the same, and whose ready orders differ in port slots alone. -/
structure SameTalk (p : Fin 8 → Bool) (a b : Node) : Prop where
  talk : b.talk = a.talk
  loader : b.loader = a.loader
  queue : b.messages.queue = a.messages.queue
  slots : ∀ i ∈ talkSlots, b.messages.slots.get i = a.messages.slots.get i
  order : b.messages.readyOrder = a.messages.readyOrder.filter p

section SameTalk

variable {p : Fin 8 → Bool} {a b : Node}

theorem SameTalk.keyIsOwn (h : SameTalk p a b) (k : Fin 4) : b.keyIsOwn k = a.keyIsOwn k := by
  unfold Node.keyIsOwn Node.keyImage Node.station
  rw [h.loader]

theorem SameTalk.talkMessage (h : SameTalk p a b) (k : Fin 4) (ev : TalkEvent) : b.talkMessage k ev = a.talkMessage k ev := by
  unfold Node.talkMessage Node.keyImage Node.station
  rw [h.loader, h.talk]

theorem SameTalk.station (h : SameTalk p a b) : b.station = a.station := by
  unfold Node.station
  rw [h.loader]

theorem SameTalk.post (h : SameTalk p a b) (x y : ReportBody) : SameTalk p (a.post x) (b.post y) :=
  ⟨h.talk, h.loader, h.queue, h.slots, h.order⟩

theorem SameTalk.freeSlot (h : SameTalk p a b) : b.messages.freeSlot talkSlots = a.messages.freeSlot talkSlots := by
  rw [Messages.freeSlot_eq, Messages.freeSlot_eq]
  refine congrArg List.head? (List.filter_congr fun i hi => ?_)
  rw [h.slots i hi]

theorem SameTalk.leaves (h : SameTalk p a b) (k : Fin 4) (hk : (a.eventLeaves k).talk = (b.eventLeaves k).talk) :
    SameTalk p (a.eventLeaves k) (b.eventLeaves k) := ⟨hk.symm, h.loader, h.queue, h.slots, h.order⟩

theorem SameTalk.placeOneTalk (h : SameTalk p a b) (hp : ∀ i ∈ talkSlots, p i = true) :
    SameTalk p a.placeOneTalk b.placeOneTalk := by
  unfold Node.placeOneTalk
  have hown : (fun k => !b.keyIsOwn k) = fun k => !a.keyIsOwn k := funext fun k => by rw [h.keyIsOwn]
  rw [h.freeSlot, h.talk, hown]
  cases hi : a.messages.freeSlot talkSlots with
  | none => exact h
  | some i =>
    cases hk : a.talk.pendingOrder.find? fun k => !a.keyIsOwn k with
    | none => exact h
    | some k =>
      cases he : (a.talk.keys.get k).event with
      | none => simpa only [he] using h
      | some ev =>
        simp only [he]
        have hmem : i ∈ talkSlots := List.mem_of_find?_eq_some hi
        have hsame : SameTalk p (a.placeMessage i (a.talkMessage k ev)) (b.placeMessage i (b.talkMessage k ev)) := by
          refine ⟨h.talk, h.loader, h.queue, fun j hj => ?_, ?_⟩
          · show (b.messages.slots.set i _).get j = (a.messages.slots.set i _).get j
            rw [h.talkMessage, h.station]
            by_cases hji : i = j
            · subst hji
              rw [Table.get_set_same, Table.get_set_same]
            · rw [Table.get_set_other _ _ _ _ hji, Table.get_set_other _ _ _ _ hji]
              exact h.slots j hj
          · show b.messages.readyOrder ++ [i] = (a.messages.readyOrder ++ [i]).filter p
            rw [List.filter_append, h.order, List.filter_cons_of_pos (hp i hmem)]
            rfl
        refine hsame.leaves k ?_
        show (a.eventLeaves k).talk = (b.eventLeaves k).talk
        unfold Node.eventLeaves Node.updateKey
        rw [h.talk]

theorem SameTalk.placeTalk (h : SameTalk p a b) (hp : ∀ i ∈ talkSlots, p i = true) : SameTalk p a.placeTalk b.placeTalk :=
  (h.placeOneTalk hp).placeOneTalk hp

theorem SameTalk.handOwnEvent (h : SameTalk p a b) (k : Fin 4) : SameTalk p (a.handOwnEvent k) (b.handOwnEvent k) := by
  cases he : (a.talk.keys.get k).event with
  | none =>
    rw [handOwnEvent_stays (.inl he), handOwnEvent_stays (.inl (by rw [h.talk]; exact he))]
    exact h
  | some ev =>
    cases ho : a.keyIsOwn k
    · rw [handOwnEvent_stays (.inr ho), handOwnEvent_stays (.inr ((h.keyIsOwn k).trans ho))]
      exact h
    · rw [a.handOwnEvent_eq k ev he ho, b.handOwnEvent_eq k ev (by rw [h.talk]; exact he) ((h.keyIsOwn k).trans ho), h.queue]
      by_cases hq : a.messages.queue.length < 16
      · rw [if_pos hq, if_pos hq]
        refine ⟨?_, h.loader, ?_, h.slots, h.order⟩
        · unfold leftToOwnQueue
          rw [h.talk]
        · unfold leftToOwnQueue withQueue
          rw [h.talkMessage, h.station, h.queue]
      · rw [if_neg hq, if_neg hq]
        exact h

theorem SameTalk.makeEvent (h : SameTalk p a b) (hp : ∀ i ∈ talkSlots, p i = true) (k : Fin 4) (ev : TalkEvent) :
    SameTalk p (a.makeEvent k ev) (b.makeEvent k ev) := by
  have hset : SameTalk p (a.setEvent k ev) (b.setEvent k ev) := by
    refine ⟨?_, by simpa using h.loader, by simpa using h.queue, by simpa using h.slots, by simpa using h.order⟩
    unfold Node.setEvent Node.updateKey
    rw [h.talk]
    dsimp only
    split <;> rfl
  unfold Node.makeEvent
  dsimp only
  rw [h.talk, hset.keyIsOwn]
  split
  · exact h
  · split
    · exact hset.handOwnEvent k
    · exact hset.placeTalk hp

theorem SameTalk.settleSlot (h : SameTalk p a b) (hp : ∀ i ∈ talkSlots, p i = true) {i : Fin 8} (hi : i ∈ talkSlots)
    (d : Delivery) : SameTalk p (a.settleSlot i d) (b.settleSlot i d) := by
  have h46 := talkSlot_bounds i hi
  cases hu : (a.messages.slots.get i).message with
  | none =>
    have hu' : (b.messages.slots.get i).message = none := by rw [h.slots i hi, hu]
    unfold Node.settleSlot
    rw [hu, hu']
    exact h
  | some u =>
    have hu' : (b.messages.slots.get i).message = some u := by rw [h.slots i hi, hu]
    rw [a.settleSlot_talk i u d h46.1 h46.2 hu, b.settleSlot_talk i u d h46.1 h46.2 hu']
    have hsettled : SameTalk p (a.talkSettled u.kind u.tag d) (b.talkSettled u.kind u.tag d) := by
      have hpost := h.post (.talk (some (keyOfTag u.tag)) none u.kind (128#8 + d.code) 0#24 0#24)
        (.talk (some (keyOfTag u.tag)) none u.kind (128#8 + d.code) 0#24 0#24)
      unfold Node.talkSettled Node.reopen
      dsimp only
      rw [hpost.talk]
      split
      · split
        · exact hpost.makeEvent hp _ _
        · exact hpost
      · exact h
    have hfreed : SameTalk p ((a.talkSettled u.kind u.tag d).freed i) ((b.talkSettled u.kind u.tag d).freed i) := by
      refine ⟨hsettled.talk, hsettled.loader, hsettled.queue, fun j hj => ?_, ?_⟩
      · show (Table.set _ i _).get j = (Table.set _ i _).get j
        by_cases hji : i = j
        · subst hji
          rw [Table.get_set_same, Table.get_set_same]
        · rw [Table.get_set_other _ _ _ _ hji, Table.get_set_other _ _ _ _ hji]
          exact hsettled.slots j hj
      · show List.filter _ _ = List.filter _ (List.filter _ _)
        rw [hsettled.order, List.filter_comm]
    exact hfreed.placeTalk hp

theorem SameTalk.settleAll (h : SameTalk p a b) (hp : ∀ i ∈ talkSlots, p i = true) {l : List (Fin 8)}
    (hl : ∀ i ∈ l, i ∈ talkSlots) (d : Delivery) :
    SameTalk p (l.foldl (fun x i => x.settleSlot i d) a) (l.foldl (fun x i => x.settleSlot i d) b) := by
  induction l generalizing a b with
  | nil => exact h
  | cons i l ih =>
    exact ih (h.settleSlot hp (hl i List.mem_cons_self) d) fun j hj => hl j (List.mem_cons_of_mem _ hj)

end SameTalk

/-- The receive queue has grown at its tail. -/
def QueueGrown (a b : Node) : Prop := a.messages.queue <+: b.messages.queue

theorem placeOneTalk_queue (n : Node) : n.placeOneTalk.messages.queue = n.messages.queue := by
  unfold Node.placeOneTalk
  split
  · split <;> rfl
  · rfl

theorem placeTalk_queue (n : Node) : n.placeTalk.messages.queue = n.messages.queue :=
  (placeOneTalk_queue n.placeOneTalk).trans (placeOneTalk_queue n)

theorem handOwnEvent_grown (n : Node) (k : Fin 4) : QueueGrown n (n.handOwnEvent k) := by
  cases he : (n.talk.keys.get k).event with
  | none =>
    rw [handOwnEvent_stays (.inl he)]
    exact List.prefix_rfl
  | some ev =>
    cases ho : n.keyIsOwn k
    · rw [handOwnEvent_stays (.inr ho)]
      exact List.prefix_rfl
    · rw [n.handOwnEvent_eq k ev he ho]
      split
      · exact List.prefix_append _ _
      · exact List.prefix_rfl

theorem makeEvent_grown (n : Node) (k : Fin 4) (ev : TalkEvent) : QueueGrown n (n.makeEvent k ev) := by
  have hset : (n.setEvent k ev).messages = n.messages := by simp
  unfold QueueGrown Node.makeEvent
  split
  · exact List.prefix_rfl
  · dsimp only
    split
    · exact hset ▸ handOwnEvent_grown (n.setEvent k ev) k
    · rw [placeTalk_queue, hset]

theorem talkSettled_grown (n : Node) (kind tag : Byte) (d : Delivery) : QueueGrown n (n.talkSettled kind tag d) := by
  unfold QueueGrown Node.talkSettled Node.reopen
  dsimp only
  split
  · split
    · exact makeEvent_grown (n.post _) _ _
    · exact List.prefix_rfl
  · exact List.prefix_rfl

/-- The talk report of a talk slot that is settled LOST (R158). -/
def Messages.lostTalk (m : Messages) (i : Fin 8) : Option ReportBody :=
  (m.slots.get i).message.bind fun u =>
    if u.kind = kindTalkOpen then some (.talk (some (keyOfTag u.tag)) none u.kind 133#8 0#24 0#24) else none

/-- A talk slot settled LOST is reported where it held an OPEN. -/
theorem settleSlot_lostTalk {n : Node} {i : Fin 8} {u : FrameUnit} (h4 : 4 ≤ i.val) (h6 : i.val < 6)
    (hu : (n.messages.slots.get i).message = some u) :
    (n.settleSlot i .lost).reports = (n.messages.lostTalk i).toList.foldl ReportQueue.post n.reports := by
  have hreports : (n.settleSlot i .lost).reports = (n.talkSettled u.kind u.tag .lost).reports := by
    rw [n.settleSlot_talk i u .lost h4 h6 hu]
    simp
  rw [hreports, talkSettled_made n u .lost rfl]
  unfold Messages.lostTalk
  rw [hu]
  by_cases hk : u.kind = kindTalkOpen
  · split <;> simp [hk] <;> rfl
  · split <;> simp [hk]

/-- Talk slots that hold messages, settled LOST one after the other. -/
theorem settleTalks_made {l : List (Fin 8)} (hn : l.Nodup) {n : Node}
    (hl : ∀ i ∈ l, i ∈ talkSlots ∧ (n.messages.slots.get i).message.isSome = true) :
    let r := l.foldl (fun (x : Node) i => x.settleSlot i .lost) n
    (∀ j, j ∉ talkSlots → r.messages.slots.get j = n.messages.slots.get j)
      ∧ r.reports = (l.filterMap n.messages.lostTalk).foldl ReportQueue.post n.reports
      ∧ OnlyQueues n.messages r.messages ∧ QueueGrown n r
      ∧ r = { n with messages := r.messages, talk := r.talk, reports := r.reports } := by
  induction l generalizing n with
  | nil => exact ⟨fun _ _ => rfl, rfl, rfl, List.prefix_rfl, rfl⟩
  | cons i l ih =>
    obtain ⟨hi, hl'⟩ := List.nodup_cons.mp hn
    obtain ⟨hmem, hsome⟩ := hl i List.mem_cons_self
    obtain ⟨u, hu⟩ := Option.isSome_iff_exists.mp hsome
    obtain ⟨h4, h6⟩ := talkSlot_bounds i hmem
    have hne : ∀ j ∈ l, j ≠ i := fun j hj h => hi (h ▸ hj)
    have hkept : ∀ j ∈ l, (n.settleSlot i .lost).messages.slots.get j = n.messages.slots.get j := fun j hj =>
      settleSlot_other .lost h4 h6 (hne j hj) (.inl fun hf => by
        have hsome := (hl j (List.mem_cons_of_mem _ hj)).2
        rw [hf] at hsome
        exact nomatch hsome)
    obtain ⟨hslots, hreports, hcounts, hqueue, hrest⟩ := ih hl' (n := n.settleSlot i .lost) fun j hj => by
      rw [hkept j hj]
      exact hl j (List.mem_cons_of_mem _ hj)
    have hlost : l.filterMap (n.settleSlot i .lost).messages.lostTalk = l.filterMap n.messages.lostTalk :=
      List.filterMap_congr fun j hj => by
        unfold Messages.lostTalk
        rw [hkept j hj]
    have hgrown : QueueGrown n (n.settleSlot i .lost) := by
      unfold QueueGrown
      rw [n.settleSlot_talk i u .lost h4 h6 hu, placeTalk_queue]
      exact talkSettled_grown n u.kind u.tag .lost
    simp only [List.foldl_cons]
    refine ⟨fun j hj => ?_, ?_, (settleSlot_messages .lost h4 h6 hu).trans hcounts, hgrown.trans hqueue, ?_⟩
    · exact (hslots j hj).trans (settleSlot_other .lost h4 h6 (fun h => hj (h ▸ hmem)) (.inr hj))
    · rw [hreports, hlost, settleSlot_lostTalk h4 h6 hu, ← List.foldl_append, List.filterMap_cons]
      cases n.messages.lostTalk i <;> rfl
    · rw [node_ext_iff] at hrest ⊢
      simpa using hrest

/-! ### The Message Controller's ring restart (R85) -/

/-- Steps 3 and 4 of R85. -/
theorem restartMessages_eq (m : Messages) :
    m.restart = { m with
      slots := (m.slots.set 6 .free).set 7 .free
      readyOrder := (m.readyOrder.filter (· != 6)).filter (· != 7)
      granted := none
      queue := if m.carrying = .idle then [] else (m.queue.take 1).map QueueEntry.detach
      notices := [], hold := false, peers := Table.replicate 16 { hold := false, count := 0 } } := rfl

/-- The head of a STATUS REPORT (R69). -/
theorem statusPart_head (n : Node) (subject : Subject) (part : Nat) (destination tag slot : Byte) :
    let u := n.statusPart subject part destination tag slot
    u.kind = kindStatusReport ∧ u.destination = destination ∧ u.tag = tag ∧ u.slot = slot := by
  unfold Node.statusPart
  cases subject <;> exact ⟨rfl, rfl, rfl, rfl⟩

/-- The remaining parts of a STATION answer, posted one after the other. -/
theorem postParts_posted (n : Node) (subject : Subject) (parts : List Nat) (destination tag : Byte) :
    ∃ bs : List ReportBody, bs.length = parts.length
      ∧ (∀ b ∈ bs, ∃ u, b = .statusReport u ∧ u.kind = kindStatusReport ∧ u.destination = destination ∧ u.tag = tag
          ∧ u.slot = 255#8)
      ∧ n.postParts subject parts destination tag = { n with reports := bs.foldl ReportQueue.post n.reports } := by
  induction parts generalizing n with
  | nil => exact ⟨[], rfl, nofun, rfl⟩
  | cons p parts ih =>
    obtain ⟨bs, hlen, hbs, hmade⟩ := ih (n.post (.statusReport (n.statusPart subject p destination tag 255#8)))
    refine ⟨.statusReport (n.statusPart subject p destination tag 255#8) :: bs, by simp [hlen], fun b hb => ?_, hmade⟩
    rcases List.mem_cons.mp hb with rfl | hb
    · exact ⟨_, rfl, statusPart_head n subject p destination tag 255#8⟩
    · exact hbs b hb

/-- Without a STATION query in the middle of its parts nothing is left to finish. -/
theorem finishParts_none {n : Node} (h : (∀ p, n.messages.carrying ≠ .station p) ∨ n.messages.queue = []) :
    n.finishParts = n := by
  unfold Node.finishParts
  split
  · rename_i p e q hc hq
    exact h.elim (fun h => absurd hc (h p)) fun h => nomatch h.symm.trans hq
  · rfl

/-- A STATION query in the middle of its parts posts those that remain, and completes (R85). -/
theorem finishParts_station {n : Node} {p : Fin 4} {e : QueueEntry} (hc : n.messages.carrying = .station p)
    (hq : n.messages.queue = [e]) (hg : n.messages.granted = none) :
    ∃ parts : List ReportBody, n.finishParts = { n with
        messages := { n.messages with queue := [], carrying := .idle, hold := false }
        reports := parts.foldl ReportQueue.post n.reports }
      ∧ parts.length = min 3 (4 - p.val) ∧ ∀ b ∈ parts, ∃ u, b = .statusReport u ∧ u.kind = kindStatusReport
        ∧ u.destination = (n.requester e).byte ∧ u.tag = e.message.tag ∧ u.slot = 255#8 := by
  obtain ⟨bs, hlen, hbs, hmade⟩ := postParts_posted n .station ([1, 2, 3].filter fun x => decide (p.val ≤ x))
    (n.requester e).byte e.message.tag
  refine ⟨bs, ?_, ?_, hbs⟩
  · unfold Node.finishParts
    rw [hc, hq]
    dsimp only
    rw [hmade, complete_none (by exact hg)]
    simp only [Node.updateMessages, hq]
    rfl
  · have hcount : ∀ p : Fin 4, ([1, 2, 3].filter fun x => decide (p.val ≤ x)).length = min 3 (4 - p.val) := by decide
    rw [hlen, hcount]

/-- A slot holds a message. -/
def Messages.holds (m : Messages) (i : Fin 8) : Bool := (m.slots.get i).message.isSome

/-- The talk slots that hold messages, settled LOST one after the other. -/
def Node.loseTalks (n : Node) : Node := (talkSlots.filter n.messages.holds).foldl (fun x i => x.settleSlot i .lost) n

/-- What a slot without a message has no report of. -/
theorem filterMap_holds {m : Messages} {f : Fin 8 → Option ReportBody} (h : ∀ i, (m.slots.get i).message = none → f i = none)
    {l : List (Fin 8)} : (l.filter m.holds).filterMap f = l.filterMap f := by
  rw [List.filterMap_filter]
  refine List.filterMap_congr fun i _ => ?_
  unfold Messages.holds
  cases hm : (m.slots.get i).message with
  | none => exact (h i hm).symm
  | some u => rfl

/-- The port and talk slots settled LOST at a ring restart. -/
theorem restartSlots_made (n : Node) :
    let r := n.restartSlots
    (∀ i, i.val < 4 → r.messages.slots.get i = if n.messages.holds i then .free else n.messages.slots.get i)
      ∧ SameTalk (fun i => !(decide (i.val < 4) && n.messages.holds i)) n.loseTalks r
      ∧ r.reports = (portSlots.filterMap n.messages.lostReport ++ talkSlots.filterMap n.messages.lostTalk).foldl
          ReportQueue.post n.reports
      ∧ OnlyQueues n.messages r.messages ∧ QueueGrown n r
      ∧ r = { n with messages := r.messages, talk := r.talk, reports := r.reports } := by
  intro r
  obtain ⟨ported, hp⟩ : ∃ ported, (portSlots.filter n.messages.holds).foldl (fun x i => x.settleSlot i .lost) n = ported :=
    ⟨_, rfl⟩
  have hr : r = (talkSlots.filter n.messages.holds).foldl (fun x i => x.settleSlot i .lost) ported := by
    rw [← hp]
    show (List.filter _ (portSlots ++ talkSlots)).foldl _ n = _
    rw [List.filter_append, List.foldl_append]
    rfl
  have hportSlots : ∀ i : Fin 8, i ∈ portSlots ↔ i.val < 4 := by decide
  have htalkPort : ∀ i ∈ talkSlots, ¬ i.val < 4 := by decide
  have hmem : ∀ i, i ∈ portSlots.filter n.messages.holds ↔ i.val < 4 ∧ n.messages.holds i = true := fun i => by
    rw [List.mem_filter, hportSlots]
  obtain ⟨hslots, horder, hreports, hrest⟩ := settlePorts_made (n := n)
    ((show portSlots.Nodup by decide).filter n.messages.holds) fun i hi => (hmem i).mp hi
  rw [hp] at hslots horder hreports hrest
  have htalkKept : ∀ i ∈ talkSlots, ported.messages.slots.get i = n.messages.slots.get i := fun i hi => by
    rw [hslots, if_neg fun h => htalkPort i hi ((hmem i).mp h).1]
  obtain ⟨hkept, htalks, hcounts, hqueue, hframe⟩ := settleTalks_made (n := ported)
    ((show talkSlots.Nodup by decide).filter n.messages.holds) fun i hi => by
      obtain ⟨hi, hh⟩ := List.mem_filter.mp hi
      rw [htalkKept i hi]
      exact ⟨hi, hh⟩
  rw [← hr] at hkept htalks hcounts hqueue hframe
  have hsame : SameTalk (fun i => !(decide (i.val < 4) && n.messages.holds i)) n ported := by
    refine ⟨by rw [hrest], by rw [hrest], by rw [hrest], htalkKept, horder.trans (List.filter_congr fun i _ => ?_)⟩
    refine congrArg (!·) (Bool.eq_iff_iff.mpr ?_)
    rw [List.contains_iff_mem, hmem, Bool.and_eq_true, decide_eq_true_iff]
  refine ⟨fun i hi => ?_, ?_, ?_, ?_, ?_, ?_⟩
  · rw [hkept i fun h => htalkPort i h hi, hslots]
    by_cases hh : n.messages.holds i = true
    · rw [if_pos ((hmem i).mpr ⟨hi, hh⟩), if_pos hh]
    · rw [if_neg fun h => hh ((hmem i).mp h).2, if_neg hh]
  · rw [hr]
    exact hsame.settleAll (fun i hi => by simp [htalkPort i hi]) (fun i hi => (List.mem_filter.mp hi).1) .lost
  · have hsameTalks : (talkSlots.filter n.messages.holds).filterMap ported.messages.lostTalk
        = (talkSlots.filter n.messages.holds).filterMap n.messages.lostTalk := List.filterMap_congr fun i hi => by
      unfold Messages.lostTalk
      rw [htalkKept i (List.mem_filter.mp hi).1]
    rw [htalks, hreports, ← List.foldl_append, hsameTalks, filterMap_holds fun i hi => ?_, filterMap_holds fun i hi => ?_]
    · unfold Messages.lostTalk
      rw [hi]
      rfl
    · unfold Messages.lostReport
      rw [hi]
      rfl
  · have hported : OnlyQueues n.messages ported.messages := by
      rw [hrest]
      rfl
    exact hported.trans hcounts
  · have hported : ported.messages.queue = n.messages.queue := by rw [hrest]
    unfold QueueGrown at hqueue ⊢
    rwa [hported] at hqueue
  · rw [hframe, hrest]

/-- A request detached from the ring keeps the station that sent it (R85). -/
theorem detach_requester {m n : Node} (h : m.station = n.station) (e : QueueEntry) :
    m.requester e.detach = n.requester e := by
  unfold Node.requester QueueEntry.detach
  cases hs : e.source <;> simp [h, hs]

/-- The Message Controller at a ring restart (R85). -/
theorem restartMessages_made (n : Node) :
    let m := n.restartMessages
    (∀ i ∈ replySlots, m.messages.slots.get i = .free)
      ∧ (∀ i ∈ portSlots, m.messages.slots.get i = if n.messages.holds i then .free else n.messages.slots.get i)
      ∧ (∀ i ∈ talkSlots, m.messages.slots.get i = n.loseTalks.messages.slots.get i)
      ∧ m.messages.readyOrder = n.loseTalks.messages.readyOrder.filter
          (fun i => !(decide (i.val < 4) && n.messages.holds i) && decide (i.val < 6))
      ∧ m.talk = n.loseTalks.talk
      ∧ m.messages = { n.messages with
          slots := m.messages.slots, readyOrder := m.messages.readyOrder, queue := m.messages.queue
          carrying := m.messages.carrying, granted := none, notices := [], hold := false
          peers := Table.replicate 16 { hold := false, count := 0 } }
      ∧ (n.messages.carrying = .idle → m.messages.queue = [] ∧ m.messages.carrying = .idle)
      ∧ (∀ e q, n.messages.carrying = .tapClear → n.messages.queue = e :: q →
          m.messages.queue = [e.detach] ∧ m.messages.carrying = .tapClear)
      ∧ (∀ p e q, n.messages.carrying = .station p → n.messages.queue = e :: q →
          m.messages.queue = [] ∧ m.messages.carrying = .idle)
      ∧ (∃ parts, Posted n.reports m.reports
            (portSlots.filterMap n.messages.lostReport ++ talkSlots.filterMap n.messages.lostTalk ++ parts)
          ∧ ((∀ p, n.messages.carrying ≠ .station p) → parts = [])
          ∧ (∀ p e q, n.messages.carrying = .station p → n.messages.queue = e :: q →
              parts.length = min 3 (4 - p.val) ∧ ∀ b ∈ parts, ∃ u, b = .statusReport u ∧ u.kind = kindStatusReport
                ∧ u.destination = (n.requester e).byte ∧ u.tag = e.message.tag ∧ u.slot = 255#8))
      ∧ m = { n with messages := m.messages, talk := m.talk, reports := m.reports } := by
  intro m
  obtain ⟨hports, hsame, hreports, hcounts, hqueue, hframe⟩ := restartSlots_made n
  obtain ⟨r, hr⟩ : ∃ r, n.restartSlots = r := ⟨_, rfl⟩
  rw [hr] at hports hsame hreports hcounts hqueue hframe
  obtain ⟨base, hbase⟩ : ∃ base, r.updateMessages Messages.restart = base := ⟨_, rfl⟩
  have hm : m = base.finishParts := by
    rw [← hbase, ← hr]
    rfl
  have hcarrying : base.messages.carrying = n.messages.carrying := by
    rw [← hbase]
    show r.messages.carrying = _
    rw [hcounts]
  have hbaseQueue : base.messages.queue
      = if n.messages.carrying = .idle then [] else (r.messages.queue.take 1).map QueueEntry.detach := by
    rw [← hcarrying, ← hbase]
    rfl
  have hhead : ∀ e q, n.messages.queue = e :: q → n.messages.carrying ≠ .idle → base.messages.queue = [e.detach] := by
    intro e q hq hc
    obtain ⟨more, hmore⟩ := hqueue
    rw [hbaseQueue, if_neg hc, ← hmore, hq]
    rfl
  obtain ⟨parts, q, c, hmade, hidle, hclear, hstation, hnone, hparts⟩ :
      ∃ (parts : List ReportBody) (q : List QueueEntry) (c : Carrying), m = { base with
          messages := { base.messages with queue := q, carrying := c, hold := false }
          reports := parts.foldl ReportQueue.post base.reports }
        ∧ (n.messages.carrying = .idle → q = [] ∧ c = .idle)
        ∧ (∀ e q', n.messages.carrying = .tapClear → n.messages.queue = e :: q' → q = [e.detach] ∧ c = .tapClear)
        ∧ (∀ p e q', n.messages.carrying = .station p → n.messages.queue = e :: q' → q = [] ∧ c = .idle)
        ∧ ((∀ p, n.messages.carrying ≠ .station p) → parts = [])
        ∧ (∀ p e q', n.messages.carrying = .station p → n.messages.queue = e :: q' →
            parts.length = min 3 (4 - p.val) ∧ ∀ b ∈ parts, ∃ u, b = .statusReport u ∧ u.kind = kindStatusReport
              ∧ u.destination = (n.requester e).byte ∧ u.tag = e.message.tag ∧ u.slot = 255#8) := by
    have hhold : base.messages.hold = false := by rw [← hbase]; rfl
    have hgranted : base.messages.granted = none := by rw [← hbase]; rfl
    have hstay : base = { base with
        messages := { base.messages with
          queue := base.messages.queue, carrying := base.messages.carrying, hold := false } } := by
      rw [← hhold]
    cases hc : n.messages.carrying with
    | idle =>
      rw [hc] at hcarrying
      have hdone := hm.trans (finishParts_none (.inl fun p h => nomatch hcarrying.symm.trans h))
      refine ⟨[], base.messages.queue, base.messages.carrying, hdone.trans hstay, fun _ => ⟨?_, hcarrying⟩, nofun, nofun,
        fun _ => rfl, nofun⟩
      rw [hbaseQueue, if_pos hc]
    | tapClear =>
      rw [hc] at hcarrying
      have hdone := hm.trans (finishParts_none (.inl fun p h => nomatch hcarrying.symm.trans h))
      exact ⟨[], base.messages.queue, base.messages.carrying, hdone.trans hstay, nofun,
        fun e q _ hq => ⟨hhead e q hq (by rw [hc]; exact nofun), hcarrying⟩, nofun, fun _ => rfl, nofun⟩
    | station p =>
      rw [hc] at hcarrying
      have hshort : base.messages.queue = [] ∨ ∃ e, base.messages.queue = [e] := by
        rw [hbaseQueue, if_neg (by rw [hc]; exact nofun)]
        cases r.messages.queue with
        | nil => exact .inl rfl
        | cons e _ => exact .inr ⟨e.detach, rfl⟩
      have hfirst : ∀ e q, n.messages.queue = e :: q → base.messages.queue = [e.detach] := fun e q hq =>
        hhead e q hq (by rw [hc]; exact nofun)
      rcases hshort with hq | ⟨e, hq⟩
      · have hdone := hm.trans (finishParts_none (.inr hq))
        exact ⟨[], base.messages.queue, base.messages.carrying, hdone.trans hstay, nofun, nofun,
          fun _ e q _ hn => absurd (hq.symm.trans (hfirst e q hn)) (List.cons_ne_nil _ _).symm, fun h => absurd rfl (h p),
          fun _ e q _ hn => absurd (hq.symm.trans (hfirst e q hn)) (List.cons_ne_nil _ _).symm⟩
      · obtain ⟨parts, hmade, hlen, hparts⟩ := finishParts_station hcarrying hq hgranted
        refine ⟨parts, [], .idle, hm.trans hmade, nofun, nofun, fun _ _ _ _ _ => ⟨rfl, rfl⟩, fun h => absurd rfl (h p),
          fun p' e' q' hp hn => ?_⟩
        obtain rfl := Carrying.station.inj hp
        obtain ⟨rfl, -⟩ := List.cons.inj (hq.symm.trans (hfirst e' q' hn))
        have hst : base.station = n.station := by
          rw [← hbase]
          show r.station = n.station
          rw [hframe]
          rfl
        have hmessage : e'.detach.message = e'.message := by
          unfold QueueEntry.detach
          split <;> rfl
        rw [detach_requester hst, hmessage] at hparts
        exact ⟨hlen, hparts⟩
  have hslots : m.messages.slots = (r.messages.slots.set 6 .free).set 7 .free := by rw [hmade, ← hbase]; rfl
  have horder : m.messages.readyOrder = (r.messages.readyOrder.filter (· != 6)).filter (· != 7) := by
    rw [hmade, ← hbase]
    rfl
  have hlow : ∀ i : Fin 8, i.val < 6 → m.messages.slots.get i = r.messages.slots.get i := fun i hi => by
    rw [hslots, Table.get_set_other _ _ _ _ (by omega), Table.get_set_other _ _ _ _ (by omega)]
  refine ⟨fun i hi => ?_, fun i hi => ?_, fun i hi => ?_, ?_, ?_, ?_, fun h => ?_, fun e q h hq => ?_, fun p e q h hq => ?_,
    ⟨parts, ?_, hnone, hparts⟩, ?_⟩
  · rw [hslots]
    have hreply : ∀ i ∈ replySlots, i = 6 ∨ i = 7 := by decide
    have hi := hreply i hi
    rcases hi with rfl | rfl
    · rw [Table.get_set_other _ _ _ _ (by decide)]
      exact Table.get_set_same ..
    · exact Table.get_set_same ..
  · have hport : ∀ i ∈ portSlots, i.val < 4 := by decide
    have h4 := hport i hi
    rw [hlow i (by omega), hports i h4]
  · rw [hlow i (talkSlot_bounds i hi).2, hsame.slots i hi]
  · rw [horder, hsame.order, List.filter_filter, List.filter_filter]
    refine List.filter_congr fun i _ => ?_
    have hsix : ∀ i : Fin 8, ((i != 7) && ((i != 6))) = decide (i.val < 6) := by decide
    rw [hsix, Bool.and_comm]
  · rw [hmade, ← hbase]
    exact hsame.talk
  · rw [hmade, ← hbase]
    show { r.messages.restart with queue := q, carrying := c, hold := false } = _
    rw [restartMessages_eq, hcounts]
    rfl
  · rw [hmade]
    exact hidle h
  · rw [hmade]
    exact hclear e q h hq
  · rw [hmade]
    exact hstation p e q h hq
  · rw [hmade, ← hbase]
    show parts.foldl ReportQueue.post r.reports = _
    rw [hreports, ← List.foldl_append]
  · rw [hmade, ← hbase]
    show { r with messages := _, reports := _ } = _
    rw [hframe]
    rfl

/-- Settles O12. -/
theorem restartRingResetsTheRing : Obligations.RestartRingResetsTheRing := by
  unfold Obligations.RestartRingResetsTheRing
  intro s n held settled latest down lost talks hr hop
  have hl := work_leaves .restartRing s (fun n => n.wholeTransfer opRestartRing Node.restartRing) rfl hr
  have hw : n.wholeTransfer opRestartRing Node.restartRing = n.restartRing.endTransfer 8 := if_pos hop
  have hl' : Leaves .restartRing s (n.restartRing.endTransfer 8) := hw ▸ hl
  refine ⟨_, hl', ?_⟩
  obtain ⟨started, hstarted⟩ : ∃ m : Node, n.restartLinks.restartCadence.restartEngine = m := ⟨_, rfl⟩
  have hmade : started = { n with
      link := { n.link with
        east := n.link.east.restarted, west := n.link.west.restarted, fold := .isolated, quiet := some 24 }
      cadence := { n.cadence with node := .starting, followed := none, lastSequence := none, roundLength := 0#8,
                                  returnQueue := [], starvation := 0, backOff := none }
      engine := { n.engine with known := Table.replicate 16 none, layoutDue := true, unsent := none, lastSent := none }
      reports := (down .east ++ down .west
        ++ (if n.link.fold = .isolated then [] else [ReportBody.fold .isolated n.link.fold none false])
        ++ [ReportBody.nodeState .starting none 0#8]).foldl ReportQueue.post n.reports } := by
    rw [← hstarted, restartLinks_made]
    simp only [List.foldl_append]
    rfl
  obtain ⟨hreply, hport, htalk, horder, hkeys, hmessages, hidle, hclear, hstation, ⟨parts, hposted, hnone, hparts⟩, hframe⟩ :=
    restartMessages_made started
  obtain ⟨rested, hrested⟩ : ∃ m : Node, started.restartMessages = m := ⟨_, rfl⟩
  rw [hrested] at hreply hport htalk horder hkeys hmessages hidle hclear hstation hposted hframe
  have hsame : SameTalk (fun _ => true) n started := by
    rw [hmade]
    exact ⟨rfl, rfl, rfl, fun _ _ => rfl, (List.filter_eq_self.mpr fun _ _ => rfl).symm⟩
  have hsettled : SameTalk (fun _ => true) settled started.loseTalks := by
    have h := hsame.settleAll (fun _ _ => rfl) (l := talkSlots.filter held) (fun i hi => (List.mem_filter.mp hi).1) .lost
    rw [hmade] at h ⊢
    exact h
  have hring : n.restartRing = rested.restartTaps := by
    rw [← hrested, ← hstarted]
    rfl
  rw [hring, restartTaps_made]
  have hmessages' : started.messages = n.messages := by rw [hmade]
  rw [hmessages'] at hport horder hmessages hidle hclear hstation hnone hparts
  have hrequester : ∀ e, started.requester e = n.requester e := fun e => by rw [hmade]; rfl
  simp only [hrequester] at hparts
  have hlink : rested.link = { n.link with
      east := n.link.east.restarted, west := n.link.west.restarted, fold := .isolated, quiet := some 24 } := by
    rw [hframe, hmade]
  have htaps : rested.taps = n.taps := by rw [hframe, hmade]
  have hloader : rested.loader = n.loader := by rw [hframe, hmade]
  have hport' : rested.port = n.port := by rw [hframe, hmade]
  refine ⟨fun side => ?_, ?_, ?_, ?_, hreply, hport, fun i hi => (htalk i hi).trans (hsettled.slots i hi), ?_,
    hkeys.trans hsettled.talk, ?_, ?_, hidle, hclear, hstation, ?_, ?_, ⟨parts, ?_, hnone, hparts⟩, ?_⟩
  · show rested.link.side side = _
    rw [hlink]
    cases side <;> rfl
  · show rested.link.fold = _ ∧ rested.link.quiet = _ ∧ rested.link.foldChange = _ ∧ rested.link.earlyUnfold = _
    rw [hlink]
    exact ⟨rfl, rfl, rfl, rfl⟩
  · show rested.cadence = _
    rw [hframe, hmade]
  · show rested.engine = _
    rw [hframe, hmade]
  · show rested.messages.readyOrder = _
    rw [horder, hsettled.order, List.filter_eq_self.mpr fun _ _ => rfl]
    rfl
  · show rested.messages.notices = _ ∧ rested.messages.hold = _ ∧ (∀ p, rested.messages.peers.get p = _)
      ∧ rested.messages.turn = _ ∧ rested.messages.granted = _
    rw [hmessages]
    exact ⟨rfl, rfl, fun p => Table.get_replicate .., rfl, rfl⟩
  · show rested.messages.lostSlot = _ ∧ rested.messages.queueRefusal = _ ∧ rested.messages.badMessage = _
      ∧ rested.messages.staleMark = _ ∧ rested.messages.replyUndelivered = _ ∧ rested.messages.noticeDrop = _
    rw [hmessages]
    exact ⟨rfl, rfl, rfl, rfl, rfl, rfl⟩
  · simp only [Node.endTransfer, Node.updatePort, htaps, hloader]
    rfl
  · show rested.port.ended 8 = _
    rw [hport']
    unfold Port.ended
    rw [if_neg (by decide), show bitsShifted n.port.reply (8 - 8) = [] from rfl, List.append_nil]
  · show List.foldl ReportQueue.post rested.reports _ = _
    have hrested' : rested.reports = _ := hposted
    rw [hrested', htaps, hloader]
    have hreports : started.reports = _ := congrArg Node.reports hmade
    rw [hreports, ← List.foldl_append, ← List.foldl_append, hmessages']
    refine congrArg (List.foldl ReportQueue.post n.reports) ?_
    simp only [List.append_assoc]
    rfl
  · rw [node_ext_iff]
    refine ⟨hloader, rfl, rfl, rfl, rfl, rfl, ?_, ?_, rfl, rfl, rfl⟩
    · show rested.router = _
      rw [hframe, hmade]
    · show rested.mixer = _
      rw [hframe, hmade]

end Sys2Proof.Machine
end
section
/-! PROOF. The answers to a STATUS QUERY, and the bytes of their parts (Sections 4.5, 10.3). -/

namespace Sys2Proof.Machine

open Sys2Proof Sys2Proof.Safety

/-! ### The bytes of the parts (R176, R177, Table 12-6) -/

/-- The subject's code in byte 6 (R187). -/
def Subject.code : Subject → Nat
  | .station => 0
  | .tap _ => 1
  | .mix _ => 2

/-- A subject's contents from byte 7 on. -/
def Node.partContents (n : Node) (subject : Subject) (part : Nat) : List Byte :=
  match subject with
  | .station => n.stationPart part
  | .tap k => n.tapPart k
  | .mix m => n.mixPart m

/-- The seven bytes ahead of a part's contents (Table 12-5). -/
def Node.partHead (n : Node) (subject : Subject) (part : Nat) (destination tag slot : Byte) : List Byte :=
  [49#8, n.station.byte, destination, tag, slot, 0#8, (BitVec.ofNat 8 subject.code <<< 4) ||| byteOf part]

theorem statusPart_eq (n : Node) (subject : Subject) (part : Nat) (destination tag slot : Byte) :
    n.statusPart subject part destination tag slot
      = unitOf (n.partHead subject part destination tag slot ++ n.partContents subject part) := by
  cases subject <;> rfl

/-- The part's head is as Table 12-5 lays it out. -/
theorem statusPart_headed (n : Node) (subject : Subject) (part : Nat) (destination tag slot : Byte) (hp : part < 4) :
    let u := n.statusPart subject part destination tag slot
    [u.byte 0, u.byte 1, u.byte 2, u.byte 3, u.byte 4, u.byte 5, u.byte 6]
      = [49#8, n.station.byte, destination, tag, slot, 0#8, byteOf (16 * subject.code + part)] := by
  intro u
  have hcode : (BitVec.ofNat 8 subject.code <<< 4) ||| byteOf part = byteOf (16 * subject.code + part) :=
    (by decide : ∀ c, c < 3 → ∀ p, p < 4 → (BitVec.ofNat 8 c <<< 4) ||| byteOf p = byteOf (16 * c + p))
      subject.code (by cases subject <;> simp [Subject.code]) part hp
  have hbyte : ∀ i, i < 7 → u.byte i = (n.partHead subject part destination tag slot).getD i 0#8 := by
    intro i hi
    show (n.statusPart subject part destination tag slot).byte i = _
    rw [statusPart_eq, byte_unitOf _ _ (by omega), List.getD_append _ _ _ _ hi]
  rw [hbyte 0 (by decide), hbyte 1 (by decide), hbyte 2 (by decide), hbyte 3 (by decide), hbyte 4 (by decide),
    hbyte 5 (by decide), hbyte 6 (by decide), ← hcode]
  rfl

/-- Behind its head a part holds its contents, and then 0. -/
theorem statusPart_contents (n : Node) (subject : Subject) (part : Nat) (destination tag slot : Byte) (i : Nat)
    (hi : i < 17) :
    (n.statusPart subject part destination tag slot).byte (7 + i) = (n.partContents subject part).getD i 0#8 := by
  rw [statusPart_eq, byte_unitOf _ _ (by omega), List.getD_append_right _ _ _ _ (by show 7 ≤ _; omega)]
  exact congrArg (List.getD _ · _) (Nat.add_sub_cancel_left 7 i)

/-- A counter is saturated at its highest value. -/
theorem saturated_eq (c : Counter) : c.saturated = (c == 65535#16) := rfl

/-- A part of counters holds each modulo 256, and behind them the saturated flags (R176). -/
theorem statusPart_counts (n : Node) (subject : Subject) (part : Nat) (destination tag slot : Byte)
    (cs : List Counter) (hc : n.partContents subject part = counterBytes cs) (hl : cs.length ≤ 15) :
    let u := n.statusPart subject part destination tag slot
    (∀ i c, cs[i]? = some c → u.byte (7 + i) = byteOf c.toNat
        ∧ (u.byte (7 + cs.length + i / 8)).getLsbD (7 - i % 8) = (c == 65535#16))
      ∧ ∀ i, cs.length ≤ i → i < 16 → (u.byte (7 + cs.length + i / 8)).getLsbD (7 - i % 8) = false := by
  intro u
  have hu : u = unitOf (n.partHead subject part destination tag slot ++ counterBytes cs) := by
    rw [← hc]
    exact statusPart_eq ..
  obtain ⟨hlow, hflag⟩ := counterBytes_bytes cs (n.partHead subject part destination tag slot) rfl hl
  rw [hu]
  refine ⟨fun i c hi => ?_, fun i hi h16 => ?_⟩
  · obtain ⟨hlt, rfl⟩ := List.getElem?_eq_some_iff.mp hi
    constructor
    · rw [hlow i hlt]
      simp [hlt, low_eq_byteOf]
    · rw [hflag i (by omega)]
      simp [hlt, saturated_eq]
  · rw [hflag i h16]
    simp [hi]

/-- The flag byte of a TAP part as the sum of its bits' weights. -/
theorem flagByte_tap (a b c d e f g : Bool) :
    flagByte [true, a, b, c, d, e, f, g] = byteOf (128 + (if a then 64 else 0) + (if b then 32 else 0)
      + (if c then 16 else 0) + (if d then 8 else 0) + (if e then 4 else 0) + (if f then 2 else 0)
      + (if g then 1 else 0)) := by
  revert a b c d e f g
  decide

/-- The flag byte of a MIX part. -/
theorem flagByte_clip (a : Bool) : flagByte [a] = byteOf (if a then 128 else 0) := by
  revert a
  decide

/-- The weight of a link state's code (R44). -/
def LinkState.weight : LinkState → Nat
  | .down => 1
  | .proving => 2
  | .up => 3

/-- The byte of the link states, HOLD and the rate as the sum of its fields' weights. -/
theorem linkByte_eq (east west : LinkState) (hold : Bool) (rate : Rate) :
    (east.code <<< 6) ||| (west.code <<< 4) ||| (if hold then 2#8 else 0#8) ||| (if rate = .khz96 then 1#8 else 0#8)
      = byteOf (64 * east.weight + 16 * west.weight + (if hold then 2 else 0) + (if rate == .khz96 then 1 else 0)) := by
  cases hold <;> cases rate <;> cases east <;> cases west <;> rfl

/-- The entry of a key in use, at its number. -/
theorem entryOf_of_get {t : Taps} {k : Key} {e : EntryNo} {x : TapEntry} (hl : t.lookup k = some e)
    (hx : t.entries.get e = some x) : t.entryOf k = some x := by
  rw [Taps.entryOf, hl]
  exact hx

/-- The 16 bytes of STATION's first part. -/
theorem stationStates_eq (n : Node) :
    n.stationStates = [n.cadence.node.code, Station.byteOrZero n.cadence.followed, n.cadence.roundLength,
      n.link.fold.code,
      (n.link.east.link.code <<< 6) ||| (n.link.west.link.code <<< 4)
        ||| (if n.messages.hold then 2#8 else 0#8) ||| (if n.loader.values.rate = .khz96 then 1#8 else 0#8),
      byteOf (16 - n.messages.queue.length), byteOf n.taps.pEff, byteOf n.loader.values.delay,
      byteOf n.loader.values.window.frames, byteOf n.loader.values.fallback,
      byteOf (n.loader.values.returnHold / 256), byteOf n.loader.values.returnHold,
      byteOf (n.taps.free.length / 256), byteOf n.taps.free.length,
      byteOf (n.mixer.freeCrosspoints / 256), byteOf n.mixer.freeCrosspoints] := by
  unfold Node.stationStates
  simp only [countBytes_eq]
  rfl

/-- A TAP part begins with its key. -/
theorem tapPart_key (n : Node) (k : Key) : ∃ rest, n.tapPart k = keyBytes k ++ rest := by
  unfold Node.tapPart
  split
  · exact ⟨_, by simp only [List.append_assoc]; rfl⟩
  · exact ⟨[], (List.append_nil _).symm⟩

/-- The TAP part of a key without an entry is the key alone (assumption 23). -/
theorem tapPart_none {n : Node} {k : Key} (h : n.taps.lookup k = none) : n.tapPart k = keyBytes k := by
  unfold Node.tapPart
  rw [h]

/-- The 18 bytes of the TAP part of an entry. -/
theorem tapPart_some {n : Node} {k : Key} {e : EntryNo} {x : TapEntry} (hl : n.taps.lookup k = some e)
    (hx : n.taps.entries.get e = some x) :
    n.tapPart k = [k.station.byte, byteOf k.channel.val, byteOf e.val, slotByteOrNone x.slot,
      (keyBytesOrNone x.alternate).getD 0 0#8, (keyBytesOrNone x.alternate).getD 1 0#8,
      byteOf (128 + (if x.autoReturn then 64 else 0) + (if x.conflict then 32 else 0)
        + (if x.onAlternate then 16 else 0) + (if x.lastPlayed.isNone then 8 else 0)
        + (if x.absent.saturated then 4 else 0) + (if x.late.saturated then 2 else 0)
        + (if x.stale.saturated then 1 else 0)),
      byteOf x.backs, byteOf x.talkUsers, byteOf x.conceal, x.lastPlayed.getD 0#8, byteOf (x.returnHold / 256),
      byteOf x.returnHold, byteOf x.absent.toNat, byteOf x.late.toNat, byteOf x.stale.toNat] := by
  unfold Node.tapPart
  rw [hl, entryOf_of_get hl hx]
  dsimp only
  rw [flagByte_tap, countBytes_eq]
  simp only [low_eq_byteOf]
  cases x.alternate <;> rfl

/-- The eight bytes of a MIX part. -/
theorem mixPart_eq (n : Node) (m : Fin 24) :
    let x := n.mixer.mixes.get m
    n.mixPart m = [byteOf m.val, byteOf x.crosspoints.length, byteOf (x.master.value.toNat / 65536),
      byteOf (x.master.value.toNat / 256), byteOf x.master.value.toNat,
      Station.byteOrZero (x.talks.head?.map fun t => t.desk), byteOf x.clip.toNat, flagByte [x.clip.saturated]] := by
  intro x
  unfold Node.mixPart
  dsimp only
  rw [bytes24_eq, low_eq_byteOf]
  rfl

/-! ### The answer (R81) -/

/-- The query at the head of the queue is carried out on the subject read from it. -/
theorem statusQuery_ready {n : Node} {e : QueueEntry} (hr : HeadReady n e) (hk : e.message.kind = kindStatusQuery) :
    n.statusQuery = match readSubject e.message with
      | none => n.complete e (some badField)
      | some subject =>
        match e.source, n.messages.granted with
        | .ring _ _, some g =>
          let s1 := (n.placePart g e subject 1).updateMessages fun m => { m with granted := none }
          if subject = .station then s1.updateMessages fun m => { m with carrying := .station 2 }
          else s1.complete e none
        | .ring _ _, none => n
        | _, _ => (n.postParts subject subject.parts (n.requester e).byte e.message.tag).complete e none := by
  rw [Node.statusQuery, Node.carryOut, head_ready _ e _ hr (by simp [hk])] <;> rfl

/-- Settles O49: the row by the query's subject and source, and the bytes by the layout of each part. -/
theorem statusQueryIsAnsweredInParts : Obligations.StatusQueryIsAnsweredInParts := by
  unfold Obligations.StatusQueryIsAnsweredInParts
  constructor
  · intro s e n u hr hk
    have hl := work_leaves .statusQuery s Node.statusQuery rfl hr.1
    have hready := statusQuery_ready hr hk
    change Leaves .statusQuery s n.statusQuery at hl
    change n.statusQuery = _ at hready
    refine ⟨fun hread => ?_, ?_, ?_⟩
    · have hread : readSubject e.message = none := hread
      rw [hready, hread] at hl
      exact hl
    · intro subject sender slot g hread hsource hgranted placed
      have hread : readSubject e.message = some subject := hread
      have hrequester : n.requester e = sender := by
        unfold Node.requester
        rw [hsource]
      rw [hready, hread, hsource, hgranted] at hl
      dsimp only at hl
      rw [Node.placePart, hrequester] at hl
      refine ⟨fun h => ?_, fun h => ?_⟩
      · rw [if_pos h] at hl
        exact hl
      · rw [if_neg h] at hl
        exact hl
    · intro subject hread hsource posted
      have hread : readSubject e.message = some subject := hread
      have hrequester : n.requester e = n.station := by
        unfold Node.requester
        rw [hsource]
      rw [hready, hread, hsource, hrequester] at hl
      dsimp only at hl
      refine ⟨fun h => ?_, fun h => ?_⟩
      · have hparts : subject.parts = [1] := by
          cases subject
          · exact absurd rfl h
          · rfl
          · rfl
        rw [hparts] at hl
        exact hl
      · subst h
        exact hl
  · intro n destination tag slot part headed wide number bit counts
    have hbyte := statusPart_contents n
    refine ⟨?_, ⟨?_, ?_⟩, ⟨?_, ?_⟩, ?_, ?_⟩
    · intro u link v
      have hcontents : ∀ i, i < 17 → u.byte (7 + i) = n.stationStates.getD i 0#8 :=
        fun i hi => hbyte .station 1 destination tag slot i hi
      rw [stationStates_eq] at hcontents
      refine ⟨statusPart_headed n .station 1 destination tag slot (by decide), (hcontents 0 (by decide)).trans ?_,
        (hcontents 1 (by decide)).trans ?_, hcontents 2 (by decide), (hcontents 3 (by decide)).trans ?_,
        (hcontents 4 (by decide)).trans ?_, hcontents 5 (by decide), hcontents 6 (by decide), hcontents 7 (by decide),
        hcontents 8 (by decide), hcontents 9 (by decide), ⟨hcontents 10 (by decide), hcontents 11 (by decide)⟩,
        ⟨hcontents 12 (by decide), hcontents 13 (by decide)⟩, hcontents 14 (by decide), hcontents 15 (by decide)⟩
      · show n.cadence.node.code = _
        cases n.cadence.node <;> rfl
      · show Station.byteOrZero n.cadence.followed = _
        cases n.cadence.followed <;> rfl
      · show n.link.fold.code = _
        cases n.link.fold <;> rfl
      · exact linkByte_eq ..
    · exact statusPart_headed n .station 2 destination tag slot (by decide)
    · exact statusPart_counts n .station 2 destination tag slot n.stationCounters2 rfl (Nat.le_succ 14)
    · exact statusPart_headed n .station 3 destination tag slot (by decide)
    · exact statusPart_counts n .station 3 destination tag slot n.stationCounters3 rfl (le_refl 15)
    · intro k u
      have hcontents : ∀ i, i < 17 → u.byte (7 + i) = (n.tapPart k).getD i 0#8 :=
        fun i hi => hbyte (.tap k) 1 destination tag slot i hi
      obtain ⟨rest, hkey⟩ := tapPart_key n k
      refine ⟨statusPart_headed n (.tap k) 1 destination tag slot (by decide), ?_, ?_, fun hnone i hi => ?_,
        fun e x hl hx => ?_⟩
      · refine (hcontents 0 (by decide)).trans ?_
        rw [hkey]
        rfl
      · refine (hcontents 1 (by decide)).trans ?_
        rw [hkey]
        rfl
      · rcases Nat.lt_or_ge i 24 with h24 | h24
        · rw [show i = 7 + (i - 7) by omega, hcontents (i - 7) (by omega), tapPart_none hnone, List.getD,
            List.getElem?_eq_none (by show 2 ≤ _; omega), Option.getD_none]
        · exact byte_past _ _ h24
      · rw [tapPart_some hl hx] at hcontents
        refine ⟨hcontents 2 (by decide), (hcontents 3 (by decide)).trans ?_, ?_, hcontents 6 (by decide),
          hcontents 7 (by decide), hcontents 8 (by decide), hcontents 9 (by decide), hcontents 10 (by decide),
          ⟨hcontents 11 (by decide), hcontents 12 (by decide)⟩, hcontents 13 (by decide), hcontents 14 (by decide),
          hcontents 15 (by decide)⟩
        · show slotByteOrNone x.slot = _
          cases x.slot <;> rfl
        · rw [show 11 = 7 + 4 from rfl, show 12 = 7 + 5 from rfl, hcontents 4 (by decide), hcontents 5 (by decide)]
          show [(keyBytesOrNone x.alternate).getD 0 0#8, (keyBytesOrNone x.alternate).getD 1 0#8] = _
          cases x.alternate <;> rfl
    · intro m u x
      have hcontents : ∀ i, i < 17 → u.byte (7 + i) = (n.mixPart m).getD i 0#8 :=
        fun i hi => hbyte (.mix m) 1 destination tag slot i hi
      rw [mixPart_eq] at hcontents
      refine ⟨statusPart_headed n (.mix m) 1 destination tag slot (by decide), hcontents 0 (by decide),
        hcontents 1 (by decide), hcontents 2 (by decide), ⟨hcontents 3 (by decide), hcontents 4 (by decide)⟩,
        (hcontents 5 (by decide)).trans ?_, hcontents 6 (by decide), (hcontents 7 (by decide)).trans ?_⟩
      · show Station.byteOrZero (x.talks.head?.map fun t => t.desk) = _
        cases x.talks.head?.map fun t => t.desk <;> rfl
      · exact flagByte_clip x.clip.saturated

end Sys2Proof.Machine
end
section
/-! PROOF. What a load settles: the judgement, the fields and their clamps, the sections and the tally (Section 11). -/

namespace Sys2Proof.Machine

open Sys2Proof Sys2Proof.Safety

/-! ### The flash read and the judgement (R179, R180) -/

theorem flashWord_eq (flash : List Byte) : flashWord flash = wordAt flash := rfl

/-- The number of words that the first word's length lets the read clock in. -/
def wordsClocked (flash : List Byte) : Nat :=
  if 2 ≤ (wordAt flash 0).toNat ∧ (wordAt flash 0).toNat ≤ 256 then (wordAt flash 0).toNat else 1

theorem readWords_eq (flash : List Byte) : readWords flash = (List.range (wordsClocked flash)).map (wordAt flash) := by
  unfold readWords wordsClocked lengthAllowed
  simp only [flashWord_eq]
  congr 2
  exact if_congr decide_eq_true_iff rfl rfl

theorem length_readWords (flash : List Byte) : (readWords flash).length = wordsClocked flash := by
  rw [readWords_eq, List.length_map, List.length_range]

theorem headD_readWords (flash : List Byte) : (readWords flash).headD 65535#16 = wordAt flash 0 := by
  have hpos : ∃ k, wordsClocked flash = k + 1 :=
    Nat.exists_eq_succ_of_ne_zero (by unfold wordsClocked; split <;> omega)
  obtain ⟨k, hk⟩ := hpos
  rw [readWords_eq, hk, List.range_succ_eq_map]
  rfl

/-- The check sum is the words' sum modulo 65,536. -/
theorem toNat_foldl_add (ws : List Word16) (a : Word16) :
    (ws.foldl (· + ·) a).toNat = (a.toNat + (ws.map BitVec.toNat).sum) % 65536 := by
  induction ws generalizing a with
  | nil => simpa using (Nat.mod_eq_of_lt a.isLt).symm
  | cons w ws ih =>
    rw [List.foldl_cons, ih, List.map_cons, List.sum_cons, BitVec.toNat_add]
    omega

theorem imageSum_eq_zero_iff (ws : List Word16) : imageSum ws = 0#16 ↔ (ws.map BitVec.toNat).sum % 65536 = 0 := by
  unfold imageSum
  rw [← BitVec.toNat_inj, toNat_foldl_add]
  simp

/-- The judgement of a flash by its first word and the sum of its words. -/
theorem judgeImage_eq (flash : List Byte) : let length := (wordAt flash 0).toNat
    judgeImage (readWords flash) =
      if 2 ≤ length ∧ length ≤ 256 then
        (if ((List.range length).map fun i => (wordAt flash i).toNat).sum % 65536 = 0 then .loaded
         else .defaults .badCheck)
      else if length = 65535 then .defaults .noImage
      else .defaults .badLength := by
  intro length
  unfold judgeImage
  rw [headD_readWords]
  have hword : wordAt flash 0 = 65535#16 ↔ length = 65535 := by rw [← BitVec.toNat_inj]; rfl
  simp only [lengthAllowed, decide_eq_true_eq, imageSum_eq_zero_iff, hword]
  split
  · rename_i hallowed
    have hclocked : wordsClocked flash = length := if_pos hallowed
    rw [readWords_eq, hclocked, List.map_map]
    rfl
  · rfl

/-- An image that is loaded has a length that the read allows. -/
theorem length_of_loaded {flash : List Byte} (h : judgeImage (readWords flash) = .loaded) :
    2 ≤ (wordAt flash 0).toNat ∧ (wordAt flash 0).toNat ≤ 256 := by
  rw [judgeImage_eq] at h
  by_contra hne
  rw [if_neg hne] at h
  split at h <;> cases h

theorem load_loaded {flash : List Byte} (straps : BitVec 4) (h : judgeImage (readWords flash) = .loaded) :
    let ws := readWords flash
    load flash straps =
      { outcome := .loaded, first := wordAt flash 0, values := (loadedImage ws straps).value,
        fromImage := (imageStation ws straps).2, tally := min 255 (loadedImage ws straps).count,
        words := wordsClocked flash } := by
  unfold load
  dsimp only
  rw [h, ← length_readWords]
  rfl

theorem load_defaults {flash : List Byte} {c : LoadCause} (straps : BitVec 4)
    (h : judgeImage (readWords flash) = .defaults c) :
    load flash straps =
      { outcome := .defaults c, first := wordAt flash 0, values := Image.defaultsAt (strapStation straps) .khz48,
        fromImage := false, tally := 0, words := wordsClocked flash } := by
  unfold load
  dsimp only
  rw [h, ← length_readWords]
  rfl

/-- The strap pins' number: 0 stands for 16 (R181). -/
theorem number_strapStation (straps : BitVec 4) :
    (strapStation straps).number = if straps = 0#4 then 16 else straps.toNat := by
  have hlt := straps.isLt
  have hzero : straps = 0#4 ↔ straps.toNat = 0 := by rw [← BitVec.toNat_inj]; rfl
  unfold strapStation Station.number
  simp only [hzero]
  split <;> omega

/-! ### The ranges of the list fields (R127, R133, R183) -/

theorem present_of_placeChannel {r : Rate} {b : Byte} {c : Fin 64} (h : placeChannel r b = some c) :
    r.present c = true := by
  unfold placeChannel at h
  split at h
  · split at h
    · cases h
      assumption
    · cases h
  · cases h

theorem mem_of_mem_firsts {α : Type} [DecidableEq α] {l : List α} {a : α} (h : a ∈ firsts l) : a ∈ l := by
  induction l with
  | nil => exact h
  | cons b l ih =>
    rcases List.mem_cons.mp h with rfl | h
    · exact List.mem_cons_self
    · exact List.mem_cons_of_mem _ (ih (List.mem_of_mem_filter h))

theorem nodup_firsts {α : Type} [DecidableEq α] (l : List α) : (firsts l).Nodup := by
  induction l with
  | nil => exact .nil
  | cons a l ih => exact List.nodup_cons.mpr ⟨by simp, ih.filter _⟩

/-- A send list without repeats, of channels present at the rate. -/
def SendListSound (r : Rate) (l : List (Fin 64)) : Prop := l.Nodup ∧ ∀ c ∈ l, r.present c = true

/-- A slot table that binds channels present at the rate, each once. -/
def SlotTableSound (r : Rate) (t : Table 128 (Option (Fin 64))) : Prop :=
  (∀ x c, t.get x = some c → r.present c = true) ∧ ∀ x y c, t.get x = some c → t.get y = some c → x = y

/-- An output map that leaves an absent output silent. -/
def OutMapSound (r : Rate) (t : Table 64 OutSource) : Prop := ∀ o, r.present o = false → t.get o = .silent

theorem sendListSound_of_taken {r : Rate} {data : List Word16} {l : List (Fin 64)} {k : Nat}
    (h : SendListTaken r data l k) : SendListSound r l := by
  obtain ⟨rfl, -⟩ := h
  refine ⟨nodup_firsts _, fun c hc => ?_⟩
  obtain ⟨b, -, hb⟩ := List.mem_filterMap.mp (mem_of_mem_firsts hc)
  exact present_of_placeChannel hb

theorem slotTableSound_of_taken {r : Rate} {data : List Word16} {t : Table 128 (Option (Fin 64))} {k : Nat}
    (h : SlotTableTaken r data t k) : SlotTableSound r t := by
  obtain ⟨hget, -⟩ := h
  have bound : ∀ x c, t.get x = some c →
      (¬∃ j < x, (data.flatMap bytes16).getD j.val 255#8 = (data.flatMap bytes16).getD x.val 255#8)
        ∧ placeChannel r ((data.flatMap bytes16).getD x.val 255#8) = some c := by
    intro x c hx
    rw [hget] at hx
    split at hx
    · cases hx
    · exact ⟨by assumption, hx⟩
  refine ⟨fun x c hx => present_of_placeChannel (bound x c hx).2, fun x y c hx hy => ?_⟩
  obtain ⟨hfirst, hplace⟩ := bound x c hx
  obtain ⟨hfirst', hplace'⟩ := bound y c hy
  have hsame := placeChannel_inj hplace hplace'
  rcases lt_trichotomy x y with hlt | rfl | hlt
  · exact absurd ⟨x, hlt, hsame⟩ hfirst'
  · rfl
  · exact absurd ⟨y, hlt, hsame.symm⟩ hfirst

theorem outMapSound_of_taken {r : Rate} {data : List Word16} {t : Table 64 OutSource} {k : Nat}
    (h : OutMapTaken r data t k) : OutMapSound r t := by
  obtain ⟨hget, -⟩ := h
  intro o ho
  rw [hget]
  simp only [ho]
  split <;> rfl

theorem channels_sound (r : Rate) : SendListSound r r.channels :=
  ⟨(List.nodup_finRange 64).filter _, fun _ hc => (List.mem_filter.mp hc).2⟩

theorem defaultSlotTable_sound (r : Rate) : SlotTableSound r (defaultSlotTable r) := by
  have bound : ∀ x c, (defaultSlotTable r).get x = some c → c.val = x.val ∧ r.present c = true := by
    intro x c hx
    rw [defaultSlotTable, Table.get_ofFn] at hx
    split at hx
    · split at hx
      · cases hx
        exact ⟨rfl, by assumption⟩
      · cases hx
    · cases hx
  exact ⟨fun x c hx => (bound x c hx).2, fun x y c hx hy => Fin.ext ((bound x c hx).1.symm.trans (bound y c hy).1)⟩

theorem silentMap_sound (r : Rate) : OutMapSound r (Table.replicate 64 .silent) := fun _ _ => Table.get_replicate ..

/-- A section's field keeps what its reader and its default have. -/
theorem sectionOr_keeps {α : Type} (P : α → Prop) (s : Sections) (code : Nat) (read : List Word16 → Counted α)
    (default : α) (hr : ∀ data, P (read data).value) (hd : P default) : P (sectionOr s code read default).value := by
  unfold sectionOr
  split
  · exact hr _
  · exact hd

/-! ### The ranges of the values in force (Table 11-1) -/

/-- The values in force in the ranges of Table 11-1. -/
def ImageSound (v : Image) : Prop :=
  (8 ≤ v.linkHoldOff ∧ v.linkHoldOff ≤ 120) ∧ (2 ≤ v.fallback ∧ v.fallback ≤ 64)
    ∧ (10 ≤ v.returnHold ∧ v.returnHold ≤ 60000) ∧ v.lowFreeMark ≤ 64 ∧ (2 ≤ v.duckRamp ∧ v.duckRamp ≤ 64)
    ∧ SendListSound v.rate v.sendList ∧ SlotTableSound v.rate v.slotTable ∧ OutMapSound v.rate v.outMap

theorem defaultsAt_sound (station : Station) (r : Rate) : ImageSound (Image.defaultsAt station r) :=
  ⟨(by decide : 8 ≤ 12 ∧ 12 ≤ 120), (by decide : 2 ≤ 4 ∧ 4 ≤ 64), (by decide : 10 ≤ 500 ∧ 500 ≤ 60000),
    (by decide : 16 ≤ 64), (by decide : 2 ≤ 16 ∧ 16 ≤ 64), channels_sound r, defaultSlotTable_sound r,
    silentMap_sound r⟩

theorem loadedImage_sound (ws : List Word16) (straps : BitVec 4) : ImageSound (loadedImage ws straps).value := by
  unfold loadedImage
  refine ⟨orDefault_clampInto_mem _ (by decide) (by decide : 8 ≤ 12 ∧ 12 ≤ 120),
    orDefault_clampInto_mem _ (by decide) (by decide : 2 ≤ 4 ∧ 4 ≤ 64),
    orDefault_clampInto_mem _ (by decide) (by decide : 10 ≤ 500 ∧ 500 ≤ 60000),
    (orDefault_clampInto_mem (lo := 0) (hi := 64) (d := 16) (imageField ws 9) (by decide) (by decide)).2,
    orDefault_clampInto_mem _ (by decide) (by decide : 2 ≤ 16 ∧ 16 ≤ 64), ?_, ?_, ?_⟩
  · exact sectionOr_keeps _ _ _ _ _ (fun data => sendListSound_of_taken (readSendList_taken _ data)) (channels_sound _)
  · exact sectionOr_keeps _ _ _ _ _ (fun data => slotTableSound_of_taken (readSlotTable_taken _ data)) (defaultSlotTable_sound _)
  · exact sectionOr_keeps _ _ _ _ _ (fun data => outMapSound_of_taken (readOutMap_taken _ data)) (silentMap_sound _)

theorem load_sound (flash : List Byte) (straps : BitVec 4) : ImageSound (load flash straps).values := by
  cases h : judgeImage (readWords flash) with
  | loaded =>
    rw [load_loaded straps h]
    exact loadedImage_sound ..
  | defaults c =>
    rw [load_defaults straps h]
    exact defaultsAt_sound ..

theorem load_tally_le (flash : List Byte) (straps : BitVec 4) : (load flash straps).tally ≤ 255 := by
  cases h : judgeImage (readWords flash) with
  | loaded =>
    rw [load_loaded straps h]
    exact min_le_left _ _
  | defaults c =>
    rw [load_defaults straps h]
    exact Nat.zero_le _

/-! ### The fields of a loaded image (R180 to R182) -/

/-- The number in a fixed word of an image, where the word lies before the check word. -/
def imageNumber (flash : List Byte) (i : Nat) : Option Nat :=
  if i + 2 ≤ (wordAt flash 0).toNat then some (wordAt flash i).toNat else none

theorem imageField_toNat {flash : List Byte} (h : judgeImage (readWords flash) = .loaded) (i : Nat) :
    (imageField (readWords flash) i).map BitVec.toNat = imageNumber flash i := by
  have hclocked : wordsClocked flash = (wordAt flash 0).toNat := if_pos (length_of_loaded h)
  unfold imageField imageNumber
  rw [length_readWords, hclocked, readWords_eq, hclocked]
  split
  · rw [List.getElem?_map, List.getElem?_range (by omega)]
    rfl
  · rfl

/-- How often a clamp changed a number: 1 where the field is there and is not the value (R182). -/
def changedBy (field : Option Nat) (value : Nat) : Nat := field.elim 0 fun w => if w = value then 0 else 1

theorem orDefault_clampInto (f : Option Word16) (lo hi d : Nat) :
    let x := orDefault f (clampInto lo hi) d
    x.value = (f.map BitVec.toNat).elim d (fun w => max lo (min hi w))
      ∧ x.count = changedBy (f.map BitVec.toNat) x.value := by
  cases f with
  | none => exact ⟨rfl, rfl⟩
  | some w =>
    refine ⟨rfl, ?_⟩
    show (if max lo (min hi w.toNat) = w.toNat then 0 else 1) = if w.toNat = max lo (min hi w.toNat) then 0 else 1
    simp only [eq_comm]

theorem orDefault_clampWindow (f : Option Word16) :
    let x := orDefault f clampWindow .w32
    x.value.frames = (f.map BitVec.toNat).elim 32
        (fun w => if w ≤ 8 then 8 else if w ≤ 16 then 16 else if w ≤ 32 then 32 else 64)
      ∧ x.count = changedBy (f.map BitVec.toNat) x.value.frames := by
  cases f with
  | none => exact ⟨rfl, rfl⟩
  | some w =>
    refine ⟨?_, ?_⟩
    · show (clampWindow w.toNat).value.frames = ite _ _ _
      unfold clampWindow
      dsimp only
      split_ifs <;> rfl
    · show (if (clampWindow w.toNat).value.frames = w.toNat then 0 else 1)
        = if w.toNat = (clampWindow w.toNat).value.frames then 0 else 1
      simp only [eq_comm]

theorem orDefault_clampRate (f : Option Word16) :
    let x := orDefault f clampRate .khz48
    x.value = (if f.map BitVec.toNat = some 2 then .khz96 else .khz48)
      ∧ x.count = (f.map BitVec.toNat).elim 0 fun w => if w = 1 ∨ w = 2 then 0 else 1 := by
  cases f with
  | none => exact ⟨rfl, rfl⟩
  | some w =>
    show (clampRate w.toNat).value = ite (some w.toNat = some 2) _ _ ∧ (clampRate w.toNat).count = ite _ _ _
    unfold clampRate
    by_cases h : w.toNat = 2
    · simp [h]
    · simp [h]

theorem number_ofNumber (k : Nat) : (Station.ofNumber k).map Station.number = if 1 ≤ k ∧ k ≤ 16 then some k else none := by
  unfold Station.ofNumber Station.number
  split <;> simp
  omega

/-- The station number is the image's, or the straps' (R181). -/
theorem imageStation_eq (ws : List Word16) (straps : BitVec 4) :
    let x := imageStation ws straps
    (x.1.number, x.2) = ((imageField ws 1).map BitVec.toNat).elim ((strapStation straps).number, false)
      fun w => if 1 ≤ w ∧ w ≤ 16 then (w, true) else ((strapStation straps).number, false) := by
  unfold imageStation
  cases imageField ws 1 with
  | none => rfl
  | some w =>
    show (_ : Nat × Bool) = ite _ _ _
    have h := number_ofNumber w.toNat
    rw [Option.bind_some]
    cases hs : Station.ofNumber w.toNat with
    | none =>
      rw [hs] at h
      rw [if_neg fun hr => by rw [if_pos hr] at h; cases h]
    | some s =>
      rw [hs] at h
      split at h
      · rename_i hr
        rw [if_pos hr]
        rw [← Option.some.inj h]
      · cases h

/-! ### The whole load -/

/-- Whatever the judgement, a load keeps its first word, the count of its words and the judgement. -/
theorem load_judged (flash : List Byte) (straps : BitVec 4) :
    let l := load flash straps
    l.first = wordAt flash 0 ∧ l.words = wordsClocked flash ∧ l.outcome = judgeImage (readWords flash) := by
  cases h : judgeImage (readWords flash) with
  | loaded =>
    rw [load_loaded straps h]
    exact ⟨rfl, rfl, rfl⟩
  | defaults c =>
    rw [load_defaults straps h]
    exact ⟨rfl, rfl, rfl⟩

/-- At 48 kHz every channel is present, so the default lists name them all (R184). -/
theorem defaultsAt_khz48 (station : Station) :
    Image.defaultsAt station .khz48 =
      { station := station, rate := .khz48, originEligible := true, localAlignment := false, linkHoldOff := 12,
        window := .w32, delay := 12, fallback := 4, returnHold := 500, lowFreeMark := 16, duckRamp := 16,
        groups := Table.replicate 8 false, sendList := List.finRange 64,
        slotTable := Table.ofFn fun s => if h : s.val < 64 then some ⟨s.val, h⟩ else none,
        outMap := Table.replicate 64 .silent, owners := Table.replicate 24 none,
        keys := Table.replicate 4 KeyImage.unbound } := by
  rfl

/-- Settles O7: the ranges hold of every load, and each clause of a loaded image is its field's own lemma. -/
theorem loadedValuesLieInRange : Obligations.LoadedValuesLieInRange := by
  unfold Obligations.LoadedValuesLieInRange
  intro flash straps v
  obtain ⟨hhold, hfallback, hreturn, hmark, hduck, ⟨hnodup, hsends⟩, ⟨hslots, honce⟩, houts⟩ := load_sound flash straps
  refine ⟨hhold, load_delayClamped flash straps, hfallback, hreturn, hmark, hduck, hnodup, hsends, hslots, honce, houts,
    load_tally_le flash straps, ?_⟩
  intro l length sum strap field flag clamped changed
  obtain ⟨hfirst, hwords, houtcome⟩ := load_judged flash straps
  refine ⟨hfirst, hwords, houtcome.trans (judgeImage_eq flash), fun hne => ?_, fun hloaded => ?_⟩
  · cases h : judgeImage (readWords flash) with
    | loaded => exact absurd (houtcome.trans h) hne
    | defaults c =>
      have hload := load_defaults straps h
      have hl : l = _ := hload
      have hv : v = _ := congrArg Load.values hload
      refine ⟨congrArg Load.tally hload, congrArg Load.fromImage hload, ?_, ?_⟩
      · rw [hv]
        exact number_strapStation straps
      · rw [hv]
        exact defaultsAt_khz48 _
  · have h : judgeImage (readWords flash) = .loaded := houtcome.symm.trans hloaded
    have hload := load_loaded straps h
    have hv : v = (loadedImage (readWords flash) straps).value := congrArg Load.values hload
    have hfrom : l.fromImage = (imageStation (readWords flash) straps).2 := congrArg Load.fromImage hload
    have htally : l.tally = min 255 (loadedImage (readWords flash) straps).count := congrArg Load.tally hload
    have hfield : ∀ i, (imageField (readWords flash) i).map BitVec.toNat = field i := imageField_toNat h
    have hclamp : ∀ i lo hi d, (orDefault (imageField (readWords flash) i) (clampInto lo hi) d).value = clamped i lo hi d
        ∧ (orDefault (imageField (readWords flash) i) (clampInto lo hi) d).count
          = changed i (orDefault (imageField (readWords flash) i) (clampInto lo hi) d).value := by
      intro i lo hi d
      have hc := orDefault_clampInto (imageField (readWords flash) i) lo hi d
      rw [hfield i] at hc
      refine ⟨hc.1.trans ?_, hc.2.trans ?_⟩
      · unfold clamped
        cases field i <;> rfl
      · unfold changed changedBy
        cases field i <;> rfl
    have hwindow := orDefault_clampWindow (imageField (readWords flash) 5)
    rw [hfield 5] at hwindow
    have hrate := orDefault_clampRate (imageField (readWords flash) 2)
    rw [hfield 2] at hrate
    have hstation := imageStation_eq (readWords flash) straps
    rw [hfield 1] at hstation
    have hflag : ∀ i d, (match imageField (readWords flash) 3 with | some w => w.getLsbD i | none => d) = flag i d := by
      intro i d
      show _ = match field 3 with | some w => w.testBit i | none => d
      rw [← hfield 3]
      cases imageField (readWords flash) 3 <;> rfl
    have hsections := imageSections_walked (readWords flash)
    have hcodes := nodup_of_walked hsections List.nodup_nil
    have hclocked : (readWords flash).length = length :=
      (length_readWords flash).trans (if_pos (length_of_loaded h))
    have hwords : readWords flash = (List.range length).map (wordAt flash) := by
      rw [readWords_eq, ← hclocked, length_readWords]
    rw [hclocked] at hsections
    nth_rw 1 [hwords] at hsections
    clear_value v l
    subst hv
    refine ⟨?_, hrate.1, hflag 0 true, hflag 1 false, (hclamp 4 8 120 12).1, hwindow.1.trans ?_, ?_, (hclamp 7 2 64 4).1,
      (hclamp 8 10 60000 500).1, (hclamp 9 0 64 16).1, (hclamp 10 2 64 16).1, fun g => ?_,
      (imageSections (readWords flash)).taken, (imageSections (readWords flash)).count, _, _, _, _, _, hsections,
      sectionOr_taken _ 1 _ _ _ hcodes (readSendList_taken _), sectionOr_taken _ 2 _ _ _ hcodes (readSlotTable_taken _),
      sectionOr_taken _ 3 _ _ _ hcodes (readOutMap_taken _), sectionOr_taken _ 4 _ _ _ hcodes readOwners_taken,
      sectionOr_taken _ 5 _ _ _ hcodes readKeys_taken, ?_⟩
    · have hnumber : (loadedImage (readWords flash) straps).value.station
          = (imageStation (readWords flash) straps).1 := rfl
      rw [hnumber, hfrom]
      cases hf : field 1 with
      | none =>
        rw [hf, number_strapStation] at hstation
        exact Prod.mk.inj hstation
      | some w =>
        rw [hf, number_strapStation] at hstation
        dsimp only [Option.elim_some] at hstation ⊢
        split
        · rw [if_pos (by assumption)] at hstation
          exact Prod.mk.inj hstation
        · rw [if_neg (by assumption)] at hstation
          exact Prod.mk.inj hstation
    · cases field 5 <;> rfl
    · exact Nat.min_comm 12 _ ▸ (hclamp 6 2 _ _).1
    · show (match imageField (readWords flash) 11 with
          | some w => Table.ofFn fun g : Fin 8 => w.getLsbD g.val
          | none => Table.replicate 8 false).get g = match field 11 with | some w => w.testBit g.val | none => false
      rw [← hfield 11]
      cases imageField (readWords flash) 11 with
      | none => exact Table.get_replicate ..
      | some w => exact Table.get_ofFn ..
    · have hrate' : (match field 2 with | some w => if w = 1 ∨ w = 2 then 0 else 1 | none => 0)
          = (orDefault (imageField (readWords flash) 2) clampRate .khz48).count := by
        rw [hrate.2]
        cases field 2 <;> rfl
      have hwindow' : changed 5 (loadedImage (readWords flash) straps).value.window.frames
          = (orDefault (imageField (readWords flash) 5) clampWindow .w32).count := by
        rw [hwindow.2]
        unfold changed changedBy
        cases field 5 <;> rfl
      refine htally.trans (congrArg (min 255) ?_)
      rw [hwindow',
        show changed 4 (loadedImage (readWords flash) straps).value.linkHoldOff = _ from (hclamp 4 8 120 12).2.symm,
        show changed 6 (loadedImage (readWords flash) straps).value.delay = _ from (hclamp 6 2 _ _).2.symm,
        show changed 7 (loadedImage (readWords flash) straps).value.fallback = _ from (hclamp 7 2 64 4).2.symm,
        show changed 8 (loadedImage (readWords flash) straps).value.returnHold = _ from (hclamp 8 10 60000 500).2.symm,
        show changed 9 (loadedImage (readWords flash) straps).value.lowFreeMark = _ from (hclamp 9 0 64 16).2.symm,
        show changed 10 (loadedImage (readWords flash) straps).value.duckRamp = _ from (hclamp 10 2 64 16).2.symm]
      show (orDefault (imageField (readWords flash) 2) clampRate .khz48).count + _ + _ + _ + _ + _ + _ + _ + _ + _ + _ + _
        + _ + _ = _
      rw [← hrate'] <;> rfl

end Sys2Proof.Machine
end
section
/-! PROOF. The frames that a station sends of itself, and those with a bad head (Sections 1.4, 2.4, 2.5). -/

namespace Sys2Proof.Machine

open Sys2Proof Sys2Proof.Safety

/-! ### A frame of the station's own (R10) -/

/-- With no segment before it the frame holds the own segment alone (R10). -/
theorem sendOwn_eq (n : Node) (origin : Station) (rebuilt : Bool) :
    n.sendOwn origin rebuilt = (n.append 0).2.forward
      (makeHead origin.byte n.cadence.localCount n.cadence.roundLength rebuilt false 0) (n.append 0).1 := rfl

/-- What a frame of the station's own leaves unchanged. -/
theorem sendOwn_leaves (n : Node) (origin : Station) (rebuilt : Bool) :
    n.sendOwn origin rebuilt = { n with
      link := (n.sendOwn origin rebuilt).link
      engine := (n.sendOwn origin rebuilt).engine
      messages := (n.sendOwn origin rebuilt).messages } := by
  rw [node_ext_iff, sendOwn_eq]
  simp

/-- The head under which a frame goes out, by the fold state (R18). -/
def Node.headOut (n : Node) (h : SixBytes) : SixBytes := redirectHead h (n.link.fold == .foldedEast) 0

/-- A frame of the station's own goes to the primary output outside a quiet period. -/
theorem sendOwn_made {n : Node} (origin : Station) (rebuilt : Bool) {side : Side}
    (ho : n.link.fold.output = some side) (hq : n.link.quiet = none) :
    n.sendOwn origin rebuilt = { (n.append 0).2 with link := n.link.setSide side { n.side side with
      sent := (n.side side).sent ++ [.frame
        (n.headOut (makeHead origin.byte n.cadence.localCount n.cadence.roundLength rebuilt false 0))
        (n.append 0).1] } } := by
  have hlink : (n.append 0).2.link = n.link := by simp
  rw [sendOwn_eq]
  unfold Node.forward Node.transmit Node.updateSide Node.side Node.headOut
  simp only [hlink, ho, hq]
  rfl

/-- The head of a frame of the station's own is good, and says what it was made to say. -/
theorem headOut_says (n : Node) (origin : Station) (sequence round : Byte) (rebuilt : Bool) :
    let h := n.headOut (makeHead origin.byte sequence round rebuilt false 0)
    headGood h = true ∧ HeadSays h origin.byte sequence round rebuilt (n.link.fold == .foldedEast) 0 := by
  obtain ⟨h1, h2, h3, h4, -, -⟩ := makeHead_says origin.byte sequence round rebuilt false (hops := 0) (by decide)
  have hgood : headGood (makeHead origin.byte sequence round rebuilt false 0) = true := by
    rw [headGood_makeHead _ _ _ _ _ (by decide), Station.ofByte_byte]
    rfl
  have hsays := redirectHead_says hgood (n.link.fold == .foldedEast)
  rw [h1, h2, h3, h4] at hsays
  exact hsays

/-! ### Emission (R13, R35, R37) -/

theorem output_eq_none_iff (f : FoldState) : f.output = none ↔ f = .isolated := by
  cases f <;> simp [FoldState.output]

/-- What a station emits at a boundary, by the fold and node states. -/
theorem emit_idle {n : Node} (h : n.link.fold = .isolated ∨ (n.cadence.node ≠ .claiming ∧ n.cadence.node ≠ .origin)) :
    n.emit = n := by
  unfold Node.emit
  rcases h with h | ⟨hc, ho⟩
  · rw [if_pos (by rw [h]; rfl)]
  · split
    · rfl
    · split
      · exact absurd (by assumption) hc
      · exact absurd (by assumption) ho
      · rfl

theorem emit_working {n : Node} (h : n.link.fold ≠ .isolated) :
    n.emit = match n.cadence.node with
      | .claiming => n.sendOwn n.station false
      | .origin =>
        match n.cadence.returnQueue with
        | [] => n.sendOwn n.station false
        | f :: rest => (n.updateCadence fun c => { c with returnQueue := rest }).reEmit f
      | _ => n := by
  have hout : n.link.fold.output.isNone = false := by
    rw [Option.isNone_eq_false_iff, Option.isSome_iff_ne_none]
    exact fun ho => h ((output_eq_none_iff _).mp ho)
  unfold Node.emit
  rw [if_neg (by rw [hout]; decide)] <;> rfl

theorem emit_fresh {n : Node} (h : n.link.fold ≠ .isolated)
    (hn : n.cadence.node = .claiming ∨ (n.cadence.node = .origin ∧ n.cadence.returnQueue = [])) :
    n.emit = n.sendOwn n.station false := by
  rw [emit_working h]
  rcases hn with hn | ⟨hn, hq⟩
  · rw [hn]
  · rw [hn, hq]

/-- A segment is orphaned by its age against the arriving sequence (R13). -/
theorem orphaned_eq (n : Node) (sequence : Byte) (x : Segment) :
    n.orphaned sequence x = (x.source != n.station.byte && decide (3 ≤ (sequence - x.captureIndex).toNat)
      && decide ((sequence - x.captureIndex).toNat ≤ 127)) := by
  unfold Node.orphaned
  rw [Bool.and_assoc, ← Bool.decide_and]

/-- A returned frame is re-emitted without its orphaned segments, which are counted (R13). -/
theorem reEmit_eq (n : Node) (f : Frame) :
    let walked := walkBody n.capacity f.body
    let old := n.orphaned (headSequence f.head)
    n.reEmit f = ({ n with engine := { n.engine with
        segmentError := if walked.2 then n.engine.segmentError.inc else n.engine.segmentError,
        orphan := (walked.1.filter old).foldl (fun c _ => c.inc) n.engine.orphan } } : Node).passSegments
      (makeHead n.station.byte n.cadence.localCount n.cadence.roundLength false false 0)
      (walked.1.filter fun x => !old x) := by
  intro walked old
  unfold Node.reEmit Node.cutSpan
  show Node.passSegments _ _ _ = _
  cases (walkBody n.capacity f.body).2
  · simp only [walked, Bool.false_eq_true, if_false]
    rfl
  · simp only [walked, if_true]
    rfl

/-- CLAIMING as it is entered from WAITING (R35). -/
theorem enterClaiming_made {n : Node} (hn : n.cadence.node = .waiting) :
    n.enterClaiming = { n with
      cadence := { n.cadence with
        node := .claiming, followed := some n.station, roundLength := 0#8, lastSequence := none, backOff := none }
      reports := n.reports.post (.nodeState .claiming (some n.station) 0#8) } := by
  have hs : (n.cadence.node == .starting) = false := by rw [hn]; rfl
  unfold Node.enterClaiming Node.setNodeState Node.postNodeState
  simp only [hs, Bool.false_and]
  rfl

/-- What a station that claims sends changes neither its cadence nor its reports. -/
theorem emit_claiming_leaves {n : Node} (hn : n.cadence.node = .claiming) :
    n.emit = { n with
      link := n.emit.link
      engine := n.emit.engine
      messages := n.emit.messages } := by
  by_cases h : n.link.fold = .isolated
  · rw [emit_idle (.inl h)]
  · rw [emit_fresh h (.inl hn)]
    exact sendOwn_leaves ..

/-! ### Frames with a bad head (R11) -/

/-- A frame with a bad head is rebuilt with the followed origin in FOLLOWING and in WAITING (R11). -/
theorem badHeadFrame_rebuilt {n : Node} {o : Station} (hn : n.cadence.node = .following ∨ n.cadence.node = .waiting)
    (ho : n.cadence.followed = some o) :
    n.badHeadFrame = ({ n with engine := { n.engine with
      badHead := n.engine.badHead.inc, rebuilt := n.engine.rebuilt.inc } } : Node).sendOwn o true := by
  unfold Node.badHeadFrame
  rcases hn with hn | hn
  · simp only [hn, ho]
    rfl
  · simp only [hn, ho]
    rfl

/-- Elsewhere it is discarded (R11). -/
theorem badHeadFrame_discarded {n : Node}
    (h : n.cadence.followed = none ∨ (n.cadence.node ≠ .following ∧ n.cadence.node ≠ .waiting)) :
    n.badHeadFrame = { n with engine := { n.engine with badHead := n.engine.badHead.inc } } := by
  unfold Node.badHeadFrame
  split
  · simp_all
  · simp_all
  · rfl

/-- A frame with a bad head is evidence, and is then counted on the active input and left alone elsewhere (R11). -/
theorem frameReceived_bad {s : State} {side : Side} {head : SixBytes} (body : List FrameUnit)
    (hr : s.finish.node.running = true) (hl : (s.finish.node.side side).lock = true) (hg : headGood head = false) :
    let n := s.finish.node
    let taken := n.takeEvidence side false
    exec (.frameReceived side head body) s = .next
      (if (n.side side).badRun + 1 = 4 ∧ (n.side side).link ≠ .down then
        { node := taken, agenda := [.badRun side, .takeFrame side head body], pending := s.pending }
      else { node := if taken.link.fold.input = some side then taken.badHeadFrame else taken, agenda := [],
             pending := s.pending }) := by
  intro n taken
  have hrun : taken.running = true := hr
  have hrec : n.receives side = true := by
    unfold Node.receives
    rw [hr, hl]
    rfl
  have hsort : taken.sortFrame side ⟨head, body⟩
      = if taken.link.fold.input = some side then taken.badHeadFrame else taken := by
    unfold Node.sortFrame
    rw [if_neg (by rw [hg]; decide)]
  show execFrameReceived side head body s = _
  unfold execFrameReceived State.takeFrame
  dsimp only
  rw [if_pos hrec, hg, runOn_badEvidence _ _ _ hr]
  congr 1
  split
  · rfl
  · show State.mk _ _ _ = State.mk _ _ _
    rw [← hsort]
    unfold Node.perform Node.due
    rw [show (n.takeEvidence side false).running = true from hr]
    rfl

/-- Settles O28. -/
theorem claimSendsTheFirstFrame : Obligations.ClaimSendsTheFirstFrame := by
  unfold Obligations.ClaimSendsTheFirstFrame
  refine ⟨?_, ?_, ?_, ?_⟩
  · intro s ts n entered hr ha hn hb
    have hdue : n.due .claim = true := by
      have hstands : n.rowStands .claim = (n.cadence.node == .waiting && n.cadence.backOff == some 0) := rfl
      unfold Node.due
      rw [hr, hstands, hn, hb]
      rfl
    have hl := takeRow_takes .claim s .claim ts rfl ha hdue
    have hentered : n.enterClaiming = entered := enterClaiming_made hn
    have hdo : s.node.doTask .claim = entered.emit := congrArg Node.emit hentered
    rw [hdo] at hl
    have hleaves := emit_claiming_leaves (n := entered) rfl
    refine ⟨_, hl, rfl, fun hf => emit_fresh (n := entered) hf (.inl rfl), ?_, ?_, fun side ho hq => ?_, ?_⟩
    · rw [hleaves]
    · rw [hleaves]
      exact rfl
    · have hf : entered.link.fold ≠ .isolated := by
        intro h
        have hnone : n.link.fold.output = none := (output_eq_none_iff _).mpr h
        rw [hnone] at ho
        cases ho
      have hmade := sendOwn_made (n := entered) n.station false ho hq
      obtain ⟨-, h1, h2, h3, h4, -, -⟩ := headOut_says entered n.station n.cadence.localCount 0#8 false
      rw [emit_fresh (n := entered) hf (.inl rfl)]
      refine ⟨_, (entered.append 0).1, ?_, h1, h2, h3, h4⟩
      · rw [show entered.sendOwn entered.station false = _ from hmade]
        exact congrArg SideState.sent (LinkFold.side_setSide ..)
    · rw [hleaves]
  · intro n origin rebuilt side ho hq own
    obtain ⟨hgood, h1, h2, h3, h4, h5, h6⟩ :=
      headOut_says n origin n.cadence.localCount n.cadence.roundLength rebuilt
    exact ⟨_, sendOwn_made origin rebuilt ho hq, hgood, h1, h2, h3, h4, h5, h6⟩
  · intro n
    refine ⟨emit_idle, emit_fresh, ?_⟩
    intro f rest hf hn hq walked old m
    rw [emit_working hf, hn, hq]
    have hold : n.orphaned (headSequence f.head) = old := funext fun x => orphaned_eq n _ x
    have h := reEmit_eq (n.updateCadence fun c => { c with returnQueue := rest }) f
    exact h.trans (by rw [show (n.updateCadence fun c => { c with returnQueue := rest }).orphaned (headSequence f.head)
      = old from hold]; rfl)
  · intro s side head body n evidence counted hr hl hg
    have hexec : exec (.frameReceived side head body) s = .next
        (if (n.side side).badRun + 1 = 4 ∧ (n.side side).link ≠ .down then
          { node := n.takeEvidence side false, agenda := [.badRun side, .takeFrame side head body],
            pending := s.pending }
        else
          { node := if (n.takeEvidence side false).link.fold.input = some side then
                (n.takeEvidence side false).badHeadFrame else n.takeEvidence side false
            agenda := [], pending := s.pending }) := frameReceived_bad body hr hl hg
    obtain ⟨taken, htaken⟩ : ∃ taken : Node, taken = { n with link := evidence } := ⟨_, rfl⟩
    have hevidence : n.takeEvidence side false = taken := htaken.symm ▸ rfl
    have hfold : taken.link.fold = n.link.fold := by
      rw [htaken]
      cases side <;> rfl
    rw [hevidence, hfold] at hexec
    refine ⟨fun hfour hd => ?_, fun hno => ?_⟩
    · rw [if_pos ⟨hfour, hd⟩, htaken] at hexec
      exact hexec
    · have hnot : ¬((n.side side).badRun + 1 = 4 ∧ (n.side side).link ≠ .down) := by tauto
      rw [if_neg hnot] at hexec
      refine ⟨fun hin => ?_, fun o hin hn ho => ?_, fun hin hn => ?_⟩
      · rw [if_neg hin, htaken] at hexec
        exact hexec
      · rw [if_pos hin, badHeadFrame_rebuilt (n := taken) (o := o) (by rw [htaken]; exact hn) (by rw [htaken]; exact ho),
          htaken] at hexec
        exact hexec
      · rw [if_pos hin, badHeadFrame_discarded (n := taken) (by rw [htaken]; exact hn), htaken] at hexec
        exact hexec

end Sys2Proof.Machine
end
section
/-! PROOF. Segments, and the stages of the primary pass (Sections 1.2, 1.4). -/

namespace Sys2Proof.Machine

open Sys2Proof Sys2Proof.Safety

/-! ### The bytes of a header (Table 12-2) -/

theorem byte_setByte_same (u : FrameUnit) (i : Fin 24) (b : Byte) : (u.setByte i b).byte i.val = b :=
  (Table.getD_eq_get _ i _).trans (Table.get_set_same ..)

theorem byte_setByte_other (u : FrameUnit) {i : Fin 24} (b : Byte) {j : Nat} (h : i.val ≠ j) :
    (u.setByte i b).byte j = u.byte j := by
  unfold FrameUnit.setByte FrameUnit.byte Table.getD Table.set
  simp [List.getD_eq_getElem?_getD, h]

/-- The header before its check is written. -/
def bareHeader (source index : Byte) (full hold trimmed : Bool) (carried count messages : Nat) : FrameUnit :=
  unitOf [source, index, if full then 1#8 else 2#8, byteOf carried, byteOf count, topFlags hold trimmed, byteOf messages]

/-- The check that a header carries. -/
def headerCheck (source index : Byte) (full hold trimmed : Bool) (carried count messages : Nat)
    (layout audio units : List FrameUnit) : Word16 :=
  Segment.check (bareHeader source index full hold trimmed carried count messages) layout audio units

theorem segmentHeader_eq (source index : Byte) (full hold trimmed : Bool) (carried count messages : Nat)
    (layout audio units : List FrameUnit) :
    let check := headerCheck source index full hold trimmed carried count messages layout audio units
    segmentHeader source index full hold trimmed carried count messages layout audio units
      = ((bareHeader source index full hold trimmed carried count messages).setByte 22
          (check.extractLsb' 8 8)).setByte 23 (check.extractLsb' 0 8) := rfl

section
variable (source index : Byte) (full hold trimmed : Bool) (carried count messages : Nat)
  (layout audio units : List FrameUnit)

/-- The bytes of a header ahead of its check. -/
theorem segmentHeader_byte {i : Nat} (h : i < 22) :
    (segmentHeader source index full hold trimmed carried count messages layout audio units).byte i
      = [source, index, if full then 1#8 else 2#8, byteOf carried, byteOf count, topFlags hold trimmed,
          byteOf messages].getD i 0#8 := by
  rw [segmentHeader_eq, byte_setByte_other _ _ (by simp; omega), byte_setByte_other _ _ (by simp; omega)]
  exact byte_unitOf _ _ (by omega)

/-- The check as the header carries it. -/
theorem segmentHeader_check :
    let h := segmentHeader source index full hold trimmed carried count messages layout audio units
    join16 (h.byte 22) (h.byte 23)
      = headerCheck source index full hold trimmed carried count messages layout audio units := by
  intro h
  have h22 : h.byte 22 = _ := (byte_setByte_other _ _ (by decide)).trans (byte_setByte_same _ 22 _)
  have h23 : h.byte 23 = _ := byte_setByte_same _ 23 _
  rw [h22, h23]
  exact join16_extract _

/-- Writing the check leaves the bytes that it covers. -/
theorem segmentHeader_covered :
    (segmentHeader source index full hold trimmed carried count messages layout audio units).items.take 22
      = (bareHeader source index full hold trimmed carried count messages).items.take 22 := by
  rw [segmentHeader_eq]
  unfold FrameUnit.setByte Table.set
  simp [List.take_set_of_le]

end

/-! ### Layouts (R3) -/

/-- The places of a layout's units hold the list, and then 255. -/
theorem take_flatMap_places (k : Nat) (bs : List Byte) (h : bs.length ≤ 24 * k) :
    ((List.range k).flatMap fun i => (Table.ofList 24 255#8 ((bs.drop (24 * i)).take 24)).items).take bs.length = bs := by
  induction k generalizing bs with
  | zero =>
    obtain rfl := List.length_eq_zero_iff.mp (Nat.le_zero.mp h)
    rfl
  | succ k ih =>
    have hrest : (List.range (k + 1)).flatMap (fun i => (Table.ofList 24 255#8 ((bs.drop (24 * i)).take 24)).items)
        = (Table.ofList 24 255#8 (bs.take 24)).items
          ++ (List.range k).flatMap (fun i => (Table.ofList 24 255#8 (((bs.drop 24).drop (24 * i)).take 24)).items) := by
      rw [List.range_succ_eq_map, List.flatMap_cons, List.flatMap_map]
      simp only [List.drop_drop, Nat.mul_zero, List.drop_zero, Nat.mul_succ, Nat.succ_eq_add_one, Nat.add_comm 24]
    rw [hrest, List.take_append, (Table.ofList 24 255#8 (bs.take 24)).size]
    have hrest' := ih (bs.drop 24) (by rw [List.length_drop]; omega)
    rw [List.length_drop] at hrest'
    rw [hrest']
    have hfirst : (Table.ofList 24 255#8 (bs.take 24)).items.take bs.length = bs.take 24 := by
      show ((bs.take 24).take 24 ++ List.replicate (24 - (bs.take 24).length) 255#8).take bs.length = _
      rw [List.take_take, Nat.min_self]
      by_cases hlt : bs.length < 24
      · rw [List.take_of_length_le (l := bs) (i := 24) (by omega), List.take_append_of_le_length le_rfl, List.take_length]
      · rw [List.length_take, Nat.min_eq_left (by omega), Nat.sub_self, List.replicate_zero, List.append_nil,
          List.take_of_length_le (by rw [List.length_take]; omega)]
    rw [hfirst, List.take_append_drop]

theorem length_layoutUnits (list : List (Fin 64)) : (layoutUnits list).length = layoutUnitCount list.length := by
  simp [layoutUnits]

/-- A layout's bytes name its list. -/
theorem take_layoutUnits (list : List (Fin 64)) :
    ((layoutUnits list).flatMap fun u => u.items).take list.length = list.map fun c => byteOf c.val := by
  have h := take_flatMap_places (layoutUnitCount list.length) (list.map fun c => byteOf c.val)
    (by rw [List.length_map]; unfold layoutUnitCount; omega)
  rw [List.length_map] at h
  rw [← h]
  unfold layoutUnits
  rw [List.flatMap_map]
  simp only [List.map_drop, List.map_take]

/-- The numbers of a header read back. -/
theorem toNat_byteOf {k : Nat} (h : k < 256) : (byteOf k).toNat = k := by
  unfold byteOf
  rw [BitVec.toNat_ofNat]
  omega

theorem toNat_byteOf_channel (c : Fin 64) : (byteOf c.val).toNat = c.val := toNat_byteOf (by omega)

/-- Bytes that name channels read back as them. -/
theorem filterMap_channels (list : List (Fin 64)) :
    (list.map fun c => byteOf c.val).filterMap
      (fun b => if h : b.toNat < 64 then some (⟨b.toNat, h⟩ : Fin 64) else none) = list := by
  rw [List.filterMap_map]
  refine (List.filterMap_congr fun c _ => ?_).trans (List.filterMap_some)
  have hc := toNat_byteOf_channel c
  rw [Function.comp_apply, dif_pos (by rw [hc]; exact c.isLt)]
  exact congrArg some (Fin.ext hc)

theorem nodup_channelBytes {list : List (Fin 64)} (h : list.Nodup) : (list.map fun c => byteOf c.val).Nodup :=
  h.map fun a b hab => Fin.ext (by rw [← toNat_byteOf_channel a, ← toNat_byteOf_channel b]; exact congrArg _ hab)

/-! ### A segment read back (R3, R4, R14) -/

/-- Marks are not covered by the check. -/
theorem setByte_mark (u : FrameUnit) (taken refused : Bool) (b : Byte) :
    (u.mark taken refused).setByte 5 b = u.setByte 5 b := set_set u 5 _ b

theorem flatMap_marked (messages : List FrameUnit) (marks : List (Bool × Bool)) (h : marks.length = messages.length) :
    ((messages.zip marks).map fun p => p.1.mark p.2.1 p.2.2).flatMap (fun u => (u.setByte 5 0#8).items)
      = messages.flatMap fun u => (u.setByte 5 0#8).items := by
  rw [List.flatMap_map]
  simp only [setByte_mark]
  conv_rhs => rw [← List.map_fst_zip (l₁ := messages) (l₂ := marks) (by omega), List.flatMap_map]

/-- A list of units cut at the counts of its parts. -/
theorem cut_parts (layout audio messages rest : List FrameUnit) :
    let us := layout ++ audio ++ messages ++ rest
    us.take layout.length = layout ∧ (us.drop layout.length).take audio.length = audio
      ∧ (us.drop (layout.length + audio.length)).take messages.length = messages
      ∧ us.drop (layout.length + audio.length + messages.length) = rest := by
  intro us
  have h1 : us = layout ++ (audio ++ (messages ++ rest)) := by simp [us]
  have h2 : us = (layout ++ audio) ++ (messages ++ rest) := by simp [us]
  have h3 : us = (layout ++ audio ++ messages) ++ rest := rfl
  refine ⟨?_, ?_, ?_, ?_⟩
  · rw [h1, List.take_left]
  · rw [h1, List.drop_left, List.take_left]
  · rw [h2, ← List.length_append, List.drop_left, List.take_left]
  · rw [h3, ← List.length_append, ← List.length_append, List.drop_left]

/-- A header and what follows it are one segment, where the header's counts are those of its parts. -/
theorem nextSegment_parts {header : FrameUnit} {full : Bool} (layout audio messages rest : List FrameUnit)
    {count : Nat} (hkind : header.byte 2 = if full then 1#8 else 2#8) (hcarried : (header.byte 3).toNat = audio.length)
    (hcount : (header.byte 4).toNat = count) (hmessages : (header.byte 6).toNat = messages.length)
    (hlayout : layout.length = if full then layoutUnitCount count else 0) (h64 : count ≤ 64)
    (hle : audio.length ≤ count) (h8 : messages.length ≤ 8) :
    nextSegment (header :: (layout ++ audio ++ messages) ++ rest)
      = some ({ header := header, layout := layout, audio := audio, messages := messages }, rest) := by
  obtain ⟨h1, h2, h3, h4⟩ := cut_parts layout audio messages rest
  have hunits : (if header.byte 2 = 1#8 then layoutUnitCount count else 0) = layout.length := by
    rw [hlayout, hkind]
    cases full <;> rfl
  have hsort : header.byte 2 = 1#8 ∨ header.byte 2 = 2#8 := by
    rw [hkind]
    cases full
    · exact .inr rfl
    · exact .inl rfl
  have hlen : layout.length + audio.length + messages.length ≤ (layout ++ audio ++ messages ++ rest).length := by
    simp only [List.length_append]
    omega
  unfold FrameUnit.byte at hkind hcarried hcount hmessages hunits hsort
  rw [List.cons_append]
  unfold nextSegment
  simp only [hcarried, hcount, hmessages, hunits, h1, h2, h3, h4]
  exact if_pos ⟨hsort, h64, hle, h8, hlen⟩

/-- A segment as it is appended, its messages marked on the way round, is good and reads back. -/
theorem segment_reads_back (own : Station) (index : Byte) (full hold trimmed : Bool) (list : List (Fin 64))
    (audio messages rest : List FrameUnit) (marks : List (Bool × Bool)) (h64 : list.length ≤ 64) (hnodup : list.Nodup)
    (hle : audio.length ≤ list.length) (h8 : messages.length ≤ 8) (hmarks : marks.length = messages.length) :
    let layout := if full then layoutUnits list else []
    let header := segmentHeader own.byte index full hold trimmed audio.length list.length messages.length layout audio
      messages
    let marked := (messages.zip marks).map fun p => p.1.mark p.2.1 p.2.2
    let seg : Segment := { header := header, layout := layout, audio := audio, messages := marked }
    nextSegment (header :: (layout ++ audio ++ marked) ++ rest) = some (seg, rest)
      ∧ seg.good = true ∧ seg.source = own.byte ∧ seg.captureIndex = index ∧ seg.hold = hold
      ∧ seg.isFull = full ∧ (full = true → seg.layoutChannels = list) := by
  intro layout header marked seg
  have hbyte : ∀ i, i < 22 → header.byte i
      = [own.byte, index, if full then 1#8 else 2#8, byteOf audio.length, byteOf list.length, topFlags hold trimmed,
          byteOf messages.length].getD i 0#8 := fun i hi => segmentHeader_byte _ _ _ _ _ _ _ _ _ _ _ hi
  have hkind : header.byte 2 = if full then 1#8 else 2#8 := hbyte 2 (by decide)
  have hcount : (header.byte 4).toNat = list.length :=
    (congrArg BitVec.toNat (hbyte 4 (by decide))).trans (toNat_byteOf (by omega))
  have hmarked : marked.length = messages.length := by simp [marked, hmarks]
  have hcovered : Segment.check header layout audio marked
      = join16 (header.byte 22) (header.byte 23) := by
    rw [segmentHeader_check]
    unfold headerCheck Segment.check
    rw [flatMap_marked messages marks hmarks, segmentHeader_covered]
  have hfull : seg.isFull = full := by
    show (header.byte 2 == 1#8) = full
    rw [hkind]
    cases full <;> rfl
  have hbytes : full = true → seg.layoutBytes = list.map fun c => byteOf c.val := by
    rintro rfl
    have hc : seg.layoutCount = list.length := hcount
    unfold Segment.layoutBytes
    rw [hc]
    exact take_layoutUnits list
  refine ⟨?_, ?_, hbyte 0 (by decide), hbyte 1 (by decide), ?_, hfull, fun hf => ?_⟩
  · refine nextSegment_parts layout audio marked rest hkind ?_ hcount ?_ ?_ h64 hle (by omega)
    · exact (congrArg BitVec.toNat (hbyte 3 (by decide))).trans (toNat_byteOf (by omega))
    · rw [hmarked]
      exact (congrArg BitVec.toNat (hbyte 6 (by decide))).trans (toNat_byteOf (by omega))
    · simp only [layout]
      cases full
      · rfl
      · exact length_layoutUnits list
  · have hsource : seg.source = own.byte := hbyte 0 (by decide)
    have hcheck : (Segment.check seg.header seg.layout seg.audio seg.messages
        == join16 (seg.header.getD 22 0#8) (seg.header.getD 23 0#8)) = true := beq_iff_eq.mpr hcovered
    have hlist : (!seg.isFull || (seg.layoutBytes.all (fun b => decide (b.toNat < 64)) && decide seg.layoutBytes.Nodup))
        = true := by
      rw [hfull]
      cases hf : full
      · rfl
      · rw [hbytes hf, decide_eq_true (nodup_channelBytes hnodup)]
        simp [toNat_byteOf_channel]
    unfold Segment.good
    rw [hcheck, hsource, Station.ofByte_byte, hlist]
    rfl
  · show (header.byte 5).getLsbD 7 = hold
    rw [hbyte 5 (by decide)]
    exact (topFlags_facts hold trimmed).1
  · unfold Segment.layoutChannels
    rw [hbytes hf]
    exact filterMap_channels list

/-! ### Extraction (R7, R12, R14) -/

/-- The channels of a good segment reach the tap table alone. -/
theorem deliver_made (n : Node) (source : Station) (s : Segment) :
    n.deliver source s = { n with
      taps := ((n.segmentChannels source s).zip s.audio).foldl (fun t c => t.arrive n.loader.values.window
        n.cadence.localCount ⟨source, c.1⟩ s.captureIndex (audioOfUnit c.2)) n.taps } := by
  unfold Node.deliver
  generalize (n.segmentChannels source s).zip s.audio = cs
  induction cs generalizing n with
  | nil => rfl
  | cons c cs ih =>
    rw [List.foldl_cons, ih]
    rfl

/-- What a good segment from another station leaves before its messages are offered. -/
def Node.handed (n : Node) (p : Station) (s : Segment) : Node :=
  { n with
    messages := { n.messages with peers := n.messages.peers.set p ⟨s.hold, 0⟩ }
    engine := if s.isFull then { n.engine with known := n.engine.known.set p (some s.layoutChannels) } else n.engine
    taps := ((n.segmentChannels p s).zip s.audio).foldl (fun t c => t.arrive n.loader.values.window
      n.cadence.localCount ⟨p, c.1⟩ s.captureIndex (audioOfUnit c.2)) n.taps }

theorem extractGood_eq {n : Node} {p : Station} {s : Segment} (hp : p ≠ n.station) :
    n.extractGood p s = ({ s with messages := (offerAll s.messages (n.handed p s)).1 },
      (offerAll s.messages (n.handed p s)).2) := by
  have hhanded : ((n.recordHold p s.hold).learnLayout p s).deliver p s = n.handed p s := by
    have hchannels : ((n.recordHold p s.hold).learnLayout p s).segmentChannels p s = n.segmentChannels p s := by
      unfold Node.segmentChannels Node.learnLayout Node.recordHold
      rw [if_neg hp]
      split
      · rfl
      · rfl
    rw [deliver_made, hchannels]
    unfold Node.learnLayout Node.recordHold Node.handed
    rw [if_neg hp]
    split
    · rfl
    · rfl
  unfold Node.extractGood
  rw [hhanded]

theorem extract_own {n : Node} {s : Segment} (h : s.source = n.station.byte) : n.extract s = (s, n) := if_pos h

theorem extract_bad {n : Node} {s : Segment} (h : s.source ≠ n.station.byte) (hg : s.good = false) :
    n.extract s = (s, { n with engine := { n.engine with segmentError := n.engine.segmentError.inc } }) := by
  unfold Node.extract
  rw [if_neg h, hg]
  rfl

theorem extract_good {n : Node} {p : Station} {s : Segment} (h : s.source = p.byte) (hp : p ≠ n.station)
    (hg : s.good = true) : n.extract s = n.extractGood p s := by
  have hne : s.source ≠ n.station.byte := by
    rw [h]
    intro hb
    have hof := congrArg Station.ofByte hb
    rw [Station.ofByte_byte, Station.ofByte_byte] at hof
    exact hp (Option.some.inj hof)
  unfold Node.extract
  rw [if_neg hne, hg, h, Station.ofByte_byte]

/-! ### The own segment (R6, R16, R17) -/

/-- No ready messages are given beyond the room that is left. -/
theorem length_giveReady_le (n : Node) (most : Nat) : (n.giveReady most).1.length ≤ most :=
  (List.length_filterMap_le _ _).trans (List.length_take_le _ _)

/-- The messages given with a segment: the ready ones, where all channels are carried (R16). -/
def Node.givenWith (n : Node) (room : Nat) (p : AppendPlan) : List FrameUnit × Node :=
  if p.carried = n.loader.values.sendList.length then n.giveReady (room - p.headerUnits - p.carried) else ([], n)

theorem length_givenWith_le (n : Node) (room : Nat) (p : AppendPlan) :
    (n.givenWith room p).1.length ≤ room - p.headerUnits - p.carried := by
  unfold Node.givenWith
  split
  · exact length_giveReady_le _ _
  · exact Nat.zero_le _

/-- The own segment by its plan, and what it leaves. -/
theorem appendSegment_made (n : Node) (room : Nat) (p : AppendPlan) :
    let list := n.loader.values.sendList
    let given := n.givenWith room p
    let layout := if p.full then layoutUnits list else []
    n.appendSegment room p =
      (segmentHeader n.station.byte p.index p.full n.messages.hold p.trimmed p.carried list.length given.1.length layout
          (n.audioUnits p.carried) given.1 :: (layout ++ n.audioUnits p.carried ++ given.1),
        { n with
          messages := given.2.messages
          engine := { n.engine with
            layoutDue := p.layoutDue, unsent := none
            lastSent := match n.engine.unsent with | some c => some c.1 | none => n.engine.lastSent
            trimmed := if p.trimmed then n.engine.trimmed.inc else n.engine.trimmed } }) := by
  intro list given layout
  unfold given Node.givenWith Node.appendSegment
  dsimp only
  split <;> rfl

/-- What an append carries besides its header fits into the room (R16). -/
theorem appendPlan_fits (n : Node) {room : Nat} (h : room ≠ 0) :
    let p := n.appendPlan room
    p.headerUnits = 1 + (if p.full then layoutUnits n.loader.values.sendList else []).length
      ∧ p.headerUnits ≤ room ∧ (n.audioUnits p.carried).length = p.carried ∧ p.carried ≤ room - p.headerUnits := by
  intro p
  have hunits : p.headerUnits = if p.full then 1 + layoutUnitCount n.loader.values.sendList.length else 1 := rfl
  have hcarried : p.carried = if n.engine.unsent.isSome then
      min n.loader.values.sendList.length (room - p.headerUnits) else 0 := rfl
  have hfull : p.full = true → 1 + layoutUnitCount n.loader.values.sendList.length ≤ room := by
    intro hf
    exact of_decide_eq_true (Bool.and_eq_true_iff.mp (show (n.fullDue && decide _) = true from hf)).2
  refine ⟨?_, ?_, ?_, ?_⟩
  · rw [hunits]
    cases p.full
    · rfl
    · exact congrArg (1 + ·) (length_layoutUnits _).symm
  · rw [hunits]
    split
    · exact hfull (by assumption)
    · omega
  · rw [hcarried]
    unfold Node.audioUnits
    cases n.engine.unsent with
    | none => rfl
    | some c => simp
  · rw [hcarried]
    split
    · exact min_le_right _ _
    · exact Nat.zero_le _

/-- The own segment fits into the room that is left. -/
theorem length_append_le (n : Node) (units : Nat) : (n.append units).1.length ≤ n.capacity - units := by
  unfold Node.append
  dsimp only
  split
  · exact Nat.zero_le _
  · rename_i hroom
    obtain ⟨hheader, hle, haudio, hcarried⟩ := appendPlan_fits n hroom
    have hgiven := length_givenWith_le n (n.capacity - units) (n.appendPlan (n.capacity - units))
    rw [appendSegment_made]
    simp only [List.length_cons, List.length_append]
    omega

/-! ### The body of a frame that is passed (R2, R15) -/

/-- The units of a list of segments. -/
def unitsOf (ss : List Segment) : Nat := (ss.flatMap Segment.units).length

theorem unitsOf_cons (s : Segment) (ss : List Segment) : unitsOf (s :: ss) = s.units.length + unitsOf ss := by
  unfold unitsOf
  rw [List.flatMap_cons, List.length_append]

theorem unitsOf_filter_le (ss : List Segment) (p : Segment → Bool) : unitsOf (ss.filter p) ≤ unitsOf ss := by
  induction ss with
  | nil => exact le_rfl
  | cons s ss ih =>
    rw [List.filter_cons, unitsOf_cons]
    split
    · rw [unitsOf_cons]
      omega
    · omega

/-- A segment takes the units that the walk consumes. -/
theorem nextSegment_units {us rest : List FrameUnit} {s : Segment} (h : nextSegment us = some (s, rest)) :
    s.units.length + rest.length = us.length := by
  cases us with
  | nil => cases h
  | cons u us =>
    unfold nextSegment at h
    dsimp only at h
    obtain ⟨⟨-, -, -, -, hlen⟩, hsegment⟩ := Option.ite_none_right_eq_some.mp h
    cases hsegment
    simp only [Segment.units, List.length_cons, List.length_append, List.length_take, List.length_drop]
    omega

theorem unitsOf_walkUnits_le (fuel : Nat) (us : List FrameUnit) : unitsOf (walkUnits fuel us).1 ≤ us.length := by
  induction fuel generalizing us with
  | zero => exact Nat.zero_le _
  | succ fuel ih =>
    unfold walkUnits
    cases h : nextSegment us with
    | none => exact Nat.zero_le _
    | some r =>
      obtain ⟨s, rest⟩ := r
      have hunits := nextSegment_units h
      have hrest := ih rest
      dsimp only
      rw [unitsOf_cons]
      omega

/-- The segments of a body fit into the capacity. -/
theorem unitsOf_walkBody_le (capacity : Nat) (body : List FrameUnit) : unitsOf (walkBody capacity body).1 ≤ capacity :=
  (unitsOf_walkUnits_le _ _).trans (List.length_take_le _ _)

theorem length_offerAll (us : List FrameUnit) (n : Node) : (offerAll us n).1.length = us.length := by
  induction us generalizing n with
  | nil => rfl
  | cons u us ih => exact congrArg (· + 1) (ih _)

/-- Extraction changes no segment's length. -/
theorem length_extract (n : Node) (s : Segment) : (n.extract s).1.units.length = s.units.length := by
  unfold Node.extract
  split
  · rfl
  · split
    · unfold Node.extractGood Segment.units
      simp [length_offerAll]
    · rfl

theorem unitsOf_extractAll (ss : List Segment) (n : Node) : unitsOf (extractAll ss n).1 = unitsOf ss := by
  induction ss generalizing n with
  | nil => rfl
  | cons s ss ih =>
    unfold extractAll
    dsimp only
    rw [unitsOf_cons, unitsOf_cons, length_extract, ih]

/-- Settles O25: the segment's round trip, then extraction, the append and the passed frame by their lemmas. -/
theorem segmentReadsBackAsAppended : Obligations.SegmentReadsBackAsAppended := by
  unfold Obligations.SegmentReadsBackAsAppended
  refine ⟨?_, fun n s => ⟨extract_own, extract_bad, ?_⟩, ?_, ?_⟩
  · intro own index full hold trimmed list audio messages rest marks h64 hnodup hle h8 hmarks
    exact segment_reads_back own index full hold trimmed list audio messages rest marks h64 hnodup hle h8 hmarks
  · intro p hs hp hg channels handed
    have hhanded : n.handed p s = handed := rfl
    rw [extract_good hs hp hg, extractGood_eq hp, hhanded]
  · intro n units room list index due full header carried trimmed given layout audio
    refine ⟨fun hroom => ?_, fun hroom => ⟨length_append_le n units, ?_⟩⟩
    · exact if_pos hroom
    · have happend : n.append units = n.appendSegment room (n.appendPlan room) := if_neg hroom
      rw [happend]
      exact appendSegment_made n room (n.appendPlan room)
  · intro n f walked cut extracted own others stripped appended
    have hcut : n.cutSpan walked.2 = cut := rfl
    have hloader : extracted.2.loader = n.loader := by
      show (extractAll walked.1 cut).2.loader = n.loader
      rw [← hcut]
      simp
    have hstrip : extracted.2.strip extracted.1 = (extracted.1.filter fun x => !own x, stripped) := by
      unfold Node.strip Node.station
      rw [hloader]
      rfl
    have hstripped : stripped.loader = n.loader := by
      have h := (Node.strip_leaves extracted.2 extracted.1).1
      rw [hstrip] at h
      exact h.trans hloader
    have hcapacity : stripped.capacity = n.capacity := by
      unfold Node.capacity
      rw [hstripped]
    have hothers : others.length ≤ n.capacity :=
      (unitsOf_filter_le extracted.1 fun x => !own x).trans
        ((unitsOf_extractAll walked.1 cut).le.trans (unitsOf_walkBody_le n.capacity f.body))
    refine ⟨?_, ?_⟩
    · have hsegments : n.passFrame f = cut.passSegments f.head walked.1 := congrArg (Node.passSegments · f.head walked.1) hcut
      rw [hsegments]
      unfold Node.passSegments
      dsimp only
      rw [show (extractAll walked.1 cut).2.strip (extractAll walked.1 cut).1 = _ from hstrip]
    · have happended : appended.1.length ≤ n.capacity - others.length := hcapacity ▸ length_append_le stripped others.length
      rw [List.length_append]
      omega

end Sys2Proof.Machine
end
section
/-! PROOF. The opening of a boundary, its work in order, and the audio and lanes (Sections 1.3, 2.2, 6.4, 7). -/

namespace Sys2Proof.Machine

open Sys2Proof Sys2Proof.Safety

/-! ### The local count stays through a boundary's work (R26) -/

@[simp] theorem Node.linkIsUp_localCount (n : Node) : n.linkIsUp.cadence.localCount = n.cadence.localCount := by
  unfold Node.linkIsUp
  split
  · dsimp only
    split <;> rfl
  · rfl

@[simp] theorem Node.changeFold_localCount (n : Node) (new : FoldState) (side : Side) (early : Bool) :
    (n.changeFold new side early).cadence.localCount = n.cadence.localCount := by
  unfold Node.changeFold
  dsimp only
  split <;> rfl

@[simp] theorem Node.goDown_localCount (n : Node) (side : Side) (cause : LinkCause) :
    (n.goDown side cause).cadence.localCount = n.cadence.localCount := by
  have hloss : ∀ m : Node, (m.foldOnLoss side).cadence.localCount = m.cadence.localCount := by
    intro m
    unfold Node.foldOnLoss
    split <;> simp
  unfold Node.goDown
  split
  · rfl
  · dsimp only
    split
    · exact hloss _
    · rfl

@[simp] theorem Node.becomeUp_localCount (n : Node) (side : Side) :
    (n.becomeUp side).cadence.localCount = n.cadence.localCount := by
  have hunfold : ∀ m : Node, (m.tryUnfold side).cadence.localCount = m.cadence.localCount := by
    intro m
    unfold Node.tryUnfold
    split
    · split <;> simp
    · split <;> simp
    · rfl
  unfold Node.becomeUp Node.foldOnUp
  split
  · rw [Node.linkIsUp_localCount, Node.changeFold_localCount]
    rfl
  · exact hunfold _

@[simp] theorem Node.emit_localCount (n : Node) : n.emit.cadence.localCount = n.cadence.localCount := by
  rcases n.emit_cadence with h | h <;> rw [h]

@[simp] theorem Node.countMark_localCount (n : Node) :
    n.countMark.cadence.localCount = n.cadence.localCount := by
  unfold Node.countMark
  simp

/-! ### The pins stay through a boundary's work (R155) -/

@[simp] theorem Node.eventLeaves_pins (n : Node) (k : Fin 4) : (n.eventLeaves k).talk.pins = n.talk.pins := rfl

@[simp] theorem Node.handOwnEvent_pins (n : Node) (k : Fin 4) : (n.handOwnEvent k).talk.pins = n.talk.pins := by
  unfold Node.handOwnEvent Node.selfAddress
  split
  · split
    · cases n.messages.enqueue _ <;> rfl
    · rfl
  · rfl

@[simp] theorem Node.placeTalk_pins (n : Node) : n.placeTalk.talk.pins = n.talk.pins := by
  have hone : ∀ m : Node, m.placeOneTalk.talk.pins = m.talk.pins := by
    intro m
    unfold Node.placeOneTalk
    split
    · split <;> rfl
    · rfl
  exact (hone _).trans (hone n)

@[simp] theorem Node.makeEvent_pins (n : Node) (k : Fin 4) (ev : TalkEvent) :
    (n.makeEvent k ev).talk.pins = n.talk.pins := by
  have hset : (n.setEvent k ev).talk.pins = n.talk.pins := by
    unfold Node.setEvent
    dsimp only
    split <;> rfl
  unfold Node.makeEvent
  dsimp only
  split
  · rfl
  · split
    · exact (Node.handOwnEvent_pins _ k).trans hset
    · exact (Node.placeTalk_pins _).trans hset

@[simp] theorem Node.retryOwnEvents_pins (n : Node) : n.retryOwnEvents.talk.pins = n.talk.pins :=
  foldl_leaves (fun m => m.talk.pins) Node.handOwnEvent_pins _ _

@[simp] theorem Node.reopen_pins (n : Node) (k : Fin 4) : (n.reopen k).talk.pins = n.talk.pins := by
  unfold Node.reopen
  split <;> simp

@[simp] theorem Node.talkSettled_pins (n : Node) (kind tag : Byte) (d : Delivery) :
    (n.talkSettled kind tag d).talk.pins = n.talk.pins := by
  unfold Node.talkSettled
  dsimp only
  split <;> simp

@[simp] theorem Node.settleSlot_pins (n : Node) (i : Fin 8) (d : Delivery) :
    (n.settleSlot i d).talk.pins = n.talk.pins := by
  unfold Node.settleSlot
  dsimp only
  split
  · rfl
  · split
    · rfl
    · split
      · simp
      · split <;> rfl

@[simp] theorem Node.unitReturns_pins (n : Node) (u : FrameUnit) : (n.unitReturns u).talk.pins = n.talk.pins := by
  unfold Node.unitReturns
  split <;> simp

@[simp] theorem Node.loseSlot_pins (n : Node) (i : Fin 8) : (n.loseSlot i).talk.pins = n.talk.pins :=
  Node.settleSlot_pins _ i .lost

@[simp] theorem Node.talkResult_pins (n : Node) (u : FrameUnit) : (n.talkResult u).talk.pins = n.talk.pins := by
  unfold Node.talkResult
  dsimp only
  split <;> simp

@[simp] theorem Node.giveNotices_pins (n : Node) (evicted : Bool) (losses : List (Station × Fin 24)) :
    (n.giveNotices evicted losses).talk.pins = n.talk.pins := by
  unfold Node.giveNotices
  refine foldl_leaves (fun m => m.talk.pins) (fun m d => ?_) _ _
  dsimp only
  split
  · rfl
  · unfold Node.giveNotice
    split <;> simp

@[simp] theorem Node.complete_pins (n : Node) (e : QueueEntry) (r : Option Reply) :
    (n.complete e r).talk.pins = n.talk.pins := by
  have hanswer : ∀ x, (n.answer e x).talk.pins = n.talk.pins := by
    intro x
    unfold Node.answer
    dsimp only
    split
    · split <;> rfl
    · rfl
    · rfl
    · simp
  unfold Node.complete
  cases r with
  | none => rfl
  | some x => exact hanswer x

@[simp] theorem Node.expireTalks_pins (n : Node) : n.expireTalks.talk.pins = n.talk.pins := by
  unfold Node.expireTalks
  simp

@[simp] theorem Node.offerUnit_pins (n : Node) (u : FrameUnit) : (n.offerUnit u).2.talk.pins = n.talk.pins := by
  have hoffer : (n.offer u).2.talk.pins = n.talk.pins := by
    unfold Node.offer Node.routeAnswer
    split
    · split
      · dsimp only
        split
        · rfl
        · split <;> simp
      · rfl
    · split
      · rfl
      · split <;> rfl
  unfold Node.offerUnit
  split
  · exact hoffer
  · rfl

@[simp] theorem offerAll_pins (us : List FrameUnit) (n : Node) : (offerAll us n).2.talk.pins = n.talk.pins := by
  induction us generalizing n with
  | nil => rfl
  | cons u us ih => exact (ih _).trans (Node.offerUnit_pins n u)

@[simp] theorem Node.extract_pins (n : Node) (s : Segment) : (n.extract s).2.talk.pins = n.talk.pins := by
  have hgood : ∀ p, (n.extractGood p s).2.talk.pins = n.talk.pins := by
    intro p
    unfold Node.extractGood
    simp
  unfold Node.extract
  split
  · rfl
  · split
    · exact hgood _
    · rfl

@[simp] theorem extractAll_pins (ss : List Segment) (n : Node) : (extractAll ss n).2.talk.pins = n.talk.pins := by
  induction ss generalizing n with
  | nil => rfl
  | cons s ss ih => exact (ih _).trans (Node.extract_pins n s)

@[simp] theorem Node.passSegments_pins (n : Node) (h : SixBytes) (ss : List Segment) :
    (n.passSegments h ss).talk.pins = n.talk.pins := by
  have hstrip : ∀ m : Node, (m.strip (extractAll ss n).1).2.talk.pins = m.talk.pins := fun m =>
    foldl_leaves (fun m => m.talk.pins) Node.unitReturns_pins _ _
  unfold Node.passSegments
  dsimp only
  simp [hstrip]

@[simp] theorem Node.emit_pins (n : Node) : n.emit.talk.pins = n.talk.pins := by
  unfold Node.emit Node.sendOwn Node.reEmit
  split
  · rfl
  · split
    · simp
    · split <;> simp
    · rfl

@[simp] theorem Node.pressKey_pins (n : Node) (k : Fin 4) : (n.pressKey k).talk.pins = n.talk.pins := by
  unfold Node.pressKey
  split <;> simp

@[simp] theorem Node.releaseKey_pins (n : Node) (k : Fin 4) : (n.releaseKey k).talk.pins = n.talk.pins := by
  unfold Node.releaseKey
  dsimp only
  split <;> simp

@[simp] theorem Node.keepKey_pins (n : Node) (k : Fin 4) : (n.keepKey k).talk.pins = n.talk.pins := by
  unfold Node.keepKey
  simp

@[simp] theorem Node.countMark_pins (n : Node) : n.countMark.talk.pins = n.talk.pins := by
  unfold Node.countMark
  simp

@[simp] theorem Node.completeWalk_pins (n : Node) : n.completeWalk.talk.pins = n.talk.pins := by
  unfold Node.completeWalk
  split <;> simp

/-! ### The capture and delay stores stay through a boundary's work (R130, R131) -/

/-- What a read of the local delay store leaves in place. -/
theorem DelayStore.read_places (d : DelayStore) (w : Window) (expected : Byte) :
    (d.read w expected).1.places = d.places := by
  unfold DelayStore.read
  split <;> rfl

@[simp] theorem Node.formAudio_stores (n : Node) :
    n.formAudio.router.capture = n.router.capture ∧ n.formAudio.router.delay.places = n.router.delay.places := by
  have hlocal : n.localAudio.1.router.capture = n.router.capture
      ∧ n.localAudio.1.router.delay.places = n.router.delay.places := by
    unfold Node.localAudio
    split
    · exact ⟨rfl, DelayStore.read_places ..⟩
    · exact ⟨rfl, rfl⟩
  exact hlocal

@[simp] theorem Node.walkStep_stores (n : Node) :
    n.walkStep.router.capture = n.router.capture ∧ n.walkStep.router.delay = n.router.delay := by
  have hentry : ∀ (m : Node) (e : EntryNo), (m.walkEntry e).router.capture = m.router.capture
      ∧ (m.walkEntry e).router.delay = m.router.delay := by
    intro m e
    unfold Node.walkEntry
    split
    · split
      · unfold Node.releaseEntry
        split
        · exact ⟨rfl, rfl⟩
        · rename_i x _
          cases x.slot <;> cases x.alternate <;> exact ⟨rfl, rfl⟩
      · exact ⟨rfl, rfl⟩
    · exact ⟨rfl, rfl⟩
  have hcapture := fun l m => foldl_leaves (fun m : Node => m.router.capture) (fun m e => (hentry m e).1) l m
  have hdelay := fun l m => foldl_leaves (fun m : Node => m.router.delay) (fun m e => (hentry m e).2) l m
  unfold Node.walkStep
  split
  · exact ⟨rfl, rfl⟩
  · split
    · exact ⟨hcapture _ n, hdelay _ n⟩
    · exact ⟨rfl, rfl⟩

/-! ### A boundary's work (R26, R113) -/

/-- What a boundary settles at once stands: the count, the captured frame, the pins, and what no boundary touches. -/
structure BoundaryStands (a n : Node) : Prop where
  count : n.cadence.localCount = a.cadence.localCount
  capture : n.router.capture = a.router.capture
  places : n.router.delay.places = a.router.delay.places
  pins : n.talk.pins = a.talk.pins
  loader : n.loader = a.loader
  port : n.port = a.port

theorem BoundaryStands.refl (a : Node) : BoundaryStands a a := ⟨rfl, rfl, rfl, rfl, rfl, rfl⟩

theorem BoundaryStands.trans {a b c : Node} (h : BoundaryStands a b) (g : BoundaryStands b c) : BoundaryStands a c :=
  ⟨g.count.trans h.count, g.capture.trans h.capture, g.places.trans h.places, g.pins.trans h.pins,
    g.loader.trans h.loader, g.port.trans h.port⟩

/-- The task takes a frame off a fibre, which no boundary does. -/
def Task.takesFrame : Task → Bool
  | .takeFrame _ _ _ => true
  | _ => false

theorem doTask_stands (n : Node) {t : Task} (ht : t.takesFrame = false) : BoundaryStands n (n.doTask t) := by
  cases t with
  | takeFrame side head body => exact nomatch (ht : true = false)
  | starvation =>
    have hcount : n.starve.cadence.localCount = n.cadence.localCount := rfl
    constructor <;> simp [Node.doTask, hcount]
  | _ => constructor <;> simp [Node.doTask]

theorem perform_stands (n : Node) {t : Task} (ht : t.takesFrame = false) : BoundaryStands n (n.perform t) := by
  unfold Node.perform
  split
  · exact doTask_stands n ht
  · exact .refl n

/-- Tasks that take no frame leave what a boundary has settled. -/
theorem runOn_stands (ts : List Task) (ht : ∀ t ∈ ts, t.takesFrame = false) (s : State) :
    BoundaryStands s.node (State.runOn ts s).node := by
  induction ts generalizing s with
  | nil => exact .refl _
  | cons t ts ih =>
    unfold State.runOn
    split
    · exact .refl _
    · exact (perform_stands s.node (ht t List.mem_cons_self)).trans
        (ih (fun u hu => ht u (List.mem_cons_of_mem _ hu)) { s with node := s.node.perform t })

/-- A list of tasks without one that takes a frame off a fibre. -/
def takesNone (ts : List Task) : Bool := ts.all fun t => !t.takesFrame

theorem takesNone_append (a b : List Task) : takesNone (a ++ b) = (takesNone a && takesNone b) := List.all_append

/-- No task of a boundary takes a frame off a fibre. -/
theorem boundaryTasks_takesNone (n : Node) : takesNone n.boundaryTasks = true := by
  have hring : takesNone n.ringTasks = true := by
    unfold Node.ringTasks
    simp only [takesNone_append]
    split <;> split <;> rfl
  have haudio : takesNone n.audioTasks = true := by
    unfold Node.audioTasks
    rw [takesNone_append, takesNone, List.all_flatMap]
    simp [takesNone, Task.takesFrame]
  have hclosing : takesNone n.closingTasks = true := by
    unfold Node.closingTasks
    rw [takesNone_append]
    split <;> rfl
  unfold Node.boundaryTasks
  rw [takesNone_append, takesNone_append, takesNone_append, hring, haudio, hclosing]
  rfl

/-- A silence count that this boundary brings to 16 (R50). -/
theorem silenceLimit_iff (x : Nat) : (x + 1 == Config.silenceLimit) = (x == 15) := by
  rw [Bool.eq_iff_iff, beq_iff_eq, beq_iff_eq]
  show x + 1 = 16 ↔ _
  omega

/-- The Cadence Unit's counts at a boundary (R26, R27, R33, R34). -/
theorem openBoundary_cadence (n : Node) (lanes : LaneBlock) (pins : Table 4 Bool) :
    (n.openBoundary lanes pins).cadence = { n.cadence with
      localCount := n.cadence.localCount + 1#8
      markPhase := n.cadence.markPhase + 1
      starvation :=
        if n.cadence.node = .following ∨ (n.cadence.node = .starting ∧ n.link.fold ≠ .isolated) then
          min 48 (n.cadence.starvation + 1)
        else n.cadence.starvation
      backOff := if n.cadence.node = .waiting then n.cadence.backOff.map (· - 1) else n.cadence.backOff } := by
  have hstarving : (if n.starvationRuns = true then min 48 (n.cadence.starvation + 1) else n.cadence.starvation)
      = if n.cadence.node = .following ∨ (n.cadence.node = .starting ∧ n.link.fold ≠ .isolated) then
          min 48 (n.cadence.starvation + 1)
        else n.cadence.starvation :=
    if_congr (by unfold Node.starvationRuns; simp) rfl rfl
  rw [← hstarving]
  rfl

/-- The capture frame takes the unsent place, and an unsent one before it is counted (R8). -/
theorem openBoundary_engine (n : Node) (lanes : LaneBlock) (pins : Table 4 Bool) :
    (n.openBoundary lanes pins).engine = { n.engine with
      unsent := some (n.cadence.localCount + 1#8, captureOf n.loader.values.rate lanes)
      unsentCapture :=
        if n.engine.unsent.isSome = true ∧ (n.cadence.node = .following ∨ n.cadence.node = .claiming
            ∨ n.cadence.node = .origin) then n.engine.unsentCapture.inc
        else n.engine.unsentCapture } := by
  have hcounts : (if (n.engine.unsent.isSome
        && (n.cadence.node == .following || n.cadence.node == .claiming || n.cadence.node == .origin)) = true then
          n.engine.unsentCapture.inc else n.engine.unsentCapture)
      = if n.engine.unsent.isSome = true ∧ (n.cadence.node = .following ∨ n.cadence.node = .claiming
          ∨ n.cadence.node = .origin) then n.engine.unsentCapture.inc else n.engine.unsentCapture :=
    if_congr (by simp [or_assoc]) rfl rfl
  rw [← hcounts]
  rfl

/-- Flight counts fall and the peers' counts rise (R72, R76). -/
theorem openBoundary_messages (n : Node) (lanes : LaneBlock) (pins : Table 4 Bool) :
    (n.openBoundary lanes pins).messages = { n.messages with
      slots := n.messages.slots.map fun x => match x with | .inFlight u c => .inFlight u (c - 1) | y => y
      peers := Table.ofFn fun p =>
        if p = n.station then n.messages.peers.get p
        else { n.messages.peers.get p with count := min 128 ((n.messages.peers.get p).count + 1) } } := by
  have hslot : (fun x => match x with | .inFlight u c => .inFlight u (c - 1) | y => y) = SendSlot.atBoundary := by
    funext x
    cases x <;> rfl
  rw [hslot]
  rfl

/-! ### Lanes (R129) -/

/-- A channel present at the rate comes from its time slot of its lane. -/
theorem get_captureOf {r : Rate} (lanes : LaneBlock) {c : Fin 64} {j t : Fin 8} (ht : t.val < r.laneSlots)
    (hc : c.val = r.laneSlots * j.val + t.val) :
    (captureOf r lanes).get c = ((lanes.get j).get t).map sampleOfLane := by
  have hpos : 0 < r.laneSlots := by omega
  have hdiv : c.val / r.laneSlots = j.val := by
    rw [hc, Nat.mul_add_div hpos, Nat.div_eq_of_lt ht, Nat.add_zero]
  have hmod : c.val % r.laneSlots = t.val := by
    rw [hc, Nat.mul_add_mod, Nat.mod_eq_of_lt ht]
  have hpresent : r.present c = true := by
    cases r
    · rfl
    · have h4 : t.val < 4 := ht
      have hc4 : c.val = 4 * j.val + t.val := hc
      exact decide_eq_true (by omega)
  have hplace : ∀ {α : Type} (x : Table 8 α) (i : Fin 8), x.items[i.val]? = some (x.get i) := by
    intro α x i
    have hlt : i.val < x.items.length := by rw [x.size]; exact i.isLt
    rw [List.getElem?_eq_getElem hlt]
    rfl
  unfold captureOf
  rw [Table.get_ofFn, if_pos hpresent]
  unfold laneSamples
  simp only [hdiv, hmod, hplace]

/-- A sample is the first 24 bit clocks of its time slot, the highest bit first. -/
theorem getLsbD_sampleOfLane (w : LaneWord) {b : Nat} (h : b < 24) :
    (sampleOfLane w).getLsbD (23 - b) = w.getLsbD (31 - b) := by
  unfold sampleOfLane
  rw [BitVec.getLsbD_extractLsb']
  have hlt : 23 - b < 24 := by omega
  simp only [hlt, decide_true, Bool.true_and]
  congr 1
  omega

/-- The bit clocks of an output time slot: the sample's, and then 0. -/
theorem getLsbD_laneOfSample (x : Sample) :
    (∀ b < 24, (laneOfSample x).getLsbD (31 - b) = x.getLsbD (23 - b))
      ∧ ∀ b < 8, (laneOfSample x).getLsbD b = false := by
  unfold laneOfSample
  refine ⟨fun b hb => ?_, fun b hb => ?_⟩
  · rw [BitVec.getLsbD_append, if_neg (by omega)]
    congr 1
    omega
  · rw [BitVec.getLsbD_append, if_pos hb]
    simp

/-- An output lane carries its outputs in their time slots. -/
theorem outputLanes_running {n : Node} (hr : n.running = true) :
    ∃ lanes : LaneBlock, n.outputLanes = some lanes
      ∧ ∀ (o : Fin 64) (j t k : Fin 8), t.val < n.loader.values.rate.laneSlots →
        o.val = n.loader.values.rate.laneSlots * j.val + t.val →
        ((lanes.get j).get t).get k = laneOfSample ((n.router.outputs.get o).get k) := by
  refine ⟨_, if_pos hr, fun o j t k ht ho => ?_⟩
  rw [Table.get_ofFn, Table.get_ofFn, if_pos ht, Table.get_map, ← ho, Table.getD_eq_get]

/-! ### The reads and the audio of a boundary (R113, R131 to R133) -/

/-- A read of a place plays its frame whatever is taken of the frame. -/
theorem presentFrame_map {α β : Type} (f : α → β) (place : Option (Byte × α)) (expected : Byte) (last : Option Byte) :
    presentFrame (place.map fun p => (p.1, f p.2)) expected last = (presentFrame place expected last).map f := by
  cases place with
  | none => rfl
  | some p =>
    unfold presentFrame
    rw [Option.map_some, apply_ite (Option.map f)]
    rfl

/-- One read of the local delay store is the read of every channel (R131). -/
theorem delayRead_aligned (d : DelayStore) (w : Window) (expected : Byte) :
    AlignedRead d w expected (d.read w expected).1 (d.read w expected).2 := by
  refine ⟨DelayStore.read_places d w expected, fun c x hbuffer hconceal hgood hplayed => ?_⟩
  have hplace : x.buffer.get (w.place expected)
      = (d.places.get (w.place expected)).map fun p => (p.1, p.2.get c) := by
    rw [hbuffer, Table.get_map]
  have hpresent : presentFrame (x.buffer.get (w.place expected)) expected x.lastPlayed
      = (presentFrame (d.places.get (w.place expected)) expected d.lastPlayed).map fun f => f.get c := by
    rw [hplace, hplayed]
    exact presentFrame_map (fun f : CaptureFrame => f.get c) _ _ _
  unfold DelayStore.read TapEntry.read
  rw [hpresent, hconceal, hgood, hplayed]
  cases presentFrame (d.places.get (w.place expected)) expected d.lastPlayed with
  | none => exact ⟨Table.get_map .., rfl, rfl, rfl⟩
  | some f => exact ⟨Table.get_map .., rfl, rfl, rfl⟩

/-- The local channels change nothing but the read state of the local delay store. -/
theorem localAudio_made (n : Node) :
    n.localAudio.1 = { n with router := { n.router with delay := n.localAudio.1.router.delay } } := by
  unfold Node.localAudio
  split <;> rfl

/-- The local channels are the capture frame, or one aligned read (R131). -/
theorem localAudio_cases (n : Node) :
    (n.loader.values.localAlignment = false →
      n.localAudio.2 = n.router.capture ∧ n.localAudio.1.router.delay = n.router.delay)
    ∧ (n.loader.values.localAlignment = true →
      AlignedRead n.router.delay n.loader.values.window n.expectedIndex n.localAudio.1.router.delay n.localAudio.2) := by
  unfold Node.localAudio
  refine ⟨fun h => ?_, fun h => ?_⟩
  · rw [if_neg (by rw [h]; decide)]
    exact ⟨rfl, rfl⟩
  · rw [if_pos h]
    exact delayRead_aligned ..

/-- The mixes are computed from the mixer, the reads and the slots' frames alone (R147). -/
theorem computeMixes_congr {a b : Node} (hm : a.mixer = b.mixer) (ht : a.taps = b.taps)
    (hf : a.router.frames = b.router.frames) : a.computeMixes.mixer = b.computeMixes.mixer := by
  have htalk : a.talkAudio = b.talkAudio := by
    funext x
    unfold Node.talkAudio
    rw [ht]
  unfold Node.computeMixes
  rw [hm, hf, htalk]

/-- A running part carries a task out that is no row of its own. -/
theorem perform_of_stands {n : Node} {t : Task} (hr : n.running = true) (hs : n.rowStands t = true) :
    n.perform t = n.doTask t := by
  unfold Node.perform Node.due
  rw [hr, hs]
  rfl

theorem mem_inUse_iff (t : Taps) (e : EntryNo) : e ∈ t.inUse ↔ (t.entries.get e).isSome = true := by
  unfold Taps.inUse
  simp

/-- Every entry in use is read once, in entry number order (R113). -/
theorem readEntries_made (n : Node) :
    let m := n.readEntries
    let read (x : TapEntry) := x.read n.loader.values.window n.expectedIndex
    (∀ e, m.taps.entries.get e = (n.taps.entries.get e).map fun x => (read x).1)
      ∧ m.taps.reads = (List.finRange 256).filterMap (fun e => (n.taps.entries.get e).map fun x => (read x).2)
      ∧ m = { n with taps := { n.taps with entries := m.taps.entries, reads := m.taps.reads } } := by
  intro m read
  have hnodup : n.taps.inUse.Nodup := (List.nodup_finRange 256).filter _
  obtain ⟨hentries, hreads, hmade⟩ :=
    readEntry_foldl n.loader.values.window n.expectedIndex n.taps.inUse hnodup { n.taps with reads := [] }
  refine ⟨fun e => (hentries e).trans ?_, hreads.trans ?_, ?_⟩
  · split
    · rfl
    · rename_i he
      rw [mem_inUse_iff, Bool.not_eq_true, Option.isSome_eq_false_iff, Option.isNone_iff_eq_none] at he
      have hnone : n.taps.entries.get e = none := he
      rw [hnone]
      rfl
  · rw [List.nil_append]
    unfold Taps.inUse
    rw [List.filterMap_filter]
    refine List.filterMap_congr fun e _ => ?_
    cases n.taps.entries.get e <;> rfl
  · exact congrArg (fun t => ({ n with taps := t } : Node)) hmade

/-- Settles O26: each clause by the lemma of its operation. -/
theorem boundaryAdvancesTheCount : Obligations.BoundaryAdvancesTheCount := by
  unfold Obligations.BoundaryAdvancesTheCount
  refine ⟨?_, ?_, ?_, ?_, ?_, ?_⟩
  · intro s lanes pins n count frame side starving opened
    have hopened : n.openBoundary lanes pins = opened := by
      rw [node_ext_iff]
      exact ⟨rfl, rfl, openBoundary_cadence n lanes pins, openBoundary_engine n lanes pins,
        openBoundary_messages n lanes pins, rfl, rfl, rfl, rfl, rfl, rfl⟩
    refine ⟨fun hr => ?_, fun hr => ?_⟩
    · have hexec : exec (.boundary lanes pins) s = .next (State.runOn n.boundaryTasks
          { node := opened, agenda := [], pending := s.pending }) := by
        rw [← hopened]
        exact congrArg Host.Outcome.next (if_pos hr)
      have hstands := runOn_stands n.boundaryTasks
        (fun t ht => by simpa using List.all_eq_true.mp (boundaryTasks_takesNone n) t ht)
        { node := opened, agenda := [], pending := s.pending }
      refine ⟨_, hexec, ?_, rfl, hstands.count, hstands.capture, hstands.places, hstands.pins, hstands.loader,
        hstands.port⟩
      exact State.runOn_pending ..
    · exact congrArg Host.Outcome.next (if_neg (by rw [show s.finish.node.running = false from hr]; decide))
  · intro n silence used
    have hsilence : ∀ x, (if (n.side x).lock && (n.side x).silence + 1 == Config.silenceLimit then [Task.silence x] else [])
        = silence x := by
      intro x
      rw [silenceLimit_iff]
    have hused : n.taps.inUse = used := rfl
    unfold Node.boundaryTasks Node.ringTasks markTasks Node.audioTasks Node.closingTasks
    simp only [hsilence, hused, List.append_assoc, List.cons_append, List.nil_append]
  · intro n hr
    exact ⟨perform_of_stands hr rfl, perform_of_stands hr rfl, fun e => perform_of_stands hr rfl,
      perform_of_stands hr rfl, perform_of_stands hr rfl, perform_of_stands hr rfl⟩
  · exact readEntries_made
  · intro n m entryAudio
    obtain ⟨hcapture, haligned⟩ := localAudio_cases n
    have hlocal := localAudio_made n
    have hmade : m = { n with router := m.router, mixer := m.mixer } := by
      rw [node_ext_iff]
      simp [m]
    have hframes : ∀ i, m.router.frames.get i = n.slotFrame n.localAudio.2 (n.router.bindings.get i) := by
      intro i
      have hformed : m.router.frames
          = n.localAudio.1.router.bindings.map (n.localAudio.1.slotFrame n.localAudio.2) := rfl
      rw [hformed, Table.get_map, hlocal]
      rfl
    have houtputs : m.router.outputs
        = Table.ofFn ((n.localAudio.1.formSlots n.localAudio.2).computeMixes).outputFrame := rfl
    have hrouter : m.router.bindings = n.router.bindings ∧ m.router.outMap = n.router.outMap
        ∧ m.router.capture = n.router.capture := by
      have hbindings : m.router.bindings = n.localAudio.1.router.bindings := rfl
      have hmap : m.router.outMap = n.localAudio.1.router.outMap := rfl
      have hcap : m.router.capture = n.localAudio.1.router.capture := rfl
      rw [hbindings, hmap, hcap, hlocal]
      exact ⟨rfl, rfl, rfl⟩
    refine ⟨n.localAudio.2, hcapture, haligned, fun i => (hframes i).trans ?_, fun o => ?_, ?_, hmade, hrouter⟩
    · unfold Node.slotFrame
      cases n.router.bindings.get i with
      | unbound => rfl
      | localChannel c => rfl
      | tap e =>
        show n.taps.slotAudio e = entryAudio e
        rfl
    · have hmap : (n.localAudio.1.formSlots n.localAudio.2).computeMixes.router.outMap = n.router.outMap := hrouter.2.1
      have hrate : (n.localAudio.1.formSlots n.localAudio.2).computeMixes.loader = n.loader := by simp
      rw [houtputs, Table.get_ofFn]
      unfold Node.outputFrame
      rw [hmap, hrate]
      cases n.router.outMap.get o <;> rfl
    · exact computeMixes_congr (by simp) (by simp) rfl
  · intro rate slots
    have hslots : rate.laneSlots = slots := by cases rate <;> rfl
    refine ⟨fun lanes c => ⟨fun j t k ht hc b hb => ?_, fun hc => ?_⟩, fun n hrate => ⟨fun hr => ?_, fun hr => ?_⟩⟩
    · rw [get_captureOf lanes (hslots ▸ ht) (hslots ▸ hc), Table.get_map, getLsbD_sampleOfLane _ hb]
    · unfold captureOf
      rw [Table.get_ofFn, if_neg]
      cases rate with
      | khz48 =>
        have h64 : 64 ≤ c.val := hc
        omega
      | khz96 =>
        have h32 : 32 ≤ c.val := hc
        exact fun h => absurd (of_decide_eq_true h) (by omega)
    · unfold Node.outputLanes
      rw [hr]
      rfl
    · obtain ⟨lanes, hlanes, hget⟩ := outputLanes_running hr
      rw [hrate, hslots] at hget
      refine ⟨lanes, hlanes, fun o j t k ht ho => ?_⟩
      rw [hget o j t k ht ho]
      exact getLsbD_laneOfSample _

end Sys2Proof.Machine
end
